-- ==== Sys2Proof/Word.lean ====
section
/-!
DEFINITION. The words of the X9 and the plainest operations on them: 64-bit words, bytes, the 5-, 6- and 3-bit
register fields of stem and bolt words (05 R145, R157, R158).
-/
namespace Sys2Proof

/-- A 64-bit value: a scalar register, a bit address, a status and control register. -/
abbrev Word := BitVec 64
/-- One byte of memory, as the host numbers them (R102). -/
abbrev Byte := BitVec 8
/-- A scalar or frame register s0-s31. -/
abbrev Reg := BitVec 5
/-- A vector register v0-v63. -/
abbrev VReg := BitVec 6
/-- A mask m0-m7. -/
abbrev MReg := BitVec 3
/-- A soft predicate q0-q7. -/
abbrev QReg := BitVec 3
/-- A scoreboard counter c0-c7. -/
abbrev CReg := BitVec 3
/-- A tile t0 or t1. -/
abbrev TReg := BitVec 1
/-- A probe token k0-k15. -/
abbrev Tok := BitVec 4

end Sys2Proof
end

