-- ==== Sys2Proof/Syntax.lean ====
section
/-!
DEFINITION. The instructions and the other whole steps of the X9: one constructor for each row of
spec/opcode_table.json. Stem rows carry the fields of 05 R145-R156, bolt rows those of 05 R157-R160, 07 R216,
08 R256 and 09 R282; the rows no word encodes carry what names the step (a hart, a farm, a layer, a host access).
-/
namespace Sys2Proof

/-- Scope codes 0 to 4 (R149). -/
inductive Scope where
  | hart | core | grove | dev | sys
  deriving DecidableEq, Repr

/-- Fence kinds (R151, R179). -/
inductive FenceKind where
  | ss | sv | vs | vv | all
  deriving DecidableEq, Repr

/-- The RND field (R160): FMODE.RM, or an override. -/
inductive Rnd where
  | fmode | rne | rtz | rdn | rup
  deriving DecidableEq, Repr

/-- Condition codes of VCMP, VCMPN and QCMP (R242, R282). -/
inductive Cond where
  | eq | ne | lt | le | gt | ge
  deriving DecidableEq, Repr

/-- An execution-mask operand: a mask register and its sense (R61, R157). -/
structure MaskOp where
  m : MReg
  sns : Bool
  deriving DecidableEq, Repr

/-- The address part of a scalar load or store besides its base (R148). -/
inductive Index where
  | disp (d : BitVec 6)
  | reg (c : Reg)
  deriving DecidableEq, Repr

/-- The two forms of VEXT (R222). -/
inductive ExtSel where
  | elem (sb : Reg)
  | all
  deriving DecidableEq, Repr

/-- The pattern MSET writes (R246). -/
inductive MsetMode where
  | zero | one
  | below (sa : Reg)
  deriving DecidableEq, Repr

/-- The distance of a slide (R250). -/
inductive SlideAmt where
  | frame (sb : Reg)
  | imm (n : BitVec 16)
  deriving DecidableEq, Repr

/-- The two forms of QGRAD (R292). -/
inductive GradSrc where
  | soft (qa : QReg)
  | blend (va vb : VReg)
  deriving DecidableEq, Repr

/-- The three forms of QMOV (R285). -/
inductive QMove where
  | qq (qd qa : QReg)
  | toQ (qd : QReg) (va : VReg) (lin : BitVec 8)
  | fromQ (vd : VReg) (qa : QReg)
  deriving DecidableEq, Repr

/-- The two forms of QSEED (R291). -/
inductive SeedSrc where
  | vec (va : VReg)
  | frame (sa : Reg)
  deriving DecidableEq, Repr

/-- AtomicOps a port accepts as a completer (R341). -/
inductive AtomKind where
  | fetchAdd | swap | cas
  deriving DecidableEq, Repr

/-- Host accesses of coherent host-managed device memory (R340). -/
inductive HdmOp where
  | read | write
  | atomic (k : AtomKind)
  deriving DecidableEq, Repr

/-- The links of R374 that can be declared down. -/
inductive LinkKind where
  | hostPort | thefy | die
  deriving DecidableEq, Repr

/-- The arrays, registers and queues that scan read-out names (R357), and their check bits. -/
inductive ScanSel where
  | devByte | scalar | hartPc | accRow | scratchByte | generator
  | status | element | maskBit | soft | lineage | scale | token | counter | dim | flume
  | returnQueue | boltQueue | recall | lots | claim | accInfo | tileCode | tileScale | tileState
  | lineData | lineValid | lineDirty | lineStamp | generation
  | yardPacket | farm | transfer | recheckQueue | pendingStore | firmware | slotWord | hstat | checkBits
  | hartWord | vcfgTag | boltWord | coreWord | groveWord | lineOfL1 | lineOfMsc | rowBuffer
  | yardWord | packetFrom | farmWord | transferWord | migrationWord | contextWord | swapWord
  | hostQueueWord | windowWord | mappingWord | hostWord | vector | pba | msix | startWord | powerWord | errorCount | logEntry
  deriving DecidableEq, Repr

/-- One constructor per row of the table of operations and events. The rows that a word encodes come first, then the
accesses and inputs from outside, then what the device's own units do. -/
inductive Instr where
  /-- ADD (R167). -/
  | add (d : Reg) (a : Reg) (b : Reg)
  /-- SUB (R167). -/
  | sub (d : Reg) (a : Reg) (b : Reg)
  /-- MUL (R167). -/
  | mul (d : Reg) (a : Reg) (b : Reg)
  /-- MULH (R167). -/
  | mulh (d : Reg) (a : Reg) (b : Reg)
  /-- MULHN (R167). -/
  | mulhn (d : Reg) (a : Reg) (b : Reg)
  /-- DIV (R167). -/
  | div (d : Reg) (a : Reg) (b : Reg)
  /-- DIVN (R167). -/
  | divn (d : Reg) (a : Reg) (b : Reg)
  /-- REM (R167). -/
  | rem (d : Reg) (a : Reg) (b : Reg)
  /-- REMN (R167). -/
  | remn (d : Reg) (a : Reg) (b : Reg)
  /-- AND (R167). -/
  | and (d : Reg) (a : Reg) (b : Reg)
  /-- OR (R167). -/
  | or (d : Reg) (a : Reg) (b : Reg)
  /-- XOR (R167). -/
  | xor (d : Reg) (a : Reg) (b : Reg)
  /-- SHL (R167). -/
  | shl (d : Reg) (a : Reg) (b : Reg)
  /-- SHR (R167). -/
  | shr (d : Reg) (a : Reg) (b : Reg)
  /-- SRA (R167). -/
  | sra (d : Reg) (a : Reg) (b : Reg)
  /-- SLT (R167). -/
  | slt (d : Reg) (a : Reg) (b : Reg)
  /-- SLTN (R167). -/
  | sltn (d : Reg) (a : Reg) (b : Reg)
  /-- MIN (R167). -/
  | min (d : Reg) (a : Reg) (b : Reg)
  /-- MAX (R167). -/
  | max (d : Reg) (a : Reg) (b : Reg)
  /-- MINN (R167). -/
  | minn (d : Reg) (a : Reg) (b : Reg)
  /-- MAXN (R167). -/
  | maxn (d : Reg) (a : Reg) (b : Reg)
  /-- CLZ (R167). -/
  | clz (d : Reg) (a : Reg)
  /-- POPC (R167). -/
  | popc (d : Reg) (a : Reg)
  /-- BEXT (R167). -/
  | bext (d : Reg) (a : Reg) (b : Reg)
  /-- BINS (R167). -/
  | bins (d : Reg) (a : Reg) (b : Reg)
  /-- BIX (R168). -/
  | bix (d : Reg) (a : Reg) (b : Reg) (w : BitVec 6)
  /-- ADDI (R169). -/
  | addi (d : Reg) (a : Reg) (imm : BitVec 16)
  /-- ANDI (R169). -/
  | andi (d : Reg) (a : Reg) (imm : BitVec 16)
  /-- ORI (R169). -/
  | ori (d : Reg) (a : Reg) (imm : BitVec 16)
  /-- XORI (R169). -/
  | xori (d : Reg) (a : Reg) (imm : BitVec 16)
  /-- SHLI (R169). -/
  | shli (d : Reg) (a : Reg) (sh : BitVec 6)
  /-- SHRI (R169). -/
  | shri (d : Reg) (a : Reg) (sh : BitVec 6)
  /-- SRAI (R169). -/
  | srai (d : Reg) (a : Reg) (sh : BitVec 6)
  /-- LI (R170). -/
  | li (d : Reg) (imm : BitVec 21)
  /-- LIH (R170). -/
  | lih (d : Reg) (imm : BitVec 21)
  /-- BEQ (R171). -/
  | beq (a : Reg) (b : Reg) (off : BitVec 16)
  /-- BNE (R171). -/
  | bne (a : Reg) (b : Reg) (off : BitVec 16)
  /-- BLT (R171). -/
  | blt (a : Reg) (b : Reg) (off : BitVec 16)
  /-- BGE (R171). -/
  | bge (a : Reg) (b : Reg) (off : BitVec 16)
  /-- BLTN (R171). -/
  | bltn (a : Reg) (b : Reg) (off : BitVec 16)
  /-- BGEN (R171). -/
  | bgen (a : Reg) (b : Reg) (off : BitVec 16)
  /-- JMP (R172). -/
  | jmp (off : BitVec 26)
  /-- JAL (R172). -/
  | jal (off : BitVec 26)
  /-- JR (R172). -/
  | jr (a : Reg)
  /-- LDS (R174). -/
  | lds (d : Reg) (b : Reg) (ad : Index) (w : BitVec 6) (sc : Scope)
  /-- LDZ (R174). -/
  | ldz (d : Reg) (b : Reg) (ad : Index) (w : BitVec 6) (sc : Scope)
  /-- ST (R174). -/
  | st (d : Reg) (b : Reg) (ad : Index) (w : BitVec 6) (sc : Scope)
  /-- LDA (R174). -/
  | lda (d : Reg) (b : Reg) (ad : Index) (w : BitVec 6) (sc : Scope)
  /-- STL (R174). -/
  | stl (d : Reg) (b : Reg) (ad : Index) (w : BitVec 6) (sc : Scope)
  /-- AADD (R175). -/
  | aadd (d : Reg) (b : Reg) (c : Reg) (w : BitVec 6) (sc : Scope)
  /-- AAND (R175). -/
  | aand (d : Reg) (b : Reg) (c : Reg) (w : BitVec 6) (sc : Scope)
  /-- AOR (R175). -/
  | aor (d : Reg) (b : Reg) (c : Reg) (w : BitVec 6) (sc : Scope)
  /-- AXOR (R175). -/
  | axor (d : Reg) (b : Reg) (c : Reg) (w : BitVec 6) (sc : Scope)
  /-- AMIN (R175). -/
  | amin (d : Reg) (b : Reg) (c : Reg) (w : BitVec 6) (sc : Scope)
  /-- AMAX (R175). -/
  | amax (d : Reg) (b : Reg) (c : Reg) (w : BitVec 6) (sc : Scope)
  /-- AMINN (R175). -/
  | aminn (d : Reg) (b : Reg) (c : Reg) (w : BitVec 6) (sc : Scope)
  /-- AMAXN (R175). -/
  | amaxn (d : Reg) (b : Reg) (c : Reg) (w : BitVec 6) (sc : Scope)
  /-- ASWAP (R175). -/
  | aswap (d : Reg) (b : Reg) (c : Reg) (w : BitVec 6) (sc : Scope)
  /-- CAS (R176). -/
  | cas (d : Reg) (b : Reg) (c : Reg) (w : BitVec 6) (sc : Scope)
  /-- CASQ (R176). -/
  | casq (d : Reg) (b : Reg) (c : Reg) (sc : Scope)
  /-- FENCE (R179). -/
  | fence (k : FenceKind) (sc : Scope)
  /-- WAITM (R181). -/
  | waitm (d : Reg) (b : Reg) (c : Reg) (w : BitVec 6) (tmo : BitVec 5)
  /-- WAITC (R180). -/
  | waitc (n : BitVec 5) (cn : BitVec 3) (tmo : BitVec 5)
  /-- ARRIVE (R182). -/
  | arrive (a : Reg) (b : Reg) (sc : Scope)
  /-- WAITB (R183). -/
  | waitb (d : Reg) (b : Reg) (a : Reg) (sc : Scope) (tmo : BitVec 5)
  /-- LWAIT (R184). -/
  | lwait (d : Reg) (a : Reg) (tmo : BitVec 5)
  /-- PAUSE (R185). -/
  | pause
  /-- BOLT (R187). -/
  | bolt (off : BitVec 26)
  /-- VCFG (R22). -/
  | vcfg (d : Reg) (b : Reg)
  /-- SETVL (R24). -/
  | setvl (d : Reg) (a : Reg)
  /-- FARM (R28). -/
  | farm (a : Reg) (b : Reg)
  /-- STRIP (R29). -/
  | strip (d : Reg)
  /-- LAUNCH (R32). -/
  | launch (b : Reg)
  /-- HEXIT (R30). -/
  | hexit
  /-- CLAIM (R40). -/
  | claim (d : Reg) (a : Reg) (k : BitVec 2) (n : BitVec 4) (status : Bool)
  /-- RELEASE (R191). -/
  | release (a : Reg) (k : BitVec 2)
  /-- SDONE (R42). -/
  | sdone
  /-- SSUMM (R42). -/
  | ssumm
  /-- SREFUSE (R42). -/
  | srefuse
  /-- PROBE (R193). -/
  | probe (k : Tok) (a : Reg) (b : Reg) (kd : BitVec 2)
  /-- UNPROBE (R194). -/
  | unprobe (k : Tok)
  /-- BIND (R195). -/
  | bind (b : Reg) (v : VReg)
  /-- UNBIND (R195). -/
  | unbind (v : VReg)
  /-- COPY_REG_LEN (R199). -/
  | copyRegLen (a : Reg) (b : Reg) (l : Reg) (cn : BitVec 3)
  /-- COPY_IMM_LEN (R199). -/
  | copyImmLen (a : Reg) (b : Reg) (len : BitVec 9) (cn : BitVec 3)
  /-- COPYM_REG_LEN (R199). -/
  | copymRegLen (a : Reg) (b : Reg) (l : Reg) (cn : BitVec 3)
  /-- COPYM_IMM_LEN (R199). -/
  | copymImmLen (a : Reg) (b : Reg) (len : BitVec 9) (cn : BitVec 3)
  /-- MCAST_REG_LEN (R201). -/
  | mcastRegLen (a : Reg) (b : Reg) (l : Reg) (cn : BitVec 3)
  /-- MCAST_IMM_LEN (R201). -/
  | mcastImmLen (a : Reg) (b : Reg) (len : BitVec 9) (cn : BitVec 3)
  /-- REDST_REG_LEN (R202). -/
  | redstRegLen (a : Reg) (b : Reg) (l : Reg) (cn : BitVec 3)
  /-- REDST_IMM_LEN (R202). -/
  | redstImmLen (a : Reg) (b : Reg) (len : BitVec 9) (cn : BitVec 3)
  /-- SLD_REG_LEN (R203). -/
  | sldRegLen (a : Reg) (b : Reg) (l : Reg) (cn : BitVec 3)
  /-- SLD_IMM_LEN (R203). -/
  | sldImmLen (a : Reg) (b : Reg) (len : BitVec 9) (cn : BitVec 3)
  /-- DIMS (R196). -/
  | dims (a : Reg) (b : Reg) (n : BitVec 2)
  /-- CSRR (R204). -/
  | csrr (d : Reg) (csr : BitVec 12)
  /-- CSRW (R204). -/
  | csrw (a : Reg) (csr : BitVec 12)
  /-- CSRX (R204). -/
  | csrx (d : Reg) (a : Reg) (csr : BitVec 12)
  /-- TRAP (R206). -/
  | trap (n : BitVec 6)
  /-- RETT (R302). -/
  | rett
  /-- FWCALL (R207). -/
  | fwcall (n : BitVec 12)
  /-- BKPT (R208). -/
  | bkpt (n : BitVec 12)
  /-- STOP (R217). -/
  | stop
  /-- VBANY (R217). -/
  | vbany (off : BitVec 20) (k : MaskOp)
  /-- VBALL (R217). -/
  | vball (off : BitVec 20) (k : MaskOp)
  /-- VBNONE (R217). -/
  | vbnone (off : BitVec 20) (k : MaskOp)
  /-- VBDIV (R218). -/
  | vbdiv (off : BitVec 20) (k : MaskOp)
  /-- VJMP (R218). -/
  | vjmp (off : BitVec 20)
  /-- VFENCE (R220). -/
  | vfence (sc : Scope)
  /-- VIDX (R221). -/
  | vidx (vd : VReg) (k : MaskOp)
  /-- VMVS (R221). -/
  | vmvs (vd : VReg) (sa : Reg) (sb : Reg) (k : MaskOp)
  /-- VEXT (R222). -/
  | vext (va : VReg) (sel : ExtSel) (k : MaskOp)
  /-- VTRAP (R223). -/
  | vtrap (n : BitVec 6) (k : MaskOp)
  /-- VRNG (R224). -/
  | vrng (vd : VReg) (k : MaskOp)
  /-- VADD (R225). -/
  | vadd (vd : VReg) (va : VReg) (vb : VReg) (r : Rnd) (k : MaskOp)
  /-- VSUB (R225). -/
  | vsub (vd : VReg) (va : VReg) (vb : VReg) (r : Rnd) (k : MaskOp)
  /-- VMUL (R225). -/
  | vmul (vd : VReg) (va : VReg) (vb : VReg) (r : Rnd) (k : MaskOp)
  /-- VMULH (R227). -/
  | vmulh (vd : VReg) (va : VReg) (vb : VReg) (r : Rnd) (k : MaskOp)
  /-- VMULW (R227). -/
  | vmulw (vd : VReg) (va : VReg) (vb : VReg) (r : Rnd) (fx : BitVec 4) (k : MaskOp)
  /-- VMACC (R227). -/
  | vmacc (vd : VReg) (va : VReg) (vb : VReg) (k : MaskOp)
  /-- VDIV (R226). -/
  | vdiv (vd : VReg) (va : VReg) (vb : VReg) (r : Rnd) (k : MaskOp)
  /-- VREM (R226). -/
  | vrem (vd : VReg) (va : VReg) (vb : VReg) (r : Rnd) (k : MaskOp)
  /-- VMIN (R228). -/
  | vmin (vd : VReg) (va : VReg) (vb : VReg) (r : Rnd) (k : MaskOp)
  /-- VMAX (R228). -/
  | vmax (vd : VReg) (va : VReg) (vb : VReg) (r : Rnd) (k : MaskOp)
  /-- VABS (R229). -/
  | vabs (vd : VReg) (va : VReg) (r : Rnd) (k : MaskOp)
  /-- VNEG (R229). -/
  | vneg (vd : VReg) (va : VReg) (r : Rnd) (k : MaskOp)
  /-- VADDS (R231). -/
  | vadds (vd : VReg) (va : VReg) (vb : VReg) (r : Rnd) (k : MaskOp)
  /-- VSUBS (R231). -/
  | vsubs (vd : VReg) (va : VReg) (vb : VReg) (r : Rnd) (k : MaskOp)
  /-- VAVG (R225). -/
  | vavg (vd : VReg) (va : VReg) (vb : VReg) (r : Rnd) (k : MaskOp)
  /-- VAND (R225). -/
  | vand (vd : VReg) (va : VReg) (vb : VReg) (r : Rnd) (k : MaskOp)
  /-- VOR (R225). -/
  | vor (vd : VReg) (va : VReg) (vb : VReg) (r : Rnd) (k : MaskOp)
  /-- VXOR (R225). -/
  | vxor (vd : VReg) (va : VReg) (vb : VReg) (r : Rnd) (k : MaskOp)
  /-- VSHL (R230). -/
  | vshl (vd : VReg) (va : VReg) (vb : VReg) (r : Rnd) (k : MaskOp)
  /-- VSHR (R230). -/
  | vshr (vd : VReg) (va : VReg) (vb : VReg) (r : Rnd) (k : MaskOp)
  /-- VSRA (R230). -/
  | vsra (vd : VReg) (va : VReg) (vb : VReg) (r : Rnd) (k : MaskOp)
  /-- VPOPC (R230). -/
  | vpopc (vd : VReg) (va : VReg) (k : MaskOp)
  /-- VCLZ (R230). -/
  | vclz (vd : VReg) (va : VReg) (k : MaskOp)
  /-- VBEXT (R230). -/
  | vbext (vd : VReg) (va : VReg) (vb : VReg) (r : Rnd) (k : MaskOp)
  /-- VFMA (R232). -/
  | vfma (vd : VReg) (va : VReg) (vb : VReg) (vc : VReg) (r : Rnd) (k : MaskOp)
  /-- VFMS (R232). -/
  | vfms (vd : VReg) (va : VReg) (vb : VReg) (vc : VReg) (r : Rnd) (k : MaskOp)
  /-- VFNMA (R232). -/
  | vfnma (vd : VReg) (va : VReg) (vb : VReg) (vc : VReg) (r : Rnd) (k : MaskOp)
  /-- VSQRT (R233). -/
  | vsqrt (vd : VReg) (va : VReg) (r : Rnd) (k : MaskOp)
  /-- VRCP (R233). -/
  | vrcp (vd : VReg) (va : VReg) (r : Rnd) (k : MaskOp)
  /-- VRSQ (R233). -/
  | vrsq (vd : VReg) (va : VReg) (r : Rnd) (k : MaskOp)
  /-- VEXP (R233). -/
  | vexp (vd : VReg) (va : VReg) (r : Rnd) (k : MaskOp)
  /-- VLOG (R233). -/
  | vlog (vd : VReg) (va : VReg) (r : Rnd) (k : MaskOp)
  /-- VSIG (R233). -/
  | vsig (vd : VReg) (va : VReg) (r : Rnd) (k : MaskOp)
  /-- VTANH (R233). -/
  | vtanh (vd : VReg) (va : VReg) (r : Rnd) (k : MaskOp)
  /-- VCVT (R234). -/
  | vcvt (vd : VReg) (va : VReg) (r : Rnd) (fx : BitVec 4) (k : MaskOp)
  /-- VWIDEN (R235). -/
  | vwiden (vd : VReg) (va : VReg) (k : MaskOp)
  /-- VNARROW (R234). -/
  | vnarrow (vd : VReg) (va : VReg) (r : Rnd) (fx : BitVec 4) (k : MaskOp)
  /-- VQNT (R236). -/
  | vqnt (vd : VReg) (va : VReg) (r : Rnd) (sc : Bool) (zp : Bool) (k : MaskOp)
  /-- VDQNT (R237). -/
  | vdqnt (vd : VReg) (va : VReg) (r : Rnd) (sc : Bool) (zp : Bool) (k : MaskOp)
  /-- VRND (R238). -/
  | vrnd (vd : VReg) (va : VReg) (r : Rnd) (k : MaskOp)
  /-- VCLASS (R239). -/
  | vclass (vd : VReg) (va : VReg) (k : MaskOp)
  /-- VSCL (R240). -/
  | vscl (vd : VReg) (va : VReg) (vb : VReg) (r : Rnd) (k : MaskOp)
  /-- VSAT (R241). -/
  | vsat (vd : VReg) (va : VReg) (vb : VReg) (vc : VReg) (r : Rnd) (k : MaskOp)
  /-- VCMP (R242). -/
  | vcmp (md : MReg) (va : VReg) (vb : VReg) (c : Cond) (k : MaskOp)
  /-- VCMPN (R242). -/
  | vcmpn (md : MReg) (va : VReg) (vb : VReg) (c : Cond) (k : MaskOp)
  /-- MAND (R243). -/
  | mand (md : MReg) (ma : MReg) (mb : MReg) (k : MaskOp)
  /-- MOR (R243). -/
  | mor (md : MReg) (ma : MReg) (mb : MReg) (k : MaskOp)
  /-- MXOR (R243). -/
  | mxor (md : MReg) (ma : MReg) (mb : MReg) (k : MaskOp)
  /-- MNOT (R243). -/
  | mnot (md : MReg) (ma : MReg) (k : MaskOp)
  /-- MPOP (R244). -/
  | mpop (vd : VReg) (ma : MReg) (k : MaskOp)
  /-- MFIRST (R244). -/
  | mfirst (vd : VReg) (ma : MReg) (k : MaskOp)
  /-- VSEL (R245). -/
  | vsel (vd : VReg) (va : VReg) (vb : VReg) (mc : MReg) (k : MaskOp)
  /-- MSET (R246). -/
  | mset (md : MReg) (mode : MsetMode) (k : MaskOp)
  /-- VRSUM (R247). -/
  | vrsum (vd : VReg) (va : VReg) (r : Rnd) (k : MaskOp)
  /-- VRMAX (R247). -/
  | vrmax (vd : VReg) (va : VReg) (r : Rnd) (k : MaskOp)
  /-- VRMIN (R247). -/
  | vrmin (vd : VReg) (va : VReg) (r : Rnd) (k : MaskOp)
  /-- VRAND (R247). -/
  | vrand (vd : VReg) (va : VReg) (r : Rnd) (k : MaskOp)
  /-- VROR (R247). -/
  | vror (vd : VReg) (va : VReg) (r : Rnd) (k : MaskOp)
  /-- VSCAN (R248). -/
  | vscan (vd : VReg) (va : VReg) (r : Rnd) (k : MaskOp)
  /-- VSCANMX (R248). -/
  | vscanmx (vd : VReg) (va : VReg) (r : Rnd) (k : MaskOp)
  /-- VRDOT (R249). -/
  | vrdot (vd : VReg) (va : VReg) (vb : VReg) (r : Rnd) (k : MaskOp)
  /-- VSLUP (R250). -/
  | vslup (vd : VReg) (va : VReg) (amt : SlideAmt) (k : MaskOp)
  /-- VSLDN (R250). -/
  | vsldn (vd : VReg) (va : VReg) (amt : SlideAmt) (k : MaskOp)
  /-- VGTHR (R251). -/
  | vgthr (vd : VReg) (va : VReg) (vb : VReg) (k : MaskOp)
  /-- VCOMP (R252). -/
  | vcomp (vd : VReg) (va : VReg) (k : MaskOp)
  /-- VEXPD (R252). -/
  | vexpd (vd : VReg) (va : VReg) (k : MaskOp)
  /-- VBCAST (R253). -/
  | vbcast (vd : VReg) (sa : Reg) (k : MaskOp)
  /-- VREV (R253). -/
  | vrev (vd : VReg) (va : VReg) (k : MaskOp)
  /-- VZIP (R254). -/
  | vzip (vd : VReg) (va : VReg) (vb : VReg) (n : Bool) (k : MaskOp)
  /-- VUNZIP (R254). -/
  | vunzip (vd : VReg) (va : VReg) (vb : VReg) (n : Bool) (k : MaskOp)
  /-- VLD (R259). -/
  | vld (vd : VReg) (sa : Reg) (r : Rnd) (disp : BitVec 17) (fx : BitVec 4) (tok : Tok) (k : MaskOp)
  /-- VST (R259). -/
  | vst (vd : VReg) (sa : Reg) (r : Rnd) (disp : BitVec 17) (fx : BitVec 4) (tok : Tok) (k : MaskOp)
  /-- VLDS (R259). -/
  | vlds (vd : VReg) (sa : Reg) (sb : Reg) (r : Rnd) (disp : BitVec 17) (fx : BitVec 4) (tok : Tok) (k : MaskOp)
  /-- VSTS (R259). -/
  | vsts (vd : VReg) (sa : Reg) (sb : Reg) (r : Rnd) (disp : BitVec 17) (fx : BitVec 4) (tok : Tok) (k : MaskOp)
  /-- VLDX (R259). -/
  | vldx (vd : VReg) (sa : Reg) (vb : VReg) (r : Rnd) (disp : BitVec 17) (fx : BitVec 4) (tok : Tok) (k : MaskOp)
  /-- VSTX (R259). -/
  | vstx (vd : VReg) (sa : Reg) (vb : VReg) (r : Rnd) (disp : BitVec 17) (fx : BitVec 4) (tok : Tok) (k : MaskOp)
  /-- VLDXO (R259). -/
  | vldxo (vd : VReg) (sa : Reg) (vb : VReg) (r : Rnd) (disp : BitVec 17) (fx : BitVec 4) (tok : Tok) (k : MaskOp)
  /-- VSTXO (R259). -/
  | vstxo (vd : VReg) (sa : Reg) (vb : VReg) (r : Rnd) (disp : BitVec 17) (fx : BitVec 4) (tok : Tok) (k : MaskOp)
  /-- VLDSEG (R261). -/
  | vldseg (vd : VReg) (sa : Reg) (sb : Reg) (r : Rnd) (disp : BitVec 14) (nf : BitVec 3) (fx : BitVec 4) (tok : Tok) (k : MaskOp)
  /-- VSTSEG (R261). -/
  | vstseg (vd : VReg) (sa : Reg) (sb : Reg) (r : Rnd) (disp : BitVec 14) (nf : BitVec 3) (fx : BitVec 4) (tok : Tok) (k : MaskOp)
  /-- VLDM (R258). -/
  | vldm (vd : VReg) (sa : Reg) (r : Rnd) (disp : BitVec 17) (fx : BitVec 4) (tok : Tok) (k : MaskOp)
  /-- VSTM (R258). -/
  | vstm (vd : VReg) (sa : Reg) (r : Rnd) (disp : BitVec 17) (fx : BitVec 4) (tok : Tok) (k : MaskOp)
  /-- VLDSP (R262). -/
  | vldsp (vd : VReg) (sa : Reg) (sb : Reg) (r : Rnd) (disp : BitVec 17) (fx : BitVec 4) (k : MaskOp)
  /-- VSTSP (R259). -/
  | vstsp (vd : VReg) (sa : Reg) (sb : Reg) (r : Rnd) (disp : BitVec 17) (fx : BitVec 4) (k : MaskOp)
  /-- VLDSPX (R259). -/
  | vldspx (vd : VReg) (sa : Reg) (vb : VReg) (r : Rnd) (disp : BitVec 17) (fx : BitVec 4) (k : MaskOp)
  /-- VSTSPX (R259). -/
  | vstspx (vd : VReg) (sa : Reg) (vb : VReg) (r : Rnd) (disp : BitVec 17) (fx : BitVec 4) (k : MaskOp)
  /-- VAADD (R263). -/
  | vaadd (vd : VReg) (sa : Reg) (vb : VReg) (vc : VReg) (sc : Scope) (sp : Bool) (nr : Bool) (disp : BitVec 12) (fx : BitVec 4) (tok : Tok) (k : MaskOp)
  /-- VAMIN (R263). -/
  | vamin (vd : VReg) (sa : Reg) (vb : VReg) (vc : VReg) (sc : Scope) (sp : Bool) (nr : Bool) (disp : BitVec 12) (fx : BitVec 4) (tok : Tok) (k : MaskOp)
  /-- VAMAX (R263). -/
  | vamax (vd : VReg) (sa : Reg) (vb : VReg) (vc : VReg) (sc : Scope) (sp : Bool) (nr : Bool) (disp : BitVec 12) (fx : BitVec 4) (tok : Tok) (k : MaskOp)
  /-- VAAND (R263). -/
  | vaand (vd : VReg) (sa : Reg) (vb : VReg) (vc : VReg) (sc : Scope) (sp : Bool) (nr : Bool) (disp : BitVec 12) (fx : BitVec 4) (tok : Tok) (k : MaskOp)
  /-- VAOR (R263). -/
  | vaor (vd : VReg) (sa : Reg) (vb : VReg) (vc : VReg) (sc : Scope) (sp : Bool) (nr : Bool) (disp : BitVec 12) (fx : BitVec 4) (tok : Tok) (k : MaskOp)
  /-- VAXOR (R263). -/
  | vaxor (vd : VReg) (sa : Reg) (vb : VReg) (vc : VReg) (sc : Scope) (sp : Bool) (nr : Bool) (disp : BitVec 12) (fx : BitVec 4) (tok : Tok) (k : MaskOp)
  /-- VASWAP (R263). -/
  | vaswap (vd : VReg) (sa : Reg) (vb : VReg) (vc : VReg) (sc : Scope) (sp : Bool) (nr : Bool) (disp : BitVec 12) (fx : BitVec 4) (tok : Tok) (k : MaskOp)
  /-- VACAS (R263). -/
  | vacas (vd : VReg) (sa : Reg) (vb : VReg) (vc : VReg) (sc : Scope) (sp : Bool) (nr : Bool) (disp : BitVec 12) (fx : BitVec 4) (tok : Tok) (k : MaskOp)
  /-- TLD (R269). -/
  | tld (td : TReg) (sa : Reg) (sb : Reg) (disp : BitVec 17) (fx : BitVec 4) (tok : Tok)
  /-- TLDF (R270). -/
  | tldf (td : TReg) (sa : Reg) (sb : Reg) (cc : CReg) (disp : BitVec 17) (fx : BitVec 4)
  /-- TSCL (R271). -/
  | tscl (td : TReg) (sa : Reg) (disp : BitVec 17) (tok : Tok)
  /-- MROW (R272). -/
  | mrow (va : VReg) (tb : TReg) (sc : Reg) (useScale : Bool) (n : BitVec 10) (k : MaskOp)
  /-- MROWZ (R272). -/
  | mrowz (va : VReg) (tb : TReg) (sc : Reg) (useScale : Bool) (n : BitVec 10) (k : MaskOp)
  /-- MSWEEP (R273). -/
  | msweep (sa : Reg) (tb : TReg) (sc : Reg) (useScale : Bool) (n : BitVec 10) (fx : BitVec 4) (tok : Tok)
  /-- MDRAIN (R277). -/
  | mdrain (vd : VReg) (r : Rnd) (n : BitVec 10) (k : MaskOp)
  /-- MDRAINS (R278). -/
  | mdrains (sa : Reg) (sb : Reg) (r : Rnd) (rows : BitVec 7) (n : BitVec 10) (fx : BitVec 4)
  /-- MZERO (R279). -/
  | mzero (rows : BitVec 7) (n : BitVec 10)
  /-- MLDACC (R279). -/
  | mldacc (va : VReg) (n : BitVec 10) (k : MaskOp)
  /-- QCMP (R283). -/
  | qcmp (qd : QReg) (va : VReg) (vb : VReg) (lin : BitVec 8) (c : Cond) (k : MaskOp)
  /-- QAND (R286). -/
  | qand (qd : QReg) (qa : QReg) (qb : QReg) (form : Bool) (k : MaskOp)
  /-- QOR (R286). -/
  | qor (qd : QReg) (qa : QReg) (qb : QReg) (form : Bool) (k : MaskOp)
  /-- QNOT (R287). -/
  | qnot (qd : QReg) (qa : QReg) (k : MaskOp)
  /-- QBLEND (R288). -/
  | qblend (vd : VReg) (va : VReg) (vb : VReg) (qc : QReg) (r : Rnd) (k : MaskOp)
  /-- QCOLL (R289). -/
  | qcoll (md : MReg) (qa : QReg) (key : Option VReg) (k : MaskOp)
  /-- QGRAD (R292). -/
  | qgrad (vd : VReg) (src : GradSrc) (r : Rnd) (k : MaskOp)
  /-- QMOV (R285). -/
  | qmov (mv : QMove) (r : Rnd) (k : MaskOp)
  /-- QSET (R284). -/
  | qset (qd : QReg) (code : BitVec 16) (k : MaskOp)
  /-- QHARD (R290). -/
  | qhard (md : MReg) (qa : QReg) (thr : BitVec 16) (k : MaskOp)
  /-- QSEED (R291). -/
  | qseed (src : SeedSrc) (k : MaskOp)
  /-- QLIN (R284). -/
  | qlin (qd : QReg) (lin : BitVec 8)
  /-- HOST_BAR0_WRITE (R342). -/
  | hostBar0Write (port : Nat) (off : Nat) (size : Nat) (val : Nat)
  /-- HOST_BAR2_READ (R344). -/
  | hostBar2Read (byte : Nat) (size : Nat)
  /-- HOST_BAR2_WRITE (R344). -/
  | hostBar2Write (byte : Nat) (size : Nat) (val : Nat)
  /-- HOST_ATOMICOP (R341). -/
  | hostAtomicop (kind : AtomKind) (byte : Nat) (size : Nat) (cmp : Nat) (val : Nat)
  /-- HOST_MANAGED_DEVICE_MEMORY_ACCESS (R340). -/
  | hostManagedDeviceMemoryAccess (op : HdmOp) (byte : Nat) (size : Nat) (cmp : Nat) (val : Nat)
  /-- CONFIGURATION_REQUEST (R354). -/
  | configurationRequest (port : Nat) (enable : Option Bool)
  /-- PEER_WRITE (R346). -/
  | peerWrite (link : Nat) (off : Nat) (size : Nat) (val : Nat) (red : Option (Nat × BitVec 8))
  /-- PEER_READ (R363). -/
  | peerRead (link : Nat) (off : Nat) (size : Nat)
  /-- LINK_DOWN (R374). -/
  | linkDown (kind : LinkKind) (link : Nat)
  /-- SOFT_ERROR (R374). -/
  | softError (st : Nat) (place : Nat) (word : Nat) (unc : Bool)
  /-- SCAN_READOUT (R357). -/
  | scanReadout (what : ScanSel) (key : Nat)
  /-- THROTTLE (R384). -/
  | throttle (reason : Nat)
  /-- SWAP_FAILED (R51). -/
  | swapFailed (mctx : Nat) (layer : Nat) (reason : Nat)
  /-- BACKINV_TIMEOUT (R313). -/
  | backinvTimeout (h : Nat) (va : Nat)
  /-- HBM_REFRESH (R109). -/
  | hbmRefresh (bank : Nat)
  /-- SCRUB_WORD (R376). -/
  | scrubWord (level : Nat) (place : Nat) (word : Nat)
  /-- VRETQ_READ (R13). -/
  | vretqRead (d : Reg)
  /-- BOLT_QUEUE_ROOM (R12). -/
  | boltQueueRoom (h : Nat)
  /-- BOLTS_COMPLETED_WAIT_END (R179). -/
  | boltsCompletedWaitEnd (h : Nat)
  /-- WAITC_WAKE (R180). -/
  | waitcWake (h : Nat)
  /-- WAIT_TIMEOUT (R180). -/
  | waitTimeout (h : Nat)
  /-- WAITM_WAKE (R181). -/
  | waitmWake (h : Nat)
  /-- WAITM_TIMEOUT (R181). -/
  | waitmTimeout (h : Nat)
  /-- WAITB_WAKE (R183). -/
  | waitbWake (h : Nat)
  /-- WAITB_TIMEOUT (R183). -/
  | waitbTimeout (h : Nat)
  /-- LWAIT_WAKE (R52). -/
  | lwaitWake (h : Nat)
  /-- SWAP_TIMEOUT (R184). -/
  | swapTimeout (h : Nat)
  /-- LAUNCH_QUEUE_ROOM (R32). -/
  | launchQueueRoom (h : Nat)
  /-- ENGINE_ISSUE_ROOM (R197). -/
  | engineIssueRoom (h : Nat)
  /-- ENGINE_TRANSFER_COMPLETE (R139). -/
  | engineTransferComplete (x : Nat) (ext : Nat)
  /-- TLDF_FILL_COMPLETE (R268). -/
  | tldfFillComplete (x : Nat) (ext : Nat)
  /-- RECALL_DELIVERY (R41). -/
  | recallDelivery (h : Nat)
  /-- SURRENDER_BUDGET (R43). -/
  | surrenderBudget (h : Nat)
  /-- CLAIM_RETRY (R40). -/
  | claimRetry (h : Nat)
  /-- CLAIM_RECALL_REPOST (R40). -/
  | claimRecallRepost (h : Nat)
  /-- PACKET_RELEASE (R34). -/
  | packetRelease (die : Nat) (q : Nat)
  /-- LEAD_PLACEMENT (R35). -/
  | leadPlacement (f : Nat)
  /-- FOLLOWER_PLACEMENT (R35). -/
  | followerPlacement (f : Nat)
  /-- EFFECTIVE_PRIORITY_AGING (R36). -/
  | effectivePriorityAging (f : Nat)
  /-- PREEMPTION (R317). -/
  | preemption (h : Nat)
  /-- CONVOY_CUT (R317). -/
  | convoyCut (h : Nat)
  /-- CONTEXT_RESTORE (R48). -/
  | contextRestore (x : Nat)
  /-- PENDING_EVENT_TAKEN (R318). -/
  | pendingEventTaken (h : Nat)
  /-- FW_NOTIFY (R304). -/
  | fwNotify (h : Nat) (n : Nat)
  /-- LAYER_ARRIVAL (R51). -/
  | layerArrival (mctx : Nat) (layer : Nat)
  /-- EVICTION_COMPLETE (R368). -/
  | evictionComplete (mctx : Nat) (layer : Nat)
  /-- SWAP_VICTIM_TIMEOUT (R367). -/
  | swapVictimTimeout (mctx : Nat) (layer : Nat)
  /-- PAGE_BLOCKED (R129). -/
  | pageBlocked (h : Nat)
  /-- HOST_TIMEOUT (R307). -/
  | hostTimeout (h : Nat) (cls : Nat) (va : Nat)
  /-- L2_EVICTION (R117). -/
  | l2Eviction (g : Nat) (line : Nat)
  /-- L2_STALE_SWEEP (R118). -/
  | l2StaleSweep (g : Nat)
  /-- FOREMAN_QUEUE_SERVICE (R348). -/
  | foremanQueueService (hq : Nat)
  /-- IDENT (R346). -/
  | ident
  /-- OPENQ (R347). -/
  | openq
  /-- CLOSEQ (R350). -/
  | closeq
  /-- CLOSEQ_COMPLETE (R350). -/
  | closeqComplete (hq : Nat)
  /-- QRESET_DROP_HEAD (R350). -/
  | qresetDropHead
  /-- QRESET_DROP_ALL (R350). -/
  | qresetDropAll
  /-- QRESET_RETRY_HEAD (R350). -/
  | qresetRetryHead
  /-- SETEVT (R351). -/
  | setevt
  /-- SETVEC (R352). -/
  | setvec
  /-- PEERWIN (R346). -/
  | peerwin
  /-- RESYNC (R358). -/
  | resync
  /-- ATTEST (R360). -/
  | attest
  /-- WARM (R355). -/
  | warm
  /-- COLD (R355). -/
  | cold
  /-- ENDHART (R346). -/
  | endhart
  /-- IMGLOAD (R346). -/
  | imgload
  /-- CTXLOAD (R361). -/
  | ctxload
  /-- CTXUNLOAD (R364). -/
  | ctxunload
  /-- LREQ (R364). -/
  | lreq
  /-- LEVICT (R364). -/
  | levict
  /-- LPIN (R364). -/
  | lpin
  /-- LUNPIN (R364). -/
  | lunpin
  /-- CTXSET (R364). -/
  | ctxset
  /-- MIGRATE (R129). -/
  | migrate
  /-- MIGRATE_COMPLETE (R370). -/
  | migrateComplete (pa : Nat)
  /-- UNMAP (R370). -/
  | unmap
  /-- UNMAP_COMPLETE (R370). -/
  | unmapComplete (x : Nat)
  /-- SWAPCANCEL (R364). -/
  | swapcancel
  /-- FWCALL_PART_NUMBER (R353). -/
  | fwcallPartNumber
  /-- FWCALL_POST_EVENT (R353). -/
  | fwcallPostEvent
  /-- FWCALL_TIME (R353). -/
  | fwcallTime
  /-- FWCALL_LAYER_REQUEST (R365). -/
  | fwcallLayerRequest
  /-- FWCALL_RESIDENT_PAGES (R365). -/
  | fwcallResidentPages
  /-- POWER_GOOD (R354). -/
  | powerGood
  /-- PERST_ASSERT (R356). -/
  | perstAssert
  /-- POWER_LOSS (R354). -/
  | powerLoss
  /-- START (R355). -/
  | start (fail : Nat)
  /-- FREEZE (R357). -/
  | freeze
  /-- PERIODIC_REPORT (R380). -/
  | periodicReport
  /-- RETENTION_ENTRY (R382). -/
  | retentionEntry (g : Nat)
  /-- GROVE_WAKE (R382). -/
  | groveWake (g : Nat)
  /-- THROTTLE_RECOVER (R384). -/
  | throttleRecover
  /-- THERMAL_TRIP (R384). -/
  | thermalTrip
  /-- RESERVED_OPCODE (R165). -/
  | reservedOpcode (case : Nat)
  /-- RESERVED_FIELD (R165). -/
  | reservedField (case : Nat)
  /-- INSTRUCTION_FETCH_FAULT (R307). -/
  | instructionFetchFault (cause : Nat) (va : Nat)
  /-- PERST_DEASSERT (R354). -/
  | perstDeassert
  /-- FREEZE_DEASSERT (R357). -/
  | freezeDeassert
  /-- MAILBOX_UNKNOWN_OPCODE (R346). -/
  | mailboxUnknownOpcode
  deriving DecidableEq, Repr

end Sys2Proof
end

