-- ==== Sys2Proof/Config.lean ====
section
/-!
DEFINITION. What an implementation fixes and the manual leaves open, and the free values. Every constant here is opaque:
it has no body a proof could see, so a claim holds whatever its value is (log 4, 16, 17).
-/
namespace Sys2Proof

/-- A free order of the element accesses of one instruction that write the same bits (R260, R264): a sort key for the
part of an element, drawn at the counter `State.free`. Free value, log 16. -/
opaque Config.freeKey : Nat → Nat → Nat

/-- The HBM bank of a line of device memory, and its row there (R107 and R109 do not place them). Log 62. -/
opaque Config.bankOf : Nat → Nat
/-- The row of a line in its HBM bank. Log 62. -/
opaque Config.rowOf : Nat → Nat

/-- The part number of the device (R346, R353). Log 18. -/
opaque Config.partNumber : Word
/-- Its ordering code (R346). Log 18. -/
opaque Config.orderingCode : Word
/-- The firmware version of service 0 (R353). Log 18. -/
opaque Config.firmwareVersion : Word

/-- The public key of 1,793 bytes that an image, given by its length and bits, names as its signer's, as it is stored (R359).
Log 18. -/
opaque Config.signerKey : Nat → Nat → BitVec 14344

/-- The padded signature of 1,280 bytes that an image, given by its length and bits, carries (R359). Log 18. -/
opaque Config.signatureOf : Nat → Nat → BitVec 10240

/-- The measurements of the two image-signing keys that the Hunik ROM holds (R359). Log 18. -/
opaque Config.signingKeys : BitVec 512 × BitVec 512

/-- Whether a Falcon-1024 signature verifies under a public key for a message of a length and bits (R359 names the scheme and does
not give it). Log 18. -/
opaque Config.falconVerifies : BitVec 14344 → BitVec 10240 → Nat → Nat → Bool

/-- The signature of 1,280 bytes that the identity key, which the Hunik controller keeps, gives a message of a length and bits (R359,
R360). Log 18. -/
opaque Config.identitySign : Nat → Nat → BitVec 10240

/-- The data a configuration request returns once a port serves it (R354; the configuration space is PCIe's). Log 18. -/
opaque Config.configSpace : Nat → Nat

/-- What a memory pool or peer device holds at a bit offset of a window on a link (R363): one 64-bit word. Log 19. -/
opaque Config.peerWord : Nat → Nat → Nat → Word

/-- What an uninitialised part of the mailbox response of RESYNC packs for a section entry (R358 gives the widths of an
entry and not the places of its fields). Log 20. -/
opaque Config.resyncEntry : Nat → List Nat → Nat

/-- The physical addresses of the pages of 2^19 bits that make the swap pool (R366 names the pool and not its place). Log 7. -/
opaque Config.swapPool : List Nat

/-- Whether the root complex of port 1 completes an AtomicOp, by form (0 FetchAdd, 1 Swap, 2 CAS) and width: PCIe leaves
it to the platform (R112, R337). Log 10. -/
opaque Config.rootCompletes : Nat → Nat → Bool

/-- HBM bursts saved by compression since the last report: R110 gives neither the compressor nor its size codes for a block's
contents (R380). Free value, log 28. -/
opaque Config.burstsSaved : Nat → Word

/-- Which of the ten clocks of R384 an image's voltage and frequency points name: R354 and R355 give the points no form. Log 114. -/
opaque Config.clockOf : List Word → Nat

/-- Base and length of the pool of save areas that firmware holds (R373 names the pool and not its place). Log 56. -/
opaque Config.firmwarePool : Nat × Nat

/-- A setting of an image, by its kind and the image's length and bits: R354 names the settings and not their places. Log 11. -/
opaque Config.imageWord : Nat → Nat → Nat → Word

/-- A setting of an image that takes more than one word, in the same way. Log 11. -/
opaque Config.imageWords : Nat → Nat → Nat → List Word

end Sys2Proof
end

