-- ==== Sys2Proof/Machine/State.lean ====
section
/-!
DEFINITION. The state of the X9 as plain data: the harts, cores, groves, memories, yards, model contexts, host interface,
start-up and reliability state that spec/ gives the device, with the value of each after reset.
-/
namespace Sys2Proof.Machine

open Sys2Proof

/-- A table by number, ascending and without repeats. A table of cells lists no entry equal to what an unlisted number
reads as. -/
abbrev Tab (α : Type) := List (Nat × α)

/-- Why the machine stops with a fault. -/
inductive Fault where
  /-- Raised by a host access of host-managed device memory outside the 768 GiB the HDM decoder covers (R340, R107).
  Safe: the device has nothing there. -/
  | outsideDeviceMemory
  deriving DecidableEq, Repr

/-- Why an instruction has no meaning. -/
inductive Refusal where
  /-- Raised by an arm of Dispatch.lean that has no meaning yet. Safe: the machine stops. -/
  | notModelled (mnemonic : String)
  deriving DecidableEq, Repr

/-- An exact dyadic number `m * 2^e`. -/
structure Dy where
  m : Int
  e : Int
  deriving DecidableEq, Repr

/-- The record of a successful VCFG (R21). `nreg = 0` before one. -/
structure VCfg where
  nreg : Nat
  sw : Nat
  blk : Nat
  tags : List (BitVec 8)
  deriving DecidableEq, Repr

/-- State of a token (R125); an eviction records the context and layer. -/
inductive TokState where
  | free | live | unmapped
  | evicted (mctx layer : Nat)
  deriving DecidableEq, Repr

/-- A probe token (R125, R193): range, kind, pinned pages, and whether the pin is a follower's shared pin (R28). -/
structure Token where
  st : TokState
  base : Nat
  ext : Nat
  r : Bool
  w : Bool
  pages : Nat
  shared : Bool
  deriving DecidableEq, Repr

/-- A FREE token. -/
def Token.none : Token := ⟨.free, 0, 0, false, false, 0, false⟩

/-- A dimension register (R196). -/
structure Dim where
  len : Nat
  stride : Word
  deriving DecidableEq, Repr

/-- A dimension register of a launched hart (R196). -/
def Dim.initial : Dim := ⟨1, 0⟩

/-- A flume binding: its slot, register, record as read at BIND, strips consumed, and the stream elements read before their
strip, each with its scale code (R132-R134, R195, R311). -/
structure Binding where
  slot : Nat
  reg : Nat
  record : BitVec 256
  strips : Nat
  early : Tab (Nat × Nat)
  deriving DecidableEq, Repr

/-- A fragment: a bolt program counter (2^64 once it has passed the last word of the address space, R307), the set of
its elements (bit e for element e), and the spill slot it occupies, if it is spilled (R14, R17). -/
structure Frag where
  pc : Nat
  mask : Nat
  slot : Option Nat
  deriving DecidableEq, Repr

/-- The position of a row product or sweep (R274). -/
structure MPos where
  i2 : Nat
  i1 : Nat
  i0 : Nat
  g : Nat
  deriving DecidableEq, Repr

/-- An incomplete bolt (R11, R12, R187): its frame, lengths and lanes, its fragments with the running one first, the words
of its convoy not yet executed, whether its first word has been checked, its words of R12, its matrix position, whether
VSTEP held when its convoy began, its mirror-issue mode (R372), how many entries its VEXT has appended (R222), the words
fetched ahead of execution, by address (R12, R386), whether a pre-emption cut its convoy (R317), the accumulator rows
whose error its matrix instruction has raised (R323), and the codes of the elements that its VLDSP has read (R136). -/
structure Bolt where
  seq : Nat
  entry : Word
  frame : Tab Word
  dims : Tab Dim
  vl : Nat
  mvl : Nat
  lanes : Nat
  frags : List Frag
  convoy : List (Nat × BitVec 64)
  begun : Bool
  words : Nat
  mpos : Option MPos
  vstep : Bool
  recheck : Nat
  ext : Nat
  ahead : Tab (BitVec 64)
  cut : Bool
  rowsTold : List Nat
  chain : Tab Nat
  deriving DecidableEq, Repr

/-- Bolts set aside by a vector-origin trap or a surrender routine, with the interrupted stem address, and the instruction it
has advanced from past the last slot, if it has (R301, R307, R387). -/
structure Frame where
  routine : Bool
  pc : Word
  wrap : Option Word
  bolts : List Bolt
  deriving DecidableEq, Repr

/-- A surrender routine in progress (R41, R43): its budget (none once its lots are stripped), recalled lots and claim. -/
structure Routine where
  budget : Option Nat
  kind : Nat
  lots : Nat
  claim : Nat
  deriving DecidableEq, Repr

/-- A recall posted to a hart (R40, R41). -/
structure Recall where
  kind : Nat
  lots : Nat
  req : Nat
  claim : Nat
  deriving DecidableEq, Repr

/-- What a stem instruction waits for. -/
inductive WaitKind where
  /-- Every earlier bolt of the hart (R331). -/
  | bolts
  /-- Room in the bolt queue (R12). -/
  | boltRoom
  /-- An entry of VRETQ (R13). -/
  | vretq (d : Reg)
  /-- A counter at most n (R180). -/
  | waitc (cn : CReg) (n : Nat)
  /-- Watched bits (R181). -/
  | waitm (d : Reg) (va : Nat) (w : Nat) (cmp : Nat)
  /-- An arrival word (R183). -/
  | waitb (d : Reg) (va : Nat) (tgt : Nat) (ph : Nat) (sc : Scope)
  /-- A layer (R184). -/
  | lwait (d : Reg) (layer : Nat)
  /-- Room in a yard queue (R32). -/
  | launchRoom (die q : Nat)
  /-- Room in a counter and the interlock table (R197). -/
  | engineRoom (cn : CReg)
  /-- The outcome of a claim (R40). -/
  | claim (id : Nat)
  /-- A page that migrates (R129), with the class of the access (R307). -/
  | page (va cls : Nat)
  /-- An entry of the interlock table to retire (R135). -/
  | interlock
  /-- The hart's transfers (R30, R42). -/
  | transfers
  deriving DecidableEq, Repr

/-- A wait with the cycle it began at, where it has a timeout the cycle that ends it (R150), and the spans of 256 cycles
charged for it (R43). -/
structure WaitRec where
  kind : WaitKind
  since : Nat
  deadline : Option Nat
  billed : Nat
  deriving DecidableEq, Repr

/-- What take_trap writes (R300): cause, detail, TPC, TADDR, TIDX, TTOKEN and the origin. -/
structure TrapInfo where
  cause : Nat
  detail : Nat
  pc : Word
  addr : Word
  idx : Word
  tok : Word
  vec : Bool
  deriving DecidableEq, Repr

/-- An event kept for a later boundary (R318): its order, the trap, and the depth at which it arose. -/
structure Pend where
  order : Nat
  trap : TrapInfo
  depth : Nat
  deriving DecidableEq, Repr

/-- A failure not yet reported on a counter (R198). -/
structure EngFail where
  cn : Nat
  cause : Nat
  addr : Word
  deriving DecidableEq, Repr

/-- What an atomic does to the bits it reads (R175, R176). -/
inductive AtomicKind where
  | add | and | or | xor | min | max | minn | maxn | swap | cas
  deriving DecidableEq, Repr

/-- What an access does when it is performed after its hart has executed it (R142). -/
inductive LateOp where
  | store (v : Nat)
  /-- An element that a VSTXO stores; `n` is the step it ran in (R142, row xo). -/
  | ordered (v n : Nat)
  /-- STL. -/
  | release (v : Nat)
  /-- LDS, with its sign, or LDZ. -/
  | load (d : Reg) (sx : Bool)
  | atomic (d : Reg) (k : AtomicKind) (x cmp : Nat)
  | casq (d : Reg) (x cmp : Nat)
  deriving DecidableEq, Repr

/-- An access that its hart has executed and that is not yet performed (R142, R144): its physical parts, what it does, its scope,
whether it is of the vector stream, and the bolts that have captured the register it is yet to write. -/
structure Pending where
  parts : List (Nat × Nat)
  op : LateOp
  sc : Scope
  vec : Bool
  bolts : List Nat
  deriving DecidableEq, Repr

/-- A hart (R10). `wrapFrom` is the instruction from which the PC has advanced past the last slot (R307); `stores` holds its
accesses not yet performed, oldest first (R142), `fetched` the stem words fetched ahead, by address (R386), and `told` says
that the default handler has recorded the trap (R297). -/
structure Hart where
  placed : Bool
  halted : Bool
  uid : Nat
  farm : Nat
  idx : Nat
  asid : Nat
  pc : Word
  wrapFrom : Option Word
  regs : Tab Word
  pstat : Word
  vtype : Word
  vl : Nat
  mvl : Nat
  fmode : Word
  temp : Word
  qstat : Word
  zpa : Word
  sfbase : Word
  clipn : Word
  zeron : Word
  qntn : Word
  clipth : Word
  sbudget : Word
  srlimit : Word
  srefn : Word
  recallW : Word
  pfspill : Word
  tvec : Word
  tcause : Word
  tpc : Word
  taddr : Word
  tidx : Word
  ttoken : Word
  mctx : Word
  cfg : VCfg
  vregs : Tab (BitVec 64)
  masks : Tab Nat
  qcodes : Tab (BitVec 16)
  qlin : Tab (BitVec 8)
  sf : Tab (BitVec 8)
  toks : Tab Token
  ctrs : Tab Nat
  engFails : List EngFail
  dims : Tab Dim
  binds : List Binding
  bolts : List Bolt
  boltSeq : Nat
  frames : List Frame
  vretq : List Word
  routine : Option Routine
  recalls : List Recall
  wait : Option WaitRec
  vwait : Option WaitRec
  pend : List Pend
  notes : List Nat
  preempt : Option Nat
  position : Nat
  stores : List Pending
  fetched : Tab (BitVec 32)
  told : Bool
  deriving DecidableEq, Repr

/-- A hart slot that holds no hart (values of R27 and R44; the rest zero, log 14). -/
def Hart.vacant : Hart :=
  { placed := false, halted := false, uid := 0, farm := 0, idx := 0, asid := 0, pc := 0, wrapFrom := none, regs := [],
    pstat := 0, vtype := 0, vl := 0, mvl := 0, fmode := 0, temp := 0, qstat := 0, zpa := 0, sfbase := 0,
    clipn := 0, zeron := 0, qntn := 0, clipth := 0, sbudget := 4096, srlimit := 0, srefn := 0, recallW := 0,
    pfspill := 0, tvec := 0, tcause := 0, tpc := 0, taddr := 0, tidx := 0, ttoken := 0, mctx := 0,
    cfg := ⟨0, 8, 0, []⟩, vregs := [], masks := [], qcodes := [], qlin := [], sf := [], toks := [], ctrs := [],
    engFails := [], dims := [], binds := [], bolts := [], boltSeq := 0, frames := [], vretq := [], routine := none,
    recalls := [], wait := none, vwait := none, pend := [], notes := [], preempt := none, position := 0, stores := [], fetched := [],
    told := false }

/-- A lot of a core (R38-R40): state code, owner slot, registered routine, the claim that has selected it, and the
placement that held it last (R267). -/
structure Lot where
  st : BitVec 2
  owner : BitVec 3
  routine : Word
  claim : Option Nat
  lastUid : Nat
  deriving DecidableEq, Repr

/-- A free lot. -/
def Lot.free : Lot := ⟨0, 0, 0, none, 0⟩

/-- A claim in progress (R40): claimer slot and placement, address of the CLAIM, kind, count, mode, routine, the lots it has selected and those
that have passed to it, its outcome, and the recalls refused, each by its lots and the cycle of the refusal. -/
structure Claim where
  id : Nat
  slot : Nat
  uid : Nat
  pc : Word
  kind : Nat
  n : Nat
  status : Bool
  routine : Word
  lots : Nat
  got : Nat
  outcome : Option Nat
  refused : List (Nat × Nat)
  seen : Nat
  deriving DecidableEq, Repr

/-- What the engine keeps beside an accumulator row (R275): CHK and the recorded arrival word. -/
structure RowInfo where
  chk : BitVec 32
  arr : Option Word
  deriving DecidableEq, Repr

/-- Tile states (R268). -/
inductive TileState where
  | invalid | valid | filling | reload
  deriving DecidableEq, Repr

/-- A tile (R265, R268): weight codes by 256 k + j, scales by 256 g + j (0x7F where none is listed), attachment and source,
and the transfer that fills it. Its checksum columns C and U are functions of the codes and scales (R275). -/
structure Tile where
  st : TileState
  fx : BitVec 4
  w : Tab (BitVec 16)
  ts : Tab (BitVec 8)
  tok : Option Nat
  base : Nat
  rs : Int
  fill : Option Nat
  deriving DecidableEq, Repr

/-- A cleared tile (R268). -/
def Tile.cleared : Tile := ⟨.invalid, 0, [], [], none, 0, 0, none⟩

/-- A core (R7): lots, claims, accumulator store, tiles, scratchpad, lane generators, and the recheck queue, the hart of each
entry, oldest first (R322). `version` counts changes of its lots, for R40's retries. -/
structure Core where
  lots : Tab Lot
  claims : List Claim
  window : Nat
  nextClaim : Nat
  version : Nat
  acc : Tab (BitVec 32)
  rows : Tab RowInfo
  tiles : Tab Tile
  scratch : Tab Byte
  gens : Tab Word
  rechecks : List Nat
  deriving DecidableEq, Repr

/-- A core nothing has touched since a start (R355). -/
def Core.vacant : Core := ⟨[], [], 0, 0, 0, [], [], [], [], [], []⟩

/-- A line of a grove L2 (R117, R118): the bits it holds, which of them it holds, which are dirty, and its stamp. -/
structure Line where
  data : BitVec 512
  valid : BitVec 512
  dirty : BitVec 512
  stamp : BitVec 8
  deriving DecidableEq, Repr

/-- A line of a scalar L1 (R104, R106): its core, the address space and number of its virtual line, the physical line it was filled
from, and which bits it holds. Their values are those of the grove L2 (R116). -/
structure L1Line where
  core : Nat
  asid : Nat
  vline : Nat
  pline : Nat
  held : BitVec 512
  deriving DecidableEq, Repr

/-- A grove's L2 (R116-R118), what its directory records of the scalar L1s of its cores (R106), and its retention state (R382);
`idleAt` is a time. -/
structure Grove where
  lines : Tab Line
  l1 : List L1Line
  gen : BitVec 8
  asleep : Bool
  d : Nat
  idleAt : Nat
  deriving DecidableEq, Repr

/-- A grove nothing has touched. -/
def Grove.vacant : Grove := ⟨[], [], 0, false, 0, 0⟩

/-- One mapped page (R101): address space, virtual base, log2 of its size in bits, physical base, permissions, and
whether its entry is one a walk faults on (R173). -/
structure Mapping where
  asid : Nat
  va : Nat
  sz : Nat
  pa : Nat
  r : Bool
  w : Bool
  x : Bool
  bad : Bool
  deriving DecidableEq, Repr

/-- A packet in a yard queue (R32), with the address it came from and the address space of its launcher. -/
structure QPacket where
  pkt : BitVec 1024
  addr : Nat
  asid : Nat
  deriving DecidableEq, Repr

/-- A launch queue of a yard (R33, R34). -/
structure YardQ where
  packets : List QPacket
  halted : Bool
  deriving DecidableEq, Repr

/-- An empty launch queue. -/
def YardQ.empty : YardQ := ⟨[], false⟩

/-- A farm (R27-R30, R34, R36). `wanted` is the number of followers still to place, after a FARM; `leadRegs` and `leadToks`
hold the lead's registers and tokens at the FARM; `alive` counts its harts that have not ended and `running` those of them
that stand in a slot; `since` is the time its unmet demand began; `full` says that no core suited its next follower when it
was last looked for; `deficit` is what is left of its round's quantum of hart-cycles, as of the cycle `counted`. -/
structure Farm where
  id : Nat
  pkt : BitVec 1024
  asid : Nat
  die : Nat
  counter : Nat
  total : Nat
  leadPlaced : Bool
  opened : Bool
  wanted : Nat
  entry : Word
  leadRegs : Tab Word
  leadToks : Tab Token
  placed : Nat
  alive : Nat
  running : Nat
  since : Nat
  full : Bool
  deficit : Int
  counted : Nat
  deriving DecidableEq, Repr

/-- A resident model context (R361), the unchecked retirements counted for it (R372), its last LWAIT (R367) and the save
areas taken from its pool (R373). -/
structure Ctx where
  mctx : Nat
  lrt : Nat
  src : Nat
  saveBase : Nat
  saveLen : Nat
  quota : Nat
  asid : Nat
  hq : Nat
  recheck : Nat
  eprio : Nat
  nlayer : Nat
  unchecked : Nat
  lastLwait : Option Nat
  areas : List (Nat × Nat)
  deriving DecidableEq, Repr

/-- Where a layer's swap stands: it waits for pages, it is being filled, or it is leaving. -/
inductive SwapPhase where
  | needPages | filling | evicting
  deriving DecidableEq, Repr

/-- A layer transfer or eviction (R51, R366-R369): `again` says that a leaving layer has been asked for, and `evict` that a
LEVICT waits for an arriving one. -/
structure Swap where
  mctx : Nat
  layer : Nat
  phase : SwapPhase
  pages : List Nat
  since : Nat
  again : Bool
  req : Nat
  evict : Bool
  deriving DecidableEq, Repr

/-- What the next step is: a hart's stem side, a hart's vector unit, a whole step that no word encodes (an input from
outside, or an event of the device), or a choice the manual leaves to the device or to software outside the model. -/
inductive Sel where
  | stem (h : Nat)
  | vec (h : Nat)
  | event (i : Instr)
  /-- The stem of hart `h`; a load, a store or an atomic it executes is performed later (R142). -/
  | stemLate (h : Nat)
  /-- The vector side of hart `h`; what it stores is performed later (R142). -/
  | vecLate (h : Nat)
  /-- The access of number `i` among those hart `h` has not performed is performed (R142). -/
  | drain (h i : Nat)
  /-- Hart `h` fetches the stem word at `a` ahead (R386). -/
  | prefetch (h a : Nat)
  /-- The bolt of number `seq` of hart `h` has its word at `a` fetched ahead (R12, R386). -/
  | prefetchBolt (h seq a : Nat)
  /-- The flume bound to register `v` of hart `h` reads stream element `n` ahead of its strip (R134). -/
  | flumeAhead (h v n : Nat)
  /-- A COPY or COPYM fills the next row of bank `k` in the page it has reached (R131, R136). -/
  | moveXfer (id k : Nat)
  /-- The oldest entry of a core's recheck queue agrees and retires (R322). -/
  | recheck (k : Nat)
  /-- Firmware asks for the pre-emption of hart `h` (R317). -/
  | preempt (h : Nat)
  /-- The next access of hart `h` to the host bit address `pa` completes with an abort, an unsupported request or poison
  (R307). -/
  | hostAbort (h pa : Nat)
  /-- The host reads `size` bytes at an offset of BAR 0 of a port (R342). -/
  | bar0Read (port off size : Nat)
  /-- The host gives BAR 2 the size 2^lg GiB (R344). -/
  | bar2Size (lg : Nat)
  /-- System software replaces the page tables by another way than UNMAP or MIGRATE (R370). -/
  | pageTable (maps : List Mapping)
  /-- Firmware writes ELOGSEL (R378). -/
  | elogSelect (v : Word)
  /-- The host stores `size` bits in its own memory, at a bit offset (R347, R349). -/
  | hostStore (off size v : Nat)
  /-- A debug session takes hold of hart `h` through the Hunik mailbox, or lets it go (R208). -/
  | debugHold (h : Nat) (on : Bool)
  /-- The memory-side cache of its home gives up line `l` (R104). -/
  | mscEvict (l : Nat)
  deriving DecidableEq, Repr

/-- A MIGRATE in progress (R129), or an UNMAP (R370) when `unmap`: `moved` after its step 5, and `queue` holds the accesses
that wait at the old home, in their order. -/
structure Mig where
  id : Nat
  unmap : Bool
  asid : Nat
  va : Nat
  ext : Nat
  pa : Nat
  newPa : Nat
  sz : Nat
  moved : Bool
  queue : List Sel
  deriving DecidableEq, Repr

/-- The engine operations (R197-R203, R270). -/
inductive XferKind where
  | copy | copym | mcast | redst | sld | tldf
  deriving DecidableEq, Repr

/-- An engine transfer in flight (R135, R197): issuer, counter, operands as read at issue, bounding ranges (those of a
collective's destinations stand in its descriptor), arrival word, the bolts it stands behind, and the bolt whose TLDF it is (R270).
Of a COPY or COPYM the first `done` bits have been moved, and in the page it has reached each bank's arrival pointer stands in
`banks` (R136). -/
structure Xfer where
  id : Nat
  hart : Nat
  uid : Nat
  asid : Nat
  cn : Nat
  kind : XferKind
  dst : Nat
  src : Nat
  len : Nat
  dims : Tab Dim
  desc : BitVec 1024
  stride : Int
  first : Nat
  tile : Nat
  fx : BitVec 4
  srcLo : Nat
  srcHi : Nat
  dstLo : Nat
  dstHi : Nat
  arr : Option Nat
  behind : List Nat
  bolt : Option Nat
  done : Nat
  banks : Tab Nat
  deriving DecidableEq, Repr

/-- An error a protected structure holds (R324, R374, R377): structure, place, word, whether it is uncorrectable, and
whether it has been found and poisoned. -/
structure Upset where
  s : Nat
  place : Nat
  word : Nat
  unc : Bool
  poisoned : Bool
  deriving DecidableEq, Repr

/-- A saved context (R319, R320): the hart, the lots it held by class, and the contents that went with them, by index
within the lots held, with the errors that travel with the data (R377) and the old pages its tokens keep (R370); while it is
restored, the slot it goes to and the claims that reobtain its negotiated lots (R48). -/
structure Saved where
  hart : Hart
  number : Nat
  farm : Nat
  g : Nat
  lots : List (Nat × Lot)
  acc : Tab (BitVec 32)
  rows : Tab RowInfo
  tiles : Tab Tile
  scratch : Tab Byte
  gens : List Word
  errors : List Upset
  tlb : List Mapping
  area : Nat
  len : Nat
  dest : Option Nat
  claims : List Nat
  deriving DecidableEq, Repr

/-- An open host queue (R347, R350); `tail` is TAIL as its foreman last read it, and `copy` the packet it has copied and whose
LAUNCH waits (R348). -/
structure HostQ where
  hqid : Nat
  die : Nat
  yq : Nat
  base : Nat
  ctrl : Nat
  ctx : List Nat
  maxPrio : Nat
  log2n : Nat
  head : Nat
  tail : Nat
  copy : Option Nat
  closing : Option Nat
  deriving DecidableEq, Repr

/-- An event record (R351). -/
structure Event where
  cls : Nat
  cause : Nat
  hart : Nat
  mctx : Nat
  info : Word
  addr : Word
  data : List Word
  deriving DecidableEq, Repr

/-- A window this device opened for a peer (R346). -/
structure Window where
  link : Nat
  base : Nat
  ext : Nat
  write : Bool
  reduce : Bool
  deriving DecidableEq, Repr

/-- How the host's last access completed. -/
inductive Completion where
  | ok | unsupported | retry | poisoned
  deriving DecidableEq, Repr

/-- The host's side (R342-R353): mailbox slot, whether its command has been accepted, HSTAT counters, BAR windows, event ring,
vectors, host queues and which of a die's has the next turn (R348), peer windows and links. `sent` lists the interrupt messages sent (port, vector), newest first. `out` and `how` are the
completion of the host's last access (the model's own fields, log 21). -/
structure HostSide where
  mbHdr : Word
  mbWords : Tab Word
  accepted : Bool
  mbovr : Bool
  evdrop : Nat
  w2base : Word
  barLog : Nat
  ring : Option (Nat × Nat × Nat)
  evCount : Nat
  vecs : Tab (Nat × Nat)
  pba : Tab Word
  msix : Tab Word
  queues : List HostQ
  turn : Tab Nat
  windows : List Window
  linkDown : Nat
  portDown : Nat
  atomicEn : Bool
  sent : List (Nat × Nat)
  out : Nat
  how : Completion
  deriving DecidableEq, Repr

/-- Start states (R354). -/
inductive StartState where
  | off | verify | train | restore | init | ready | failed
  deriving DecidableEq, Repr

/-- A configuration image (R354, R359, R375, R378, R380-R384): its length in bits and its bits as stored, whether it is
accepted, its settings, and what fuses would hold. -/
structure Image where
  len : Nat
  bits : Nat
  ok : Bool
  tvec : Word
  scrub : List Word
  elogc : List Word
  reportS : Nat
  retIdleMs : Nat
  pcap : Nat
  recheck : Nat
  serial : Word
  version : Word
  laneMaps : List Word
  hbmTiming : List Word
  voltFreq : List Word
  cert : List Word
  deriving DecidableEq, Repr

/-- The measurements of a start (R355, R360): configuration image, Hunik firmware, foreman code, default handler. -/
structure Measures where
  image : BitVec 512
  firmware : BitVec 512
  foreman : BitVec 512
  handler : BitVec 512
  deriving DecidableEq, Repr

/-- A code image of the package (R355, R359): its length in bits and its bits as stored, and whether it is accepted. -/
structure CodeImage where
  len : Nat
  bits : Nat
  ok : Bool
  deriving DecidableEq, Repr

/-- Start-up state (R343, R354-R357): pins, state, kind, counters, images; `img` is the slot in use and `sel` the slot of the
next start. `measured` is what the last start measured. `bootAt` and `readyAt` are times (`State.time`). -/
structure Boot where
  st : StartState
  kind : Nat
  lastFail : Nat
  wfail : Nat
  img : Nat
  sel : Nat
  slotA : Image
  slotB : Image
  firmware : CodeImage
  foreman : CodeImage
  handler : CodeImage
  measured : Measures
  startNo : Nat
  bootAt : Nat
  readyAt : Nat
  powerGood : Bool
  perst : Bool
  frozen : Bool
  hbmValid : Bool
  initDone : Bool
  port1Up : Bool
  hunikHalted : Bool
  deriving DecidableEq, Repr

/-- The memories behind the groves (R104, R109): the lines the memory-side caches hold, with the dirty ones marked, and the row
buffers of each HBM bank, the last used first, each its row and whether it is dirty. The data of a line is `State.dev`'s. -/
structure Hbm where
  msc : Tab (Option Bool)
  rows : Tab (List (Nat × Bool))
  deriving DecidableEq, Repr

/-- Reliability and power state (R358, R375-R384, R115, R208). `dbgHarts` lists the harts that a debug
session holds and `dbgHalted` the placements that it has halted at a BKPT. `dieDown` lists the die links and bonds that are down
(R374), each by structure and place; `reportAt` is a time. -/
structure Reliab where
  scrub : Tab Word
  elogc : Tab Word
  elogs : Tab (List (BitVec 128))
  elogsel : Word
  errCount : Tab Nat
  lastCauses : List (Nat × Nat × Nat × Word)
  upsets : List Upset
  squashes : Nat
  unchecked : Nat
  mxBad : Nat
  saved : Nat
  mhz : Nat
  duty : Nat
  reason : Nat
  dbgHarts : List Nat
  dbgHalted : List Nat
  rotP : Tab Nat
  reportAt : Nat
  dieDown : List (Nat × Nat)
  deriving DecidableEq, Repr

/-- The device. `pool` lists the pages of `Config.swapPool` in use, `noReply` the host accesses of harts that will fail, each
by hart, kind of R307 and address, `askRot` the die whose yard each yard asks next (R35), and `fwAreas` the save areas taken
from the pool firmware holds (R373); the model's own fields are `cycle`, `time`, `free`, `cur`, `rotor`, `nextUid`, `late` and
`agenda` (log 2 to 5, 15). -/
structure State where
  cycle : Nat
  time : Nat
  free : Nat
  cur : Nat
  rotor : Nat
  nextUid : Nat
  late : Bool
  agenda : List Sel
  harts : Tab Hart
  cores : Tab Core
  groves : Tab Grove
  dev : List Host.Cell
  hbm : Hbm
  hostMem : List Host.Cell
  maps : List Mapping
  pool : List Nat
  yardQs : Tab YardQ
  yardRot : Tab Nat
  askRot : Tab Nat
  farms : List Farm
  ctxs : List Ctx
  swaps : List Swap
  migs : List Mig
  xfers : List Xfer
  saved : List Saved
  fwAreas : List (Nat × Nat)
  noReply : List (Nat × Nat × Nat)
  host : HostSide
  boot : Boot
  rel : Reliab
  deriving DecidableEq, Repr

/-- The host side after power-on: HSTAT, W2BASE and the mailbox header read zero (R343-R345); log 9, 10. -/
def HostSide.initial : HostSide :=
  { mbHdr := 0, mbWords := [], accepted := false, mbovr := false, evdrop := 0, w2base := 0, barLog := 10, ring := none, evCount := 0,
    vecs := [], pba := [], msix := [], queues := [], turn := [], windows := [], linkDown := 0, portDown := 0, atomicEn := false,
    sent := [], out := 0, how := .ok }

/-- The image of the model's slots: it verifies, names the default handler, and holds Gladun's sea-level settings where
the manual gives them (R381; log 11). -/
def Image.initial : Image :=
  { len := 0, bits := 0, ok := true, tvec := 0x00F0000000000000,
    scrub := [0xA003, 0xA003, 0x3C003, 0x258003, 0xA8C0003], elogc := [0x8000000, 0x8000000, 0x8000000, 0x8000000, 0x8000000],
    reportS := 60, retIdleMs := 100, pcap := 5400, recheck := 1, serial := 0, version := 0, laneMaps := [], hbmTiming := [],
    voltFreq := [], cert := [] }

/-- No measurement taken. -/
def Measures.none : Measures := ⟨0, 0, 0, 0⟩

/-- Start-up state before power: OFF, PERST# asserted, with code images that verify (R354; log 11, 12). -/
def Boot.initial : Boot :=
  { st := .off, kind := 0, lastFail := 0, wfail := 0, img := 0, sel := 0, slotA := .initial, slotB := .initial, firmware := ⟨0, 0, true⟩, foreman := ⟨0, 0, true⟩,
    handler := ⟨0, 0, true⟩, measured := .none,
    startNo := 0, bootAt := 0, readyAt := 0, powerGood := false, perst := true, frozen := false, hbmValid := false,
    initDone := false, port1Up := false, hunikHalted := false }

/-- Reliability state before power. -/
def Reliab.initial : Reliab :=
  { scrub := [], elogc := [], elogs := [], elogsel := 0, errCount := [], lastCauses := [], upsets := [], squashes := 0,
    unchecked := 0, mxBad := 0, saved := 0, mhz := 1050, duty := 0, reason := 0, dbgHarts := [], dbgHalted := [], rotP := [], reportAt := 0,
    dieDown := [] }

/-- The device right after reset: OFF, with every array empty (R343, R354, R355). -/
def State.reset : State :=
  { cycle := 0, time := 0, free := 0, cur := 0, rotor := 0, nextUid := 1, late := false, agenda := [], harts := [],
    cores := [], groves := [], dev := [], hbm := ⟨[], []⟩, hostMem := [], maps := [], pool := [], yardQs := [], yardRot := [], askRot := [],
    farms := [], ctxs := [], swaps := [], migs := [], xfers := [], saved := [], fwAreas := [], noReply := [],
    host := .initial, boot := .initial, rel := .initial }

end Sys2Proof.Machine
end

