-- ==== Sys2Proof/Machine/Maps.lean ====
section
/-!
DEFINITION. Tables by number and memories of bytes: the lookups and updates every other file goes through, and the reads
and writes of a range of bits (R101, R102).
-/
namespace Sys2Proof.Machine

open Sys2Proof

/-- What a table holds at `k`: the default `d` where it lists nothing. -/
def Tab.get {α : Type} (d : α) : Tab α → Nat → α
  | [], _ => d
  | (k', v) :: t, k => if k' = k then v else Tab.get d t k

/-- The table without number `k`. -/
def Tab.del {α : Type} : Tab α → Nat → Tab α
  | [], _ => []
  | (k', v) :: t, k => if k' = k then Tab.del t k else (k', v) :: Tab.del t k

/-- The table with `v` at `k`, ascending where it was. -/
def Tab.put {α : Type} : Tab α → Nat → α → Tab α
  | [], k, v => [(k, v)]
  | (k', v') :: t, k, v =>
    if k' = k then (k, v) :: t
    else if k < k' then (k, v) :: (k', v') :: t
    else (k', v') :: Tab.put t k v

/-- The table with `v` at `k`; an entry equal to the default `d` is not listed. -/
def Tab.set {α : Type} [DecidableEq α] (d : α) (t : Tab α) (k : Nat) (v : α) : Tab α :=
  if v = d then Tab.del t k else Tab.put t k v

/-- Canonical form of a table: numbers strictly ascending, none listed with the default. -/
def Tab.wf {α : Type} [DecidableEq α] (d : α) : Tab α → Bool
  | [] => true
  | [(_, v)] => decide (v ≠ d)
  | (k, v) :: (k', v') :: t => decide (k < k') && decide (v ≠ d) && Tab.wf d ((k', v') :: t)

/-- The first entry of an option list that answers. -/
def firstSome {α β : Type} (f : α → Option β) : List α → Option β
  | [] => none
  | a :: t => match f a with
    | some b => some b
    | none => firstSome f t

/-- The numbers below `n`, ascending from `k`. -/
def upFrom (k : Nat) : Nat → List Nat
  | 0 => []
  | n + 1 => k :: upFrom (k + 1) n

/-- The numbers below `n`, ascending. -/
def upTo (n : Nat) : List Nat := upFrom 0 n

/-- Bit `i` of a set of numbers held as a natural number. -/
def Bits.has (m i : Nat) : Bool := m.testBit i
/-- The set of the numbers below `n`. -/
def Bits.below (n : Nat) : Nat := 2 ^ n - 1
/-- The members of a set below `n`, ascending. -/
def Bits.members (m n : Nat) : List Nat := (upTo n).filter (Bits.has m)
/-- The set of a list of numbers. -/
def Bits.ofList (l : List Nat) : Nat := l.foldl (fun m i => m ||| 2 ^ i) 0
/-- The set without the members of `b`. -/
def Bits.diff (a b : Nat) : Nat := a ^^^ (a &&& b)
/-- How many members a set has below `n`. -/
def Bits.count (m n : Nat) : Nat := (Bits.members m n).length
/-- The least member below `n`. -/
def Bits.lowest (m n : Nat) : Option Nat := (Bits.members m n).head?

/-- Bits `hi` to `lo` of a number. -/
def field (x hi lo : Nat) : Nat := (x >>> lo) % 2 ^ (hi + 1 - lo)

/-- A number of `w` bits read as two's complement. -/
def signed (x w : Nat) : Int := if x.testBit (w - 1) then (x : Int) - 2 ^ w else x
/-- An integer modulo `2^w`. -/
def wrap (x : Int) (w : Nat) : Nat := (x % 2 ^ w).toNat
/-- A word read as two's complement. -/
def Word.int (x : Word) : Int := x.toInt
/-- An integer as a word. -/
def word (x : Int) : Word := BitVec.ofInt 64 x
/-- A natural number as a word. -/
def nword (x : Nat) : Word := BitVec.ofNat 64 x

/-- A memory of bytes; an unlisted address reads zero (log 6). -/
abbrev Memory := List Host.Cell
/-- The byte at host byte address `k`. -/
def Memory.byte (m : Memory) (k : Nat) : Byte := Tab.get 0 m k
/-- Canonical form of a memory. -/
def Memory.wf (m : Memory) : Bool := Tab.wf (0 : Byte) m
/-- The `n` bytes from byte `k`, the first the least significant (R102). -/
def Memory.bytes (m : Memory) (k : Nat) : Nat → Nat
  | 0 => 0
  | n + 1 => (Memory.byte m k).toNat + 256 * Memory.bytes m (k + 1) n

/-- How many bytes hold bits of the `w` bits from `a`. -/
def byteSpan (a w : Nat) : Nat := (a % 8 + w + 7) / 8
/-- What a memory lists of the `n` bytes from `k`. -/
def Memory.window (m : Memory) (k n : Nat) : Memory := m.filter (fun c => decide (k ≤ c.1) && decide (c.1 < k + n))

/-- read_bits (R72, R102): bit i of the value is bit a+i of memory. -/
def Memory.read (m : Memory) (a w : Nat) : Nat :=
  let n := byteSpan a w
  (Memory.bytes (m.window (a / 8) n) (a / 8) n >>> (a % 8)) % 2 ^ w

/-- Byte `k` with the bits under a mask replaced. -/
def Memory.merged (m : Memory) (k mask v : Nat) : Byte :=
  let mb := BitVec.ofNat 8 mask
  if mb = 255 then BitVec.ofNat 8 v else (Memory.byte m k &&& ~~~mb) ||| (BitVec.ofNat 8 v &&& mb)
/-- The bytes from `k` with bits of `v` under `mask`, as they are listed. -/
def Memory.cells (m : Memory) (k mask v : Nat) : Nat → Memory
  | 0 => []
  | n + 1 =>
    let b := m.merged k mask v
    let t := Memory.cells m (k + 1) (mask / 256) (v / 256) n
    if b = 0 then t else (k, b) :: t

/-- write_bits (R72, R123): exactly the `w` bits from `a` change, to those of `v`. -/
def Memory.write (m : Memory) (a w v : Nat) : Memory :=
  let k := a / 8
  let n := byteSpan a w
  m.filter (fun c => decide (c.1 < k)) ++ m.cells k ((2 ^ w - 1) <<< (a % 8)) ((v % 2 ^ w) <<< (a % 8)) n ++
    m.filter (fun c => decide (k + n ≤ c.1))

end Sys2Proof.Machine
end

