-- ==== Sys2Proof/Machine/Ops.lean ====
section
/-!
DEFINITION. The named operations over the state: harts, cores, lots and registers; memory at its levels and scopes
(R101-R123), translation and its checks (R173), errors in data (R321-R324, R377, R378), events (R351, R352), and taking
and leaving a trap (R300-R302, R387).
-/
namespace Sys2Proof.Machine

open Sys2Proof

/-! ### Units -/

/-- Core of a hart (R8). -/
def coreOf (h : Nat) : Nat := h / 8
/-- Slot of a hart (R8). -/
def slotOf (h : Nat) : Nat := h % 8
/-- Grove of a hart, numbered over the device (R8). -/
def groveOf (h : Nat) : Nat := h / 64
/-- Crown die of a hart (R8). -/
def dieOf (h : Nat) : Nat := h / 384
/-- The number of harts (R7). -/
def numHarts : Nat := 1536
/-- A foreman's slot (R9). -/
def isForeman (h : Nat) : Bool := h % 384 == 7

/-- The hart with a number. -/
def State.hart (s : State) (h : Nat) : Hart := Tab.get Hart.vacant s.harts h
/-- The state with a hart replaced. -/
def State.setHart (s : State) (h : Nat) (x : Hart) : State := { s with harts := Tab.put s.harts h x }
/-- The hart whose instruction runs. -/
def State.me (s : State) : Hart := s.hart s.cur
/-- The state with the running hart changed. -/
def State.modMe (s : State) (f : Hart → Hart) : State := s.setHart s.cur (f s.me)
/-- The core with a number. -/
def State.core (s : State) (c : Nat) : Core := Tab.get Core.vacant s.cores c
/-- The state with a core replaced. -/
def State.setCore (s : State) (c : Nat) (x : Core) : State := { s with cores := Tab.put s.cores c x }
/-- The core of the running hart. -/
def State.myCore (s : State) : Core := s.core (coreOf s.cur)
/-- The state with the core of the running hart changed. -/
def State.modMyCore (s : State) (f : Core → Core) : State := s.setCore (coreOf s.cur) (f s.myCore)
/-- The grove with a number. -/
def State.grove (s : State) (g : Nat) : Grove := Tab.get Grove.vacant s.groves g
/-- The state with a grove replaced. -/
def State.setGrove (s : State) (g : Nat) (x : Grove) : State := { s with groves := Tab.put s.groves g x }

/-! ### Scalar registers and the PC -/

/-- Scalar register `r`; s0 reads zero (R10). -/
def Hart.reg (x : Hart) (r : Reg) : Word := if r = 0 then 0 else Tab.get 0 x.regs r.toNat
/-- A write of scalar register `r`; one to s0 is discarded (R10, R166). -/
def Hart.setReg (x : Hart) (r : Reg) (v : Word) : Hart :=
  if r = 0 then x else { x with regs := Tab.set 0 x.regs r.toNat v }
/-- Control moves to `t`. -/
def Hart.jump (x : Hart) (t : Word) : Hart := { x with pc := t, wrapFrom := none, wait := none }
/-- The PC advances by 32 bits (R166); past the last slot, the next fetch finds ADDR_WRAP (R307). -/
def Hart.advance (x : Hart) : Hart :=
  { x with pc := x.pc + 32, wrapFrom := if x.pc = 0xFFFFFFFFFFFFFFE0 then some x.pc else none, wait := none }

/-- A hart's bolts changed, wherever it keeps them. -/
def Hart.mapBolts (x : Hart) (f : Bolt → Bolt) : Hart :=
  { x with bolts := x.bolts.map f, frames := x.frames.map (fun (y : Frame) => { y with bolts := y.bolts.map f }) }

/-! ### Fields of the status registers -/

/-- PSTAT.TDEPTH (R298). -/
def Hart.depth (x : Hart) : Nat := (x.pstat.extractLsb' 14 2).toNat
/-- PSTAT.VT. -/
def Hart.vt (x : Hart) : Bool := x.pstat.getLsbD 13
/-- PSTAT.CEN. -/
def Hart.cen (x : Hart) : Bool := x.pstat.getLsbD 12
/-- PSTAT.STEP. -/
def Hart.stepBit (x : Hart) : Bool := x.pstat.getLsbD 11
/-- PSTAT.VSTEP. -/
def Hart.vstepBit (x : Hart) : Bool := x.pstat.getLsbD 10
/-- PSTAT.NEN. -/
def Hart.nen (x : Hart) : Bool := x.pstat.getLsbD 9
/-- PSTAT with its depth and VT replaced. -/
def pstatWith (p : Word) (depth : Nat) (vt : Bool) : Word :=
  (p &&& 0xFFFFFFFFFFFF1FFF) ||| (BitVec.ofNat 64 (depth % 4) <<< 14) ||| (if vt then 0x2000 else 0)
/-- Granted lanes G counted for a hart (R22, R26). -/
def Hart.lc (x : Hart) : Nat := (x.vtype.extractLsb' 8 8).toNat
/-- G: eight lanes for each lane cluster counted (R22). -/
def Hart.g (x : Hart) : Nat := 8 * Bits.count x.lc 8
/-- Inside a surrender routine. -/
def Hart.inRoutine (x : Hart) : Bool := x.routine.isSome
/-- VTYPE from the record of the last VCFG and the counted clusters (R26). -/
def vtypeOf (cfg : VCfg) (lc : Nat) : Word :=
  let swc := if cfg.sw = 8 then 0 else if cfg.sw = 16 then 1 else if cfg.sw = 32 then 2 else 3
  let g := 8 * Bits.count lc 8
  if cfg.nreg = 0 then nword (g * 2 ^ 25 + lc * 2 ^ 8)
  else nword (g * 2 ^ 25 + 2 ^ 24 + cfg.blk * 2 ^ 20 + swc * 2 ^ 18 + lc * 2 ^ 8 + cfg.nreg)
/-- MVL of R22 and R24. -/
def mvlOf (cfg : VCfg) (lc : Nat) : Nat :=
  if cfg.nreg = 0 then 0 else 8 * Bits.count lc 8 * (65536 / (cfg.nreg * cfg.sw))

/-! ### Lots (R38, R39) -/

/-- How many lots a kind has: lane clusters, slabs, quarters, the matrix engine. -/
def lotCount (kind : Nat) : Nat := if kind = 0 then 8 else if kind = 1 then 8 else if kind = 2 then 4 else 1
/-- Number of a lot in `Core.lots`. -/
def lotKey (kind i : Nat) : Nat := (if kind = 0 then 0 else if kind = 1 then 8 else if kind = 2 then 16 else 20) + i
/-- A lot. -/
def Core.lot (c : Core) (kind i : Nat) : Lot := Tab.get Lot.free c.lots (lotKey kind i)
/-- A lot replaced; every change counts for the claims that retry (R40). -/
def Core.setLot (c : Core) (kind i : Nat) (l : Lot) : Core :=
  { c with lots := Tab.set Lot.free c.lots (lotKey kind i) l, version := c.version + 1 }
/-- Hart slot `sl` holds the lot. -/
def Core.holds (c : Core) (sl kind i : Nat) : Bool :=
  let l := c.lot kind i
  decide (i < lotCount kind) && decide (l.st ≠ 0) && decide (l.owner.toNat = sl)
/-- The running hart holds the lot. -/
def State.holds (s : State) (kind i : Nat) : Bool := s.myCore.holds (slotOf s.cur) kind i
/-- LANEPART (R39). -/
def Core.lanepart (c : Core) : Word :=
  let one (i : Nat) : Nat :=
    let l := c.lot 0 i
    l.st.toNat * 2 ^ (24 + 2 * i) + (if l.st = 0 then 0 else l.owner.toNat * 2 ^ (3 * i))
  let mx := c.lot 3 0
  nword ((upTo 8).foldl (fun n i => n + one i) (mx.st.toNat * 2 ^ 40 + if mx.st = 0 then 0 else mx.owner.toNat * 2 ^ 42))
/-- LOTMAP (R39). -/
def Core.lotmap (c : Core) : Word :=
  let five (l : Lot) : Nat := l.st.toNat * 8 + if l.st = 0 then 0 else l.owner.toNat
  nword ((upTo 8).foldl (fun n i => n + five (c.lot 1 i) * 2 ^ (5 * i))
    ((upTo 4).foldl (fun n i => n + five (c.lot 2 i) * 2 ^ (40 + 5 * i)) 0))

/-! ### Device and host memory at the home (R107) -/

/-- An address in device memory. -/
def isDev (pa : Nat) : Bool := decide (pa < 3 * 2 ^ 41)
/-- An address in host memory. -/
def isHost (pa : Nat) : Bool := decide (2 ^ 50 ≤ pa) && decide (pa < 2 ^ 52)
/-- The port a host address is reached through. -/
def hostPort (pa : Nat) : Nat := if pa < 2 ^ 51 then 0 else 1
/-- Bit offset of a host address in host memory, from the start of its port's range; both ports reach one memory (log 6). -/
def hostOff (pa : Nat) : Nat := if pa < 2 ^ 51 then pa - 2 ^ 50 else pa - 2 ^ 51
/-- The home root die of an address of device memory (R107). -/
def homeDie (pa : Nat) : Nat := field pa 25 24
/-- Its column set: the MSC slice of its home die, and the grove L2 slice. -/
def columnOf (pa : Nat) : Nat := field pa 11 9
/-- Its channel within the column set. -/
def channelOf (pa : Nat) : Nat := (field pa 42 26 * 2 ^ 12 + field pa 23 12) % 12
/-- Bits at the home. -/
def State.homeRead (s : State) (pa w : Nat) : Nat :=
  if isDev pa then Memory.read s.dev pa w
  else if isHost pa then Memory.read s.hostMem (hostOff pa) w
  else 0
/-- A row opened in its HBM bank (R109): a hit goes to the front, and a miss takes the least recently used of four buffers. -/
def Hbm.openRow (x : Hbm) (l : Nat) (write : Bool) : Hbm :=
  let k := Config.bankOf l
  let r := Config.rowOf l
  let bufs := Tab.get [] x.rows k
  let hit := bufs.find? (fun p => decide (p.1 = r))
  let rest := match hit with
    | some _ => bufs.filter (fun p => decide (p.1 ≠ r))
    | none => bufs.take 3
  { x with rows := Tab.set [] x.rows k ((r, write || (hit.map (·.2)).getD false) :: rest) }
/-- A line used in the memory-side cache of its home, which fetches it from HBM where it does not hold it (R104, R109). -/
def Hbm.use (x : Hbm) (write : Bool) (l : Nat) : Hbm :=
  match Tab.get none x.msc l with
  | some d => { x with msc := Tab.set none x.msc l (some (d || write)) }
  | none => let y := x.openRow l false
    { y with msc := Tab.set none y.msc l (some write) }
/-- A line leaves its memory-side cache: a dirty one is written to its row (R104, R109). -/
def Hbm.evict (x : Hbm) (l : Nat) : Hbm :=
  let y := if Tab.get none x.msc l = some true then x.openRow l true else x
  { y with msc := Tab.del y.msc l }
/-- Every dirty line of the memory-side caches written to HBM (R355). -/
def Hbm.clean (x : Hbm) : Hbm :=
  let y := x.msc.foldl (fun y p => if p.2 = some true then y.openRow p.1 true else y) x
  { y with msc := y.msc.map (fun p => (p.1, p.2.map (fun _ => false))) }
/-- The lines of `w` bits from a physical address. -/
def linesOf (pa w : Nat) : List Nat := upFrom (pa / 512) ((pa + w + 511) / 512 - pa / 512)
/-- A line of device memory read at its home. -/
def State.homeUse (s : State) (l : Nat) : State := { s with hbm := s.hbm.use false l }
/-- Bits written at the home. -/
def State.homeWrite (s : State) (pa w v : Nat) : State :=
  if isDev pa then { s with dev := Memory.write s.dev pa w v, hbm := (linesOf pa w).foldl (Hbm.use · true ·) s.hbm }
  else if isHost pa then { s with hostMem := Memory.write s.hostMem (hostOff pa) w v }
  else s
/-- Errors of words wholly written are gone (R377, R324). -/
def State.clearUpsets (s : State) (st place : Nat) (has : Nat → Bool) : State :=
  if s.rel.upsets = [] then s
  else { s with rel := { s.rel with upsets := s.rel.upsets.filter (fun v => !(decide (v.s = st) && decide (v.place = place)
      && has v.word)) } }

/-- A physical word lies wholly in a range. -/
def wholeWord (pa w k : Nat) : Bool := decide (pa ≤ 64 * k) && decide (64 * k + 64 ≤ pa + w)
/-- The words wholly within bits that are written anew at the home lose their errors (R377). -/
def State.cleanPage (s : State) (pa n : Nat) : State :=
  (s.clearUpsets 28 0 (wholeWord pa n)).clearUpsets 31 0 (wholeWord pa n)
/-- Bits that firmware, a foreman or an engine writes at the home, with the errors of the words it wholly writes (R377). -/
def State.homePut (s : State) (pa w v : Nat) : State := (s.homeWrite pa w v).cleanPage pa w

/-! ### Events and interrupts (R351, R352) -/

/-- Units of `State.time` in a microsecond: each clock of R384 divides it (log 3). -/
def ticksPerMicro : Nat := 1058148000
/-- Units of `State.time` in a millisecond. -/
def ticksPerMilli : Nat := 1000 * ticksPerMicro
/-- What a cycle takes at the present clock (R384). -/
def State.period (s : State) : Nat := ticksPerMicro / s.rel.mhz
/-- Nanoseconds since the last start (R351, log 3). -/
def State.nanos (s : State) : Nat := (s.time - s.boot.bootAt) / (ticksPerMicro / 1000)
/-- Milliseconds since the Hunik controller last booted. -/
def State.millis (s : State) : Nat := (s.time - s.boot.bootAt) / ticksPerMilli
/-- The record of an event (R351), its PH bit clear. -/
def eventRecord (e : Event) (time : Nat) : Nat :=
  let d := (upTo 4).foldl (fun n i => n + ((e.data.getD i 0).toNat) * 2 ^ (256 + 64 * i)) 0
  d + (time % 2 ^ 64) * 2 ^ 192 + e.addr.toNat * 2 ^ 128 + e.info.toNat * 2 ^ 64 + (e.hart % 2 ^ 11) * 2 ^ 37
    + (e.cause % 512) * 2 ^ 28 + (e.mctx % 4096) * 2 ^ 16 + (e.cls % 256) * 2 ^ 8
/-- The vector of a class raises its interrupt: a masked vector of the MSI-X table stays pending (R342, R352; log 9). -/
def HostSide.interrupt (x : HostSide) (cls : Nat) : HostSide :=
  let pv := Tab.get (0, 0) x.vecs cls
  let masked := (Tab.get 0 x.msix (128 * pv.1 + 2 * pv.2 + 1)).getLsbD 32
  if masked then { x with pba := Tab.set 0 x.pba pv.1 (Tab.get 0 x.pba pv.1 ||| (1 <<< pv.2)) }
  else { x with sent := pv :: x.sent }
/-- EVDROP counts a dropped event, saturating (R343). -/
def HostSide.drop (x : HostSide) : HostSide := { x with evdrop := min 255 (x.evdrop + 1) }
/-- The Hunik controller posts an event: the record, then its PH bit, or a drop when the ring is full (R351). The Boolean
says that the event was dropped. Without a ring nothing is written (log 22), and a halted controller
posts nothing (R374). -/
def State.post (s : State) (e : Event) : State × Bool :=
  if s.boot.hunikHalted then (s, true) else
  match s.host.ring with
  | none => ({ s with host := s.host.drop }, true)
  | some (base, lg, cons) =>
    let used := s.host.evCount - s.homeRead cons 64
    if 2 ^ lg ≤ used then ({ s with host := s.host.drop }, true)
    else
      let i := s.host.evCount
      let ph := (i / 2 ^ lg + 1) % 2
      let s1 := s.homePut (base + 512 * (i % 2 ^ lg)) 512 (eventRecord e s.nanos + ph)
      ({ s1 with host := { s1.host with evCount := i + 1 }.interrupt e.cls }, false)
/-- An event posted, its fate not asked for. -/
def State.posted (s : State) (e : Event) : State := (s.post e).1
/-- An event of a hart. -/
def State.hartEvent (s : State) (h cls cause : Nat) (info addr : Word) (data : List Word) : Event :=
  { cls := cls, cause := cause, hart := h, mctx := (s.hart h).mctx.toNat, info := info, addr := addr, data := data }

/-! ### Errors found in data (R321-R324, R377-R379) -/

/-- The level whose log takes an error of a structure (R375, R378). -/
def levelOf (st : Nat) : Option Nat :=
  if st = 5 then some 0 else if st = 1 then some 1 else if 24 ≤ st ∧ st ≤ 27 then some 2 else if 28 ≤ st ∧ st ≤ 30 then some 3
  else if st = 31 ∨ st = 32 then some 4 else none
/-- A log entry (R378). -/
def logEntry (addr ms code kind hart : Nat) : BitVec 128 :=
  BitVec.ofNat 128 ((addr % 2 ^ 64) * 2 ^ 64 + (ms % 2 ^ 32) * 2 ^ 32 + (code % 512) * 2 ^ 23 + (kind % 4) * 2 ^ 21
    + (hart % 2048) * 2 ^ 10)
/-- Firmware drains a level's log (R379): each entry is posted, and COUNT, TOTAL and OVF are cleared. A halted controller
drains nothing (R374). -/
def State.drainLog (s : State) (lv : Nat) : State :=
  if s.boot.hunikHalted then s else
  let log := Tab.get [] s.rel.elogs lv
  let c := Tab.get 0 s.rel.elogc lv
  let put (s : State) (e : BitVec 128) : State :=
    s.posted { cls := 7, cause := (e.extractLsb' 23 9).toNat, hart := 0, mctx := 0, info := 1 <<< 56,
               addr := e.extractLsb' 64 64, data := [e.extractLsb' 0 64, nword lv] }
  let s1 := if c.getLsbD 7 then
      s.posted { cls := 7, cause := 0, hart := 0, mctx := 0, info := 2 <<< 56, addr := 0,
                 data := [nword (c.extractLsb' 32 16).toNat, nword lv] }
    else s
  let s2 := log.foldl put s1
  { s2 with rel := { s2.rel with elogs := Tab.set [] s2.rel.elogs lv [],
                                 elogc := Tab.set 0 s2.rel.elogc lv (c &&& 0xFF00007F) } }
/-- An error found: counted by its code, and entered in its level's log, which drains at its threshold (R378, R379). -/
def State.logError (s : State) (addr code kind hart : Nat) : State :=
  let rel := { s.rel with errCount := Tab.set 0 s.rel.errCount (code - 320)
                            ((Tab.get 0 s.rel.errCount (code - 320) + 1) % 2 ^ 32) }
  let s1 := { s with rel := rel }
  match levelOf ((code - 320) / 2) with
  | none => s1
  | some lv =>
    let log := Tab.get [] rel.elogs lv
    let c := Tab.get 0 rel.elogc lv
    let total := min 65535 ((c.extractLsb' 32 16).toNat + 1)
    let full := decide (64 ≤ log.length)
    let log' := if full then log else log ++ [logEntry addr s.millis code kind hart]
    let head := ((c.extractLsb' 0 7).toNat + if full then 0 else 1) % 64
    let thresh := (c.extractLsb' 24 8).toNat
    let c' := nword (total * 2 ^ 32 + thresh * 2 ^ 24 + log'.length * 2 ^ 8
      + (if full || c.getLsbD 7 then 128 else 0) + head)
    let s2 := { s1 with rel := { rel with elogs := Tab.set [] rel.elogs lv log', elogc := Tab.set 0 rel.elogc lv c' } }
    if kind ≠ 0 || (thresh ≠ 0 && decide (thresh ≤ log'.length)) then s2.drainLog lv else s2

/-- The first error a structure holds among words. -/
def State.upsetAt (s : State) (st place : Nat) (has : Nat → Bool) : Option Upset :=
  s.rel.upsets.find? (fun u => decide (u.s = st) && decide (u.place = place) && has u.word)
/-- The 64-bit word of a lane's register file that holds the slot of an element, given by register and element as in
`Hart.vregs` (R23, R374; log 101). -/
def Hart.laneWord (x : Hart) (k : Nat) : Nat :=
  let slots := 65536 / (x.cfg.nreg * x.cfg.sw)
  let e := k % 2 ^ 20
  e % x.g * 1024 + (k / 2 ^ 20 * slots + e / x.g) * x.cfg.sw / 64
/-- The 64-bit word of its structure that a place stands in (R374): of a vector register, a lane word; of the scale file, one of 8
entries; of a mask one of 64 bits, and of a soft predicate one of 4 codes (log 101). -/
def State.wordOfPlace (s : State) (st place n : Nat) : Nat :=
  if st = 0 then (s.hart place).laneWord n
  else if st = 6 then n / 8
  else if st = 7 then (if n < 2 ^ 23 then n / 64 else 2 ^ 17 + (n - 2 ^ 23) / 4)
  else n
/-- A structure's error removed: corrected, or overwritten. A word that is corrected is so for every place in it. -/
def State.clearUpset (s : State) (u : Upset) : State :=
  let word (n : Nat) : Nat := if u.unc then n else s.wordOfPlace u.s u.place n
  { s with rel := { s.rel with upsets := s.rel.upsets.filter (fun v => !(decide (v.s = u.s) && decide (v.place = u.place)
      && decide (word v.word = word u.word) && ((u.s != 0 && u.s != 6 && u.s != 7) || u.unc || !v.unc))) } }
/-! ### Grove L2 (R116-R119) -/

/-- No line. -/
def Line.none : Line := ⟨0, 0, 0, 0⟩
/-- Bits `lo` to `lo+n-1` of a line. -/
def lineMask (lo n : Nat) : BitVec 512 := BitVec.ofNat 512 ((2 ^ n - 1) <<< lo)
/-- A grove's line. -/
def State.line (s : State) (g l : Nat) : Line := Tab.get Line.none (s.grove g).lines l
/-- A grove's line replaced; a line that holds no bit is not listed. -/
def State.setLine (s : State) (g l : Nat) (x : Line) : State :=
  let y := if x.valid = 0 then Line.none else x
  s.setGrove g { s.grove g with lines := Tab.set Line.none (s.grove g).lines l y }
/-- The bits of a mask in 64-bit word `i` of a line. -/
def wordOf (m : BitVec 512) (i : Nat) : BitVec 64 := m.extractLsb' (64 * i) 64
/-- Poison enters a word of a structure (R377). -/
def State.poison (s : State) (st place w : Nat) : State :=
  let s1 := s.clearUpsets st place (fun v => decide (v = w))
  { s1 with rel := { s1.rel with upsets := ⟨st, place, w, true, true⟩ :: s1.rel.upsets } }
/-- A line of a structure is poisoned, each word of it that the structure holds (R374). -/
def State.poisonLine (s : State) (st place w : Nat) : State :=
  (upTo 8).foldl (fun s i =>
    if st = 24 ∧ wordOf (s.line place (w / 8)).valid i = 0 then s else s.poison st place (w / 8 * 8 + i)) s
/-- What cannot be corrected is poisoned where it stands (R374, R377): a line of a grove or of a memory-side cache, and every place
of a word of the register file, the scale file, the masks or the soft predicates. -/
def State.poisonAt (s : State) (u : Upset) : State :=
  if u.s = 24 ∨ u.s = 28 then s.poisonLine u.s u.place u.word
  else
    let s1 := s.poison u.s u.place u.word
    if u.s = 0 ∨ u.s = 6 ∨ u.s = 7 then
      { s1 with rel := { s1.rel with upsets := s1.rel.upsets.map (fun v =>
        if v.s = u.s ∧ v.place = u.place ∧ v.unc ∧ s.wordOfPlace v.s v.place v.word = s.wordOfPlace u.s u.place u.word then
          { v with poisoned := true } else v) } }
    else s1
/-- The bit address of an error, zero for a structure without one (R378). -/
def Upset.addr (u : Upset) : Nat := if u.s = 5 ∨ u.s = 24 ∨ u.s = 28 ∨ u.s = 31 then 64 * u.word else 0
/-- An error met where no hart consumes it: a corrected one is put right, and an uncorrectable one is logged as latent and
poisoned, once (R377). -/
def State.findUpset (s : State) (u : Upset) (hart : Nat) : State :=
  if !u.unc then (s.clearUpset u).logError u.addr (320 + 2 * u.s) 0 hart
  else if u.poisoned then s
  else (s.poisonAt u).logError u.addr (320 + 2 * u.s + 1) 2 hart
/-- Errors as the bits `m` of a grove's line go to the home: whole words clear the home's poison, and the line's own errors
are found, its poison going with the data (R377). -/
def State.carryHome (s : State) (g l : Nat) (m : BitVec 512) : State :=
  if s.rel.upsets = [] then s
  else
    let whole (w : Nat) : Bool := decide (w / 8 = l) && decide (wordOf m (w % 8) = BitVec.allOnes 64)
    let s1 := (s.clearUpsets 28 0 whole).clearUpsets 31 0 whole
    let us := s1.rel.upsets.filter (fun u => decide (u.s = 24) && decide (u.place = g) && decide (u.word / 8 = l) &&
      decide (wordOf m (u.word % 8) ≠ 0))
    let s2 := us.foldl (fun s u => s.findUpset u s.cur) s1
    (s2.rel.upsets.filter (fun u => u.poisoned && decide (u.s = 24) && decide (u.place = g) && decide (u.word / 8 = l) &&
      decide (wordOf m (u.word % 8) ≠ 0))).foldl (fun s u => s.poison 28 0 u.word) s2
/-- Errors of the home found as a line is filled outside the bits `keep`; poison goes with the data (R377). -/
def State.carryIn (s : State) (g l : Nat) (keep : BitVec 512) : State :=
  if s.rel.upsets = [] then s
  else
    let us := s.rel.upsets.filter (fun u => (decide (u.s = 28) || decide (u.s = 31)) && decide (u.word / 8 = l) &&
      decide (wordOf keep (u.word % 8) ≠ BitVec.allOnes 64))
    let s2 := us.foldl (fun s u => s.findUpset u s.cur) s
    (s2.rel.upsets.filter (fun u => u.poisoned && (decide (u.s = 28) || decide (u.s = 31)) && decide (u.word / 8 = l) &&
      decide (wordOf keep (u.word % 8) ≠ BitVec.allOnes 64))).foldl (fun s u => s.poison 24 g u.word) s2

/-- The bits of `mask` of a line written back to the home, one for one (R117). -/
def State.writeBack (s : State) (g l : Nat) (mask : BitVec 512) : State :=
  let m := (s.line g l).dirty &&& mask
  if m = 0 then s
  else
    let s := s.carryHome g l m
    let x := s.line g l
    let old := BitVec.ofNat 512 (s.homeRead (512 * l) 512)
    let s' := s.homeWrite (512 * l) 512 ((old &&& ~~~m) ||| (x.data &&& m)).toNat
    s'.setLine g l { x with dirty := x.dirty &&& ~~~mask }
/-- Every dirty bit of a grove written back (R117). -/
def State.writeBackAll (s : State) (g : Nat) : State :=
  (s.grove g).lines.foldl (fun s p => s.writeBack g p.1 (BitVec.allOnes 512)) s
/-- Scalar L1 lines of a grove that hold bits `m` of physical line `l` are invalidated (R106). -/
def State.dropL1 (s : State) (g l : Nat) (m : BitVec 512) : State :=
  let has (x : L1Line) : Bool := decide (x.pline = l) && decide (x.held &&& m ≠ 0)
  if (s.grove g).l1.any has then s.setGrove g { s.grove g with l1 := (s.grove g).l1.filter (fun x => !(has x)) } else s
/-- The scalar L1 of core `k` is filled with a line (R106): its copies of the physical line under another virtual address, which the
L2 finds by its reverse map, are invalidated. -/
def State.fillL1 (s : State) (k asid vline pline : Nat) : State :=
  let other (x : L1Line) : Bool := decide (x.core ≠ k) || (decide (x.pline ≠ pline) && !(decide (x.asid = asid) && decide (x.vline = vline)))
  s.setGrove (k / 8) { s.grove (k / 8) with
    l1 := ⟨k, asid, vline, pline, BitVec.allOnes 512⟩ :: (s.grove (k / 8)).l1.filter other }

/-- A line at its use: a stale line is refetched and its dirty bits laid over it; bits it does not hold are filled
from the home (R118). -/
def State.useLine (s : State) (g l : Nat) : State :=
  let x := s.line g l
  let gen := (s.grove g).gen
  if x.valid = BitVec.allOnes 512 ∧ x.stamp = gen then s
  else
    let keep := if x.stamp = gen ∧ x.valid ≠ 0 then x.valid else x.dirty
    let s := ((s.carryIn g l keep).dropL1 g l (~~~keep)).homeUse l
    let home := BitVec.ofNat 512 (s.homeRead (512 * l) 512)
    s.setLine g l { data := (x.data &&& keep) ||| (home &&& ~~~keep), valid := BitVec.allOnes 512, dirty := x.dirty,
                    stamp := gen }
/-- R119: the grove's dirty bits that overlap the access go to the home, and its copies of them are dropped. -/
def State.dropBits (s : State) (g pa n : Nat) : State :=
  let m := lineMask (pa % 512) n
  let s' := (s.writeBack g (pa / 512) m).dropL1 g (pa / 512) m
  let x := s'.line g (pa / 512)
  if x.valid &&& m = 0 then s'
  else
    let left := x.valid &&& ~~~m
    let gone (w : Nat) : Bool := decide (w / 8 = pa / 512) && decide (wordOf left (w % 8) = 0)
    (s'.clearUpsets 24 g gone).setLine g (pa / 512) { x with valid := left, dirty := x.dirty &&& ~~~m }

/-- A grove's line invalidated, with the errors it holds. -/
def State.dropLine (s : State) (g l : Nat) : State :=
  ((s.clearUpsets 24 g (fun w => decide (w / 8 = l))).dropL1 g l (BitVec.allOnes 512)).setLine g l Line.none

/-- A scope that the grove L2 serves. -/
def Scope.inGrove : Scope → Bool
  | .hart | .core | .grove => true
  | .dev | .sys => false

/-- The parts of `n` bits from `a` that lie in one line each: address, length. -/
def lineParts : Nat → Nat → Nat → List (Nat × Nat)
  | 0, _, _ => []
  | f + 1, a, n =>
    if n = 0 then []
    else
      let k := min n (512 - a % 512)
      (a, k) :: lineParts f (a + k) (n - k)

/-- Bits of one line read by grove `g` at a scope (R111, R112). -/
def State.readPart (s : State) (g : Nat) (sc : Scope) (pa n : Nat) : Nat × State :=
  if isDev pa then
    if Scope.inGrove sc then
      let s' := s.useLine g (pa / 512)
      (((s'.line g (pa / 512)).data.toNat >>> (pa % 512)) % 2 ^ n, s')
    else
      let s' := (s.dropBits g pa n).homeUse (pa / 512)
      (s'.homeRead pa n, s')
  else (s.homeRead pa n, s)

/-- Bits of one line written by grove `g` at a scope. -/
def State.writePart (s : State) (g : Nat) (sc : Scope) (pa n v : Nat) : State :=
  if isDev pa then
    if Scope.inGrove sc then
      let m := lineMask (pa % 512) n
      let s' := (s.useLine g (pa / 512)).dropL1 g (pa / 512) m
      let x := s'.line g (pa / 512)
      let d := BitVec.ofNat 512 ((v % 2 ^ n) <<< (pa % 512))
      s'.setLine g (pa / 512) { x with data := (x.data &&& ~~~m) ||| d, dirty := x.dirty ||| m }
    else (s.dropBits g pa n).homeWrite pa n v
  else s.homeWrite pa n v

/-- Bits of a list of physical ranges, the first the least significant. -/
def State.readParts (g : Nat) (sc : Scope) : State → List (Nat × Nat) → Nat × State
  | s, [] => (0, s)
  | s, (pa, n) :: t =>
    let (v, s1) := s.readPart g sc pa n
    let (r, s2) := State.readParts g sc s1 t
    (v + 2 ^ n * r, s2)

/-- A value written over a list of physical ranges. -/
def State.writeParts (g : Nat) (sc : Scope) : State → List (Nat × Nat) → Nat → State
  | s, [], _ => s
  | s, (pa, n) :: t, v => State.writeParts g sc (s.writePart g sc pa n (v % 2 ^ n)) t (v / 2 ^ n)

/-- FENCE, release and acquire of dev or sys scope, counted for sleeping groves (R382). -/
def State.countScoped (s : State) : State :=
  { s with groves := s.groves.map (fun p => if p.2.asleep then (p.1, { p.2 with d := min 255 (p.2.d + 1) }) else p) }
/-- A release at a scope: at dev and sys, R117. -/
def State.release (s : State) (g : Nat) (sc : Scope) : State :=
  if Scope.inGrove sc then s else (s.writeBackAll g).countScoped
/-- Lines whose stamps are `n` or more generations behind are written back and invalidated. -/
def State.sweepFrom (s : State) (g n : Nat) : State :=
  (s.grove g).lines.foldl (fun s p =>
    if n ≤ ((s.grove g).gen - p.2.stamp).toNat then (s.writeBack g p.1 (BitVec.allOnes 512)).dropLine g p.1 else s) s
/-- The background sweep of R118. -/
def State.sweepLines (s : State) (g : Nat) : State := s.sweepFrom g 64
/-- The generation of a grove advances by one (R118). The sweep has reached every line whose stamp the advance would make
ambiguous, one that is 255 generations behind. -/
def State.nextGen (s : State) (g : Nat) : State :=
  let s' := s.sweepFrom g 255
  s'.setGrove g { s'.grove g with gen := (s'.grove g).gen + 1 }
/-- An acquire at a scope: at dev and sys, R118. -/
def State.acquire (s : State) (g : Nat) (sc : Scope) : State :=
  if Scope.inGrove sc then s else s.countScoped.nextGen g

/-- A grove that sleeps in retention wakes (R382). Lines whose stamps the advance would make ambiguous have been swept before
it, as `State.nextGen` has it (log 84). -/
def State.wakeGrove (s : State) (g : Nat) : State :=
  let x := s.grove g
  if !x.asleep then s
  else
    let s0 := s.setGrove g { x with asleep := false, d := 0 }
    if 128 ≤ x.d then
      let s1 := s0.writeBackAll g
      (s1.grove g).lines.foldl (fun s p => s.dropLine g p.1) s1
    else
      let s1 := s0.sweepFrom g (256 - x.d)
      (s1.setGrove g { s1.grove g with gen := x.gen + BitVec.ofNat 8 x.d }).sweepLines g
/-- A hart leaves a grove (R382). -/
def State.noteIdle (s : State) (h : Nat) : State :=
  s.setGrove (groveOf h) { s.grove (groveOf h) with idleAt := s.time }

/-! ### Translation (R101, R173) -/

/-- Kinds of access. -/
inductive AccKind where
  | rd | wr | rmw
  deriving DecidableEq, Repr

/-- A kind allowed by a mapping. -/
def AccKind.allowed (k : AccKind) (r w : Bool) : Bool :=
  match k with
  | .rd => r
  | .wr => w
  | .rmw => r && w
/-- A kind that writes. -/
def AccKind.writes : AccKind → Bool
  | .rd => false
  | .wr | .rmw => true

/-- A page covers a virtual address of an address space. -/
def Mapping.covers (m : Mapping) (asid va : Nat) : Bool :=
  decide (m.asid = asid) && decide (m.va ≤ va) && decide (va < m.va + 2 ^ m.sz)
/-- The page of a virtual address. -/
def State.mapOf (s : State) (asid va : Nat) : Option Mapping := s.maps.find? (fun m => m.covers asid va)
/-- The start of the next mapped page above `va`, or `lim`. -/
def State.nextMap (s : State) (asid va lim : Nat) : Nat :=
  s.maps.foldl (fun n m => if m.asid = asid ∧ va < m.va ∧ m.va < n then m.va else n) lim

/-- A part of a virtual range, and the page that maps it if one does. -/
structure Part where
  va : Nat
  len : Nat
  page : Option Mapping
  deriving DecidableEq, Repr

/-- A range of virtual addresses cut at page boundaries. -/
def State.partsFrom (s : State) (asid : Nat) : Nat → Nat → Nat → List Part
  | 0, _, _ => []
  | f + 1, a, n =>
    if n = 0 then []
    else match s.mapOf asid a with
      | some m =>
        let k := min n (m.va + 2 ^ m.sz - a)
        ⟨a, k, some m⟩ :: State.partsFrom s asid f (a + k) (n - k)
      | none =>
        let k := s.nextMap asid a (a + n) - a
        ⟨a, k, none⟩ :: State.partsFrom s asid f (a + k) (n - k)
/-- A range of virtual addresses cut at page boundaries. -/
def State.parts (s : State) (asid a n : Nat) : List Part := s.partsFrom asid (2 * s.maps.length + 2) a n

/-- The lowest bit of a range that is not canonical (R101). -/
def nonCanonical (a n : Nat) : Option Nat :=
  if n = 0 then none
  else if 2 ^ 56 ≤ a ∧ a < 2 ^ 64 - 2 ^ 56 then some a
  else if a < 2 ^ 56 ∧ 2 ^ 56 < a + n then some (2 ^ 56)
  else none
/-- A canonical address. -/
def canonical (a : Nat) : Bool := decide (a < 2 ^ 56) || decide (2 ^ 64 - 2 ^ 56 ≤ a)

/-- Physical address of a part's first bit. -/
def Part.pa (p : Part) : Nat :=
  match p.page with
  | some m => m.pa + (p.va - m.va)
  | none => 0

/-- check_access (R173): the kind number of R307 and the address of the first cause that applies; R107 adds the physical
addresses nothing backs. -/
def State.checkAccess (s : State) (asid a n : Nat) (k : AccKind) (fetch : Bool := false) : Option (Nat × Nat) :=
  match nonCanonical a n with
  | some b => some (0, b)
  | none =>
    if n ≠ 0 ∧ 2 ^ 64 < a + n then some (1, a)
    else
      let ps := s.parts asid a n
      match ps.find? (fun p => match p.page with | some m => m.bad | none => false) with
      | some p => some (4, p.va)
      | none =>
        match ps.find? (fun p => p.page.isNone) with
        | some p => some (2, p.va)
        | none =>
          match ps.find? (fun p => match p.page with
            | some m => !(k.allowed m.r m.w) || (fetch && !m.x)
            | none => false) with
          | some p => some (3, p.va)
          | none =>
            match ps.find? (fun p => !(isDev (p.pa + p.len - 1)) && !(isHost p.pa)) with
            | some p => some (2, if isDev p.pa then p.va + (3 * 2 ^ 41 - p.pa) else p.va)
            | none => none

/-- The physical ranges, one line each, of a virtual range whose pages are mapped. -/
def State.phys (s : State) (asid a n : Nat) : List (Nat × Nat) :=
  (s.parts asid a n).flatMap (fun p => lineParts (p.len / 512 + 2) p.pa p.len)

/-- A page that a MIGRATE has blocked, and not yet moved, holds the access (R129). -/
def State.blocked (s : State) (asid a n : Nat) : Option Nat :=
  let ps := s.parts asid a n
  match ps.find? (fun p => s.migs.any (fun m => !m.unmap && !m.moved && decide (m.pa ≤ p.pa) && decide (p.pa < m.pa + 2 ^ m.sz))) with
  | some p => some p.va
  | none => none

/-- Virtual bits read at a scope for a hart's grove, the range being mapped. -/
def State.vread (s : State) (asid g : Nat) (sc : Scope) (a n : Nat) : Nat × State :=
  State.readParts g sc s (s.phys asid a n)
/-- Virtual bits read by the running hart's stem: at a scope that the grove serves, its core's scalar L1 is filled with the lines it
reads (R106, R111). -/
def State.sread (s : State) (asid : Nat) (sc : Scope) (a n : Nat) : Nat × State :=
  let m := s.vread asid (groveOf s.cur) sc a n
  if Scope.inGrove sc then
    (m.1, (s.parts asid a n).foldl (fun s p => if isDev p.pa then
      (upFrom 0 ((p.va + p.len + 511) / 512 - p.va / 512)).foldl (fun s i =>
        s.fillL1 (coreOf s.cur) asid (p.va / 512 + i) (p.pa / 512 + i)) s else s) m.2)
  else m
/-- Virtual bits written at a scope. -/
def State.vwrite (s : State) (asid g : Nat) (sc : Scope) (a n v : Nat) : State :=
  State.writeParts g sc s (s.phys asid a n) v

/-- Bits at the home of a list of physical ranges. -/
def State.readHome (s : State) : List (Nat × Nat) → Nat
  | [] => 0
  | (pa, n) :: t => s.homeRead pa n + 2 ^ n * State.readHome s t
/-- Virtual bits read at the home. -/
def State.vreadHome (s : State) (asid a n : Nat) : Nat := s.readHome (s.phys asid a n)
/-- A value written at the home over a list of physical ranges. -/
def State.writeHome : State → List (Nat × Nat) → Nat → State
  | s, [], _ => s
  | s, (pa, n) :: t, v => State.writeHome (s.homePut pa n (v % 2 ^ n)) t (v / 2 ^ n)
/-- Virtual bits written at the home. -/
def State.vwriteHome (s : State) (asid a n v : Nat) : State := s.writeHome (s.phys asid a n) v

/-! ### Traps (R296-R304, R387) -/

/-- Why an instruction did not complete: a cause it raises, or a wait. -/
inductive Stop where
  | trap (t : TrapInfo)
  | stall (k : WaitKind) (limit : Option Nat)
  deriving DecidableEq, Repr

/-- An action of an instruction: it answers a value and a state, or stops and leaves the state as it was. -/
abbrev Act := StateT State (Except Stop)

/-- The traps kept for RESYNC, newest first (R358). -/
def State.recordTrap (s : State) (h : Nat) (cause : Nat) (tpc : Word) : State :=
  { s with rel := { s.rel with lastCauses := ((h, (s.hart h).mctx.toNat, cause, tpc) :: s.rel.lastCauses).take 64 } }

/-- What the instruction of a bolt has read so far is dropped: it restarts from its first element (R259, R315). -/
def Bolt.restart (b : Bolt) : Bolt := { b with chain := [] }
/-- A hart's trap registers, status and PC as take_trap writes them below depth 3, with the bolts of a vector-origin trap
set aside (R300, R301, R387). -/
def Hart.trap (x : Hart) (t : TrapInfo) : Hart :=
  { x with
    tcause := nword ((t.detail % 512) * 512 + t.cause % 512), tpc := t.pc, taddr := t.addr,
    tidx := t.idx &&& 0x7FFFFFFFFFFFFFFF, ttoken := t.tok &&& 15,
    pstat := pstatWith x.pstat (x.depth + 1) t.vec,
    frames := if t.vec then ⟨false, x.pc, x.wrapFrom, x.bolts.map Bolt.restart⟩ :: x.frames else x.frames,
    bolts := if t.vec then [] else x.bolts,
    pc := x.tvec, wrapFrom := none, wait := none, vwait := none, told := false }

/-- A hart halted at depth 3 (R300). -/
def Hart.haltAt (x : Hart) (cause : Nat) : Hart :=
  { x with tcause := nword ((cause % 512) * 512 + 63), halted := true, wait := none, vwait := none }

/-- An uncorrected error that a hart or an engine consumes is logged (R312, R378); a line of a grove or of a memory-side cache that
holds it is poisoned (R374). -/
def State.logConsumed (s : State) (h cause addr : Nat) : State :=
  if 320 ≤ cause ∧ cause < 416 ∧ cause % 2 = 1 then
    (if cause = 369 then s.poisonLine 24 (groveOf h) (addr / 64) else if cause = 377 then s.poisonLine 28 0 (addr / 64) else s).logError
      addr cause 1 h
  else s

/-- The window squash before an uncorrected code of the vector unit (R321, R380). -/
def State.countSquash (s : State) (t : TrapInfo) : State :=
  if t.vec ∧ 320 ≤ t.cause ∧ t.cause < 416 ∧ t.cause % 2 = 1 then { s with rel := { s.rel with squashes := s.rel.squashes + 1 } }
  else s

/-- The host access at `va` that a cause reports has failed: HOST_ABORT or HOST_TIMEOUT (R307) ends it. -/
def State.answered (s : State) (h asid cause va : Nat) : State :=
  if s.noReply ≠ [] ∧ 104 ≤ cause ∧ cause < 117 then
    let at_ (pa : Nat) : Bool := decide ((s.mapOf asid va).map (fun m => m.pa + (va - m.va)) = some pa)
    { s with noReply := s.noReply.filter (fun q => !(decide (q.1 = h) && at_ q.2.2)) }
  else s

/-- take_trap (R300) on hart `h`. -/
def State.takeTrapOn (s : State) (h : Nat) (t : TrapInfo) : State :=
  let s := ((s.logConsumed h t.cause t.addr.toNat).countSquash t).answered h (s.hart h).asid t.cause t.addr.toNat
  let x := s.hart h
  if x.depth = 3 then
    let s1 := s.setHart h (x.haltAt t.cause)
    (s1.recordTrap h 63 t.pc).posted (s1.hartEvent h 3 63 (nword t.cause) t.pc [])
  else (s.setHart h (x.trap t)).recordTrap h t.cause t.pc
/-- take_trap (R300) on the running hart. -/
def State.takeTrap (s : State) (t : TrapInfo) : State := s.takeTrapOn s.cur t

/-- A stem cause of the running hart, with TADDR. -/
def State.stemTrap (s : State) (cause addr : Nat) : TrapInfo :=
  { cause := cause, detail := 0, pc := s.me.pc, addr := nword addr, idx := 0, tok := 0, vec := false }

/-- The topmost set of bolts a vector trap set aside, and the other frames. -/
def popTrapFrame : List Frame → Option (Frame × List Frame)
  | [] => none
  | f :: t =>
    if f.routine then
      match popTrapFrame t with
      | some (g, r) => some (g, f :: r)
      | none => none
    else some (f, t)

/-- A matrix position as TIDX shows it (R274). -/
def MPos.idx (p : MPos) : Nat := p.i2 % 2 ^ 21 * 2 ^ 42 + p.i1 % 2 ^ 21 * 2 ^ 21 + p.i0 % 2 ^ 21
/-- The groups of causes whose TIDX and DETAIL show a matrix position (R314). -/
def showsPosition (cause : Nat) : Bool :=
  (decide (64 ≤ cause) && decide (cause < 160)) || (decide (256 ≤ cause) && decide (cause < 320))
/-- The paused bolt's matrix position as the handler leaves TIDX and DETAIL (R274, R302). -/
def movePosition (x : Hart) : List Bolt → List Bolt
  | [] => []
  | b :: t =>
    if b.mpos.isSome && showsPosition (x.tcause.extractLsb' 0 9).toNat then
      { b with mpos := some ⟨(x.tidx.extractLsb' 42 21).toNat, (x.tidx.extractLsb' 21 21).toNat,
          (x.tidx.extractLsb' 0 21).toNat, (x.tcause.extractLsb' 9 9).toNat⟩ } :: t
    else b :: t

/-- RETT (R302): the hart after it, or the cause it raises with its TADDR. A bolt whose last word has trapped counts as paused past it
(log 111). -/
def Hart.rett (x : Hart) : Except (Nat × Word) Hart :=
  if x.depth = 0 then .error (49, 0)
  else if x.vt then
    match popTrapFrame x.frames with
    | none => .error (49, 0)
    | some (f, rest) =>
      .ok { { x with pstat := pstatWith x.pstat (x.depth - 1) false, frames := rest,
                     bolts := x.bolts ++ movePosition x f.bolts }.jump f.pc with wrapFrom := f.wrap }
  else if x.tpc.extractLsb' 0 5 ≠ 0 then .error (43, x.tpc)
  else .ok ({ x with pstat := pstatWith x.pstat (x.depth - 1) false }.jump x.tpc)

/-! ### Running an instruction of the stem -/

/-- A wait that begins now, with a limit in cycles where it has one. -/
def State.newWait (s : State) (k : WaitKind) (limit : Option Nat) : WaitRec := ⟨k, s.cycle, limit.map (s.cycle + ·), 0⟩
/-- The wait a hart is in after an attempt that must wait: the same wait goes on, another begins. -/
def State.waitOn (s : State) (old : Option WaitRec) (k : WaitKind) (limit : Option Nat) : WaitRec :=
  match old with
  | some w => if w.kind = k then w else s.newWait k limit
  | none => s.newWait k limit
/-- The running hart begins to wait, or waits on. -/
def State.beginWait (s : State) (k : WaitKind) (limit : Option Nat) : State :=
  s.modMe (fun x => { x with wait := some (s.waitOn x.wait k limit) })

/-- A stem instruction: its effect, the trap it raises, or its wait. -/
def runStem (m : Act Unit) (s : State) : Host.Outcome State Fault Refusal :=
  match m s with
  | .ok (_, s') => .next s'
  | .error (.trap t) => .next (s.takeTrap t)
  | .error (.stall k l) => .next (s.beginWait k l)

/-- A cause of the running stem instruction. -/
def raise {α : Type} (cause : Nat) (addr : Nat := 0) : Act α := fun s => .error (.trap (s.stemTrap cause addr))
/-- A cause raised when a condition holds. -/
def raiseIf (c : Bool) (cause : Nat) (addr : Nat := 0) : Act Unit := if c then raise cause addr else pure ()
/-- A wait. -/
def stall {α : Type} (k : WaitKind) (limit : Option Nat := none) : Act α := fun _ => .error (.stall k limit)
/-- A wait when a condition holds. -/
def stallIf (c : Bool) (k : WaitKind) : Act Unit := if c then stall k else pure ()
/-- The running hart. -/
def me : Act Hart := fun s => .ok (s.me, s)
/-- The running hart changed. -/
def modMe (f : Hart → Hart) : Act Unit := fun s => .ok ((), s.modMe f)
/-- The running hart's core. -/
def myCore : Act Core := fun s => .ok (s.myCore, s)
/-- The running hart's core changed. -/
def modMyCore (f : Core → Core) : Act Unit := fun s => .ok ((), s.modMyCore f)
/-- A scalar register read. -/
def rd (r : Reg) : Act Word := fun s => .ok (s.me.reg r, s)
/-- A scalar register written, and the PC advanced. -/
def wrNext (r : Reg) (v : Word) : Act Unit := modMe (fun x => (x.setReg r v).advance)
/-- The PC advanced. -/
def next : Act Unit := modMe Hart.advance

/-- Two ranges, given by first bit and length, share a bit. -/
def rangesMeet (a b : Nat × Nat) : Bool :=
  decide (a.1 < b.1 + b.2) && decide (b.1 < a.1 + a.2) && decide (0 < a.2) && decide (0 < b.2)
/-- NDEST of a collective descriptor (R200). -/
def ndestOf (d : BitVec 1024) : Nat := (d.extractLsb' 128 4).toNat
/-- Target and address of a descriptor's destination `i` (R200). -/
def destOf (d : BitVec 1024) (i : Nat) : Nat × Nat :=
  ((d.extractLsb' (144 + 4 * i) 4).toNat, (d.extractLsb' (256 + 64 * i) 64).toNat)
/-- The destinations a collective descriptor names: target and address. -/
def destsOf (d : BitVec 1024) : List (Nat × Nat) := (upTo (min 12 (ndestOf d))).map (destOf d)
/-- Destination ranges of a transfer in this device. -/
def Xfer.dstRanges (t : Xfer) : List (Nat × Nat) :=
  match t.kind with
  | .mcast | .redst => ((destsOf t.desc).filter (fun p => decide (p.1 = 0))).map (fun p => (p.2, t.len))
  | _ => [(t.dstLo, t.dstHi - t.dstLo)]
/-- Source range of a transfer. -/
def Xfer.srcRange (t : Xfer) : Nat × Nat := (t.srcLo, t.srcHi - t.srcLo)
/-- The ranges of a transfer in flight that an access must wait for (R135). -/
def Xfer.meets (t : Xfer) (a n : Nat) (write : Bool) : Bool :=
  t.dstRanges.any (rangesMeet (a, n)) || (write && rangesMeet (a, n) t.srcRange)
/-- A transfer of a hart in flight meets an access (R135). -/
def State.interlocked (s : State) (h a n : Nat) (write : Bool) : Bool :=
  s.xfers.any (fun t => decide (t.hart = h) && decide (t.uid = (s.hart h).uid) && t.meets a n write)

/-- Code of a memory cause (R307). -/
def memCause (kind cls : Nat) : Nat := 64 + 8 * kind + cls

/-- The errors a read of physical ranges meets, word by word (R312, R377): at a scope the grove serves those of the line it holds,
or of the home where the line is filled; at another those of dirty words, which go to the home first, or of the home. -/
def State.memUpsets (s : State) (g : Nat) (sc : Scope) (ps : List (Nat × Nat)) : List Upset :=
  if s.rel.upsets = [] then []
  else ps.flatMap (fun p =>
    let x := s.line g (p.1 / 512)
    let kept := if Scope.inGrove sc && decide (x.stamp = (s.grove g).gen) then x.valid else x.dirty
    (upFrom (p.1 / 64) ((p.1 + p.2 + 63) / 64 - p.1 / 64)).flatMap (fun w =>
      s.rel.upsets.filter (fun u => decide (u.word = w) &&
        ((decide (u.s = 24) && decide (u.place = g) && decide (wordOf kept (w % 8) ≠ 0)) ||
          ((decide (u.s = 28) || decide (u.s = 31)) && decide (u.place = 0) &&
            decide (wordOf kept (w % 8) ≠ BitVec.allOnes 64))))))
/-- The first error that a read cannot correct, or else the first it meets. -/
def State.memUpset (s : State) (g : Nat) (sc : Scope) (ps : List (Nat × Nat)) : Option Upset :=
  let l := s.memUpsets g sc ps
  match l.find? (·.unc) with
  | some u => some u
  | none => l.head?

/-- A trap of R304 kept for a boundary where its depth condition holds (R318). -/
def Hart.keep (x : Hart) (order : Nat) (t : TrapInfo) : Hart := { x with pend := x.pend ++ [⟨order, t, x.depth⟩] }

/-- The effect of an error on a reader (R312, R321, R377): uncorrected, the cause with DETAIL[0] for poison; corrected,
the log, the word put right, and a kept trap under CEN. -/
def consumeUpset (u : Option Upset) (t : TrapInfo) : Act Unit := fun s =>
  match u with
  | none => .ok ((), s)
  | some u =>
    let addr := u.addr
    if u.unc then .error (.trap { t with cause := 320 + 2 * u.s + 1, detail := if u.poisoned then 1 else 0, addr := nword addr })
    else
      let s1 := (s.clearUpset u).logError addr (320 + 2 * u.s) 0 s.cur
      let c := { t with cause := 320 + 2 * u.s, detail := 0, addr := nword addr }
      .ok ((), if s1.me.cen then s1.modMe (fun x => x.keep 2 c) else s1)

/-- The errors that a read meets, each in its turn. -/
def consumeUpsets (l : List Upset) (t : TrapInfo) : Act Unit := l.forM (fun u => consumeUpset (some u) t)

/-- check_access (R173) for the running hart, under access class `cls` of R307. -/
def check (a n : Nat) (k : AccKind) (cls : Nat) : Act Unit := do
  let s ← get
  match s.checkAccess s.me.asid a n k with
  | some (kind, b) => raise (memCause kind cls) b
  | none => pure ()

/-- A host access that fails (R307): a port that is down, or an access that completes with an error or with nothing. It answers
the cause and the address of the first failing bit. -/
def State.hostFail (s : State) (h asid a n cls : Nat) : Option (Nat × Nat) :=
  firstSome (fun (p : Part) =>
    if !(isHost p.pa) then none
    else if s.host.portDown.testBit (hostPort p.pa) then some (memCause 5 cls, p.va)
    else (s.noReply.find? (fun q => decide (q.1 = h) && decide (p.pa ≤ q.2.2) && decide (q.2.2 < p.pa + p.len))).map
      (fun q => (memCause (if cls < 5 then q.2.1 else 5) cls, p.va + (q.2.2 - p.pa)))) (s.parts asid a n)

/-- A checked range reached: the wait for a migrating page (R129), the wait for an overlapping transfer (R135), and a host
access that fails (R307). -/
def reach (a n : Nat) (k : AccKind) (cls : Nat) : Act Unit := do
  let s ← get
  match s.blocked s.me.asid a n with
  | some va => stall (.page va cls) (some (2 ^ 24))
  | none =>
    if s.interlocked s.cur a n k.writes then stall .interlock
    else
      match s.hostFail s.cur s.me.asid a n cls with
      | some (c, b) => raise c b
      | none => pure ()

/-- A range checked and reached. -/
def access (a n : Nat) (k : AccKind) (cls : Nat) : Act Unit := do
  check a n k cls
  reach a n k cls

/-- Words wholly covered by a write at a scope lose their poison (R377). -/
def State.cleanWords (s : State) (g : Nat) (sc : Scope) (ps : List (Nat × Nat)) : State :=
  if s.rel.upsets = [] then s
  else ps.foldl (fun s p =>
    let s1 := s.clearUpsets 24 g (wholeWord p.1 p.2)
    if Scope.inGrove sc && isDev p.1 then s1
    else s1.cleanPage p.1 p.2) s

/-- A value written over physical parts, by a hart of grove `g` at a scope. -/
def State.putParts (s : State) (g : Nat) (sc : Scope) (ps : List (Nat × Nat)) (v : Nat) : State :=
  (State.writeParts g sc s ps v).cleanWords g sc ps
/-- A write of bits already checked, in an address space. -/
def State.putBits (s : State) (asid a n v : Nat) (sc : Scope) : State := s.putParts (groveOf s.cur) sc (s.phys asid a n) v

/-! ### Accesses not yet performed (R142, R144) -/

/-- A value of `w` bits extended with its sign to 64 bits (R72). -/
def sext64 (v w : Nat) : Word := word (signed v w)
/-- The lesser of two codes read as integers of `w` bits. -/
def minSigned (w x y : Nat) : Nat := if signed x w ≤ signed y w then x else y
/-- The greater of two codes read as integers of `w` bits. -/
def maxSigned (w x y : Nat) : Nat := if signed x w ≤ signed y w then y else x
/-- What an atomic of `n` bits writes over `old`, if it writes (R175, R176): `x` is its operand and `cmp` the comparand of CAS. -/
def AtomicKind.apply (k : AtomicKind) (n old x cmp : Nat) : Option Nat :=
  match k with
  | .add => some ((old + x) % 2 ^ n)
  | .and => some (old &&& x)
  | .or => some (old ||| x)
  | .xor => some (old ^^^ x)
  | .min => some (minSigned n old x)
  | .max => some (maxSigned n old x)
  | .minn => some (Nat.min old x)
  | .maxn => some (Nat.max old x)
  | .swap => some x
  | .cas => if old = cmp then some x else none

/-- Two lists of physical parts share a bit. -/
def partsMeet (ps qs : List (Nat × Nat)) : Bool := ps.any (fun p => qs.any (rangesMeet p))
/-- Physical parts that reach host memory through port 1. -/
def portOne (ps : List (Nat × Nat)) : Bool := ps.any (fun p => isHost p.1 && hostPort p.1 == 1)
/-- The value an access stores, where it is a store. -/
def Pending.stored (p : Pending) : Option Nat :=
  match p.op with
  | .store v | .ordered v _ | .release v => some v
  | .load _ _ | .atomic _ _ _ _ | .casq _ _ _ => none
/-- The scalar registers an access is yet to write. -/
def Pending.dests (p : Pending) : List Reg :=
  (match p.op with
  | .store _ | .ordered _ _ | .release _ => []
  | .load d _ | .atomic d _ _ _ => [d]
  | .casq d _ _ => [d, d + 1]).filter (fun d => decide (d ≠ 0))
/-- Width of an access in bits. -/
def Pending.width (p : Pending) : Nat := p.parts.foldl (fun n q => n + q.2) 0
/-- Access `p` of a hart comes before its later access `q` by the rows of R142 that hold between two accesses, and by R338: they meet
in one stream, `q` is an STL of the scalar stream, they are elements of one VSTXO, or `q` is a release of sys scope or reads through
port 1 and `p` goes through port 1. -/
def Pending.before (p q : Pending) : Bool :=
  (decide (p.vec = q.vec) && (partsMeet p.parts q.parts || (match p.op, q.op with
    | _, .release _ => true
    | .ordered _ m, .ordered _ n => decide (m = n)
    | _, _ => false))) ||
  (portOne p.parts && (match q.op with
    | .release _ => decide (q.sc = .sys)
    | .store _ | .ordered _ _ => false
    | .load _ _ | .atomic _ _ _ _ | .casq _ _ _ => portOne q.parts))

/-- Bits `o` to `o + n - 1` of a number replaced. -/
def setBits (v o n x : Nat) : Nat := v - field v (o + n - 1) o * 2 ^ o + x % 2 ^ n * 2 ^ o
/-- Parts with their offsets in the value they hold. -/
def offsets (o : Nat) : List (Nat × Nat) → List (Nat × Nat × Nat)
  | [] => []
  | p :: t => (o, p) :: offsets (o + p.2) t
/-- A value of parts with the bits that a store of the scalar stream has for them. -/
def Pending.over (p : Pending) (ps : List (Nat × Nat)) (v : Nat) : Nat :=
  match p.vec, p.stored with
  | false, some x => (offsets 0 ps).foldl (fun v a => (offsets 0 p.parts).foldl (fun v b =>
      let lo := max a.2.1 b.2.1
      let hi := min (a.2.1 + a.2.2) (b.2.1 + b.2.2)
      if lo < hi then setBits v (a.1 + (lo - a.2.1)) (hi - lo) (x >>> (b.1 + (lo - b.2.1))) else v) v) v
  | _, _ => v

/-- A hart's register written by an access performed late, in the frames of the bolts too that captured it before (R11). -/
def Hart.deliver (x : Hart) (bolts : List Nat) (d : Reg) (v : Word) : Hart :=
  (x.setReg d v).mapBolts (fun b => if bolts.contains b.seq ∧ d ≠ 0 then { b with frame := Tab.set 0 b.frame d.toNat v } else b)
/-- The bits that an access performed late reads; an error they hold is found (R377). -/
def State.lateRead (s : State) (h : Nat) (p : Pending) : Nat × State :=
  State.readParts (groveOf h) p.sc ((s.memUpsets (groveOf h) p.sc p.parts).foldl (fun s u => s.findUpset u h) s) p.parts
/-- An access of hart `h` is performed. -/
def State.performOne (s : State) (h : Nat) (p : Pending) : State :=
  let put (s : State) (v : Nat) : State := s.putParts (groveOf h) p.sc p.parts v
  let give (s : State) (d : Reg) (v : Word) : State := s.setHart h ((s.hart h).deliver p.bolts d v)
  match p.op with
  | .store v | .ordered v _ => put s v
  | .release v => put (s.release (groveOf h) p.sc) v
  | .load d sx =>
    let m := s.lateRead h p
    give m.2 d (if sx then sext64 m.1 p.width else nword m.1)
  | .atomic d k x cmp =>
    let m := s.lateRead h p
    give (match k.apply p.width m.1 x cmp with
      | some v => put m.2 v
      | none => m.2) d (nword m.1)
  | .casq d x cmp =>
    let m := s.lateRead h p
    give (give (if m.1 = cmp then put m.2 x else m.2) d (nword m.1)) (d + 1) (nword (m.1 / 2 ^ 64))
/-- The accesses that have to be performed before those that `must` be, with these, and the others. -/
def splitLate (must : Pending → Bool) : List Pending → List Pending × List Pending
  | [] => ([], [])
  | p :: t =>
    let (go, stay) := splitLate must t
    if must p || go.any p.before then (p :: go, stay) else (go, p :: stay)
/-- Accesses of hart `h` are performed, in their order. -/
def State.perform (s : State) (h : Nat) (l : List Pending) : State := l.foldl (fun s p => s.performOne h p) s
/-- The accesses of hart `h` that `must` be performed are, with those that come before them. -/
def State.drainBy (s : State) (h : Nat) (must : Pending → Bool) : State :=
  match (s.hart h).stores with
  | [] => s
  | l =>
    let (go, stay) := splitLate must l
    if go = [] then s
    else
      let s1 := s.perform h go
      s1.setHart h { s1.hart h with stores := stay }
/-- Every access of hart `h` is performed. -/
def State.drain (s : State) (h : Nat) : State := s.drainBy h (fun _ => true)
/-- The accesses of the scalar stream of hart `h` that meet parts are performed. -/
def State.drainFor (s : State) (h : Nat) (ps : List (Nat × Nat)) : State := s.drainBy h (fun p => !p.vec && partsMeet p.parts ps)
/-- What hart `h` is yet to write to some registers is written. -/
def State.drainRegs (s : State) (h : Nat) (rs : List Reg) : State := s.drainBy h (fun p => p.dests.any rs.contains)
/-- Every access of every hart is performed. -/
def State.drainAll (s : State) : State := s.harts.foldl (fun s p => s.drain p.1) s
/-- Access `i` of hart `h` is performed, where no earlier one comes before it. -/
def State.drainOne (s : State) (h i : Nat) : State :=
  let l := (s.hart h).stores
  match l[i]? with
  | none => s
  | some p =>
    if (l.take i).any (fun q => q.before p) then s
    else
      let s1 := s.performOne h p
      s1.setHart h { s1.hart h with stores := l.eraseIdx i }
/-- The step leaves what it accesses to be performed later, where no structure holds an error (R142). -/
def State.leaves (s : State) : Bool := s.late && decide (s.rel.upsets = [])
/-- An access of the running hart's stem to bits already checked is left to be performed. -/
def leave (a n : Nat) (op : LateOp) (sc : Scope) : Act Unit := fun s =>
  .ok ((), s.modMe (fun x => { x with stores := x.stores ++ [⟨s.phys s.me.asid a n, op, sc, false, []⟩] }))

/-- A scalar read of bits already checked, with the errors the data may hold. The hart's stores that are not yet performed are read
(R142); what else it has not performed there is performed first, and with a read through port 1 what it has written there (R338). -/
def readBits (a n : Nat) (sc : Scope) : Act Nat := do
  let s ← get
  let g := groveOf s.cur
  let ps := s.phys s.me.asid a n
  set (s.drainBy s.cur (fun p => (!p.vec && p.stored.isNone && partsMeet p.parts ps) || (portOne ps && portOne p.parts)))
  let s ← get
  consumeUpsets (s.memUpsets g sc ps) (s.stemTrap 0 0)
  let s ← get
  let (v, s') := s.sread s.me.asid sc a n
  set s'
  pure (s'.me.stores.foldl (fun v p => p.over ps v) v)

/-- A write of bits already checked, behind the hart's own accesses to them. -/
def writeBits (a n v : Nat) (sc : Scope) : Act Unit := do
  let s ← get
  let ps := s.phys s.me.asid a n
  set ((s.drainFor s.cur ps).putParts (groveOf s.cur) sc ps v)
/-- The hart's accesses are performed before what follows. -/
def drained : Act Unit := fun s => .ok ((), s.drain s.cur)
/-- Those of them that `must` be. -/
def drainedBy (must : Pending → Bool) : Act Unit := fun s => .ok ((), s.drainBy s.cur must)

/-! ### Waiting for bolts and transfers -/

/-- Bolts that a wait for earlier bolts waits for: those not set aside (R387). -/
def Hart.drained (x : Hart) : Bool := x.bolts.isEmpty
/-- The hart's transfers in flight. -/
def State.xfersOf (s : State) (h : Nat) : List Xfer :=
  s.xfers.filter (fun t => decide (t.hart = h) && decide (t.uid = (s.hart h).uid))
/-- A transfer stands behind a bolt that is set aside: a wait of the handler or routine does not wait for it, but for ARRIVE and
LAUNCH (log 91). -/
def Xfer.setAside (t : Xfer) (x : Hart) : Bool := x.frames.any (fun f => f.bolts.any (fun b => t.behind.contains b.seq))
/-- The transfers that a wait of the hart waits for. -/
def State.dueXfers (s : State) (h : Nat) : List Xfer := (s.xfersOf h).filter (fun t => !(t.setAside (s.hart h)))
/-- A stem instruction that waits for every earlier bolt (R387). -/
def awaitBolts : Act Unit := do
  let x ← me
  stallIf (!x.drained) .bolts
/-- A stem instruction that waits for the hart's transfers (R30, R42). -/
def awaitXfers : Act Unit := do
  let s ← get
  stallIf (!(s.dueXfers s.cur).isEmpty) .transfers
/-- ARRIVE and LAUNCH wait for every transfer issued before them (R142). -/
def awaitAllXfers : Act Unit := do
  let s ← get
  stallIf (!(s.xfersOf s.cur).isEmpty) .transfers

/-! ### Events of one hart -/

/-- Hart `h` becomes the running hart. -/
def State.on (s : State) (h : Nat) : State := { s with cur := h }
/-- What hart `h` waits for. -/
def State.waitOf (s : State) (h : Nat) : Option WaitRec := (s.hart h).wait
/-- A wait's timeout has passed (R150). -/
def WaitRec.expired (w : WaitRec) (now : Nat) : Bool :=
  match w.deadline with
  | some d => decide (d ≤ now)
  | none => false
/-- A wait ends: its instruction executes again. -/
def State.endWait (s : State) (h : Nat) : State := s.setHart h { s.hart h with wait := none }

end Sys2Proof.Machine
end

