-- ==== Sys2Proof/Machine/Integer.lean ====
section
/-!
DEFINITION. Integer and address arithmetic of the stem (R167-R170): each instruction computes a 64-bit value of its
sources, writes it to its destination and advances the PC.
-/
namespace Sys2Proof.Machine

open Sys2Proof

/-- A word computed from the running hart's registers goes to `d` (R166). -/
def setNext (d : Reg) (f : Hart → Word) (s : State) : Host.Outcome State Fault Refusal :=
  .next (s.modMe (fun x => (x.setReg d (f x)).advance))
/-- sd := f(S[sa], S[sb]) (R167). -/
def binary (f : Word → Word → Word) (d a b : Reg) (s : State) : Host.Outcome State Fault Refusal :=
  setNext d (fun x => f (x.reg a) (x.reg b)) s
/-- sd := f(S[sa]). -/
def unary (f : Word → Word) (d a : Reg) (s : State) : Host.Outcome State Fault Refusal :=
  setNext d (fun x => f (x.reg a)) s

/-- Bits 127:64 of the signed product. -/
def mulHigh (x y : Word) : Word := BitVec.ofInt 64 (x.toInt * y.toInt / 2 ^ 64)
/-- Bits 127:64 of the unsigned product. -/
def mulHighN (x y : Word) : Word := BitVec.ofNat 64 (x.toNat * y.toNat / 2 ^ 64)
/-- DIV: toward zero; all ones for a zero divisor. -/
def divSigned (x y : Word) : Word := if y = 0 then BitVec.allOnes 64 else x.sdiv y
/-- DIVN. -/
def divUnsigned (x y : Word) : Word := if y = 0 then BitVec.allOnes 64 else x / y
/-- REM: the sign of x; x for a zero divisor. -/
def remSigned (x y : Word) : Word := if y = 0 then x else x.srem y
/-- REMN. -/
def remUnsigned (x y : Word) : Word := if y = 0 then x else x % y
/-- A shift amount: y[5:0]. -/
def shamt (y : Word) : Nat := y.toNat % 64
/-- 1 where a comparison holds. -/
def flag (b : Bool) : Word := if b then 1 else 0
/-- Leading zeros of the low `w` bits. -/
def leadingZeros (x w : Nat) : Nat := if x = 0 then w else w - 1 - Nat.log2 x
/-- BEXT: the field at y[5:0] of width y[13:8] + 1, clipped at bit 63. -/
def bitExtract (x y : Word) : Word :=
  let p := y.toNat % 64
  let n := min (y.toNat / 256 % 64 + 1) (64 - p)
  BitVec.ofNat 64 ((x.toNat >>> p) % 2 ^ n)
/-- BINS: the field of the old destination replaced by the low bits of x. -/
def bitInsert (old x y : Word) : Word :=
  let p := y.toNat % 64
  let n := min (y.toNat / 256 % 64 + 1) (64 - p)
  let m := BitVec.ofNat 64 ((2 ^ n - 1) <<< p)
  (old &&& ~~~m) ||| ((x <<< p) &&& m)

/-- ADD (R167). -/
def execAdd (d a b : Reg) (s : State) := binary (· + ·) d a b s
/-- SUB (R167). -/
def execSub (d a b : Reg) (s : State) := binary (· - ·) d a b s
/-- MUL (R167). -/
def execMul (d a b : Reg) (s : State) := binary (· * ·) d a b s
/-- MULH (R167). -/
def execMulh (d a b : Reg) (s : State) := binary mulHigh d a b s
/-- MULHN (R167). -/
def execMulhn (d a b : Reg) (s : State) := binary mulHighN d a b s
/-- DIV (R167). -/
def execDiv (d a b : Reg) (s : State) := binary divSigned d a b s
/-- DIVN (R167). -/
def execDivn (d a b : Reg) (s : State) := binary divUnsigned d a b s
/-- REM (R167). -/
def execRem (d a b : Reg) (s : State) := binary remSigned d a b s
/-- REMN (R167). -/
def execRemn (d a b : Reg) (s : State) := binary remUnsigned d a b s
/-- AND (R167). -/
def execAnd (d a b : Reg) (s : State) := binary (· &&& ·) d a b s
/-- OR (R167). -/
def execOr (d a b : Reg) (s : State) := binary (· ||| ·) d a b s
/-- XOR (R167). -/
def execXor (d a b : Reg) (s : State) := binary (· ^^^ ·) d a b s
/-- SHL (R167). -/
def execShl (d a b : Reg) (s : State) := binary (fun x y => x <<< shamt y) d a b s
/-- SHR (R167). -/
def execShr (d a b : Reg) (s : State) := binary (fun x y => x >>> shamt y) d a b s
/-- SRA (R167). -/
def execSra (d a b : Reg) (s : State) := binary (fun x y => x.sshiftRight (shamt y)) d a b s
/-- SLT (R167). -/
def execSlt (d a b : Reg) (s : State) := binary (fun x y => flag (x.slt y)) d a b s
/-- SLTN (R167). -/
def execSltn (d a b : Reg) (s : State) := binary (fun x y => flag (x.ult y)) d a b s
/-- MIN (R167). -/
def execMin (d a b : Reg) (s : State) := binary (fun x y => if x.sle y then x else y) d a b s
/-- MAX (R167). -/
def execMax (d a b : Reg) (s : State) := binary (fun x y => if x.sle y then y else x) d a b s
/-- MINN (R167). -/
def execMinn (d a b : Reg) (s : State) := binary (fun x y => if x.ule y then x else y) d a b s
/-- MAXN (R167). -/
def execMaxn (d a b : Reg) (s : State) := binary (fun x y => if x.ule y then y else x) d a b s
/-- CLZ (R167). -/
def execClz (d a : Reg) (s : State) := unary (fun x => nword (leadingZeros x.toNat 64)) d a s
/-- POPC (R167). -/
def execPopc (d a : Reg) (s : State) := unary (fun x => nword (Bits.count x.toNat 64)) d a s
/-- BEXT (R167). -/
def execBext (d a b : Reg) (s : State) := binary bitExtract d a b s
/-- BINS (R167): the destination is a third source. -/
def execBins (d a b : Reg) (s : State) := setNext d (fun x => bitInsert (x.reg d) (x.reg a) (x.reg b)) s
/-- BIX (R168): S[sa] + S[sb] x w. -/
def execBix (d a b : Reg) (w : BitVec 6) (s : State) := binary (fun x y => x + y * nword (w.toNat + 1)) d a b s
/-- ADDI (R169). -/
def execAddi (d a : Reg) (imm : BitVec 16) (s : State) := unary (· + imm.signExtend 64) d a s
/-- ANDI (R169). -/
def execAndi (d a : Reg) (imm : BitVec 16) (s : State) := unary (· &&& imm.setWidth 64) d a s
/-- ORI (R169). -/
def execOri (d a : Reg) (imm : BitVec 16) (s : State) := unary (· ||| imm.setWidth 64) d a s
/-- XORI (R169). -/
def execXori (d a : Reg) (imm : BitVec 16) (s : State) := unary (· ^^^ imm.setWidth 64) d a s
/-- SHLI (R169). -/
def execShli (d a : Reg) (sh : BitVec 6) (s : State) := unary (· <<< sh.toNat) d a s
/-- SHRI (R169). -/
def execShri (d a : Reg) (sh : BitVec 6) (s : State) := unary (· >>> sh.toNat) d a s
/-- SRAI (R169). -/
def execSrai (d a : Reg) (sh : BitVec 6) (s : State) := unary (fun x => x.sshiftRight sh.toNat) d a s
/-- LI (R170). -/
def execLi (d : Reg) (imm : BitVec 21) (s : State) := setNext d (fun _ => imm.signExtend 64) s
/-- LIH (R170). -/
def execLih (d : Reg) (imm : BitVec 21) (s : State) := setNext d (fun x => (x.reg d <<< 21) + imm.setWidth 64) s

end Sys2Proof.Machine
end

