-- ==== Sys2Proof/Machine/Formats.lean ====
section
/-!
DEFINITION. Element tags and their codes (R73-R81, R159, R211): widths, the parameters of the floating formats, and the
value of a code.
-/
namespace Sys2Proof.Machine

open Sys2Proof

/-- The floating formats (R75). -/
inductive Flt where
  | f32 | bf16 | f16 | e5m2 | e4m3 | e3m2 | e2m3 | e2m1
  deriving DecidableEq, Repr

/-- Element tags (R73). -/
inductive Tag where
  | int (w : Nat)
  | nat (w : Nat)
  | flt (f : Flt)
  | ts8 | e8m0 | p16
  deriving DecidableEq, Repr

/-- The tag of a code; none where the code is undefined (R73). -/
def Tag.ofCode (c : BitVec 8) : Option Tag :=
  let n := c.toNat
  if n < 0x40 then some (.int (n + 1))
  else if n < 0x80 then some (.nat (n - 0x3F))
  else match n with
    | 0x80 => some (.flt .f32) | 0x81 => some (.flt .bf16) | 0x82 => some (.flt .f16) | 0x83 => some (.flt .e5m2)
    | 0x84 => some (.flt .e4m3) | 0x85 => some (.flt .e3m2) | 0x86 => some (.flt .e2m3) | 0x87 => some (.flt .e2m1)
    | 0xC0 => some .ts8 | 0xC1 => some .e8m0 | 0xC2 => some .p16
    | _ => none

/-- The tag of an FX code other than 0 (R159). -/
def Tag.ofFX (f : BitVec 4) : Tag :=
  match f.toNat with
  | 1 => .int 8 | 2 => .nat 8 | 3 => .int 16 | 4 => .nat 16 | 5 => .int 32 | 6 => .nat 32 | 7 => .flt .f32
  | 8 => .flt .bf16 | 9 => .flt .f16 | 10 => .flt .e5m2 | 11 => .flt .e4m3 | 12 => .flt .e3m2 | 13 => .flt .e2m3
  | 14 => .flt .e2m1 | _ => .ts8

/-- Mantissa width of a format (R75). -/
def Flt.man : Flt → Nat
  | .f32 => 23 | .bf16 => 7 | .f16 => 10 | .e5m2 => 2 | .e4m3 => 3 | .e3m2 => 2 | .e2m3 => 3 | .e2m1 => 1
/-- Exponent width of a format. -/
def Flt.exp : Flt → Nat
  | .f32 => 8 | .bf16 => 8 | .f16 => 5 | .e5m2 => 5 | .e4m3 => 4 | .e3m2 => 3 | .e2m3 => 2 | .e2m1 => 2
/-- Bias of a format. -/
def Flt.bias : Flt → Nat
  | .f32 => 127 | .bf16 => 127 | .f16 => 15 | .e5m2 => 15 | .e4m3 => 7 | .e3m2 => 3 | .e2m3 => 1 | .e2m1 => 1
/-- Width of a format. -/
def Flt.width (f : Flt) : Nat := 1 + f.exp + f.man
/-- The format has infinities. -/
def Flt.hasInf : Flt → Bool
  | .f32 | .bf16 | .f16 | .e5m2 => true
  | .e4m3 | .e3m2 | .e2m3 | .e2m1 => false
/-- The format has NaN codes. -/
def Flt.hasNaN : Flt → Bool
  | .f32 | .bf16 | .f16 | .e5m2 | .e4m3 => true
  | .e3m2 | .e2m3 | .e2m1 => false
/-- The magnitude code of the largest finite value (R75). -/
def Flt.maxCode : Flt → Nat
  | .f32 => 0x7F7FFFFF | .bf16 => 0x7F7F | .f16 => 0x7BFF | .e5m2 => 0x7B | .e4m3 => 0x7E | .e3m2 => 0x1F
  | .e2m3 => 0x1F | .e2m1 => 0x7
/-- The magnitude code of infinity, where the format has one. -/
def Flt.infCode : Flt → Nat
  | .f32 => 0x7F800000 | .bf16 => 0x7F80 | .f16 => 0x7C00 | .e5m2 => 0x7C | _ => 0
/-- The canonical NaN (R76); +0 where the format has none. -/
def Flt.nanCode : Flt → Nat
  | .f32 => 0x7FC00000 | .bf16 => 0x7FC0 | .f16 => 0x7E00 | .e5m2 => 0x7F | .e4m3 => 0x7F | _ => 0

/-- Width of a tag in bits (R73). -/
def Tag.width : Tag → Nat
  | .int w => w
  | .nat w => w
  | .flt f => f.width
  | .ts8 => 8 | .e8m0 => 8 | .p16 => 16

/-- The value a code reads as (R74-R81): a finite dyadic, with the sign a zero carries; an infinity; or a NaN. -/
inductive Val where
  | fin (d : Dy) (neg : Bool)
  | inf (neg : Bool)
  | nan
  deriving DecidableEq, Repr

/-- An exact integer as a value; zero is +0. -/
def Val.ofInt (i : Int) : Val := .fin ⟨i, 0⟩ (decide (i < 0))
/-- Zero of a sign. -/
def Val.zero (neg : Bool) : Val := .fin ⟨0, 0⟩ neg

/-- The value of a floating code (R75). -/
def Flt.value (f : Flt) (c : Nat) : Val :=
  let neg := c.testBit (f.exp + f.man)
  let mag := c % 2 ^ (f.exp + f.man)
  let e := mag / 2 ^ f.man
  let m := mag % 2 ^ f.man
  let sgn (x : Nat) : Int := if neg then -(x : Int) else x
  if f.hasInf && decide (e = 2 ^ f.exp - 1) then (if m = 0 then .inf neg else .nan)
  else if f.hasNaN && !f.hasInf && decide (mag = 2 ^ (f.exp + f.man) - 1) then .nan
  else if e = 0 then .fin ⟨sgn m, 1 - f.bias - f.man⟩ neg
  else .fin ⟨sgn (2 ^ f.man + m), (e : Int) - f.bias - f.man⟩ neg

/-- The value of a ts8 term in sixty-fourths (R78). -/
def ts8Term (t : Nat) : Int :=
  let s := t % 8
  if s = 7 then 0 else if 8 ≤ t then -(2 ^ (6 - s) : Int) else 2 ^ (6 - s)
/-- The value of a ts8 code. -/
def ts8Value (c : Nat) : Int := ts8Term (c / 16 % 16) + ts8Term (c % 16)

/-- A p16 code as read: at most 0x8000 (R81). -/
def p16Clamp (c : Nat) : Nat := min c 0x8000

/-- The value of a code of a tag. -/
def Tag.value (t : Tag) (c : Nat) : Val :=
  match t with
  | .int w => Val.ofInt (signed (c % 2 ^ w) w)
  | .nat w => Val.ofInt ((c % 2 ^ w : Nat) : Int)
  | .flt f => f.value (c % 2 ^ f.width)
  | .ts8 => let v := ts8Value (c % 256); .fin ⟨v, -6⟩ (decide (v < 0))
  | .e8m0 => if c % 256 = 255 then .nan else .fin ⟨1, (c % 256 : Nat) - 127⟩ false
  | .p16 => .fin ⟨p16Clamp (c % 65536), -15⟩ false

/-- Class I: integers (R209). -/
def Tag.isInt : Tag → Bool
  | .int _ | .nat _ => true
  | _ => false
/-- Class F: floating formats. -/
def Tag.isFlt : Tag → Bool
  | .flt _ => true
  | _ => false

end Sys2Proof.Machine
end

