-- ==== Sys2Proof/Machine/ScalarMem.lean ====
section
/-!
DEFINITION. Scalar loads, stores and atomics of the stem (R148, R173-R178), at their scopes (R111, R112, R119).
-/
namespace Sys2Proof.Machine

open Sys2Proof

/-- The address of a scalar load or store (R148, R173). -/
def Hart.address (x : Hart) (b : Reg) (ad : Index) : Nat :=
  match ad with
  | .disp d => (x.reg b + d.signExtend 64).toNat
  | .reg c => (x.reg b + x.reg c).toNat

/-- Width of a WM1 field. -/
def widthOf (w : BitVec 6) : Nat := w.toNat + 1

/-- A load: the bits at the address go to sd, with their sign or without it (R174). An acquire is performed at once, and another load
may be later (R142). -/
def load (sx acq : Bool) (d b : Reg) (ad : Index) (w : BitVec 6) (sc : Scope) : Act Unit := do
  let x ← me
  let a := x.address b ad
  access a (widthOf w) .rd 2
  let s ← get
  if s.leaves && !acq then
    leave a (widthOf w) (.load d sx) sc
    next
  else
    let v ← readBits a (widthOf w) sc
    if acq then modify (fun s => s.acquire (groveOf s.cur) sc)
    wrNext d (if sx then sext64 v (widthOf w) else nword v)

/-- The accesses that an STL of a scope comes behind (R142, R338). -/
def behindRelease (sc : Scope) (p : Pending) : Bool := !p.vec || (decide (sc = .sys) && portOne p.parts)
/-- A store of S[sa] (R174). A release comes behind the hart's scalar accesses (R142). -/
def store (rel : Bool) (d b : Reg) (ad : Index) (w : BitVec 6) (sc : Scope) : Act Unit := do
  let x ← me
  let a := x.address b ad
  access a (widthOf w) .wr 3
  let s ← get
  let v := (x.reg d).toNat
  if s.leaves then leave a (widthOf w) (if rel then .release v else .store v) sc
  else
    if rel then
      drainedBy (behindRelease sc)
      modify (fun s => s.release (groveOf s.cur) sc)
    writeBits a (widthOf w) v sc
  next

/-- LDS (R174). -/
def execLds (d b : Reg) (ad : Index) (w : BitVec 6) (sc : Scope) (s : State) := runStem (load true false d b ad w sc) s
/-- LDZ (R174). -/
def execLdz (d b : Reg) (ad : Index) (w : BitVec 6) (sc : Scope) (s : State) :=
  runStem (load false false d b ad w sc) s
/-- ST (R174). -/
def execSt (d b : Reg) (ad : Index) (w : BitVec 6) (sc : Scope) (s : State) := runStem (store false d b ad w sc) s
/-- LDA (R174): as LDZ, and an acquire. -/
def execLda (d b : Reg) (ad : Index) (w : BitVec 6) (sc : Scope) (s : State) :=
  runStem (load false true d b ad w sc) s
/-- STL (R174): as ST, and a release. -/
def execStl (d b : Reg) (ad : Index) (w : BitVec 6) (sc : Scope) (s : State) := runStem (store true d b ad w sc) s

/-! ### Atomics -/

/-- The AtomicOp that carries an atomic to port 1 (R112). -/
inductive PortForm where
  | fetchAdd | swap | cas | none
  deriving DecidableEq, Repr

/-- Number of a form in `Config.rootCompletes`. -/
def PortForm.code : PortForm → Nat
  | .fetchAdd => 0
  | .swap => 1
  | .cas => 2
  | .none => 3

/-- A form and width that port 1 carries at an address (R112, R177). -/
def PortForm.carried (f : PortForm) (pa w : Nat) : Bool :=
  f != .none && (w == 32 || w == 64 || (w == 128 && f == .cas)) && pa % w == 0

/-- The cause of an atomic on port-1 memory that is not performed: 432 before anything is sent, 433 from the root complex
(R112, R177, R313, R337). -/
def State.portCause (s : State) (f : PortForm) (pa w : Nat) : Option Nat :=
  if isHost pa && hostPort pa == 1 then
    if !(f.carried pa w) || !s.host.atomicEn then some 432
    else if Config.rootCompletes f.code w then none
    else some 433
  else none

/-- The physical address of a checked virtual bit of an address space. -/
def State.physIn (s : State) (asid a : Nat) : Nat :=
  match s.phys asid a 1 with
  | [] => 0
  | p :: _ => p.1
/-- The physical address of a checked virtual bit of the running hart. -/
def State.physOf (s : State) (a : Nat) : Nat := s.physIn s.me.asid a

/-- Bits in one line (R122). -/
def oneLine (a w : Nat) : Bool := decide (a / 512 = (a + w - 1) / 512)

/-- The checks of a scalar atomic of `w` bits (R173, R175, R177). -/
def atomicChecks (f : PortForm) (a w : Nat) : Act Unit := do
  check a w .rmw 4
  raiseIf (!(oneLine a w)) 52 a
  let s ← get
  match s.portCause f (s.physOf a) w with
  | some c => raise c (hostOff (s.physOf a))
  | none => reach a w .rmw 4

/-- A single-register atomic: what it makes of the old bits is written where it writes, and the old value goes to sd (R175, R176). It
orders nothing by itself, and may be performed later (R142). -/
def atomic (f : PortForm) (op : AtomicKind) (d b c : Reg) (w : BitVec 6) (sc : Scope) : Act Unit := do
  let x ← me
  let n := widthOf w
  let a := (x.reg b).toNat
  let v := (x.reg c).toNat % 2 ^ n
  let cmp := (x.reg d).toNat % 2 ^ n
  atomicChecks f a n
  let s ← get
  if s.leaves then
    leave a n (.atomic d op v cmp) sc
    next
  else
    let old ← readBits a n sc
    match op.apply n old v cmp with
    | some v => writeBits a n v sc
    | none => pure ()
    wrNext d (nword old)

/-- AADD (R175). -/
def execAadd (d b c : Reg) (w : BitVec 6) (sc : Scope) (s : State) :=
  runStem (atomic .fetchAdd .add d b c w sc) s
/-- AAND (R175). -/
def execAand (d b c : Reg) (w : BitVec 6) (sc : Scope) (s : State) :=
  runStem (atomic .none .and d b c w sc) s
/-- AOR (R175). -/
def execAor (d b c : Reg) (w : BitVec 6) (sc : Scope) (s : State) :=
  runStem (atomic .none .or d b c w sc) s
/-- AXOR (R175). -/
def execAxor (d b c : Reg) (w : BitVec 6) (sc : Scope) (s : State) :=
  runStem (atomic .none .xor d b c w sc) s
/-- AMIN (R175). -/
def execAmin (d b c : Reg) (w : BitVec 6) (sc : Scope) (s : State) :=
  runStem (atomic .none .min d b c w sc) s
/-- AMAX (R175). -/
def execAmax (d b c : Reg) (w : BitVec 6) (sc : Scope) (s : State) :=
  runStem (atomic .none .max d b c w sc) s
/-- AMINN (R175). -/
def execAminn (d b c : Reg) (w : BitVec 6) (sc : Scope) (s : State) :=
  runStem (atomic .none .minn d b c w sc) s
/-- AMAXN (R175). -/
def execAmaxn (d b c : Reg) (w : BitVec 6) (sc : Scope) (s : State) :=
  runStem (atomic .none .maxn d b c w sc) s
/-- ASWAP (R175). -/
def execAswap (d b c : Reg) (w : BitVec 6) (sc : Scope) (s : State) :=
  runStem (atomic .swap .swap d b c w sc) s
/-- CAS (R176): S[sd] is the comparand; a failed compare writes nothing. -/
def execCas (d b c : Reg) (w : BitVec 6) (sc : Scope) (s : State) :=
  runStem (atomic .cas .cas d b c w sc) s

/-- CASQ on 128 bits (R148, R176); an odd register is ILLEGAL_OPERAND, code 16. -/
def casq (d b c : Reg) (sc : Scope) : Act Unit := do
  let x ← me
  raiseIf (d.getLsbD 0 || c.getLsbD 0) 16
  let a := (x.reg b).toNat
  let v := (x.reg c).toNat + 2 ^ 64 * (x.reg (c + 1)).toNat
  let cmp := (x.reg d).toNat + 2 ^ 64 * (x.reg (d + 1)).toNat
  atomicChecks .cas a 128
  let s ← get
  if s.leaves then
    leave a 128 (.casq d v cmp) sc
    next
  else
    let old ← readBits a 128 sc
    if old = cmp then writeBits a 128 v sc
    modMe (fun x => ((x.setReg d (nword old)).setReg (d + 1) (nword (old / 2 ^ 64))).advance)

/-- CASQ (R176). -/
def execCasq (d b c : Reg) (sc : Scope) (s : State) := runStem (casq d b c sc) s

end Sys2Proof.Machine
end

