-- ==== Sys2Proof/Machine/Sync.lean ====
section
/-!
DEFINITION. Fences, waits and barriers of the stem (R179-R183, R185), and the events that end a wait.
-/
namespace Sys2Proof.Machine

open Sys2Proof

/-- Kinds that order earlier scalar accesses (R142, R179). -/
def fenceOrdersScalar : FenceKind → Bool
  | .ss | .sv | .all => true
  | .vs | .vv => false
/-- Kinds that wait for earlier vector accesses (R142, R179). -/
def fenceWaitsVector : FenceKind → Bool
  | .ss | .sv => false
  | .vs | .vv | .all => true

/-- R117 and R118 of a fence at a scope. -/
def State.fence (s : State) (sc : Scope) : State :=
  let g := groveOf s.cur
  if Scope.inGrove sc then s
  else ((s.writeBackAll g).nextGen g).countScoped

/-- What a fence of a kind and scope has the hart perform first: its accesses of the streams that the kind orders (R142), and at sys
scope those through port 1, which a read there would find performed (R338). -/
def fenceBehind (k : FenceKind) (sc : Scope) (p : Pending) : Bool :=
  (fenceOrdersScalar k && !p.vec) || (fenceWaitsVector k && p.vec) || (decide (sc = .sys) && portOne p.parts)

/-- FENCE (R179): the kinds that order vector accesses wait for bolts and transfers; what the hart has not performed of the earlier
accesses is performed; at dev and sys scope R117 and R118. Kind all orders later fetches too (R386). -/
def fenceAct (k : FenceKind) (sc : Scope) : Act Unit := do
  if fenceWaitsVector k then
    awaitBolts
    awaitXfers
  drainedBy (fenceBehind k sc)
  modify (fun s => s.fence sc)
  if k = .all then modMe (fun x => { x with fetched := [] })
  next

/-- FENCE (R179). -/
def execFence (k : FenceKind) (sc : Scope) (s : State) := runStem (fenceAct k sc) s

/-- PAUSE (R185). -/
def execPause (s : State) := runStem next s

/-- Cycles of a TMO code (R150); none for 0. -/
def timeout (t : BitVec 5) : Option Nat := if t = 0 then none else some (2 ^ (t.toNat + 9))

/-! ### WAITM -/

/-- WAITM on the bits at `a` (R181): checks, then the value when it differs from `cmp` or when `done`. -/
def waitmOn (d : Reg) (a w cmp : Nat) (limit : Option Nat) (done : Bool) : Act Unit := do
  check a w .rd 2
  raiseIf (!(oneLine a w)) 52 a
  reach a w .rd 2
  let v ← readBits a w .sys
  if v ≠ cmp ∨ done then wrNext d (nword v) else stall (.waitm d a w cmp) limit

/-- WAITM (R181). -/
def execWaitm (d b c : Reg) (w : BitVec 6) (tmo : BitVec 5) (s : State) :=
  runStem (do
    let x ← me
    waitmOn d (x.reg b).toNat (widthOf w) ((x.reg c).toNat % 2 ^ widthOf w) (timeout tmo) false) s

/-- WAITM_WAKE (R181): the wait ends when the bits have changed. -/
def execWaitmWake (h : Nat) (s : State) : Host.Outcome State Fault Refusal :=
  match s.waitOf h with
  | some ⟨.waitm d a w cmp, _, _, _⟩ => runStem (waitmOn d a w cmp none false) (s.on h)
  | _ => .next s

/-- WAITM_TIMEOUT (R181): the value is returned, and nothing is raised. -/
def execWaitmTimeout (h : Nat) (s : State) : Host.Outcome State Fault Refusal :=
  match s.waitOf h with
  | some ⟨.waitm d a w cmp, b, e, n⟩ =>
    if WaitRec.expired ⟨.waitm d a w cmp, b, e, n⟩ s.cycle then runStem (waitmOn d a w cmp none true) (s.on h) else .next s
  | _ => .next s

/-! ### WAITC -/

/-- A failure not yet reported on a counter, and the rest (R198). -/
def takeFailure (cn : Nat) : List EngFail → Option (EngFail × List EngFail)
  | [] => none
  | f :: t =>
    if f.cn = cn then some (f, t)
    else match takeFailure cn t with
      | some (g, r) => some (g, f :: r)
      | none => none

/-- The ENGINE_FAULT of a failure, with the memory cause in DETAIL (R198, R314). -/
def State.engineFault (s : State) (f : EngFail) : TrapInfo :=
  { s.stemTrap (160 + f.cn) f.addr.toNat with detail := f.cause }

/-- WAITC once its counter allows it (R180): a failure on the counter is raised, once each. -/
def waitcOn (cn : CReg) (n : Nat) (limit : Option Nat) (s : State) : Host.Outcome State Fault Refusal :=
  let x := s.me
  if Tab.get 0 x.ctrs cn.toNat ≤ n then
    match takeFailure cn.toNat x.engFails with
    | some (f, rest) => .next ((s.modMe (fun x => { x with engFails := rest })).takeTrap (s.engineFault f))
    | none => .next (s.modMe Hart.advance)
  else .next (s.beginWait (.waitc cn n) limit)

/-- WAITC (R180). -/
def execWaitc (n : BitVec 5) (cn : BitVec 3) (tmo : BitVec 5) (s : State) := waitcOn cn n.toNat (timeout tmo) s

/-- WAITC_WAKE (R180). -/
def execWaitcWake (h : Nat) (s : State) : Host.Outcome State Fault Refusal :=
  match s.waitOf h with
  | some ⟨.waitc cn n, _, _, _⟩ => waitcOn cn n none (s.on h)
  | _ => .next s

/-- WAIT_TIMEOUT (R180): cause 176 + the counter. -/
def execWaitTimeout (h : Nat) (s : State) : Host.Outcome State Fault Refusal :=
  match s.waitOf h with
  | some ⟨.waitc cn n, b, e, m⟩ =>
    if WaitRec.expired ⟨.waitc cn n, b, e, m⟩ s.cycle ∧ n < Tab.get 0 (s.hart h).ctrs cn.toNat then
      .next ((s.on h).takeTrap ((s.on h).stemTrap (176 + cn.toNat) 0))
    else .next s
  | _ => .next s

/-! ### Arrival words (R137, R182, R183) -/

/-- A scope an arrival word may be named at (R182). -/
def arrivalScope : Scope → Bool
  | .hart | .core => false
  | .grove | .dev | .sys => true

/-- Reserved bits of an arrival word that must be zero (R137). -/
def arrivalReserved (w : Nat) : Bool := decide (w / 2 ^ 50 ≠ 0)
/-- COUNT plus `n`, modulo 2^32 (R182). -/
def arrivalAdd (w n : Nat) : Nat := w - w % 2 ^ 32 + (w + n) % 2 ^ 32

/-- ARRIVE (R182), its causes in their order. -/
def arriveAct (a b : Reg) (sc : Scope) : Act Unit := do
  let x ← me
  let va := (x.reg b).toNat
  raiseIf (!(arrivalScope sc)) 19
  raiseIf (va % 64 != 0) 184 va
  check va 64 .rmw 4
  let s ← get
  let pa := s.physOf va
  raiseIf (isHost pa && hostPort pa == 1) 432 (hostOff pa)
  awaitBolts
  awaitAllXfers
  reach va 64 .rmw 4
  drained
  modify (fun s => s.release (groveOf s.cur) sc)
  let w ← readBits va 64 sc
  raiseIf (arrivalReserved w) 190 va
  writeBits va 64 (arrivalAdd w ((x.reg a).toNat % 2 ^ 32)) sc
  next

/-- ARRIVE (R182). -/
def execArrive (a b : Reg) (sc : Scope) (s : State) := runStem (arriveAct a b sc) s

/-- A barrier is open: COUNT reached, ERR set, or another phase (R183). -/
def barrierOpen (w t ph : Nat) : Bool :=
  decide (t ≤ w % 2 ^ 32) || w.testBit 32 || decide (field w 49 42 ≠ ph)

/-- WAITB on the word at `va` (R183). -/
def waitbOn (d : Reg) (va t ph : Nat) (sc : Scope) (limit : Option Nat) (done : Bool) : Act Unit := do
  raiseIf (!(arrivalScope sc)) 19
  raiseIf (va % 64 != 0) 185 va
  check va 64 .rd 2
  reach va 64 .rd 2
  let w ← readBits va 64 sc
  raiseIf (arrivalReserved w) 191 va
  if barrierOpen w t ph || done then
    modify (fun s => s.acquire (groveOf s.cur) sc)
    wrNext d (nword w)
  else stall (.waitb d va t ph sc) limit

/-- WAITB (R183): S[sa] gives the target and the phase. -/
def execWaitb (d b a : Reg) (sc : Scope) (tmo : BitVec 5) (s : State) :=
  runStem (do
    let x ← me
    let y := (x.reg a).toNat
    waitbOn d (x.reg b).toNat (y % 2 ^ 32) (field y 39 32) sc (timeout tmo) false) s

/-- WAITB_WAKE (R183). -/
def execWaitbWake (h : Nat) (s : State) : Host.Outcome State Fault Refusal :=
  match s.waitOf h with
  | some ⟨.waitb d va t ph sc, _, _, _⟩ => runStem (waitbOn d va t ph sc none false) (s.on h)
  | _ => .next s

/-- WAITB_TIMEOUT (R183): the word as last read, and nothing is raised. -/
def execWaitbTimeout (h : Nat) (s : State) : Host.Outcome State Fault Refusal :=
  match s.waitOf h with
  | some ⟨.waitb d va t ph sc, b, e, n⟩ =>
    if WaitRec.expired ⟨.waitb d va t ph sc, b, e, n⟩ s.cycle then runStem (waitbOn d va t ph sc none true) (s.on h)
    else .next s
  | _ => .next s

/-! ### Waits that end with their instruction executing again -/

/-- BOLTS_COMPLETED_WAIT_END (R387): the hart's earlier bolts, or its transfers, are complete. -/
def execBoltsCompletedWaitEnd (h : Nat) (s : State) : Host.Outcome State Fault Refusal :=
  match s.waitOf h with
  | some ⟨.bolts, _, _, _⟩ => .next (if (s.hart h).drained then s.endWait h else s)
  | some ⟨.transfers, _, _, _⟩ => .next (if (s.dueXfers h).isEmpty then s.endWait h else s)
  | _ => .next s

/-- PAGE_BLOCKED (R129, R307): an access held at a migrating page for 2^24 cycles is withdrawn. -/
def execPageBlocked (h : Nat) (s : State) : Host.Outcome State Fault Refusal :=
  match s.waitOf h with
  | some ⟨.page va cls, b, e, n⟩ =>
    if WaitRec.expired ⟨.page va cls, b, e, n⟩ s.cycle then
      .next ((s.on h).takeTrap ((s.on h).stemTrap (memCause 7 cls) va))
    else .next s
  | _ => .next s

/-- The running hart's next access to a host bit address is to fail, as `kind` of R307 has it (log 100). -/
def State.willFail (s : State) (h kind pa : Nat) : State := { s with noReply := (h, kind, pa) :: s.noReply }

/-- HOST_TIMEOUT (R307): a host-memory access of a hart receives no completion. Classes 0 and 2 to 4 are stem causes, and
class 1 is the running bolt's. For classes 5 to 7 the hart's vector instruction or engine transfer that reaches the address
takes HOST_ABORT, which covers timeouts there, with the element, position and group R314 gives it. -/
def execHostTimeout (h cls va : Nat) (s : State) : Host.Outcome State Fault Refusal :=
  let s := s.on h
  if 5 ≤ cls then .next (s.willFail h 6 (s.physOf va))
  else
    let t := s.stemTrap (memCause 6 cls) va
    match s.me.bolts with
    | [] => .next (s.takeTrap t)
    | b :: _ =>
      let pc := match b.frags with
        | f :: _ => nword f.pc
        | [] => b.entry
      .next (s.takeTrap (if cls = 1 then { t with pc := pc, vec := true } else t))

/-- BACKINV_TIMEOUT (R313): the host did not answer a back-invalidation within 2^24 cycles. -/
def execBackinvTimeout (h va : Nat) (s : State) : Host.Outcome State Fault Refusal :=
  .next ((s.on h).takeTrap ((s.on h).stemTrap 434 va))

end Sys2Proof.Machine
end

