-- ==== Sys2Proof/Machine/Lots.lean ====
section
/-!
DEFINITION. Lots, claims, recalls and surrender (R38-R46, R190-R192, R331, R332, R267's clearing).
-/
namespace Sys2Proof.Machine

open Sys2Proof

/-! ### Lots passing from hart to hart -/

/-- The slab or the matrix engine of a lot loses what an earlier holder left (R267). -/
def Core.clearLot (c : Core) (kind i : Nat) : Core :=
  if kind = 1 then
    { c with acc := c.acc.filter (fun p => decide (p.1 / 256 / 128 ≠ i)),
             rows := c.rows.filter (fun p => decide (p.1 / 128 ≠ i)) }
  else if kind = 3 then { c with tiles := [] }
  else c

/-- A lot comes to be held by slot `sl`, placement `uid`; a slab or engine that another placement held last is cleared. -/
def Core.grant (c : Core) (kind i sl uid : Nat) (st : BitVec 2) (routine : Word) (claim : Option Nat) : Core :=
  let c' := if (c.lot kind i).lastUid = uid then c else c.clearLot kind i
  c'.setLot kind i ⟨st, BitVec.ofNat 3 sl, routine, claim, uid⟩

/-- A lot becomes free; its owner field goes to 0 with its state (R332). -/
def Core.freeLot (c : Core) (kind i : Nat) : Core :=
  c.setLot kind i { Lot.free with lastUid := (c.lot kind i).lastUid }

/-- A lot tagged with a claim, or with none. -/
def Core.tag (c : Core) (kind i : Nat) (claim : Option Nat) : Core :=
  c.setLot kind i { c.lot kind i with claim := claim }

/-- The claim with a number. -/
def Core.claimOf (c : Core) (id : Nat) : Option Claim := c.claims.find? (fun x => decide (x.id = id))
/-- A claim changed. -/
def Core.setClaim (c : Core) (x : Claim) : Core :=
  { c with claims := c.claims.map (fun y => if y.id = x.id then x else y) }

/-- A claim all of whose lots have passed to it completes with 0 (R40). -/
def Core.settle (c : Core) (id : Nat) : Core :=
  match c.claimOf id with
  | none => c
  | some x =>
    if x.outcome.isNone && decide (x.lots ≠ 0) && decide (x.got = x.lots) then
      let c1 := (Bits.members x.lots 8).foldl (fun c i => c.tag x.kind i none) c
      c1.setClaim { x with outcome := some 0, refused := [] }
    else c

/-- A lot leaves its holder: to the claim it is tagged with, or to none when that claim has ended (R40, R46). -/
def Core.passLot (c : Core) (kind i : Nat) : Core :=
  match (c.lot kind i).claim with
  | none => c.freeLot kind i
  | some id =>
    match c.claimOf id with
    | none => c.freeLot kind i
    | some x =>
      ((c.grant kind i x.slot x.uid 2 x.routine (some id)).setClaim { x with got := x.got ||| 2 ^ i }).settle id

/-! ### Claims -/

/-- The farm with a number. -/
def State.farmOf (s : State) (f : Nat) : Option Farm := s.farms.find? (fun x => decide (x.id = f))
/-- Followers wanted where FARM asks for as many as the yard can place. -/
def manyFollowers : Nat := 2 ^ 64
/-- A farm has unmet placement demand (R36); one that wants as many as can be placed has none (log 86), nor one for its saved harts
(log 110). -/
def Farm.unmet (f : Farm) : Bool := !f.leadPlaced || (f.opened && decide (f.wanted ≠ 0) && decide (f.wanted ≠ manyFollowers))
/-- Effective priority of a farm at a time (R36): PRIO and the whole milliseconds of its unmet demand. -/
def Farm.priority (f : Farm) (now : Nat) : Nat :=
  min 7 (field f.pkt.toNat 142 140 + if f.unmet then (now - f.since) / ticksPerMilli else 0)
/-- Effective priority of a hart's farm; a hart of no farm counts as 0. -/
def State.hartPriority (s : State) (h : Nat) : Nat :=
  match s.farmOf (s.hart h).farm with
  | some f => f.priority s.time
  | none => 0

/-- The lot is named in a recall that its holder's routine answers, of a claim that has ended: the answer frees it, or keeps it
(R40, R46). -/
def State.answering (s : State) (k kind i : Nat) : Bool :=
  let l := (s.core k).lot kind i
  l.claim.isNone && (match (s.hart (8 * k + l.owner.toNat)).routine with
    | some r => decide (r.kind = kind) && Bits.has r.lots i
    | none => false)

/-- The lots a claim may select, in the arbiter's order (R40): free ones, then negotiated ones of other harts of no higher
effective priority. A status-mode claim passes over lots that an unfinished claim has selected; no claim selects a lot whose
holder answers a recall of a claim that has ended (log 99). -/
def State.candidates (s : State) (k : Nat) (x : Claim) : List Nat :=
  let c := s.core k
  let all := upTo (lotCount x.kind)
  let prio := s.hartPriority (8 * k + x.slot)
  all.filter (fun i => decide ((c.lot x.kind i).st = 0)) ++
    all.filter (fun i =>
      let l := c.lot x.kind i
      decide (l.st = 2) && decide (l.owner.toNat ≠ x.slot) && (!x.status || l.claim.isNone) && !(s.answering k x.kind i) &&
        decide (s.hartPriority (8 * k + l.owner.toNat) ≤ prio))

/-- A hart's recall queue is full: four entries, the one being answered included (R41). -/
def Hart.recallsFull (x : Hart) : Bool := decide (4 ≤ x.recalls.length + if x.inRoutine then 1 else 0)

/-- A claim ends with a status other than 0: every reservation is undone (R40). -/
def State.undoClaim (s : State) (k id outcome : Nat) : State :=
  match (s.core k).claimOf id with
  | none => s
  | some x =>
    let one (c : Core) (i : Nat) : Core :=
      let l := c.lot x.kind i
      if l.claim = some id then
        if l.st = 2 ∧ l.owner.toNat = x.slot then c.freeLot x.kind i else c.tag x.kind i none
      else c
    let c1 := (Bits.members x.lots 8).foldl one (s.core k)
    let s1 := s.setCore k (c1.setClaim { x with outcome := some outcome, lots := 0, got := 0, refused := [] })
    (upTo 8).foldl (fun s sl =>
      let h := 8 * k + sl
      let y := s.hart h
      if y.recalls.any (fun r => decide (r.claim = id)) then
        s.setHart h { y with recalls := y.recalls.filter (fun r => !(decide (r.claim = id))) }
      else s) s1

/-- The claim waits, having seen the lots as they are. -/
def State.claimWaits (s : State) (k : Nat) (x : Claim) : State :=
  s.setCore k ((s.core k).setClaim { x with seen := (s.core k).version })

/-- A recall of the lots of `is` posted to their holder `h`. -/
def State.postRecall (s : State) (h : Nat) (x : Claim) (lots : Nat) : State :=
  let y := s.hart h
  s.setHart h { y with recalls := y.recalls ++ [⟨x.kind, lots, x.slot, x.id⟩] }

/-- The arbiter serves a claim (R40). -/
def State.serveClaim (s : State) (k : Nat) (x : Claim) : State :=
  let c := s.core k
  let sel := (s.candidates k x).take x.n
  if sel.length < x.n then
    if x.status then s.undoClaim k x.id 3 else s.claimWaits k x
  else if sel.any (fun i => (c.lot x.kind i).claim.isSome) then s.claimWaits k x
  else
    let held := sel.filter (fun i => decide ((c.lot x.kind i).st = 2))
    let free := sel.filter (fun i => decide ((c.lot x.kind i).st = 0))
    let lotsOf (sl : Nat) : Nat := Bits.ofList (held.filter (fun i => decide ((c.lot x.kind i).owner.toNat = sl)))
    let holders := (upTo 8).filter (fun sl => decide (lotsOf sl ≠ 0))
    if holders.any (fun sl => (s.hart (8 * k + sl)).recallsFull) then
      if x.status then s.undoClaim k x.id 2 else s.claimWaits k x
    else
      let c1 := free.foldl (fun c i => c.grant x.kind i x.slot x.uid 2 x.routine (some x.id)) c
      let c2 := held.foldl (fun c i => c.tag x.kind i (some x.id)) c1
      let x' := { x with lots := Bits.ofList sel, got := Bits.ofList free }
      let s1 := s.setCore k ((c2.setClaim x').settle x.id)
      holders.foldl (fun s sl => s.postRecall (8 * k + sl) x (lotsOf sl)) s1

/-- The arbiter takes up a claim and serves it, and its window rotates by one slot (R40; log 108). -/
def State.takeUp (s : State) (k : Nat) (x : Claim) : State :=
  let s1 := s.serveClaim k x
  s1.setCore k { s1.core k with window := ((s1.core k).window + 1) % 8 }

/-- A claim whose outcome is known returns it; another waits. -/
def State.endOrWait (s : State) (k id : Nat) (d : Reg) : State :=
  match (s.core k).claimOf id with
  | none => s
  | some x =>
    match x.outcome with
    | some o =>
      let s1 := s.setCore k { s.core k with claims := (s.core k).claims.filter (fun y => !(decide (y.id = id))) }
      s1.modMe (fun y => (y.setReg d (nword o)).advance)
    | none => s.beginWait (.claim id) none

/-- CLAIM (R190). -/
def execClaim (d a : Reg) (k : BitVec 2) (n : BitVec 4) (status : Bool) (s : State) : Host.Outcome State Fault Refusal :=
  let x := s.me
  let rt := x.reg a
  let c := coreOf s.cur
  if !(canonical rt.toNat) || decide (rt.toNat % 32 ≠ 0) then .next (s.takeTrap (s.stemTrap (220 + k.toNat) rt.toNat))
  else if x.inRoutine then .next (s.takeTrap (s.stemTrap (216 + k.toNat) 0))
  else
    match (s.core c).claims.find? (fun y => decide (y.slot = slotOf s.cur) && decide (y.uid = x.uid) && decide (y.pc = x.pc)) with
    | some y => .next (s.endOrWait c y.id d)
    | none =>
      let id := (s.core c).nextClaim
      let y : Claim := { id := id, slot := slotOf s.cur, uid := x.uid, pc := x.pc, kind := k.toNat, n := n.toNat,
                         status := status, routine := rt, lots := 0, got := 0, outcome := none, refused := [], seen := 0 }
      let s1 := s.setCore c { s.core c with nextClaim := id + 1, claims := (s.core c).claims ++ [y] }
      .next ((s1.takeUp c y).endOrWait c id d)

/-- The stall-mode claims with no lots selected that retry because the lots of their core have changed, by ascending slot within the
window (R40). -/
def State.retrying (s : State) (k : Nat) : List Claim :=
  let c := s.core k
  let due (x : Claim) : Bool := x.outcome.isNone && decide (x.lots = 0) && decide (x.seen ≠ c.version)
  (upTo 8).flatMap (fun i => c.claims.filter (fun x => due x && decide (x.slot = (c.window + i) % 8)))
/-- They retry together (R40). -/
def State.retryClaims (s : State) (k : Nat) : State := (s.retrying k).foldl (fun s x => s.takeUp k x) s

/-- A refused recall, given by its lots and the cycle of the refusal, is posted again 4,096 cycles after it (R40): for those of
its lots that their holder still has, and once the holder's queue has room. -/
def State.repost (s : State) (k id : Nat) (e : Nat × Nat) : State :=
  match (s.core k).claimOf id with
  | none => s
  | some x =>
    if s.cycle < e.2 + 4096 then s
    else
      let c := s.core k
      let s1 := s.setCore k (c.setClaim { x with refused := x.refused.erase e })
      let left := (Bits.members (Bits.diff e.1 x.got) 8).filter (fun i =>
        decide ((c.lot x.kind i).st = 2) && decide ((c.lot x.kind i).claim = some id))
      match left with
      | [] => s1
      | i :: _ =>
        let h := 8 * k + (c.lot x.kind i).owner.toNat
        if (s.hart h).recallsFull then s else s1.postRecall h x (Bits.ofList left)
/-- The refused recalls of a claim, each posted again in its time (R40). -/
def State.repostClaim (s : State) (k : Nat) (x : Claim) : State := x.refused.foldl (fun s e => s.repost k x.id e) s

/-- CLAIM_RETRY (R40); a claim whose outcome is known returns it. -/
def execClaimRetry (h : Nat) (s : State) : Host.Outcome State Fault Refusal :=
  match s.waitOf h with
  | some ⟨.claim id, _, _, _⟩ =>
    match (s.core (coreOf h)).claimOf id with
    | none => .next (s.endWait h)
    | some x => .next (if x.outcome.isSome then s.endWait h else s.retryClaims (coreOf h))
  | _ => .next s

/-- CLAIM_RECALL_REPOST (R40). -/
def execClaimRecallRepost (h : Nat) (s : State) : Host.Outcome State Fault Refusal :=
  match s.waitOf h with
  | some ⟨.claim id, _, _, _⟩ =>
    match (s.core (coreOf h)).claimOf id with
    | some x => .next (s.repostClaim (coreOf h) x)
    | none => .next s
  | _ => .next s

/-! ### Release -/

/-- Lots released before delivery are withdrawn from the holder's recalls (R41). -/
def Hart.withdraw (x : Hart) (kind lots : Nat) : Hart :=
  let left := x.recalls.map (fun r => if r.kind = kind then { r with lots := Bits.diff r.lots lots } else r)
  { x with recalls := left.filter (fun r => decide (r.lots ≠ 0)) }

/-- RELEASE (R191). -/
def execRelease (a : Reg) (k : BitVec 2) (s : State) : Host.Outcome State Fault Refusal :=
  let x := s.me
  let m := (x.reg a).toNat
  let kind := k.toNat
  let c := s.myCore
  let held (i : Nat) : Bool := c.holds (slotOf s.cur) kind i && decide ((c.lot kind i).st ≠ 3)
  if (Bits.members m 64).any (fun i => !(held i)) then .next (s.takeTrap (s.stemTrap (192 + kind) 0))
  else if decide (m ≠ 0) && decide (kind ≠ 0) && !x.drained then .next (s.beginWait .bolts none)
  else
    let s1 := s.modMe (fun x => (x.withdraw kind m).advance)
    .next (s1.modMyCore (fun c => (Bits.members m 8).foldl (fun c i =>
      if kind = 0 then c.setLot 0 i { c.lot 0 i with st := 3 } else c.passLot kind i) c))

/-! ### Recalls and verdicts -/

/-- The vector state of a hart whose lanes change reads zero (R24, R43). -/
def Hart.zeroVectors (x : Hart) : Hart :=
  { x with vregs := [], masks := [], qcodes := [], qlin := [] }

/-- RECALL as written at delivery (R41). -/
def recallWord (r : Recall) (waiting : Nat) : Word :=
  nword (r.lots * 2 ^ 16 + r.kind * 2 ^ 14 + r.req * 2 ^ 11 + (min 3 waiting) * 2 ^ 8 + 1)

/-- A recall may be delivered now (R41, R45, R318): a recall waits, no routine runs, depth 0, and the running bolt stands at
a convoy boundary, which a sweep or a convoy that a pre-emption has cut has not reached (R267). -/
def Hart.recallDue (x : Hart) : Bool :=
  x.placed && !x.halted && decide (x.recalls ≠ []) && !x.inRoutine && decide (x.depth = 0) &&
    (match x.bolts with
     | [] => true
     | b :: _ => decide (b.convoy = []) && b.mpos.isNone && !b.cut)

/-- RECALL_DELIVERY (R41): the stem is interrupted, the bolts are set aside, RECALL is loaded, the budget begins, and the
routine of the lowest-index recalled lot runs. -/
def execRecallDelivery (h : Nat) (s : State) : Host.Outcome State Fault Refusal :=
  let x := s.hart h
  match x.recalls with
  | [] => .next s
  | r :: rest =>
    if x.recallDue then
      let i := (Bits.lowest r.lots 8).getD 0
      let rt := ((s.core (coreOf h)).lot r.kind i).routine
      .next (s.setHart h ({ x with
        recallW := recallWord r rest.length, recalls := rest,
        routine := some ⟨some x.sbudget.toNat, r.kind, r.lots, r.claim⟩,
        frames := ⟨true, x.pc, x.wrapFrom, x.bolts⟩ :: x.frames, bolts := [], vwait := none }.jump rt))
    else .next s

/-- The topmost frame of a routine, and the others. -/
def popRoutineFrame : List Frame → Option (Frame × List Frame)
  | [] => none
  | f :: t =>
    if f.routine then some (f, t)
    else match popRoutineFrame t with
      | some (g, r) => some (g, f :: r)
      | none => none

/-- A routine ends with a verdict: the interrupted stem resumes with the paused bolts behind the routine's own (R42, R387). -/
def Hart.endRoutine (x : Hart) : Hart :=
  let y := { x with routine := none, recallW := x.recallW &&& ~~~1 }
  match popRoutineFrame x.frames with
  | some (f, rest) => { { y with frames := rest, bolts := x.bolts ++ f.bolts }.jump f.pc with wrapFrom := f.wrap }
  | none => y.advance

/-- Lots of a routine that its hart still holds for the claim (R42). -/
def State.surrendering (s : State) (r : Routine) : List Nat :=
  (Bits.members r.lots 8).filter (fun i => s.holds r.kind i && decide ((s.myCore.lot r.kind i).st = 2))

/-- The lots of a routine pass: a lane cluster through state 11, another at once (R42, R46). -/
def State.surrender (s : State) (r : Routine) : State :=
  let is := s.surrendering r
  s.modMyCore (fun c => is.foldl (fun c i =>
    if r.kind = 0 then c.setLot 0 i { c.lot 0 i with st := 3 } else c.passLot r.kind i) c)

/-- The lots of a routine are stripped by force (R43): they pass at once, to none where their claim has ended (log 109); lane
clusters leave, for the bolts that stand aside too (R25), VL is 0, MVL is recomputed and the vectors read zero; the routine runs on
without a budget. Where no SETVL has yet counted the clusters that leave, VL and the vectors stay as they are (log 94). -/
def State.strip (s : State) (r : Routine) : State :=
  let is := s.surrendering r
  let s1 := s.modMyCore (fun c => is.foldl (fun c i => c.passLot r.kind i) c)
  let lost := if r.kind = 0 then Bits.ofList is else 0
  s1.modMe (fun x =>
    let y := { x with srefn := 0, routine := some { r with budget := none, lots := 0 } }
    if lost &&& x.lc = 0 then y
    else
      let lc := Bits.diff x.lc lost
      ({ y with vtype := vtypeOf x.cfg lc, vl := 0, mvl := mvlOf x.cfg lc }.zeroVectors).mapBolts (fun b => { b with lanes := lc }))

/-- The lowest lot index in RECALL.LOTS (R310). -/
def Hart.lowestRecalled (x : Hart) : Nat := (Bits.lowest (x.recallW.extractLsb' 16 8).toNat 8).getD 0

/-- SDONE (R42, R192). -/
def execSdone (s : State) : Host.Outcome State Fault Refusal :=
  match s.me.routine with
  | none => .next (s.takeTrap (s.stemTrap 229 0))
  | some r => .next ((s.surrender r).modMe (fun x => { x with srefn := 0 }.endRoutine))

/-- SSUMM (R42, R192): as SDONE, after the routine's memory and engine operations are complete and visible at dev scope. -/
def execSsumm (s : State) : Host.Outcome State Fault Refusal :=
  match s.me.routine with
  | none => .next (s.takeTrap (s.stemTrap 230 0))
  | some r =>
    if !s.me.drained then .next (s.beginWait .bolts none)
    else if !(s.dueXfers s.cur).isEmpty then .next (s.beginWait .transfers none)
    else .next ((((s.drain s.cur).release (groveOf s.cur) .dev).surrender r).modMe (fun x => { x with srefn := 0 }.endRoutine))

/-- A refusal within the limit, on the claim's side (R40): a status-mode claim ends, and another has the recall posted again
later. Where the claim has ended, the lots that stay with their holder count as a change for the claims that retry. -/
def State.refused (s : State) (r : Routine) : State :=
  let k := coreOf s.cur
  let is := s.surrendering r
  match (s.core k).claimOf r.claim with
  | none => s.setCore k { s.core k with version := (s.core k).version + 1 }
  | some x =>
    if x.outcome.isSome then s.setCore k { s.core k with version := (s.core k).version + 1 }
    else if is = [] then s
    else if x.status then s.undoClaim k r.claim 1
    else s.setCore k ((s.core k).setClaim { x with refused := x.refused ++ [(Bits.ofList is, s.cycle)] })

/-- SREFUSE (R42-R44, R192): SREFN counts up to 16; beyond SRLIMIT the lots are stripped and LOT_STRIPPED is taken. -/
def execSrefuse (s : State) : Host.Outcome State Fault Refusal :=
  match s.me.routine with
  | none => .next (s.takeTrap (s.stemTrap 231 0))
  | some r =>
    if r.budget.isNone then .next (s.modMe (fun x => { x with srefn := 0 }.endRoutine))
    else
      let n := min 16 (s.me.srefn.toNat + 1)
      let s1 := s.modMe (fun x => { x with srefn := nword n })
      if s.me.srlimit.toNat < n then
        let s2 := s1.strip r
        .next (s2.takeTrap (s2.stemTrap (200 + s2.me.lowestRecalled) 0))
      else .next ((s1.refused r).modMe Hart.endRoutine)

/-- SURRENDER_BUDGET (R43): the budget has reached zero without a verdict; TPC names the instruction not executed. -/
def execSurrenderBudget (h : Nat) (s : State) : Host.Outcome State Fault Refusal :=
  let s := s.on h
  match s.me.routine with
  | some r =>
    if r.budget = some 0 then
      let s2 := s.strip r
      .next (s2.takeTrap (s2.stemTrap (208 + s2.me.lowestRecalled) 0))
    else .next s
  | none => .next s

/-! ### Lanes at SETVL, and all lots at the end of a hart -/

/-- The lane clusters LANEPART names a slot as owner of, those in state 11 apart (R24, R27). -/
def Core.lanesOf (c : Core) (sl : Nat) : Nat :=
  Bits.ofList ((upTo 8).filter (fun i => c.holds sl 0 i && decide ((c.lot 0 i).st ≠ 3)))
/-- The lane clusters of a slot in state 11. -/
def Core.leaving (c : Core) (sl : Nat) : List Nat :=
  (upTo 8).filter (fun i => c.holds sl 0 i && decide ((c.lot 0 i).st = 3))
/-- The lane clusters in state 11 pass on (R46). -/
def Core.passLeaving (c : Core) (sl : Nat) : Core := (c.leaving sl).foldl (fun c i => c.passLot 0 i) c
/-- Every lot of a slot passes on or becomes free (R30, R48). -/
def Core.releaseAll (c : Core) (sl : Nat) : Core :=
  (upTo 4).foldl (fun c kind =>
    (upTo (lotCount kind)).foldl (fun c i => if c.holds sl kind i then c.passLot kind i else c) c) c
/-- The unfinished claims of a hart that leaves its core end, and its lots pass on; its recalls count as answered
(R30, R48). -/
def State.leaveLots (s : State) (h : Nat) : State :=
  let k := coreOf h
  let mine := (s.core k).claims.filter (fun y => decide (y.slot = slotOf h) && decide (y.uid = (s.hart h).uid))
  let s1 := mine.foldl (fun s y => s.undoClaim k y.id 1) s
  let c := { s1.core k with claims := (s1.core k).claims.filter (fun y =>
    !(decide (y.slot = slotOf h) && decide (y.uid = (s.hart h).uid))) }
  let s2 := s1.setCore k (c.releaseAll (slotOf h))
  s2.setHart h { s2.hart h with recalls := [] }

end Sys2Proof.Machine
end

