-- ==== Sys2Proof/Machine/Tokens.lean ====
section
/-!
DEFINITION. Probe tokens and flume bindings (R124-R126, R132, R193-R195).
-/
namespace Sys2Proof.Machine

open Sys2Proof

/-- Token `k` of a hart. -/
def Hart.tok (x : Hart) (k : Nat) : Token := Tab.get Token.none x.toks k
/-- Token `k` replaced. -/
def Hart.setTok (x : Hart) (k : Nat) (t : Token) : Hart := { x with toks := Tab.set Token.none x.toks k t }

/-- The kinds a token was probed for allow an access. -/
def Token.allows (t : Token) (k : AccKind) : Bool := k.allowed t.r t.w

/-- The address space that stands for the translation token `k` of hart `h` keeps where its pages have been mapped anew under
it (R370). -/
def tokenSpace (h k : Nat) : Nat := 2 ^ 16 + 16 * h + k
/-- The address space in which hart `h` reaches memory through token `k`: its own, or the old pages the token keeps. -/
def State.spaceOf (s : State) (h k : Nat) : Nat :=
  if s.maps.any (fun m => decide (m.asid = tokenSpace h k)) then tokenSpace h k else (s.hart h).asid
/-- Token `k` of hart `h` keeps no old pages. -/
def State.dropSpace (s : State) (h k : Nat) : State :=
  if s.maps.any (fun m => decide (m.asid = tokenSpace h k)) then
    { s with maps := s.maps.filter (fun m => !(decide (m.asid = tokenSpace h k))) }
  else s
/-- The tokens of hart `h` keep no old pages. -/
def State.dropSpaces (s : State) (h : Nat) : State := (upTo 16).foldl (fun s k => s.dropSpace h k) s

/-- The address space that stands for the translation a farm's token `k` keeps for its followers (R28, R370). -/
def farmSpace (f k : Nat) : Nat := 2 ^ 17 + 16 * f + k
/-- What address space `x` maps, address space `y` maps too. -/
def State.copySpace (s : State) (x y : Nat) : State :=
  if s.maps.any (fun m => decide (m.asid = x)) then
    { s with maps := s.maps ++ (s.maps.filter (fun m => decide (m.asid = x))).map (fun m => { m with asid := y }) }
  else s
/-- The old pages that tokens keep come to the tokens of the same numbers elsewhere. -/
def State.copySpaces (s : State) (x y : Nat → Nat) (toks : Tab Token) : State := toks.foldl (fun s p => s.copySpace (x p.1) (y p.1)) s
/-- A farm that is done keeps no old pages. -/
def State.dropFarmSpace (s : State) (f : Nat) : State :=
  let its (m : Mapping) : Bool := decide (farmSpace f 0 ≤ m.asid) && decide (m.asid < farmSpace f 16)
  if s.maps.any its then { s with maps := s.maps.filter (fun m => !(its m)) } else s

/-- A live token that overlaps a range of its address space is revoked (R125). -/
def Token.revoke (t : Token) (lo n : Nat) (st : TokState) : Token :=
  if t.st = .live ∧ t.base < lo + n ∧ lo < t.base + t.ext then { t with st := st } else t
/-- Every token of an address space that covers bits of a range is revoked (R125). -/
def State.revoke (s : State) (asid lo n : Nat) (st : TokState) : State :=
  let f (l : Tab Token) : Tab Token := l.map (fun p => (p.1, p.2.revoke lo n st))
  { s with
    harts := s.harts.map (fun p => if p.2.asid = asid then (p.1, { p.2 with toks := f p.2.toks }) else p),
    farms := s.farms.map (fun x => if x.asid = asid then { x with leadToks := f x.leadToks } else x),
    saved := s.saved.map (fun x => if x.hart.asid = asid then { x with hart := { x.hart with toks := f x.hart.toks } } else x) }

/-- What becomes of a tile attached to a token that is freed or probed anew (R268). -/
def Tile.tokenGone (t : Tile) (k : Nat) (reload : Bool) : Tile :=
  if t.st = .valid ∧ t.tok = some k then (if reload then { t with st := .reload } else { t with tok := none }) else t
/-- The running hart holds its core's engine, or held it last. -/
def State.engineMine (s : State) : Bool := s.holds 3 0 || decide ((s.myCore.lot 3 0).lastUid = s.me.uid)
/-- The tiles of the running hart's engine after its token `k` is freed, or probed anew while revoked. -/
def State.tilesTokenGone (s : State) (k : Nat) (reload : Bool) : State :=
  if s.engineMine then s.modMyCore (fun c => { c with tiles := c.tiles.map (fun p => (p.1, p.2.tokenGone k reload)) }) else s

/-- Pages pinned by a hart's tokens other than `k`; a page counts for each token that pins it (log 112). -/
def Hart.pinnedBut (x : Hart) (k : Nat) : Nat := (x.toks.filter (fun p => decide (p.1 ≠ k))).foldl (fun n p => n + p.2.pages) 0

/-- PROBE's kind codes (R153). -/
def probeKind (k : BitVec 2) : AccKind := if k = 1 then .rd else if k = 2 then .wr else .rmw
/-- Access class of a scalar access of a kind (R307). -/
def AccKind.cls : AccKind → Nat
  | .rd => 2
  | .wr => 3
  | .rmw => 4

/-- PROBE (R193), its causes in their order. -/
def probeAct (k : Tok) (a b : Reg) (kd : BitVec 2) : Act Unit := do
  let x ← me
  let base := (x.reg a).toNat
  let ext := (x.reg b).toNat
  let kind := probeKind kd
  raiseIf (decide (2 ^ 40 < ext)) 53 base
  check base ext kind kind.cls
  let s ← get
  let pages := (s.parts x.asid base ext).length
  raiseIf (decide (65536 < pages + x.pinnedBut k.toNat)) 53 base
  let old := x.tok k.toNat
  modify (fun s => match old.st with
    | .free => s
    | .live => s.tilesTokenGone k.toNat false
    | _ => s.tilesTokenGone k.toNat true)
  modify (fun s => s.dropSpace s.cur k.toNat)
  let t : Token := ⟨.live, base, ext, decide (kind ≠ .wr), kind.writes, pages, false⟩
  modMe (fun x => (x.setTok k.toNat t).advance)

/-- PROBE (R193). -/
def execProbe (k : Tok) (a b : Reg) (kd : BitVec 2) (s : State) := runStem (probeAct k a b kd) s

/-- UNPROBE (R194). -/
def execUnprobe (k : Tok) (s : State) :=
  runStem (do
    awaitBolts
    let x ← me
    if (x.tok k.toNat).st ≠ .free then modify (fun s => (s.tilesTokenGone k.toNat false).dropSpace s.cur k.toNat)
    modMe (fun x => (x.setTok k.toNat Token.none).advance)) s

/-! ### Flume records (R132) -/

/-- Element tag code of a record. -/
def fmtOf (r : BitVec 256) : BitVec 8 := r.extractLsb' 24 8
/-- LAYER of a record. -/
def layerOf (r : BitVec 256) : Nat := (r.extractLsb' 4 12).toNat
/-- LEN: the layer is checked at each strip. -/
def lenOf (r : BitVec 256) : Bool := r.getLsbD 3
/-- SEN: a scale stream is present. -/
def senOf (r : BitVec 256) : Bool := r.getLsbD 2
/-- ONABS: a layer that is not resident raises SWAP_ABSENT. -/
def onabsOf (r : BitVec 256) : Bool := r.getLsbD 1

/-- The resident context with an identifier (R361). -/
def State.ctx (s : State) (m : Nat) : Option Ctx := s.ctxs.find? (fun c => decide (c.mctx = m))
/-- Layers of a context; 0 where it is not resident. -/
def State.layers (s : State) (m : Nat) : Nat :=
  match s.ctx m with
  | some c => c.nlayer
  | none => 0

/-- The least binding slot not in use (R311). -/
def freeSlot (bs : List Binding) : Nat := ((upTo 8).find? (fun i => !(bs.any (fun b => decide (b.slot = i))))).getD 8
/-- The binding of a register. -/
def Hart.bindOf (x : Hart) (v : Nat) : Option Binding := x.binds.find? (fun b => decide (b.reg = v))
/-- Without the binding of a register. -/
def Hart.unbind (x : Hart) (v : Nat) : Hart := { x with binds := x.binds.filter (fun b => !(decide (b.reg = v))) }

/-- BIND (R195), its causes in their order. -/
def bindAct (b : Reg) (v : VReg) : Act Unit := do
  awaitBolts
  let x ← me
  let a := (x.reg b).toNat
  raiseIf (decide (x.cfg.nreg ≤ v.toNat)) 57
  raiseIf (a % 64 != 0) 58
  access a 256 .rd 2
  let w ← readBits a 256 .grove
  let r := BitVec.ofNat 256 w
  let s ← get
  raiseIf (r.getLsbD 0 || (Tag.ofCode (fmtOf r)).isNone ||
    (lenOf r && (decide (x.mctx = 0) || decide (s.layers x.mctx.toNat ≤ layerOf r)))) 58
  raiseIf ((x.bindOf v.toNat).isNone && decide (8 ≤ x.binds.length)) 59
  modMe (fun x =>
    let y := x.unbind v.toNat
    let bd : Binding := ⟨freeSlot y.binds, v.toNat, r, 0, []⟩
    { y with binds := y.binds ++ [bd],
             position := if lenOf r then max y.position (layerOf r) else y.position }.advance)

/-- BIND (R195). -/
def execBind (b : Reg) (v : VReg) (s : State) := runStem (bindAct b v) s

/-- UNBIND (R195). -/
def execUnbind (v : VReg) (s : State) :=
  runStem (do
    awaitBolts
    modMe (fun x => (x.unbind v.toNat).advance)) s

end Sys2Proof.Machine
end

