-- ==== Sys2Proof/Machine/Farms.lean ====
section
/-!
DEFINITION. Vector configuration and length, farms, launches and the end of a hart (R21-R32, R186, R188, R189, R387).
-/
namespace Sys2Proof.Machine

open Sys2Proof

/-! ### VCFG and SETVL -/

/-- The configuration of a 576-bit record, or none where R22 refuses its contents. -/
def readConfig (r : Nat) : Option VCfg :=
  let nreg := field r 6 0
  let sw := 8 * 2 ^ field r 15 14
  let tags := (upTo nreg).map (fun i => BitVec.ofNat 8 (r >>> (64 + 8 * i)))
  let ok (c : BitVec 8) : Bool := match Tag.ofCode c with
    | some t => decide (t.width ≤ sw)
    | none => false
  if nreg = 0 ∨ 64 < nreg ∨ field r 13 7 ≠ 0 ∨ field r 63 20 ≠ 0 then none
  else if tags.all ok then some ⟨nreg, sw, field r 19 16, tags⟩
  else none

/-- The hart after a successful VCFG (R22, R186). -/
def Hart.configure (x : Hart) (c : VCfg) : Hart :=
  { x with cfg := c, mvl := mvlOf c x.lc, vl := 0, vtype := vtypeOf c x.lc, binds := [] }.zeroVectors

/-- VCFG (R22, R186): CFG_INVALID, code 51, for a misaligned record, then check_access, then for its contents. -/
def vcfgAct (d b : Reg) : Act Unit := do
  let x ← me
  raiseIf x.inRoutine 224
  awaitBolts
  let a := (x.reg b).toNat
  raiseIf (a % 64 != 0) 51
  access a 576 .rd 2
  let r ← readBits a 576 .grove
  match readConfig r with
  | none => raise 51
  | some c => modMe (fun x => let y := x.configure c; (y.setReg d (nword y.mvl)).advance)

/-- VCFG (R186). -/
def execVcfg (d b : Reg) (s : State) := runStem (vcfgAct d b) s

/-- Bolts are set aside (R387). -/
def Hart.setAside (x : Hart) : Bool := x.frames.any (fun f => decide (f.bolts ≠ []))

/-- A lane change is pending for the running hart (R24, R387). -/
def State.lanesPending (s : State) : Bool :=
  let sl := slotOf s.cur
  !s.me.setAside && (decide (s.myCore.lanesOf sl ≠ s.me.lc) || decide (s.myCore.leaving sl ≠ []))

/-- The lanes in force after a SETVL; the vectors read zero and LREP is set where they changed (R24). -/
def Hart.setLanes (x : Hart) (lc : Nat) : Hart :=
  let y := { x with vtype := vtypeOf x.cfg lc, mvl := mvlOf x.cfg lc }
  if lc = x.lc then y else { y with pstat := y.pstat ||| 0x100 }.zeroVectors

/-- VL and sd of SETVL (R24). -/
def Hart.setVl (x : Hart) (d : Reg) (n : Nat) : Hart :=
  let vl := min n x.mvl
  ({ x with vl := vl }.setReg d (nword vl)).advance

/-- SETVL (R24, R186, R387): a pending lane change first waits for the earlier bolts. -/
def setvlAct (d a : Reg) : Act Unit := do
  let x ← me
  raiseIf x.inRoutine 225
  let s ← get
  let n := (x.reg a).toNat
  if s.lanesPending then
    awaitBolts
    let sl := slotOf s.cur
    let lc := s.myCore.lanesOf sl
    modMyCore (fun c => c.passLeaving sl)
    modMe (fun x => (x.setLanes lc).setVl d n)
  else modMe (fun x => (x.setLanes x.lc).setVl d n)

/-- SETVL (R24). -/
def execSetvl (d a : Reg) (s : State) := runStem (setvlAct d a) s

/-! ### Farms -/

/-- A farm changed. -/
def State.setFarm (s : State) (x : Farm) : State :=
  { s with farms := s.farms.map (fun y => if y.id = x.id then x else y) }

/-- A farm with its hart-cycles charged against its deficit up to now (R36). -/
def State.charged (s : State) (f : Farm) : Farm :=
  { f with deficit := f.deficit - (f.running * (s.cycle - f.counted) : Nat), counted := s.cycle }
/-- A hart of a farm comes to a slot. -/
def State.runsMore (s : State) (f : Farm) : Farm := { s.charged f with running := f.running + 1 }
/-- A hart of a farm leaves its slot. -/
def State.runsLess (s : State) (f : Farm) : Farm := { s.charged f with running := f.running - 1 }

/-- FARM (R28): FARM_REPEAT 232, then FARM_ENTRY 233. The followers' shared pins are of the tokens that are live now
(log 87). -/
def farmAct (a b : Reg) : Act Unit := do
  let x ← me
  raiseIf x.inRoutine 226
  let s ← get
  match s.farmOf x.farm with
  | none => next
  | some f =>
    raiseIf f.opened 232
    raiseIf ((x.reg b).toNat % 32 != 0) 233
    let n := (x.reg a).toNat
    let toks := x.toks.filter (fun p => decide (p.2.st = .live))
    set ((s.copySpaces (tokenSpace s.cur) (farmSpace f.id) toks).setFarm
      { f with opened := true, wanted := if n = 0 then manyFollowers else n, entry := x.reg b, leadRegs := x.regs, leadToks := toks,
               since := s.time, full := false })
    next

/-- FARM (R28). -/
def execFarm (a b : Reg) (s : State) := runStem (farmAct a b) s

/-- STRIP (R29): one indivisible fetch of the farm counter; a hart of no farm takes nothing. -/
def stripAct (d : Reg) : Act Unit := do
  let x ← me
  raiseIf x.inRoutine 227
  let s ← get
  match s.farmOf x.farm with
  | none => modMe (fun x => ({ x with vl := 0 }.setReg d 0).advance)
  | some f =>
    let take := min x.vl (f.total - f.counter)
    set (s.setFarm { f with counter := f.counter + take })
    modMe (fun x => ({ x with vl := take }.setReg d (nword f.counter)).advance)

/-- STRIP (R29). -/
def execStrip (d : Reg) (s : State) := runStem (stripAct d) s

/-! ### Launches (R31, R32) -/

/-- ENTRY of a packet. -/
def pktEntry (p : Nat) : Nat := field p 63 0
/-- COUNT of a packet. -/
def pktCount (p : Nat) : Nat := field p 127 64
/-- LCL, ACS, SPQ or MXE of a packet, by lot kind. -/
def pktLots (p kind : Nat) : Nat :=
  if kind = 0 then field p 131 128 else if kind = 1 then field p 135 132 else if kind = 2 then field p 138 136
  else field p 139 139
/-- PRIO of a packet. -/
def pktPrio (p : Nat) : Nat := field p 142 140
/-- WAITARR of a packet. -/
def pktWaits (p : Nat) : Bool := p.testBit 143
/-- QUEUE of a packet. -/
def pktQueue (p : Nat) : Nat := field p 147 144
/-- MCTXID of a packet. -/
def pktMctx (p : Nat) : Nat := field p 159 148
/-- TARGET of a packet. -/
def pktTarget (p : Nat) : Nat := field p 191 160
/-- ARRADDR of a packet. -/
def pktArr (p : Nat) : Nat := field p 255 192
/-- ARGi of a packet. -/
def pktArg (p i : Nat) : Word := nword (p >>> (256 + 64 * i))

/-- The checks of R32 on a packet's contents, as causes of R310 in their order. -/
def State.packetCause (s : State) (p : Nat) : Option Nat :=
  if pktEntry p % 32 ≠ 0 then some 235
  else if !(canonical (pktEntry p)) then some 236
  else if 8 < pktLots p 0 ∨ 8 < pktLots p 1 ∨ 4 < pktLots p 2 then some 237
  else if pktMctx p ≠ 0 ∧ (s.ctx (pktMctx p)).isNone then some 238
  else if pktWaits p ∧ (pktArr p % 64 ≠ 0 ∨ !(canonical (pktArr p))) then some 239
  else none

/-- A launch queue of a die (R33). -/
def State.yardQ (s : State) (die q : Nat) : YardQ := Tab.get YardQ.empty s.yardQs (16 * die + q)
/-- A launch queue replaced. -/
def State.setYardQ (s : State) (die q : Nat) (x : YardQ) : State :=
  { s with yardQs := Tab.set YardQ.empty s.yardQs (16 * die + q) x }
/-- A queue holds 64 packets (R32). -/
def YardQ.full (x : YardQ) : Bool := decide (64 ≤ x.packets.length)

/-- LAUNCH (R32, R186, R188): a release at dev scope whose write is the packet's entry into the queue. -/
def launchAct (b : Reg) : Act Unit := do
  let x ← me
  let a := (x.reg b).toNat
  raiseIf (a % 64 != 0) 234 a
  access a 1024 .rd 2
  let p ← readBits a 1024 .grove
  let s ← get
  match s.packetCause p with
  | some c => raise c a
  | none =>
    awaitBolts
    awaitAllXfers
    drained
    let die := dieOf s.cur
    stallIf (s.yardQ die (pktQueue p)).full (.launchRoom die (pktQueue p))
    modify (fun s =>
      let s' := s.release (groveOf s.cur) .dev
      let q := s'.yardQ die (pktQueue p)
      s'.setYardQ die (pktQueue p) { q with packets := q.packets ++ [⟨BitVec.ofNat 1024 p, a, x.asid⟩] })
    next

/-- LAUNCH (R32). -/
def execLaunch (b : Reg) (s : State) := runStem (launchAct b) s

/-- LAUNCH_QUEUE_ROOM (R32): a LAUNCH that waits for its queue goes on when it has room. -/
def execLaunchQueueRoom (h : Nat) (s : State) : Host.Outcome State Fault Refusal :=
  match s.waitOf h with
  | some ⟨.launchRoom die q, _, _, _⟩ => .next (if (s.yardQ die q).full then s else s.endWait h)
  | _ => .next s

/-! ### The end of a hart (R30) -/

/-- A farm loses a hart; a farm all of whose harts have ended is done (R30, R34). -/
def State.leaveFarm (s : State) (f : Nat) : State :=
  match s.farmOf f with
  | none => s
  | some x =>
    if x.alive ≤ 1 then { (s.dropFarmSpace f) with farms := s.farms.filter (fun y => !(decide (y.id = f))) }
    else s.setFarm { s.runsLess x with alive := x.alive - 1 }

/-- The recheck queue of its core holds no entry of hart `h`: those left have agreed (R322). -/
def State.dropRechecks (s : State) (h : Nat) : State :=
  let c := s.core (coreOf h)
  if c.rechecks = [] then s else s.setCore (coreOf h) { c with rechecks := c.rechecks.filter (fun i => decide (i ≠ h)) }
/-- Steps 2 to 5 of R30: tokens, bindings, lots and slot are freed. -/
def State.endHart (s : State) (h : Nat) : State :=
  let s1 := (((s.leaveLots h).leaveFarm (s.hart h).farm).dropSpaces h).dropRechecks h
  let s2 := if s1.noReply = [] then s1 else { s1 with noReply := s1.noReply.filter (fun q => !(decide (q.1 = h))) }
  (s2.setHart h Hart.vacant).noteIdle h

/-- The unreported failure on the lowest counter (R30, R198). -/
def lowestFailure (fs : List EngFail) : Option (EngFail × List EngFail) :=
  firstSome (fun cn => takeFailure cn fs) (upTo 8)

/-- The bolts that vector traps have set aside are discarded (R387). -/
def State.discardAside (s : State) : State :=
  if s.me.frames.all (·.routine) then s else s.modMe (fun x => { x with frames := x.frames.filter (·.routine) })

/-- HEXIT (R30, R189, R198, R387): it discards the bolts that a vector trap has set aside, and waits for the hart's other bolts and its
transfers. -/
def hexit (s0 : State) : Host.Outcome State Fault Refusal :=
  if s0.me.inRoutine then .next (s0.takeTrap (s0.stemTrap 228 0))
  else
    let s := s0.discardAside
    if !s.me.drained then .next (s.beginWait .bolts none)
    else if !(s.xfersOf s.cur).isEmpty then .next (s.beginWait .transfers none)
    else
      match lowestFailure s.me.engFails with
      | some (f, rest) => .next ((s.modMe (fun x => { x with engFails := rest })).takeTrap (s.engineFault f))
      | none => .next ((s.drain s.cur).endHart s.cur)

/-- HEXIT (R30). -/
def execHexit (s : State) : Host.Outcome State Fault Refusal := hexit s

end Sys2Proof.Machine
end

