-- ==== Sys2Proof/Machine/Yard.lean ====
section
/-!
DEFINITION. The yards: release of packets, placement of harts, ageing, and requests for pre-emption (R9, R27, R28,
R33-R36, R44, R50, R297).
-/
namespace Sys2Proof.Machine

open Sys2Proof

/-- The quantum of hart-cycles of a farm per round (R36). -/
def quantum : Nat := 65536

/-- The address space of a context: its descriptor's (R361), and 0 for no context (log 23). -/
def State.asidOf (s : State) (m : Nat) : Nat :=
  match s.ctx m with
  | some c => c.asid
  | none => 0

/-- A farm created by the release of a packet (R27, R34). -/
def State.newFarm (s : State) (die : Nat) (p : QPacket) : Farm :=
  let n := p.pkt.toNat
  { id := s.nextUid, pkt := p.pkt, asid := s.asidOf (pktMctx n), die := die, counter := 0, total := pktCount n,
    leadPlaced := false, opened := false, wanted := 0, entry := nword (pktEntry n), leadRegs := [], leadToks := [],
    placed := 0, alive := 0, running := 0, since := s.time, full := false, deficit := quantum, counted := s.cycle }

/-- The head of a queue is released (R34). -/
def State.releaseHead (s : State) (die q : Nat) (p : QPacket) (rest : List QPacket) : State :=
  let y := s.yardQ die q
  let s1 := s.setYardQ die q { y with packets := rest }
  { s1 with farms := s1.farms ++ [s.newFarm die p], nextUid := s.nextUid + 1 }

/-- PACKET_RELEASE (R33, R34): the head packet of a queue is evaluated. Its arrival word is read at the home with acquire;
ERR halts the queue and is reported to the foreman. A word that cannot be reached leaves the packet waiting (log 24). -/
def execPacketRelease (die q : Nat) (s : State) : Host.Outcome State Fault Refusal :=
  let y := s.yardQ die q
  match y.packets with
  | [] => .next s
  | p :: rest =>
    let n := p.pkt.toNat
    if y.halted then .next s
    else if !(pktWaits n) then .next (s.releaseHead die q p rest)
    else if (s.checkAccess p.asid (pktArr n) 64 .rd).isSome then .next s
    else
      let w := s.vreadHome p.asid (pktArr n) 64
      if w.testBit 32 then
        let s1 := s.setYardQ die q { y with halted := true }
        let e : Event := { cls := 5, cause := 240 + q, hart := 384 * die + 7, mctx := pktMctx n,
                           info := nword (16 * die + q), addr := nword (pktArr n), data := [nword w] }
        .next (s1.posted e)
      else if pktTarget n ≤ w % 2 ^ 32 then .next (s.releaseHead die q p rest)
      else .next s

/-! ### Placement (R35) -/

/-- The free hart slots of a core, foreman slots apart. -/
def State.freeSlots (s : State) (k : Nat) : List Nat :=
  (upTo 8).filter (fun sl => !(s.hart (8 * k + sl)).placed && !(isForeman (8 * k + sl)))
/-- The free lots of a kind. -/
def Core.freeLots (c : Core) (kind : Nat) : List Nat :=
  (upTo (lotCount kind)).filter (fun i => decide ((c.lot kind i).st = 0))
/-- A core whose free lots cover a packet's fixed lots, with a free slot. -/
def State.suits (s : State) (k p : Nat) : Bool :=
  decide (s.freeSlots k ≠ []) && (upTo 4).all (fun kind => decide (pktLots p kind ≤ ((s.core k).freeLots kind).length))

/-- Of some cores that suit, one with the most free slots; ties go to the first at or after `rot` (R35). -/
def State.bestCore (s : State) (p rot : Nat) (ks : List Nat) : Option Nat :=
  let fit := ks.filter (fun k => s.suits k p)
  let most := fit.foldl (fun n k => max n (s.freeSlots k).length) 0
  let best := fit.filter (fun k => decide ((s.freeSlots k).length = most))
  match best.find? (fun k => decide (rot ≤ k)) with
  | some k => some k
  | none => best.head?

/-- The cores of a die. -/
def dieCores (die : Nat) : List Nat := upFrom (48 * die) 48

/-- A packet's fixed lots granted to a slot, by ascending index (R27, R38). -/
def Core.grantFixed (c : Core) (sl uid p : Nat) : Core :=
  (upTo 4).foldl (fun c kind =>
    ((c.freeLots kind).take (pktLots p kind)).foldl (fun c i => c.grant kind i sl uid 1 0 none) c) c

/-- The address of the default handler in the image in use (R297, R354). -/
def State.handler (s : State) : Word := if s.boot.img = 1 then s.boot.slotB.tvec else s.boot.slotA.tvec

/-- A hart at its placement (R27, R28, R44, R50, R297). -/
def State.newHart (s : State) (f : Farm) (idx : Nat) (pc : Word) (regs : Tab Word) (toks : Tab Token) : Hart :=
  { Hart.vacant with
    placed := true, uid := s.nextUid, farm := f.id, idx := idx, asid := f.asid, pc := pc, regs := regs, toks := toks,
    tvec := s.handler, mctx := nword (pktMctx f.pkt.toNat) }

/-- The registers of a hart slot are written anew: errors they held are gone (R324). -/
def State.cleanSlot (s : State) (h : Nat) : State :=
  if s.rel.upsets = [] then s
  else { s with rel := { s.rel with upsets := s.rel.upsets.filter (fun u =>
    !(decide (u.place = h) && (decide (u.s = 0) || (decide (6 ≤ u.s) && decide (u.s ≤ 9))))) } }

/-- A hart placed in a core with the packet's fixed lots; a sleeping grove wakes (R382), and the yard's acquire covers the
hart (R34). -/
def State.place (s : State) (k : Nat) (f : Farm) (idx : Nat) (pc : Word) (regs : Tab Word) (toks : Tab Token) : State :=
  match s.freeSlots k with
  | [] => s
  | sl :: _ =>
    let h := 8 * k + sl
    let x := s.newHart f idx pc regs toks
    let s0 := (s.wakeGrove (groveOf h)).cleanSlot h
    let s1 := s0.setCore k ((s0.core k).grantFixed sl s.nextUid f.pkt.toNat)
    let s2 := { s1.setHart h x with nextUid := s.nextUid + 1 }
    s2.acquire (groveOf h) .dev

/-- The registers of a lead (R27). -/
def leadRegs (p : Nat) : Tab Word :=
  (upTo 12).foldl (fun t i => Tab.set 0 t (10 + i) (pktArg p i)) (Tab.set 0 [] 9 (nword (pktCount p)))

/-! ### Pre-emption asked for by the yard (R36, R373) -/

/-- Round up to 512 bits. -/
def up512 (n : Nat) : Nat := (n + 511) / 512 * 512
/-- Every incomplete bolt of a hart, those set aside included. -/
def Hart.allBolts (x : Hart) : Nat := x.bolts.length + x.frames.foldl (fun n f => n + f.bolts.length) 0
/-- A lot is only reserved for a CLAIM of its owner that has not returned its result (R40). -/
def Core.reserved (c : Core) (kind i : Nat) : Bool :=
  c.claims.any (fun y => decide (y.kind = kind) && decide (y.slot = (c.lot kind i).owner.toNat) && Bits.has y.got i)
/-- The lots of a kind that a slot holds, those it is leaving and those reserved for its unfinished CLAIM apart (R48). -/
def Core.heldLots (c : Core) (sl kind : Nat) : List Nat :=
  (upTo (lotCount kind)).filter (fun i => c.holds sl kind i && decide ((c.lot kind i).st ≠ 3) && !(c.reserved kind i))
/-- The lengths of the items of a save, in the order of R319, for a hart that holds `q` quarters, `sl` slabs and `mx` engines. -/
def areaItems (x : Hart) (q sl mx : Nat) : List Nat :=
  [2048, 1600, 576, x.g * 65536, 7 * x.mvl, 128 * x.mvl + 64, 64 * x.g, 16384, 3072, 256, 288, 3072, 2560 * x.allBolts,
   8 * (64 + x.mvl), 4096, 1024, 4194304 * q, 1060864 * sl, 4456704 * mx]
/-- Length of a save area (R319, R373). -/
def areaLen (x : Hart) (q sl mx : Nat) : Nat := (areaItems x q sl mx).foldl (fun n w => n + up512 w) 512
/-- An area of a pool clear of those in use, first-fit (R373). -/
def firstFit (base len n : Nat) (used : List (Nat × Nat)) : Option Nat :=
  let starts := base :: used.map (fun u => u.1 + u.2)
  let ok (a : Nat) : Bool := decide (a + n ≤ base + len) && !(used.any (rangesMeet (a, n)))
  (starts.filter ok).foldl (fun (r : Option Nat) a => match r with
    | none => some a
    | some b => some (min a b)) none
/-- How many lots of a kind hart `h` holds, as its save counts them. -/
def State.heldCount (s : State) (h kind : Nat) : Nat := ((s.core (coreOf h)).heldLots (slotOf h) kind).length
/-- Length of the save area of hart `h`. -/
def State.saveLen (s : State) (h : Nat) : Nat := areaLen (s.hart h) (s.heldCount h 2) (s.heldCount h 1) (s.heldCount h 3)
/-- The pool that a save area is taken from, with the areas in use: its context's, or for context 0 the one that firmware holds
(R373; log 56). -/
def State.savePool (s : State) (m : Nat) : (Nat × Nat) × List (Nat × Nat) :=
  match s.ctx m with
  | some k => ((k.saveBase, k.saveLen), k.areas)
  | none => (Config.firmwarePool, s.fwAreas)
/-- The save areas in use in a context's pool changed. -/
def State.setAreas (s : State) (m : Nat) (f : List (Nat × Nat) → List (Nat × Nat)) : State :=
  match s.ctx m with
  | some _ => { s with ctxs := s.ctxs.map (fun (y : Ctx) => if y.mctx = m then { y with areas := f y.areas } else y) }
  | none => { s with fwAreas := f s.fwAreas }
/-- The save area hart `h` would be saved into, if one fits (R373). -/
def State.saveArea (s : State) (h : Nat) : Option Nat :=
  let p := s.savePool (s.hart h).mctx.toNat
  firstFit p.1.1 p.1.2 (s.saveLen h) p.2
/-- A save area for hart `h` fits in its pool. -/
def State.areaFits (s : State) (h : Nat) : Bool := (s.saveArea h).isSome

/-- The placed harts of some cores that the yard may pre-empt for a farm (R36, R373): of a farm of lower effective priority, or
of equal priority and past its deficit, not in the middle of a restore, and with a save area that fits. -/
def State.victims (s : State) (f : Farm) (ks : List Nat) : List Nat :=
  (ks.flatMap (fun k => upFrom (8 * k) 8)).filter (fun h =>
    let x := s.hart h
    x.placed && decide (x.preempt = none) && decide (x.farm ≠ f.id) &&
      !(s.saved.any (fun v => decide (v.dest = some h))) && s.areaFits h &&
      (match s.farmOf x.farm with
       | some g => decide (g.priority s.time < f.priority s.time) ||
         (decide (g.priority s.time = f.priority s.time) && decide ((s.charged g).deficit ≤ 0))
       | none => false))
/-- Whether a core would suit a packet once some harts have left it: they leave a slot, and their lots that no claim waits
for are free. -/
def State.suitsWithout (s : State) (hs : List Nat) (k p : Nat) : Bool :=
  let c := s.core k
  let gone (sl : Nat) : Bool := hs.contains (8 * k + sl)
  let slot := (upTo 8).any (fun sl => !(isForeman (8 * k + sl)) && (gone sl || !(s.hart (8 * k + sl)).placed))
  slot && (upTo 4).all (fun kind => decide (pktLots p kind ≤ ((upTo (lotCount kind)).filter (fun i =>
    let l := c.lot kind i
    decide (l.st = 0) || (gone l.owner.toNat && decide (l.claim = none)))).length))
/-- A farm with unmet demand that finds no slot has the yard pre-empt a hart (R36): of the harts it may pre-empt on cores that
their leaving would make suitable, one of the lowest effective priority, and none while an earlier request stands (log 85). -/
def State.askPreempt (s : State) (f : Farm) (ks : List Nat) : State :=
  let vs := s.victims f ks
  let us := vs.filter (fun h => s.suitsWithout vs (coreOf h) f.pkt.toNat)
  let low := us.foldl (fun n h => min n (s.hartPriority h)) 8
  if (ks.flatMap (fun k => upFrom (8 * k) 8)).any (fun h => (s.hart h).placed && (s.hart h).preempt.isSome) then s
  else
    match us.find? (fun h => decide (s.hartPriority h = low)) with
    | some h => s.setHart h { s.hart h with preempt := some s.cycle }
    | none => s

/-- LEAD_PLACEMENT (R27, R34, R35). -/
def execLeadPlacement (f : Nat) (s : State) : Host.Outcome State Fault Refusal :=
  match s.farmOf f with
  | none => .next s
  | some x =>
    if x.leadPlaced then .next s
    else
      let p := x.pkt.toNat
      match s.bestCore p (Tab.get 0 s.yardRot x.die) (dieCores x.die) with
      | none => .next (s.askPreempt x (dieCores x.die))
      | some k =>
        let s1 := s.place k x 0 x.entry (leadRegs p) []
        let s2 := { s1 with yardRot := Tab.set 0 s1.yardRot x.die (k + 1) }
        .next (s2.setFarm { s.runsMore x with leadPlaced := true, placed := 1, alive := 1 })

/-- A grove whose L2 holds lines of a farm's token ranges (R35). -/
def State.groveHolds (s : State) (f : Farm) (g : Nat) : Bool :=
  let ls := (s.grove g).lines
  f.leadToks.any (fun p => (s.parts f.asid p.2.base p.2.ext).any (fun q =>
    q.page.isSome && ls.any (fun l => decide (q.pa < 512 * l.1 + 512) && decide (512 * l.1 < q.pa + q.len))))

/-- The other dies in the order in which a die's yard asks theirs, which rotates (R35). -/
def State.askOrder (s : State) (die : Nat) : List Nat :=
  ((upFrom (Tab.get 0 s.askRot die) 4).map (· % 4)).filter (fun d => decide (d ≠ die))
/-- A die's yard has had a core of another die: it asks the next one first the next time. -/
def State.asked (s : State) (die k : Nat) : State :=
  if k / 48 = die then s else { s with askRot := Tab.set 0 s.askRot die ((k / 48 + 1) % 4) }

/-- The core of a follower (R35): of the groves that hold the lead's lines, then of its die, then of the other dies, whose
yards are asked in rotation. -/
def State.followerCore (s : State) (f : Farm) : Option Nat :=
  let p := f.pkt.toNat
  let rot := Tab.get 0 s.yardRot f.die
  let near := ((upTo 24).filter (s.groveHolds f)).flatMap (fun g => upFrom (8 * g) 8)
  firstSome (s.bestCore p rot) (near :: dieCores f.die :: (s.askOrder f.die).map dieCores)

/-- FOLLOWER_PLACEMENT (R28, R34, R35): the lead's registers at the FARM, with the follower's own index, and shared pins of the
lead's live tokens, with the old pages they keep (R370). Where no core suits, a FARM with 0 waits for slots, and another has the yard pre-empt a hart (log 86). -/
def execFollowerPlacement (f : Nat) (s : State) : Host.Outcome State Fault Refusal :=
  match s.farmOf f with
  | none => .next s
  | some x =>
    if !x.opened || decide (x.wanted = 0) then .next s
    else
      match s.followerCore x with
      | none => .next (if x.wanted = manyFollowers then s.setFarm { x with full := true } else s.askPreempt x (upTo 192))
      | some k =>
        let regs := Tab.set 0 x.leadRegs 8 (nword x.placed)
        let toks := (x.leadToks.filter (fun p => decide (p.2.st = .live))).map (fun p => (p.1, { p.2 with shared := true }))
        let s1 := (s.place k x x.placed x.entry regs toks).copySpaces (farmSpace f) (tokenSpace (8 * k + (s.freeSlots k).headD 0)) toks
        let s2 := { s1.asked x.die k with yardRot := Tab.set 0 s1.yardRot x.die (k + 1) }
        let w := if x.wanted = manyFollowers then x.wanted else x.wanted - 1
        .next (s2.setFarm { s.runsMore x with placed := x.placed + 1, alive := x.alive + 1, wanted := w, full := false })

/-- A round of the deficit round robin ends when every farm of a priority has used its quantum (R36). -/
def State.newRound (s : State) (prio : Nat) : State :=
  let same (y : Farm) : Bool := decide (y.priority s.time = prio)
  if (s.farms.filter same).all (fun y => decide (y.deficit ≤ 0)) then
    { s with farms := s.farms.map (fun y => if same y then { y with deficit := y.deficit + quantum } else y) }
  else s

/-- EFFECTIVE_PRIORITY_AGING (R36): the hart-cycles that the farm's harts have used are charged, and a round that has ended is
followed by the next; the effective priority itself follows the time (`Farm.priority`). -/
def execEffectivePriorityAging (f : Nat) (s : State) : Host.Outcome State Fault Refusal :=
  match s.farmOf f with
  | none => .next s
  | some x =>
    let y := s.charged x
    .next ((s.setFarm y).newRound (y.priority s.time))

end Sys2Proof.Machine
end

