-- ==== Sys2Proof/Machine/Layers.lean ====
section
/-!
DEFINITION. The layers of a model context: the LRT, requests, arrivals, evictions and their failures (R51-R53, R184, R311,
R361-R371), and LWAIT.
-/
namespace Sys2Proof.Machine

open Sys2Proof

/-! ### The LRT (R362) -/

/-- Address of a layer's LRT entry. -/
def Ctx.entryAt (c : Ctx) (l : Nat) : Nat := (c.lrt + 64 * l) % 2 ^ 64
/-- A layer's LRT entry; one that is not mapped reads zero. -/
def State.lrtEntry (s : State) (c : Ctx) (l : Nat) : Nat :=
  if (s.checkAccess c.asid (c.entryAt l) 64 .rd).isSome then 0 else s.vreadHome c.asid (c.entryAt l) 64
/-- A layer's entry written by the swap engine, with release at sys scope (R362), which counts for sleeping groves (R382). -/
def State.setEntry (s : State) (c : Ctx) (l e : Nat) : State := (s.vwriteHome c.asid (c.entryAt l) 64 e).countScoped
/-- STATE of an entry. -/
def entState (e : Nat) : Nat := e % 4
/-- PINS of an entry. -/
def entPins (e : Nat) : Nat := field e 5 2
/-- PAGES of an entry. -/
def entPages (e : Nat) : Nat := field e 25 14
/-- Virtual address of an entry's region. -/
def entRegion (e : Nat) : Nat := wrap (signed (field e 63 26 * 2 ^ 19) 57) 64
/-- An entry with its STATE replaced. -/
def entWith (e st : Nat) : Nat := e - e % 4 + st
/-- An entry after an arrival: RESIDENT, generation + 1 modulo 256 (R51). -/
def entArrived (e : Nat) : Nat :=
  let gen := field e 13 6
  e - e % 2 ^ 14 + (gen + 1) % 256 * 2 ^ 6 + field e 5 2 * 4 + 2

/-- Bits of a page of the pool. -/
def pageBits : Nat := 2 ^ 19

/-- Pages a context's layers hold: those of layers that are not ABSENT, and whose pages are not still awaited. -/
def State.heldPages (s : State) (c : Ctx) : Nat :=
  (upTo c.nlayer).foldl (fun n l =>
    let e := s.lrtEntry c l
    if entState e = 0 ∨ s.swaps.any (fun w => decide (w.mctx = c.mctx) && decide (w.layer = l) && decide (w.phase = .needPages))
    then n else n + entPages e) 0

/-- The swap in progress of a layer. -/
def State.swapOf (s : State) (m l : Nat) : Option Swap := s.swaps.find? (fun w => decide (w.mctx = m) && decide (w.layer = l))
/-- Without the swap of a layer. -/
def State.dropSwap (s : State) (m l : Nat) : State :=
  { s with swaps := s.swaps.filter (fun w => !(decide (w.mctx = m) && decide (w.layer = l))) }
/-- The swap of a layer replaced. -/
def State.setSwap (s : State) (w : Swap) : State :=
  { s with swaps := s.swaps.map (fun v => if v.mctx = w.mctx ∧ v.layer = w.layer then w else v) }

/-- A layer is requested (R51): an ABSENT one starts a transfer, and one that leaves is asked for again. -/
def State.requestLayer (s : State) (m l : Nat) : State :=
  match s.ctx m with
  | none => s
  | some c =>
    let e := s.lrtEntry c l
    if entState e = 0 then
      { (s.setEntry c l (entWith e 1)) with swaps := s.swaps ++ [⟨m, l, .needPages, [], s.cycle, false, m, false⟩] }
    else if entState e = 3 then
      match s.swapOf m l with
      | some w => s.setSwap { w with again := true }
      | none => s
    else s

/-- An event of class 0x08 (R371). -/
def swapEvent (kind m l cause addr : Nat) (data : List Word) : Event :=
  { cls := 8, cause := cause, hart := 0, mctx := m, info := nword (kind * 2 ^ 56 + l % 4096), addr := nword addr, data := data }

/-! ### Eviction (R367, R368) -/

/-- The lowest position of the harts that run in a context (R367); a context without one has passed every layer. -/
def State.position (s : State) (c : Ctx) : Nat :=
  (s.harts.filter (fun p => p.2.placed && decide (p.2.mctx.toNat = c.mctx))).foldl (fun n p => min n p.2.position) c.nlayer

/-- The victims of one context in order: the layers it has passed, lowest first, then the rest, highest first (R367). -/
def State.victimsOf (s : State) (c : Ctx) (m l : Nat) : List (Nat × Nat) :=
  let ok (k : Nat) : Bool :=
    let e := s.lrtEntry c k
    decide (entState e = 2) && decide (entPins e = 0) && !(decide (c.mctx = m) && decide (k = l))
  let pos := s.position c
  ((upTo c.nlayer).filter (fun k => decide (k < pos) && ok k) ++
    ((upTo c.nlayer).filter (fun k => decide (pos ≤ k) && ok k)).reverse).map (fun k => (c.mctx, k))

/-- Context `a` yields layers before context `b` (R367). -/
def Ctx.before (a b : Ctx) : Bool :=
  let when (c : Ctx) : Nat := match c.lastLwait with
    | some t => t + 1
    | none => 0
  if a.eprio = b.eprio then (if when a = when b then decide (a.mctx < b.mctx) else decide (when a < when b))
  else decide (a.eprio < b.eprio)

/-- A page of a range migrates, or accesses held at it are still to be performed (R129). -/
def State.migrating (s : State) (asid a n : Nat) : Bool :=
  (s.parts asid a n).any (fun p => p.page.isSome && s.migs.any (fun g => !g.unmap &&
    ((decide (g.pa ≤ p.pa) && decide (p.pa < g.pa + 2 ^ g.sz)) ||
      (g.moved && decide (g.newPa ≤ p.pa) && decide (p.pa < g.newPa + 2 ^ g.sz)))))

/-- The next victim of a request (R366, R367): of the context itself where its quota is exceeded. -/
def State.victim (s : State) (c : Ctx) (l : Nat) (own : Bool) : Option (Nat × Nat) :=
  let cs := s.ctxs.filter (fun d => decide (d.mctx = c.mctx) || (!own && decide (d.eprio < c.eprio)))
  let withOne := cs.filter (fun d => decide (s.victimsOf d c.mctx l ≠ []))
  match withOne.find? (fun d => withOne.all (fun d' => decide (d'.mctx = d.mctx) || d.before d')) with
  | some d => (s.victimsOf d c.mctx l).head?
  | none => none

/-- Every token that covers a layer's region is revoked, for its eviction (R125, R368). -/
def State.revokeLayer (s : State) (c : Ctx) (l : Nat) : State :=
  let e := s.lrtEntry c l
  s.revoke c.asid (entRegion e) (entPages e * pageBits) (.evicted c.mctx l)
/-- An eviction begins (R368): EVICTING, and every token that covers its pages is revoked, after step 6 of R129 where a page
of it migrates (R369). -/
def State.beginEvict (s : State) (m l req : Nat) (again : Bool) : State :=
  match s.ctx m with
  | none => s
  | some c =>
    let e := s.lrtEntry c l
    let s0 := s.setEntry c l (entWith e 3)
    let s1 := if s0.migrating c.asid (entRegion e) (entPages e * pageBits) then s0 else s0.revokeLayer c l
    { s1 with swaps := s1.swaps ++ [⟨m, l, .evicting, [], s.cycle, again, req, false⟩] }

/-- The pages of a region are unmapped and freed (R368); a request that waits for pages has seen one become free (R367). -/
def State.freeRegion (s : State) (asid va n : Nat) : State :=
  let out (m : Mapping) : Bool := decide (m.asid = asid) && decide (va ≤ m.va) && decide (m.va < va + n)
  let gone := (s.maps.filter out).map (·.pa)
  let seen (w : Swap) : Swap :=
    if w.phase = .needPages ∧ gone.any (fun p => s.pool.contains p) then { w with since := s.cycle } else w
  { s with maps := s.maps.filter (fun m => !(out m)), pool := s.pool.filter (fun p => !(gone.contains p)),
           swaps := s.swaps.map seen }

/-- A layer's entry of the source table, at a physical address (R363, log 43); none where nothing backs it or its port is
down. -/
def State.sourceEntry (s : State) (c : Ctx) (l : Nat) : Option Nat :=
  let a := (c.src + 128 * l) % 2 ^ 64
  if isDev a || (isHost a && !(s.host.portDown.testBit (hostPort a))) then some (s.homeRead a 128) else none
/-- KIND of a source entry. -/
def srcKind (e : Nat) : Nat := field e 60 59
/-- KIND of a layer's source, 0 where it cannot be read. -/
def State.layerSource (s : State) (c : Ctx) (l : Nat) : Nat :=
  match s.sourceEntry c l with
  | some e => srcKind e
  | none => 0

/-- An eviction ends (R368): the tokens probed while the layer was leaving are revoked too, its pages are unmapped and freed,
and ABSENT is written. -/
def State.endEvict (s : State) (c : Ctx) (w : Swap) : State :=
  let s0 := s.drainAll.revokeLayer c w.layer
  let e := s0.lrtEntry c w.layer
  let s1 := s0.freeRegion c.asid (entRegion e) (entPages e * pageBits)
  let s2 := (s1.setEntry c w.layer (entWith e 0)).dropSwap w.mctx w.layer
  let s3 := s2.posted (swapEvent 2 w.mctx w.layer 0 (entRegion e)
    [nword (entWith e 0), nword (s.layerSource c w.layer), 0, nword w.req])
  if w.again then s3.requestLayer w.mctx w.layer else s3

/-- EVICTION_COMPLETE (R368, R369): the pages of an evicted layer are freed, once no page of it migrates. -/
def execEvictionComplete (m l : Nat) (s : State) : Host.Outcome State Fault Refusal :=
  match s.ctx m, s.swapOf m l with
  | some c, some w =>
    if w.phase = .evicting then
      let e := s.lrtEntry c l
      .next (if s.migrating c.asid (entRegion e) (entPages e * pageBits) then s else s.endEvict c w)
    else .next s
  | _, _ => .next s

/-! ### Arrival and failure (R51, R363, R366) -/

/-- The port or link a source is reached through is down. -/
def State.sourceDown (s : State) (e : Nat) : Bool :=
  if srcKind e < 2 then s.host.portDown.testBit (srcKind e) else s.host.linkDown.testBit (field e 63 61)

/-- Bits of a layer are moved in pieces of this size. -/
def pieceBits : Nat := 2 ^ 12
/-- The words of a pool or peer source from a bit offset, `n` of them (R363). -/
def peerPiece (link off : Nat) : Nat → Nat → Nat
  | 0, _ => 0
  | n + 1, i => (Config.peerWord link (off + 64 * i) 0).toNat * 2 ^ (64 * i) + peerPiece link off n (i + 1)
/-- The piece of a layer at a bit offset from its source's start. -/
def State.sourcePiece (s : State) (e o : Nat) : Nat :=
  let off := e / 2 ^ 64 + o
  if srcKind e < 2 then s.homeRead ((if srcKind e = 0 then 2 ^ 50 else 2 ^ 51) + off) pieceBits
  else peerPiece (field e 63 61) off (pieceBits / 64) 0

/-- The hart's running fragment's address, or its entry (R301). -/
def Hart.vpc (x : Hart) : Word :=
  match x.bolts with
  | [] => 0
  | b :: _ => match b.frags with
    | [] => b.entry
    | f :: _ => nword f.pc
/-- The matrix position of a hart's running bolt. -/
def Hart.mpos (x : Hart) : Option MPos := x.bolts.head?.bind (·.mpos)
/-- A vector-origin cause of a hart (R301), with the matrix position where R314 gives it. -/
def State.vecTrapOf (s : State) (h cause addr : Nat) : TrapInfo :=
  let p := if showsPosition cause then ((s.hart h).mpos).getD ⟨0, 0, 0, 0⟩ else ⟨0, 0, 0, 0⟩
  { cause := cause, detail := p.g, pc := (s.hart h).vpc, addr := nword addr, idx := nword p.idx, tok := 0, vec := true }

/-- A stem or a flume of a hart waits for a layer of its context. -/
def Hart.waitsLayer (w : Option WaitRec) (l : Nat) : Bool :=
  match w with
  | some ⟨.lwait _ k, _, _, _⟩ => decide (k = l)
  | _ => false

/-- A waiting hart takes SWAP_FAILED (R51). -/
def State.tellFailed (s : State) (m l cause addr : Nat) (h : Nat) : State :=
  let x := s.hart h
  if x.placed && decide (x.mctx.toNat = m) then
    if Hart.waitsLayer x.vwait l then s.takeTrapOn h (s.vecTrapOf h cause addr)
    else if Hart.waitsLayer x.wait l then
      s.takeTrapOn h { cause := cause, detail := 0, pc := x.pc, addr := nword addr, idx := 0, tok := 0, vec := false }
    else s
  else s

/-- The region of a layer whose transfer has failed: its pages are unmapped, which revokes tokens that cover them (R125), and
freed. -/
def State.dropRegion (s : State) (c : Ctx) (l : Nat) : State :=
  let e := s.lrtEntry c l
  let n := entPages e * pageBits
  (s.revoke c.asid (entRegion e) n .unmapped).freeRegion c.asid (entRegion e) n
/-- A layer's transfer fails with a cause: its pages are freed, ABSENT is written, and the waiting harts take the cause
(R51, R371). -/
def State.failLayerWith (s : State) (c : Ctx) (l cause : Nat) : State :=
  let e := s.lrtEntry c l
  let k := s.layerSource c l
  let s1 := s.dropRegion c l
  let s2 := (s1.setEntry c l (entWith e 0)).dropSwap c.mctx l
  let s3 := s2.posted (swapEvent 3 c.mctx l cause (entRegion e) [nword (entWith e 0), nword k, 0, nword c.mctx])
  (upTo numHarts).foldl (fun s h => s.tellFailed c.mctx l cause (c.entryAt l) h) s3
/-- A layer's transfer fails for a reason of R311. -/
def State.failLayer (s : State) (c : Ctx) (l reason : Nat) : State :=
  s.failLayerWith c l (280 + 4 * s.layerSource c l + reason)

/-- SWAP_FAILED (R51, R311): the source returns an error, or its link, port or time fails. Reasons 1 and 3 have rows of
their own. -/
def execSwapFailed (m l reason : Nat) (s : State) : Host.Outcome State Fault Refusal :=
  match s.ctx m, s.swapOf m l with
  | some c, some w =>
    if w.phase = .filling ∧ (reason = 0 ∨ reason = 2) then .next (s.failLayer c l reason)
    else .next s
  | _, _ => .next s

/-- SWAP_VICTIM_TIMEOUT (R367): no page became free for a request within 2^30 cycles. -/
def execSwapVictimTimeout (m l : Nat) (s : State) : Host.Outcome State Fault Refusal :=
  match s.ctx m, s.swapOf m l with
  | some c, some w =>
    if w.phase = .needPages ∧ w.since + 2 ^ 30 ≤ s.cycle then .next (s.failLayer c l 1) else .next s
  | _, _ => .next s

/-- Pages of the swap pool not in use (R366; log 7). -/
def State.freePages (s : State) : List Nat := Config.swapPool.filter (fun p => !(s.pool.contains p))

/-- Pages are mapped at a region, read-only (log 25). -/
def State.mapRegion (s : State) (asid va : Nat) (ps : List Nat) : State :=
  let one (p : Nat × Nat) : Mapping := ⟨asid, va + p.1 * pageBits, 19, p.2, true, false, false, false⟩
  { s with maps := s.maps ++ ((upTo ps.length).zip ps).map one, pool := s.pool ++ ps }

/-- A request gets its pages, or takes one victim more (R366, R367). -/
def State.seekPages (s : State) (c : Ctx) (w : Swap) : State :=
  let e := s.lrtEntry c w.layer
  let n := entPages e
  let beyond := decide (c.quota ≠ 0) && decide (c.quota < s.heldPages c + n)
  if !beyond && decide (n ≤ s.freePages.length) then
    let ps := s.freePages.take n
    (s.mapRegion c.asid (entRegion e) ps).setSwap { w with phase := .filling, pages := ps }
  else if s.swaps.any (fun v => decide (v.phase = .evicting) && decide (v.req = c.mctx)) then s
  else
    match s.victim c w.layer beyond with
    | some (m, l) => s.beginEvict m l c.mctx false
    | none => s

/-- The pages of a region filled from its source (R366). -/
def State.fillPages (s : State) (src : Nat) (ps : List Nat) : State :=
  ((upTo ps.length).zip ps).foldl (fun s p =>
    (upTo (pageBits / pieceBits)).foldl (fun s i =>
      s.homePut (p.2 + i * pieceBits) pieceBits (s.sourcePiece src (p.1 * pageBits + i * pieceBits))) s) s

/-- A filled layer becomes RESIDENT (R51, R371); a LEVICT that waited for it evicts it (R369). -/
def State.arriveLayer (s : State) (c : Ctx) (w : Swap) (src : Nat) : State :=
  let s1 := s.fillPages src w.pages
  let e := entArrived (s1.lrtEntry c w.layer)
  let s2 := (s1.setEntry c w.layer e).dropSwap c.mctx w.layer
  let s3 := s2.posted (swapEvent 1 c.mctx w.layer 0 (entRegion e)
    [nword e, nword (srcKind src), nword (w.pages.length * pageBits), nword c.mctx])
  if w.evict ∧ entPins e = 0 then s3.beginEvict c.mctx w.layer 0 false else s3

/-- LAYER_ARRIVAL (R51, R366, R367): the swap engine goes on with a requested layer: it seeks pages for it, and once it has
them it fills the region and the layer becomes RESIDENT. -/
def execLayerArrival (m l : Nat) (s : State) : Host.Outcome State Fault Refusal :=
  match s.ctx m, s.swapOf m l with
  | some c, some w =>
    if w.phase = .needPages then .next (s.seekPages c w)
    else if w.phase = .evicting then .next s
    else
      match s.sourceEntry c l with
      | none => .next (s.failLayer c l 0)
      | some e => .next (if s.sourceDown e then s.failLayer c l 2 else s.arriveLayer c w e)
  | _, _ => .next s

/-! ### LWAIT (R52, R184) -/

/-- LWAIT's code offset by layer (R311). -/
def layerBand (l : Nat) : Nat := min 7 (l / 512)

/-- LWAIT on a layer of the running hart's context. -/
def lwaitOn (d : Reg) (l : Nat) (limit : Option Nat) (s : State) : Host.Outcome State Fault Refusal :=
  let x := s.me
  if x.mctx = 0 then .next (s.takeTrap (s.stemTrap (312 + layerBand l) 0))
  else
    match s.ctx x.mctx.toNat with
    | none => .next (s.takeTrap (s.stemTrap (304 + layerBand l) 0))
    | some c =>
      if c.nlayer ≤ l then .next (s.takeTrap (s.stemTrap (304 + layerBand l) (c.entryAt l)))
      else
        let e := s.lrtEntry c l
        if entState e = 2 then
          let s1 := s.acquire (groveOf s.cur) .dev
          let s2 := { s1 with ctxs := s1.ctxs.map (fun (k : Ctx) => if k.mctx = c.mctx then { k with lastLwait := some s.cycle } else k) }
          .next (s2.modMe (fun x => { x.setReg d (nword e) with position := max x.position l }.advance))
        else .next ((s.requestLayer c.mctx l).beginWait (.lwait d l) limit)

/-- LWAIT (R184). -/
def execLwait (d a : Reg) (tmo : BitVec 5) (s : State) := lwaitOn d (s.me.reg a).toNat (timeout tmo) s

/-- LWAIT_WAKE (R52): the layer a hart waits for is RESIDENT. -/
def execLwaitWake (h : Nat) (s : State) : Host.Outcome State Fault Refusal :=
  match s.waitOf h with
  | some ⟨.lwait d l, _, _, _⟩ => lwaitOn d l none (s.on h)
  | _ => .next s

/-- SWAP_TIMEOUT (R52, R184): the timeout of an LWAIT passes with its layer not RESIDENT. -/
def execSwapTimeout (h : Nat) (s : State) : Host.Outcome State Fault Refusal :=
  match s.waitOf h with
  | some ⟨.lwait d l, b, e, n⟩ =>
    let s := s.on h
    match s.ctx s.me.mctx.toNat with
    | some c =>
      if WaitRec.expired ⟨.lwait d l, b, e, n⟩ s.cycle ∧ entState (s.lrtEntry c l) ≠ 2 then
        .next (s.takeTrap (s.stemTrap (296 + layerBand l) (c.entryAt l)))
      else .next s
    | none => .next s
  | _ => .next s

end Sys2Proof.Machine
end

