-- ==== Sys2Proof/Machine/Reads.lean ====
section
/-!
DEFINITION. Which scalar registers, status registers, masks and soft predicates an instruction reads and writes: what makes it the
consumer of an error that one of them holds (R312, R321, R324, R374).
-/
namespace Sys2Proof

/-! ### Stem instructions -/

/-- The registers of an address besides its base. -/
def Index.regs : Index → List Reg
  | .disp _ => []
  | .reg c => [c]

/-- The scalar registers a stem instruction reads. BOLT reads them all into its frame (R11), and FARM for its followers (R28). -/
def Instr.regsRead : Instr → List Reg
  | .add _ a b | .sub _ a b | .mul _ a b | .mulh _ a b | .mulhn _ a b | .div _ a b | .divn _ a b | .rem _ a b | .remn _ a b
  | .and _ a b | .or _ a b | .xor _ a b | .shl _ a b | .shr _ a b | .sra _ a b | .slt _ a b | .sltn _ a b | .min _ a b
  | .max _ a b | .minn _ a b | .maxn _ a b | .bext _ a b | .bix _ a b _ => [a, b]
  | .bins d a b => [d, a, b]
  | .clz _ a | .popc _ a | .addi _ a _ | .andi _ a _ | .ori _ a _ | .xori _ a _ | .shli _ a _ | .shri _ a _ | .srai _ a _
  | .jr a | .lwait _ a _ | .setvl _ a | .claim _ a _ _ _ | .release a _ | .csrw a _ | .csrx _ a _ => [a]
  | .lih d _ => [d]
  | .beq a b _ | .bne a b _ | .blt a b _ | .bge a b _ | .bltn a b _ | .bgen a b _ | .arrive a b _ | .waitb _ b a _ _
  | .probe _ a b _ | .dims a b _ | .copyImmLen a b _ _ | .copymImmLen a b _ _ | .mcastImmLen a b _ _ | .redstImmLen a b _ _
  | .sldImmLen a b _ _ => [a, b]
  | .copyRegLen a b l _ | .copymRegLen a b l _ | .mcastRegLen a b l _ | .redstRegLen a b l _ | .sldRegLen a b l _ => [a, b, l]
  | .lds _ b ad _ _ | .ldz _ b ad _ _ | .lda _ b ad _ _ => b :: ad.regs
  | .st d b ad _ _ | .stl d b ad _ _ => d :: b :: ad.regs
  | .aadd _ b c _ _ | .aand _ b c _ _ | .aor _ b c _ _ | .axor _ b c _ _ | .amin _ b c _ _ | .amax _ b c _ _ | .aminn _ b c _ _
  | .amaxn _ b c _ _ | .aswap _ b c _ _ | .waitm _ b c _ _ => [b, c]
  | .cas d b c _ _ => [d, b, c]
  | .casq d b c _ => [d, d + 1, b, c, c + 1]
  | .vcfg _ b | .launch b | .bind b _ => [b]
  | .bolt _ | .farm _ _ => (List.range 31).map (fun i => BitVec.ofNat 5 (i + 1))
  | .fwcall _ => [10, 11]
  | _ => []

/-- The scalar registers a stem instruction writes whole. -/
def Instr.regsWritten : Instr → List Reg
  | .add d _ _ | .sub d _ _ | .mul d _ _ | .mulh d _ _ | .mulhn d _ _ | .div d _ _ | .divn d _ _ | .rem d _ _ | .remn d _ _
  | .and d _ _ | .or d _ _ | .xor d _ _ | .shl d _ _ | .shr d _ _ | .sra d _ _ | .slt d _ _ | .sltn d _ _ | .min d _ _
  | .max d _ _ | .minn d _ _ | .maxn d _ _ | .bext d _ _ | .bix d _ _ _ | .bins d _ _ | .clz d _ | .popc d _ | .addi d _ _
  | .andi d _ _ | .ori d _ _ | .xori d _ _ | .shli d _ _ | .shri d _ _ | .srai d _ _ | .li d _ | .lih d _ | .lwait d _ _
  | .setvl d _ | .claim d _ _ _ _ | .csrr d _ | .csrx d _ _ | .waitb d _ _ _ _ | .lds d _ _ _ _ | .ldz d _ _ _ _
  | .lda d _ _ _ _ | .aadd d _ _ _ _ | .aand d _ _ _ _ | .aor d _ _ _ _ | .axor d _ _ _ _ | .amin d _ _ _ _ | .amax d _ _ _ _
  | .aminn d _ _ _ _ | .amaxn d _ _ _ _ | .aswap d _ _ _ _ | .waitm d _ _ _ _ | .cas d _ _ _ _ | .vcfg d _ | .strip d => [d]
  | .casq d _ _ _ => [d, d + 1]
  | .jal _ => [31]
  | .fwcall n => if n = 0 ∨ n = 0x101 then [10, 11] else [10]
  | _ => []

/-- An instruction rounds under FMODE, or saturates by it (R82, R213). -/
def Instr.rounds : Instr → Bool
  | .vadd _ _ _ _ _ | .vsub _ _ _ _ _ | .vmul _ _ _ _ _ | .vmulh _ _ _ _ _ | .vmulw _ _ _ _ _ _ | .vdiv _ _ _ _ _
  | .vrem _ _ _ _ _ | .vmin _ _ _ _ _ | .vmax _ _ _ _ _ | .vabs _ _ _ _ | .vneg _ _ _ _ | .vadds _ _ _ _ _
  | .vsubs _ _ _ _ _ | .vavg _ _ _ _ _ | .vand _ _ _ _ _ | .vor _ _ _ _ _ | .vxor _ _ _ _ _ | .vshl _ _ _ _ _
  | .vshr _ _ _ _ _ | .vsra _ _ _ _ _ | .vbext _ _ _ _ _ | .vfma _ _ _ _ _ _ | .vfms _ _ _ _ _ _
  | .vfnma _ _ _ _ _ _ | .vsqrt _ _ _ _ | .vrcp _ _ _ _ | .vrsq _ _ _ _ | .vexp _ _ _ _ | .vlog _ _ _ _
  | .vsig _ _ _ _ | .vtanh _ _ _ _ | .vcvt _ _ _ _ _ | .vnarrow _ _ _ _ _ | .vqnt _ _ _ _ _ _ | .vdqnt _ _ _ _ _ _
  | .vrnd _ _ _ _ | .vscl _ _ _ _ _ | .vsat _ _ _ _ _ _ | .vrsum _ _ _ _ | .vrmax _ _ _ _ | .vrmin _ _ _ _
  | .vrand _ _ _ _ | .vror _ _ _ _ | .vscan _ _ _ _ | .vscanmx _ _ _ _ | .vrdot _ _ _ _ _ | .vld _ _ _ _ _ _ _
  | .vst _ _ _ _ _ _ _ | .vlds _ _ _ _ _ _ _ _ | .vsts _ _ _ _ _ _ _ _ | .vldx _ _ _ _ _ _ _ _
  | .vstx _ _ _ _ _ _ _ _ | .vldxo _ _ _ _ _ _ _ _ | .vstxo _ _ _ _ _ _ _ _ | .vldseg _ _ _ _ _ _ _ _ _
  | .vstseg _ _ _ _ _ _ _ _ _ | .vldm _ _ _ _ _ _ _ | .vstm _ _ _ _ _ _ _ | .vldsp _ _ _ _ _ _ _
  | .vstsp _ _ _ _ _ _ _ | .vldspx _ _ _ _ _ _ _ | .vstspx _ _ _ _ _ _ _ | .mdrain _ _ _ _ | .mdrains _ _ _ _ _ _
  | .qblend _ _ _ _ _ _ | .qgrad _ _ _ _ | .qmov _ _ _ => true
  | _ => false

/-- The numbers of the status and control registers an instruction reads (R156). -/
def Instr.csrsRead : Instr → List Nat
  | .csrr _ n | .csrx _ _ n => [n.toNat]
  | .rett => [0x000, 0x015]
  | .setvl _ _ => [0x001]
  | .strip _ => [0x002]
  | .bolt _ => [0x001, 0x002, 0x003, 0x019]
  | .lwait _ _ _ | .bind _ _ => [0x019]
  | .fwcall n => if n = 0x100 ∨ n = 0x101 then [0x019] else []
  | .srefuse => [0x00E, 0x00F]
  | .vbdiv _ _ => [0x011]
  | .vqnt _ _ _ sc zp _ => [0x004, 0x00C] ++ (if sc then [0x008] else []) ++ (if zp then [0x007] else [])
  | .vdqnt _ _ _ sc zp _ => [0x004] ++ (if sc then [0x008] else []) ++ (if zp then [0x007] else [])
  | .qcmp _ _ _ _ _ _ => [0x005]
  | .qgrad _ _ _ _ => [0x004, 0x005]
  | .vrdot _ _ _ _ _ => [0x004, 0x007]
  | .mrow _ _ _ sc _ _ | .mrowz _ _ _ sc _ _ | .msweep _ _ _ sc _ _ _ => 0x007 :: if sc then [0x008] else []
  | i => if i.rounds then [0x004] else []

/-- The numbers of the status and control registers an instruction writes whole. -/
def Instr.csrsWritten : Instr → List Nat
  | .csrw _ n | .csrx _ _ n => [n.toNat]
  | .setvl _ _ | .vcfg _ _ => [0x001, 0x002, 0x003]
  | .strip _ => [0x002]
  | _ => []

/-- A stem instruction reads data of memory. -/
def Instr.loads : Instr → Bool
  | .lds _ _ _ _ _ | .ldz _ _ _ _ _ | .lda _ _ _ _ _ | .aadd _ _ _ _ _ | .aand _ _ _ _ _ | .aor _ _ _ _ _ | .axor _ _ _ _ _
  | .amin _ _ _ _ _ | .amax _ _ _ _ _ | .aminn _ _ _ _ _ | .amaxn _ _ _ _ _ | .aswap _ _ _ _ _ | .cas _ _ _ _ _
  | .casq _ _ _ _ | .arrive _ _ _ | .waitm _ _ _ _ _ | .waitb _ _ _ _ _ | .vcfg _ _ | .launch _ | .bind _ _ => true
  | _ => false

/-! ### Bolt instructions -/

/-- The frame registers a bolt instruction reads (R11). -/
def Instr.frameRead : Instr → List Reg
  | .vmvs _ sa sb _ | .vlds _ sa sb _ _ _ _ _ | .vsts _ sa sb _ _ _ _ _ | .vldseg _ sa sb _ _ _ _ _ _
  | .vstseg _ sa sb _ _ _ _ _ _ | .vldsp _ sa sb _ _ _ _ | .vstsp _ sa sb _ _ _ _ | .tld _ sa sb _ _ _ | .tldf _ sa sb _ _ _
  | .mdrains sa sb _ _ _ _ => [sa, sb]
  | .vext _ (.elem sb) _ => [sb]
  | .mset _ (.below sa) _ => [sa]
  | .vslup _ _ (.frame sb) _ | .vsldn _ _ (.frame sb) _ => [sb]
  | .qseed (.frame sa) _ => [sa]
  | .vbcast _ sa _ | .vld _ sa _ _ _ _ _ | .vst _ sa _ _ _ _ _ | .vldx _ sa _ _ _ _ _ _ | .vstx _ sa _ _ _ _ _ _
  | .vldxo _ sa _ _ _ _ _ _ | .vstxo _ sa _ _ _ _ _ _ | .vldm _ sa _ _ _ _ _ | .vstm _ sa _ _ _ _ _ | .vldspx _ sa _ _ _ _ _
  | .vstspx _ sa _ _ _ _ _ | .vaadd _ sa _ _ _ _ _ _ _ _ _ | .vamin _ sa _ _ _ _ _ _ _ _ _ | .vamax _ sa _ _ _ _ _ _ _ _ _
  | .vaand _ sa _ _ _ _ _ _ _ _ _ | .vaor _ sa _ _ _ _ _ _ _ _ _ | .vaxor _ sa _ _ _ _ _ _ _ _ _
  | .vaswap _ sa _ _ _ _ _ _ _ _ _ | .vacas _ sa _ _ _ _ _ _ _ _ _ | .tscl _ sa _ _ => [sa]
  | .mrow _ _ sc _ _ _ | .mrowz _ _ sc _ _ _ => [sc]
  | .msweep sa _ sc _ _ _ _ => [sa, sc]
  | _ => []

/-- The mask operand of a bolt instruction. -/
def Instr.maskOp : Instr → Option MaskOp
  | .vbany _ k | .vball _ k | .vbnone _ k | .vbdiv _ k | .vidx _ k | .vmvs _ _ _ k | .vext _ _ k | .vtrap _ k
  | .vrng _ k | .vadd _ _ _ _ k | .vsub _ _ _ _ k | .vmul _ _ _ _ k | .vmulh _ _ _ _ k | .vmulw _ _ _ _ _ k
  | .vmacc _ _ _ k | .vdiv _ _ _ _ k | .vrem _ _ _ _ k | .vmin _ _ _ _ k | .vmax _ _ _ _ k | .vabs _ _ _ k
  | .vneg _ _ _ k | .vadds _ _ _ _ k | .vsubs _ _ _ _ k | .vavg _ _ _ _ k | .vand _ _ _ _ k | .vor _ _ _ _ k
  | .vxor _ _ _ _ k | .vshl _ _ _ _ k | .vshr _ _ _ _ k | .vsra _ _ _ _ k | .vpopc _ _ k | .vclz _ _ k
  | .vbext _ _ _ _ k | .vfma _ _ _ _ _ k | .vfms _ _ _ _ _ k | .vfnma _ _ _ _ _ k | .vsqrt _ _ _ k | .vrcp _ _ _ k
  | .vrsq _ _ _ k | .vexp _ _ _ k | .vlog _ _ _ k | .vsig _ _ _ k | .vtanh _ _ _ k | .vcvt _ _ _ _ k | .vwiden _ _ k
  | .vnarrow _ _ _ _ k | .vqnt _ _ _ _ _ k | .vdqnt _ _ _ _ _ k | .vrnd _ _ _ k | .vclass _ _ k | .vscl _ _ _ _ k
  | .vsat _ _ _ _ _ k | .vcmp _ _ _ _ k | .vcmpn _ _ _ _ k | .mand _ _ _ k | .mor _ _ _ k | .mxor _ _ _ k
  | .mnot _ _ k | .mpop _ _ k | .mfirst _ _ k | .vsel _ _ _ _ k | .mset _ _ k | .vrsum _ _ _ k | .vrmax _ _ _ k
  | .vrmin _ _ _ k | .vrand _ _ _ k | .vror _ _ _ k | .vscan _ _ _ k | .vscanmx _ _ _ k | .vrdot _ _ _ _ k
  | .vslup _ _ _ k | .vsldn _ _ _ k | .vgthr _ _ _ k | .vcomp _ _ k | .vexpd _ _ k | .vbcast _ _ k | .vrev _ _ k
  | .vzip _ _ _ _ k | .vunzip _ _ _ _ k | .vld _ _ _ _ _ _ k | .vst _ _ _ _ _ _ k | .vlds _ _ _ _ _ _ _ k
  | .vsts _ _ _ _ _ _ _ k | .vldx _ _ _ _ _ _ _ k | .vstx _ _ _ _ _ _ _ k | .vldxo _ _ _ _ _ _ _ k
  | .vstxo _ _ _ _ _ _ _ k | .vldseg _ _ _ _ _ _ _ _ k | .vstseg _ _ _ _ _ _ _ _ k | .vldm _ _ _ _ _ _ k
  | .vstm _ _ _ _ _ _ k | .vldsp _ _ _ _ _ _ k | .vstsp _ _ _ _ _ _ k | .vldspx _ _ _ _ _ _ k
  | .vstspx _ _ _ _ _ _ k | .vaadd _ _ _ _ _ _ _ _ _ _ k | .vamin _ _ _ _ _ _ _ _ _ _ k
  | .vamax _ _ _ _ _ _ _ _ _ _ k | .vaand _ _ _ _ _ _ _ _ _ _ k | .vaor _ _ _ _ _ _ _ _ _ _ k
  | .vaxor _ _ _ _ _ _ _ _ _ _ k | .vaswap _ _ _ _ _ _ _ _ _ _ k | .vacas _ _ _ _ _ _ _ _ _ _ k | .mrow _ _ _ _ _ k
  | .mrowz _ _ _ _ _ k | .mdrain _ _ _ k | .mldacc _ _ k | .qcmp _ _ _ _ _ k | .qand _ _ _ _ k | .qor _ _ _ _ k
  | .qnot _ _ k | .qblend _ _ _ _ _ k | .qcoll _ _ _ k | .qgrad _ _ _ k | .qmov _ _ k | .qset _ _ k | .qhard _ _ _ k
  | .qseed _ k => some k
  | _ => none

/-- The masks a bolt instruction reads besides its mask operand. -/
def Instr.masksRead : Instr → List MReg
  | .mand _ ma mb _ | .mor _ ma mb _ | .mxor _ ma mb _ => [ma, mb]
  | .mnot _ ma _ | .mpop _ ma _ | .mfirst _ ma _ | .vsel _ _ _ ma _ => [ma]
  | _ => []
/-- The mask a bolt instruction writes. -/
def Instr.masksWritten : Instr → List MReg
  | .vcmp md _ _ _ _ | .vcmpn md _ _ _ _ | .mand md _ _ _ | .mor md _ _ _ | .mxor md _ _ _ | .mnot md _ _ | .mset md _ _
  | .qcoll md _ _ _ | .qhard md _ _ _ => [md]
  | _ => []
/-- The soft predicates a bolt instruction reads. -/
def Instr.softsRead : Instr → List QReg
  | .qand _ qa qb _ _ | .qor _ qa qb _ _ => [qa, qb]
  | .qnot _ qa _ | .qblend _ _ _ qa _ _ | .qcoll _ qa _ _ | .qhard _ qa _ _ | .qgrad _ (.soft qa) _ _
  | .qmov (.qq _ qa) _ _ | .qmov (.fromQ _ qa) _ _ => [qa]
  | _ => []
/-- The soft predicate whose codes a bolt instruction writes. -/
def Instr.softsWritten : Instr → List QReg
  | .qcmp qd _ _ _ _ _ | .qand qd _ _ _ _ | .qor qd _ _ _ _ | .qnot qd _ _ | .qset qd _ _ | .qmov (.qq qd _) _ _
  | .qmov (.toQ qd _ _) _ _ => [qd]
  | _ => []

/-- A matrix instruction: mirror issue leaves it out (R274, R322). -/
def Instr.isMatrix : Instr → Bool
  | .tld _ _ _ _ _ _ | .tldf _ _ _ _ _ _ | .tscl _ _ _ _ | .mrow _ _ _ _ _ _ | .mrowz _ _ _ _ _ _ | .msweep _ _ _ _ _ _ _
  | .mdrain _ _ _ _ | .mdrains _ _ _ _ _ _ | .mzero _ _ | .mldacc _ _ _ => true
  | _ => false
/-- An instruction that only moves fragments, or orders accesses: it has no result to recheck. -/
def Instr.isControl : Instr → Bool
  | .stop | .vbany _ _ | .vball _ _ | .vbnone _ _ | .vbdiv _ _ | .vjmp _ | .vfence _ => true
  | _ => false

end Sys2Proof
end

