-- ==== Sys2Proof/Machine/Flags.lean ====
section
/-!
DEFINITION. Exact arithmetic on element values, and the narrowing of an exact result to a tag with the FMODE flags it sets
(R76, R77, R79-R87, R213, R228).
-/
namespace Sys2Proof.Machine

open Sys2Proof

/-- Rounding modes (R82). -/
inductive Mode where
  | rne | rtz | rdn | rup
  deriving DecidableEq, Repr

/-- FMODE flags by their bits (R82). -/
abbrev Fl := BitVec 8
/-- FMODE.NV. -/
def flNV : Fl := 0x10
/-- FMODE.OF. -/
def flOF : Fl := 0x20
/-- FMODE.UF. -/
def flUF : Fl := 0x40
/-- FMODE.NX. -/
def flNX : Fl := 0x80
/-- A flag where a condition holds. -/
def flIf (c : Bool) (f : Fl) : Fl := if c then f else 0

/-! ### Exact arithmetic (R77, R86) -/

/-- Sum of two dyadics. -/
def Dy.add (a b : Dy) : Dy :=
  if a.e ≤ b.e then ⟨a.m + b.m * 2 ^ (b.e - a.e).toNat, a.e⟩ else ⟨a.m * 2 ^ (a.e - b.e).toNat + b.m, b.e⟩
/-- The difference of two dyadics, for comparing them. -/
def Dy.sub (a b : Dy) : Dy := a.add ⟨-b.m, b.e⟩

/-- A value is a NaN. -/
def Val.isNan : Val → Bool
  | .nan => true
  | _ => false
/-- A value is an infinity. -/
def Val.isInf : Val → Bool
  | .inf _ => true
  | _ => false
/-- A value is a zero. -/
def Val.isZero : Val → Bool
  | .fin d _ => decide (d.m = 0)
  | _ => false
/-- The sign of a value, that of a zero included. -/
def Val.isNeg : Val → Bool
  | .fin _ n => n
  | .inf n => n
  | .nan => false
/-- A finite dyadic; zero takes the sign given. -/
def Val.ofDy (d : Dy) (zneg : Bool) : Val := .fin d (if d.m = 0 then zneg else decide (d.m < 0))

/-- The value negated. -/
def Val.neg : Val → Val
  | .fin d n => .fin ⟨-d.m, d.e⟩ (!n)
  | .inf n => .inf (!n)
  | .nan => .nan

/-- x + y, with the sign of a zero sum of R77 in a mode, and NV for infinities of opposite sign. -/
def Val.add (md : Mode) (x y : Val) : Val × Fl :=
  match x, y with
  | .nan, _ => (.nan, 0)
  | _, .nan => (.nan, 0)
  | .inf a, .inf b => if a = b then (.inf a, 0) else (.nan, flNV)
  | .inf a, .fin _ _ => (.inf a, 0)
  | .fin _ _, .inf b => (.inf b, 0)
  | .fin a na, .fin b nb =>
    if a.m = 0 ∧ b.m = 0 ∧ na = nb then (.fin ⟨0, 0⟩ na, 0)
    else (Val.ofDy (a.add b) (decide (md = .rdn)), 0)

/-- x - y. -/
def Val.sub (md : Mode) (x y : Val) : Val × Fl := Val.add md x y.neg

/-- x × y, with NV for zero times infinity. -/
def Val.mul (x y : Val) : Val × Fl :=
  match x, y with
  | .nan, _ => (.nan, 0)
  | _, .nan => (.nan, 0)
  | .inf a, .inf b => (.inf (a != b), 0)
  | .inf a, .fin d b => if d.m = 0 then (.nan, flNV) else (.inf (a != b), 0)
  | .fin d a, .inf b => if d.m = 0 then (.nan, flNV) else (.inf (a != b), 0)
  | .fin c a, .fin d b => (.fin ⟨c.m * d.m, c.e + d.e⟩ (a != b), 0)

/-- x × 2^n, exact. -/
def Val.scale (x : Val) (n : Int) : Val :=
  match x with
  | .fin d s => .fin ⟨d.m, d.e + n⟩ s
  | v => v

/-- Order of two values that are not NaN: -1, 0 or 1; +0 equals -0. -/
def Val.order (x y : Val) : Int :=
  match x, y with
  | .inf a, .inf b => if a = b then 0 else if a then -1 else 1
  | .inf a, _ => if a then -1 else 1
  | _, .inf b => if b then 1 else -1
  | .fin a _, .fin b _ => (a.sub b).m.sign
  | _, _ => 0

/-- The integer a value is; values of class I are integers. -/
def Val.toInt : Val → Int
  | .fin d _ => if 0 ≤ d.e then d.m * 2 ^ d.e.toNat else d.m / 2 ^ (-d.e).toNat
  | _ => 0

/-- VMAX (or VMIN) of R228 chooses y: a NaN is missing, -0 is less than +0, and equal values choose x. -/
def Val.picksSecond (wantMax : Bool) (x y : Val) : Bool :=
  match x, y with
  | .nan, .nan => false
  | .nan, _ => true
  | _, .nan => false
  | x, y =>
    let c := Val.order x y
    if c = 0 then x.isZero && y.isZero && (x.isNeg != y.isNeg) && (x.isNeg == wantMax)
    else if wantMax then decide (c < 0) else decide (0 < c)
/-- VMAX or VMIN of R228. -/
def Val.pick (wantMax : Bool) (x y : Val) : Val := if Val.picksSecond wantMax x y then y else x

/-- IEEE 754 comparison under a condition; a NaN makes every condition but ne false (R242). -/
def Val.compare (c : Cond) (x y : Val) : Bool :=
  if x.isNan || y.isNan then decide (c = .ne)
  else
    let o := Val.order x y
    match c with
    | .eq => decide (o = 0)
    | .ne => decide (o ≠ 0)
    | .lt => decide (o < 0)
    | .le => decide (o ≤ 0)
    | .gt => decide (0 < o)
    | .ge => decide (0 ≤ o)

/-! ### Results before narrowing -/

/-- An exact result: magnitude `n / d * 2^e` with a sign (that of a zero too), an infinity, or a NaN. -/
inductive Res where
  | fin (neg : Bool) (n d : Nat) (e : Int)
  | inf (neg : Bool)
  | nan
  deriving DecidableEq, Repr

/-- A value as a result. -/
def Val.res : Val → Res
  | .fin d n => .fin n d.m.natAbs 1 d.e
  | .inf n => .inf n
  | .nan => .nan

/-- x / y under IEEE 754 (R226): OF for a finite value over zero, NV for 0/0 and for infinities. -/
def Val.div (x y : Val) : Res × Fl :=
  match x, y with
  | .nan, _ => (.nan, 0)
  | _, .nan => (.nan, 0)
  | .inf _, .inf _ => (.nan, flNV)
  | .inf a, .fin _ b => (.inf (a != b), 0)
  | .fin _ a, .inf b => (.fin (a != b) 0 1 0, 0)
  | .fin c a, .fin d b =>
    if d.m = 0 then (if c.m = 0 then (.nan, flNV) else (.inf (a != b), flOF))
    else (.fin (a != b) c.m.natAbs d.m.natAbs (c.e - d.e), 0)

/-- `n / d * 2^e` in units of 2^u: quotient, remainder and divisor. -/
def unitsOf (n d : Nat) (e u : Int) : Nat × Nat × Nat :=
  let num := n * 2 ^ (e - u).toNat
  let den := d * 2 ^ (u - e).toNat
  (num / den, num % den, den)

/-- A quotient with its remainder rounded to a whole number in a mode; the Boolean says inexact (R83, step 1). -/
def roundUnits (md : Mode) (neg : Bool) (q : Nat × Nat × Nat) : Nat × Bool :=
  let (k, r, d) := q
  let up : Bool := match md with
    | .rne => decide (d < 2 * r) || (decide (2 * r = d) && decide (k % 2 = 1))
    | .rtz => false
    | .rdn => neg && decide (r ≠ 0)
    | .rup => !neg && decide (r ≠ 0)
  (if up then k + 1 else k, decide (r ≠ 0))

/-- floor(log2(n / d)) of non-zero numbers. -/
def log2Ratio (n d : Nat) : Int :=
  let l : Int := (Nat.log2 n : Int) - Nat.log2 d
  if n * 2 ^ (-l).toNat < d * 2 ^ l.toNat then l - 1 else l

/-- The exponent of a magnitude, with the exponent `e` brought within what any tag can tell apart. -/
def tameExp (n d : Nat) (e : Int) : Int × Int :=
  let l := log2Ratio n d + e
  if 1024 < l then (1024, e - (l - 1024)) else if l < -1024 then (-1024, e - (l + 1024)) else (l, e)

/-! ### Floating tags (R83, R84) -/

/-- Sign bit of a floating code. -/
def Flt.sign (f : Flt) (neg : Bool) : Nat := if neg then 2 ^ (f.exp + f.man) else 0
/-- Where the overflow table gives an infinity, or a source is one that the tag does not keep (R83). -/
def Flt.overflow (f : Flt) (satfin neg : Bool) : Nat :=
  f.sign neg + if satfin then f.maxCode else if f.hasInf then f.infCode else if f.hasNaN then 0x7F else f.maxCode
/-- The overflow table gives an infinity. -/
def Mode.overflows (md : Mode) (neg : Bool) : Bool :=
  match md with
  | .rne => true
  | .rtz => false
  | .rdn => neg
  | .rup => !neg

/-- round of R72 and R83 to a floating tag: the code and the flags. -/
def Flt.round (f : Flt) (md : Mode) (satfin : Bool) (x : Res) : Nat × Fl :=
  match x with
  | .nan => if f.hasNaN then (f.nanCode, 0) else (0, flNV)
  | .inf neg => if f.hasInf && !satfin then (f.sign neg + f.infCode, 0) else (f.overflow satfin neg, flOF ||| flNX)
  | .fin neg n d e =>
    if n = 0 then (f.sign neg, 0)
    else
      let emin : Int := 1 - f.bias
      let (l, e') := tameExp n d e
      let u := max l emin - f.man
      let (q, inexact) := roundUnits md neg (unitsOf n d e' u)
      let code := (u + f.man - emin).toNat * 2 ^ f.man + q
      if f.maxCode < code then
        (if md.overflows neg then f.overflow satfin neg else f.sign neg + f.maxCode, flOF ||| flNX)
      else (f.sign neg + code, flIf inexact flNX ||| flIf (inexact && decide (code < 2 ^ f.man)) flUF)

/-! ### Integer tags (R87) -/

/-- Least value of an integer tag of a width. -/
def intMin (sg : Bool) (w : Nat) : Int := if sg then -2 ^ (w - 1) else 0
/-- Greatest value of an integer tag. -/
def intMax (sg : Bool) (w : Nat) : Int := if sg then 2 ^ (w - 1) - 1 else 2 ^ w - 1
/-- An integer held within a tag's range. -/
def intHold (sg : Bool) (w : Nat) (i : Int) : Int := max (intMin sg w) (min i (intMax sg w))

/-- An exact integer narrowed: trunc, or sat with OF where it clips. -/
def narrowInt (sg : Bool) (w : Nat) (sat : Bool) (i : Int) : Nat × Fl :=
  if sat then (wrap (intHold sg w i) w, flIf (decide (intHold sg w i ≠ i)) flOF) else (wrap i w, 0)

/-- The integer that a magnitude is. -/
def wholeOf (neg : Bool) (n d : Nat) (e : Int) : Int :=
  let q := (unitsOf n d e 0).1
  if neg then -(q : Int) else q

/-- A real result narrowed to an integer tag: rounded in the mode, held with NV. -/
def roundInt (sg : Bool) (w : Nat) (md : Mode) (x : Res) : Nat × Fl :=
  match x with
  | .nan => (0, flNV)
  | .inf neg => (wrap (if neg then intMin sg w else intMax sg w) w, flNV)
  | .fin neg n d e =>
    if n = 0 then (0, 0)
    else
      let (q, inexact) := roundUnits md neg (unitsOf n d (tameExp n d e).2 0)
      let i : Int := if neg then -(q : Int) else q
      let c := intHold sg w i
      (wrap c w, if c = i then flIf inexact flNX else flNV)

/-! ### ts8, e8m0 and p16 (R79-R81) -/

/-- The ts8 codes in the order in which R79 prefers them: one term in A, two of one sign with ea at most eb, two of
opposite signs with ea below eb. -/
def ts8Canonical : List Nat :=
  let pairs (same eq : Bool) : List Nat :=
    (upTo 256).filter (fun c => decide (c / 16 % 8 < 7) && decide (c % 8 < 7) &&
      (decide (c / 128 = c / 8 % 2) == same) && (if eq then decide (c / 16 % 8 = c % 8) else decide (c / 16 % 8 < c % 8)))
  [0x77] ++ (upTo 256).filter (fun c => decide (c / 16 % 8 < 7) && decide (c % 16 = 7)) ++ pairs true false
    ++ pairs true true ++ pairs false false
/-- The canonical code of a ts8 value in sixty-fourths. -/
def ts8Code (v : Int) : Nat := (ts8Canonical.find? (fun c => decide (ts8Value c = v))).getD 0x77

/-- Of two ts8 values, the nearer to `t / d`, a tie going to the smaller magnitude. -/
def ts8Nearer (t d a b : Int) : Int :=
  let da := (t - a * d).natAbs
  let db := (t - b * d).natAbs
  if da < db then a else if db < da then b else if a.natAbs ≤ b.natAbs then a else b

/-- Quantisation to ts8 (R79). -/
def roundTs8 (x : Res) : Nat × Fl :=
  match x with
  | .nan => (0x77, flNV)
  | .inf neg => (ts8Code (if neg then -128 else 128), flOF ||| flNX)
  | .fin neg n d e =>
    if n = 0 then (0x77, 0)
    else
      let (l, _) := tameExp n d e
      if l < -8 then (0x77, flNX ||| flUF)
      else if 2 ≤ l then (ts8Code (if neg then -128 else 128), flOF ||| flNX)
      else
        let num := n * 2 ^ (e + 6).toNat
        let den := d * 2 ^ (-(e + 6)).toNat
        let t : Int := if neg then -(num : Int) else num
        if 128 * den < num then (ts8Code (if neg then -128 else 128), flOF ||| flNX)
        else
          let v := (upTo 256).foldl (fun b c => ts8Nearer t den b (ts8Value c)) 0
          if v * den = t then (ts8Code v, 0)
          else (ts8Code v, flNX ||| flIf (decide (v = 0)) flUF)

/-- Conversion to e8m0 (R80); NX where the written value differs (R82). -/
def roundE8 (md : Mode) (x : Res) : Nat × Fl :=
  match x with
  | .nan => (0xFF, flNV)
  | .inf _ => (0xFF, flNV)
  | .fin neg n d e =>
    if n = 0 ∨ neg then (0xFF, flNV)
    else
      let (k, e') := tameExp n d e
      let (q, r, _) := unitsOf n d e' (k - 1)
      let exact := decide (q = 2) && decide (r = 0)
      let up : Bool := match md with
        | .rne => decide (3 ≤ q)
        | .rtz | .rdn => false
        | .rup => !exact
      let k' := if up then k + 1 else k
      if k' < -127 then (0, flUF ||| flNX)
      else if 127 < k' then (254, flOF ||| flNX)
      else ((k' + 127).toNat, flIf (!exact) flNX)

/-- Conversion to p16 (R81). -/
def roundP16 (md : Mode) (x : Res) : Nat × Fl :=
  match x with
  | .nan => (0, flNV)
  | .inf neg => if neg then (0, flNX) else (0x8000, flOF ||| flNX)
  | .fin neg n d e =>
    if n = 0 then (0, 0)
    else if neg then (0, flNX)
    else
      let (q, r, m) := unitsOf n d (tameExp n d e).2 (-15)
      if 0x8000 < q ∨ (q = 0x8000 ∧ r ≠ 0) then (0x8000, flOF ||| flNX)
      else
        let (k, inexact) := roundUnits md false (q, r, m)
        (k, flIf inexact flNX)

/-! ### narrow (R213) -/

/-- Zero's code in a tag (R211). -/
def Tag.zeroCode : Tag → Nat
  | .ts8 => 0x77
  | _ => 0

/-- narrow(x, tag, mode, kind) of R213: `sat` for the saturating kind, `real` where the result is not of exact integers
(R86, R87). -/
def Tag.narrow (t : Tag) (md : Mode) (sat satfin real : Bool) (x : Res) : Nat × Fl :=
  match t with
  | .flt f => f.round md (satfin || sat) x
  | .ts8 => roundTs8 x
  | .e8m0 => roundE8 md x
  | .p16 => roundP16 md x
  | .int w =>
    match real, x with
    | false, .fin neg n d e => narrowInt true w sat (wholeOf neg n d e)
    | _, _ => roundInt true w md x
  | .nat w =>
    match real, x with
    | false, .fin neg n d e => narrowInt false w sat (wholeOf neg n d e)
    | _, _ => roundInt false w md x

/-- VRND's integral value, before it is narrowed (R238): a zero keeps the sign of x. -/
def Val.integral (md : Mode) (x : Val) : Val :=
  match x with
  | .fin d neg =>
    let (q, _) := roundUnits md neg (unitsOf d.m.natAbs 1 d.e 0)
    .fin ⟨if neg then -(q : Int) else q, 0⟩ neg
  | v => v

/-- A result was clipped, as VQNT counts it (R90): it overflowed, or an integer was held. -/
def clipped (nanSource : Bool) (fl : Fl) : Bool := !nanSource && decide (fl &&& (flOF ||| flNV) ≠ 0)

end Sys2Proof.Machine
end

