-- ==== Sys2Proof/Machine/Special.lean ====
section
/-!
DEFINITION. The special functions (R233) and the two curves of the soft compare (R97), each as its exact value where that is
rational and otherwise as a value that every rounding treats as the exact one: the real value lies strictly between
k * 2^-152 and (k+1) * 2^-152, no rounding boundary of any tag lies between them, and (2k+1) * 2^-153 stands for it.
-/
namespace Sys2Proof.Machine

open Sys2Proof

/-- The special functions (R233). -/
inductive Special where
  | sqrt | rcp | rsq | exp | log | sig | tanh
  deriving DecidableEq, Repr

/-- floor of the square root of `n`, from bit `b - 1` down. -/
def isqrtFrom (n : Nat) : Nat → Nat → Nat
  | 0, r => r
  | b + 1, r => let c := r + 2 ^ b; if c * c ≤ n then isqrtFrom n b c else isqrtFrom n b r
/-- floor of a square root. -/
def isqrt (n : Nat) : Nat := isqrtFrom n (Nat.log2 n / 2 + 1) 0

/-- A number known as `k * 2^-152`, or known to lie just above it. -/
def between (neg : Bool) (k : Nat) (exact : Bool) : Res := if exact then .fin neg k 1 (-152) else .fin neg (2 * k + 1) 1 (-153)

/-- The sum of y^j / j! from the term `t` of index `j` on, each term rounded down, at `p` fractional bits. -/
def expSeries (p y : Nat) : Nat → Nat → Nat → Nat → Nat
  | 0, _, _, acc => acc
  | f + 1, j, t, acc => if t = 0 then acc else expSeries p y f (j + 1) (t * y / (2 ^ p * j)) (acc + t)
/-- A bound squared `n` times, rounded down, or up with `c = 1`. -/
def squareTimes (p c : Nat) : Nat → Nat → Nat
  | 0, x => x
  | n + 1, x => squareTimes p c n (x * x / 2 ^ p + c)
/-- Bounds of e^x at `p` bits, for 0 ≤ x < 256, x = n / d * 2^e. -/
def expBounds (p n d : Nat) (e : Int) : Nat × Nat :=
  let y := (unitsOf n d (e - 9) (-p)).1
  let lo := expSeries p y p 1 (2 ^ p) 0
  (squareTimes p 0 9 lo, squareTimes p 1 9 (lo + 2 * p + 16))

/-- The sum of t^(2j+1) / (2j+1), each power and term rounded down. -/
def atanhSeries (p tt : Nat) : Nat → Nat → Nat → Nat → Nat
  | 0, _, _, acc => acc
  | f + 1, j, q, acc =>
    if q = 0 then acc else atanhSeries p tt f (j + 2) (q * tt / 2 ^ p) (acc + q / j)
/-- Bounds of the inverse hyperbolic tangent of a / b, at most a third. -/
def atanhBounds (p a b : Nat) : Nat × Nat :=
  let t := a * 2 ^ p / b
  let lo := atanhSeries p (t * t / 2 ^ p) p 1 t 0
  (lo, lo + 4 * p + 16)

/-- The value that the bounds `b p` enclose at `p` fractional bits, at the first precision of 900, 1800, 3600 … bits at which
they agree to 2^-152. The doublings allowed exceed what any operand needs (log 17). -/
def settle (b : Nat → Int × Int) : Nat → Nat → Res
  | 0, _ => .fin false 1 1 0
  | f + 1, p =>
    let k := (b p).1 / 2 ^ (p - 152)
    if (b p).2 / 2 ^ (p - 152) = k ∨ f = 0 then .fin (decide (k < 0)) (2 * k + 1).natAbs 1 (-153) else settle b f (2 * p)
/-- A value from its enclosures. -/
def settled (b : Nat → Int × Int) : Res := settle b 200 900

/-- A positive value far below every rounding boundary. -/
def tinyRes : Res := .fin false 1 1 (-400)
/-- One less such a value. -/
def nearOne (neg : Bool) : Res := .fin neg (2 ^ 400 - 1) 1 (-400)

/-- Magnitude at least 2^8. -/
def isFar (n d : Nat) (e : Int) : Bool := decide (8 ≤ log2Ratio n d + e)

/-- e^x, and e^-x with `inv`, for x = n / d * 2^e above 0. -/
def expOf (inv : Bool) (n d : Nat) (e : Int) : Res :=
  if isFar n d e then (if inv then tinyRes else .fin false 1 1 400)
  else settled (fun p =>
    let (lo, hi) := expBounds p n d e
    if inv then ((2 ^ (2 * p) / hi : Nat), (2 ^ (2 * p) / lo + 1 : Nat)) else (lo, hi))

/-- 1 / (1 + e^x), and with `up` 1 / (1 + e^-x), for x above 0. -/
def sigOf (up : Bool) (n d : Nat) (e : Int) : Res :=
  if isFar n d e then (if up then nearOne false else tinyRes)
  else settled (fun p =>
    let (lo, hi) := expBounds p n d e
    let one : Int := 2 ^ p
    let a : Int := (2 ^ (2 * p) / (2 ^ p + hi) : Nat)
    let b : Int := (2 ^ (2 * p) / (2 ^ p + lo) + 1 : Nat)
    if up then (one - b, one - a) else (a, b))

/-- The sign of a result of magnitude above 0. -/
def Res.signed (neg : Bool) : Res → Res
  | .fin _ k m u => .fin neg k m u
  | r => r
/-- tanh of x above 0, with its sign. -/
def tanhOf (neg : Bool) (n d : Nat) (e : Int) : Res :=
  (if isFar n d e then nearOne false
   else settled (fun p =>
    let (lo, hi) := expBounds p n d (e + 1)
    let one : Int := 2 ^ p
    let a : Int := (2 ^ (2 * p + 1) / (2 ^ p + hi) : Nat)
    let b : Int := (2 ^ (2 * p + 1) / (2 ^ p + lo) + 1 : Nat)
    (one - b, one - a))).signed neg

/-- The natural logarithm of m * 2^e, m above 0 and the value not 1. -/
def logOf (m : Nat) (e : Int) : Res :=
  let l := Nat.log2 m
  let k : Int := e + l
  settled (fun p =>
    let (a0, a1) := atanhBounds p (m - 2 ^ l) (m + 2 ^ l)
    let (b0, b1) := atanhBounds p 1 3
    if 0 ≤ k then (2 * k * b0 + 2 * a0, 2 * k * b1 + 2 * a1) else (2 * k * b1 + 2 * a0, 2 * k * b0 + 2 * a1))

/-- The square root of m * 2^e; the exponent is at least -304. -/
def sqrtOf (m : Nat) (e : Int) : Res :=
  let n := m * 2 ^ (e + 304).toNat
  let k := isqrt n
  between false k (decide (k * k = n))
/-- The reciprocal square root of m * 2^e. -/
def rsqOf (m : Nat) (e : Int) : Res :=
  let n := 2 ^ (304 - e).toNat
  let k := isqrt (n / m)
  between false k (decide (k * k * m = n))

/-- A special function of a value (R233): its result, and NV or OF. -/
def Special.eval (f : Special) (x : Val) : Res × Fl :=
  match x with
  | .nan => (.nan, 0)
  | .inf neg =>
    match f with
    | .sqrt => if neg then (.nan, flNV) else (.inf false, 0)
    | .rcp => (.fin neg 0 1 0, 0)
    | .rsq => if neg then (.nan, flNV) else (.fin false 0 1 0, 0)
    | .exp => (if neg then .fin false 0 1 0 else .inf false, 0)
    | .log => if neg then (.nan, flNV) else (.inf false, 0)
    | .sig => (.fin false (if neg then 0 else 1) 1 0, 0)
    | .tanh => (.fin neg 1 1 0, 0)
  | .fin d neg =>
    let n := d.m.natAbs
    if d.m = 0 then
      match f with
      | .sqrt => (.fin neg 0 1 0, 0)
      | .rcp => (.inf neg, flOF)
      | .rsq => (.inf neg, flOF)
      | .exp => (.fin false 1 1 0, 0)
      | .log => (.inf true, flOF)
      | .sig => (.fin false 1 1 (-1), 0)
      | .tanh => (.fin neg 0 1 0, 0)
    else
      match f with
      | .sqrt => if neg then (.nan, flNV) else (sqrtOf n d.e, 0)
      | .rcp => (.fin neg 1 n (-d.e), 0)
      | .rsq => if neg then (.nan, flNV) else (rsqOf n d.e, 0)
      | .exp => (expOf neg n 1 d.e, 0)
      | .log =>
        if neg then (.nan, flNV)
        else if n = 2 ^ Nat.log2 n ∧ d.e + Nat.log2 n = 0 then (.fin false 0 1 0, 0)
        else (logOf n d.e, 0)
      | .sig => (sigOf (!neg) n 1 d.e, 0)
      | .tanh => (tanhOf neg n 1 d.e, 0)

end Sys2Proof.Machine
end

