-- ==== Sys2Proof/Machine/Operands.lean ====
section
/-!
DEFINITION. Operands of bolt instructions: the running bolt and its frame, element registers, masks, tags and their checks
(R157-R160, R209-R216, R256, R282), footprints under tokens (R126, R259), and the strips of bound registers (R53, R133, R214,
R334).
-/
namespace Sys2Proof.Machine

open Sys2Proof

/-! ### Registers of the vector unit -/

/-- Where element `e` of register `v` stands in a register table. -/
def elKey (v e : Nat) : Nat := v * 2 ^ 20 + e
/-- The configured tag of a vector register (R21). -/
def Hart.tag (x : Hart) (v : VReg) : Tag :=
  match x.cfg.tags[v.toNat]? with
  | some c => (Tag.ofCode c).getD (.nat 8)
  | none => .nat 8
/-- The code of an element. -/
def Hart.code (x : Hart) (v : VReg) (e : Nat) : Nat := (Tab.get 0 x.vregs (elKey v.toNat e)).toNat % 2 ^ (x.tag v).width
/-- The value of an element. -/
def Hart.val (x : Hart) (v : VReg) (e : Nat) : Val := (x.tag v).value (x.code v e)
/-- put_code (R211, R221): the code in the low bits of the slot, the rest zero. -/
def Hart.putCode (x : Hart) (v : VReg) (e c : Nat) : Hart :=
  { x with vregs := Tab.set 0 x.vregs (elKey v.toNat e) (BitVec.ofNat 64 (c % 2 ^ (x.tag v).width)) }
/-- Codes put at several elements of a register. -/
def Hart.putCodes (x : Hart) (v : VReg) (l : List (Nat × Nat)) : Hart := l.foldl (fun x p => x.putCode v p.1 p.2) x

/-- A mask as a set of elements; m0 reads as e < VL (R243). -/
def Hart.mask (x : Hart) (m : MReg) (vl : Nat) : Nat := if m = 0 then Bits.below vl else Tab.get 0 x.masks m.toNat
/-- Bits of a mask set and cleared at the elements `es`; a write to m0 is discarded (R211). -/
def Hart.putMask (x : Hart) (m : MReg) (es : List Nat) (v : Nat → Bool) : Hart :=
  if m = 0 then x
  else
    let old := Tab.get 0 x.masks m.toNat
    { x with masks := Tab.set 0 x.masks m.toNat (Bits.diff old (Bits.ofList es) ||| Bits.ofList (es.filter v)) }

/-- A soft-predicate code. -/
def Hart.qcode (x : Hart) (q : QReg) (e : Nat) : Nat := (Tab.get 0 x.qcodes (elKey q.toNat e)).toNat
/-- A soft-predicate code held to at most 0x8000 (R281). -/
def Hart.qheld (x : Hart) (q : QReg) (e : Nat) : Nat := p16Clamp (x.qcode q e)
/-- Codes written to a soft predicate, with its lineage. -/
def Hart.putQ (x : Hart) (q : QReg) (l : List (Nat × Nat)) (lin : BitVec 8) : Hart :=
  { x with qcodes := l.foldl (fun t p => Tab.set 0 t (elKey q.toNat p.1) (BitVec.ofNat 16 p.2)) x.qcodes,
           qlin := Tab.set 0 x.qlin q.toNat lin }
/-- The lineage of a soft predicate. -/
def Hart.lin (x : Hart) (q : QReg) : BitVec 8 := Tab.get 0 x.qlin q.toNat
/-- QSTAT.QRANGE set where a code above 0x8000 was read as a value (R281). -/
def Hart.noteRange (x : Hart) (q : QReg) (es : List Nat) : Hart :=
  if es.any (fun e => decide (0x8000 < x.qcode q e)) then { x with qstat := x.qstat ||| 1 } else x

/-- FMODE flags set (R82). -/
def Hart.addFlags (x : Hart) (f : Fl) : Hart := { x with fmode := x.fmode ||| f.setWidth 64 }
/-- FMODE.SATFIN. -/
def Hart.satfin (x : Hart) : Bool := x.fmode.getLsbD 2
/-- A rounding mode by its FMODE.RM code (R82). -/
def Mode.ofCode (n : Nat) : Mode := if n = 0 then .rne else if n = 1 then .rtz else if n = 2 then .rdn else .rup
/-- The rounding mode of an instruction (R213). -/
def Hart.mode (x : Hart) (r : Rnd) : Mode :=
  match r with
  | .fmode => Mode.ofCode (x.fmode.extractLsb' 0 2).toNat
  | .rne => .rne
  | .rtz => .rtz
  | .rdn => .rdn
  | .rup => .rup

/-! ### The running bolt -/

/-- F[i] of a bolt (R11, R209). -/
def Bolt.f (b : Bolt) (r : Reg) : Word := if r = 0 then 0 else Tab.get 0 b.frame r.toNat
/-- The elements of the running fragment. -/
def Bolt.run (b : Bolt) : Nat :=
  match b.frags with
  | [] => 0
  | f :: _ => f.mask
/-- The counter of the running fragment. -/
def Bolt.pc (b : Bolt) : Nat :=
  match b.frags with
  | [] => b.entry.toNat
  | f :: _ => f.pc
/-- active(e, MSK, SNS) for an element of the running fragment (R14, R72). -/
def Bolt.active (b : Bolt) (x : Hart) (k : MaskOp) (e : Nat) : Bool :=
  decide (e < b.vl) && Bits.has b.run e && (Bits.has (x.mask k.m b.vl) e != k.sns)
/-- The active elements, ascending. -/
def Bolt.actives (b : Bolt) (x : Hart) (k : MaskOp) : List Nat := (upTo b.vl).filter (b.active x k)
/-- The bolt past its current word (R14). -/
def Bolt.advance (b : Bolt) : Bolt :=
  { b with convoy := b.convoy.tail, rowsTold := [], chain := [],
           frags := match b.frags with
             | [] => []
             | f :: t => { f with pc := f.pc + 64 } :: t }
/-- The running bolt changed. -/
def Hart.modBolt (x : Hart) (f : Bolt → Bolt) : Hart :=
  match x.bolts with
  | [] => x
  | b :: t => { x with bolts := f b :: t }
/-- The vector unit past its current word. -/
def Hart.vnext (x : Hart) : Hart := { x.modBolt Bolt.advance with vwait := none }

/-- A vector-origin cause of the running hart with its element, unless R314 gives its matrix position, and its token. -/
def State.vecTrap (s : State) (cause addr : Nat) (idx : Nat := 0) (tok : Nat := 0) : TrapInfo :=
  let t := s.vecTrapOf s.cur cause addr
  if showsPosition cause && s.me.mpos.isSome then { t with tok := nword tok }
  else { t with idx := nword idx, tok := nword tok }
/-- A cause raised by a bolt instruction. -/
def vraise {α : Type} (cause : Nat) (addr : Nat := 0) (idx : Nat := 0) (tok : Nat := 0) : Act α :=
  fun s => .error (.trap (s.vecTrap cause addr idx tok))
/-- A cause raised by a bolt instruction when a condition holds. -/
def vraiseIf (c : Bool) (cause : Nat) (addr : Nat := 0) (idx : Nat := 0) : Act Unit :=
  if c then vraise cause addr idx else pure ()

/-- The vector unit waits; a strip that waits for a layer requests it (R53). -/
def State.vwaitFor (s : State) (k : WaitKind) (limit : Option Nat) : State :=
  let s' := match k with
    | .lwait _ l => s.requestLayer s.me.mctx.toNat l
    | _ => s
  s'.modMe (fun x => { x with vwait := some (s.waitOn x.vwait k limit) })

/-- A bolt instruction of the running hart: its effect, the trap it raises, or its wait. Without a bolt nothing runs. -/
def runVec (m : Bolt → Act Unit) (s : State) : Host.Outcome State Fault Refusal :=
  match s.me.bolts with
  | [] => .next s
  | b :: _ =>
    match m b s with
    | .ok (_, s') => .next s'
    | .error (.trap t) => .next (s.takeTrap t)
    | .error (.stall k l) => .next (s.vwaitFor k l)

/-- A bolt instruction that may end with a completion-time trap (R304), taken with the bolt past its word. -/
def runVecThen (m : Bolt → Act (Option TrapInfo)) (s : State) : Host.Outcome State Fault Refusal :=
  match s.me.bolts with
  | [] => .next s
  | b :: _ =>
    match m b s with
    | .ok (none, s') => .next s'
    | .ok (some t, s') => .next (s'.takeTrap t)
    | .error (.trap t) => .next (s.takeTrap t)
    | .error (.stall k l) => .next (s.vwaitFor k l)

/-! ### Operand checks (R164, R209, R212, R214, R306) -/

/-- What the check of a word looks at: the vector registers it names, an ILLEGAL_OPERAND code, the TAG_UNSUPPORTED cases in
their order, and the vector registers it writes. -/
structure Need where
  regs : List VReg
  illegal : Option Nat := none
  bad : List Nat := []
  writes : List VReg := []

/-- A case where a condition fails. -/
def badCase (case : Nat) (ok : Bool) : List Nat := if ok then [] else [case]
/-- Class F or P. -/
def Tag.isFP : Tag → Bool
  | .flt _ => true
  | .p16 => true
  | _ => false
/-- Class I, F or P. -/
def Tag.isIFP (t : Tag) : Bool := t.isInt || t.isFP
/-- Not ts8 and not e8m0. -/
def Tag.notTE : Tag → Bool
  | .ts8 => false
  | .e8m0 => false
  | _ => true
/-- An activation of the matrix engine (R265). -/
def Tag.isActivation (t : Tag) : Bool := (t.isInt && decide (t.width ≤ 16)) || t.isFlt
/-- A tag of a vector atomic that computes (R263). -/
def Tag.isAtomic (t : Tag) : Bool :=
  t.isInt || decide (t = .flt .f32) || decide (t = .flt .bf16) || decide (t = .flt .f16)
/-- The tag an FX code selects, or a register's own (R159, R257). -/
def memTag (own : Tag) (fx : BitVec 4) : Tag := if fx = 0 then own else Tag.ofFX fx
/-- An FX code of a weight tag (R265). -/
def isWeight (fx : BitVec 4) : Bool := decide (fx = 1) || decide (fx = 2) || decide (8 ≤ fx.toNat)

/-- VWIDEN's pairs (R235). -/
def widens (src dst : Tag) : Bool :=
  match src, dst with
  | .int w, .int v => decide (w ≤ v)
  | .int w, .flt .f32 => decide (w ≤ 25)
  | .int w, .flt .f16 => decide (w ≤ 12)
  | .int w, .flt .bf16 => decide (w ≤ 9)
  | .nat w, .nat v => decide (w ≤ v)
  | .nat w, .int v => decide (w < v)
  | .nat w, .flt .f32 => decide (w ≤ 24)
  | .nat w, .flt .f16 => decide (w ≤ 11)
  | .nat w, .flt .bf16 => decide (w ≤ 8)
  | .flt a, .flt b =>
    let low (f : Flt) : Int := 1 - f.bias - f.man
    let top (f : Flt) : Val := f.value f.maxCode
    decide (a.man ≤ b.man) && decide (low b ≤ low a) && decide (Val.order (top a) (top b) ≤ 0) &&
      (!a.hasInf || b.hasInf) && (!a.hasNaN || b.hasNaN)
  | .ts8, .flt .f32 | .ts8, .flt .bf16 | .ts8, .flt .f16 => true
  | .e8m0, .flt .f32 | .e8m0, .flt .bf16 => true
  | .p16, .flt .f32 => true
  | _, _ => false

/-- Registers v to v + n - 1 of a segment (R261). -/
def segRegs (v : VReg) (n : Nat) : List VReg := (upTo n).map (fun i => v + BitVec.ofNat 6 i)

/-- A destination and sources that accept every class. -/
def needAny (vd : VReg) (src : List VReg) : Need := { regs := vd :: src, writes := [vd] }
/-- Operands of class I. -/
def needInts (x : Hart) (vd va vb : VReg) : Need :=
  { needAny vd [va, vb] with bad := badCase 0 (x.tag vd).isInt ++ badCase 1 (x.tag va).isInt ++ badCase 2 (x.tag vb).isInt }
/-- Codes of one width. -/
def needSame (x : Hart) (vd va vb : VReg) : Need :=
  { needAny vd [va, vb] with
    bad := badCase 7 (decide ((x.tag vd).width = (x.tag va).width) && decide ((x.tag va).width = (x.tag vb).width)) }
/-- A destination of class F or P. -/
def needFP (x : Hart) (vd : VReg) (src : List VReg) : Need := { needAny vd src with bad := badCase 0 (x.tag vd).isFP }
/-- A load, with an index register where it has one. -/
def needLoad (x : Hart) (vd : VReg) (ix : Option VReg) : Need :=
  match ix with
  | none => needAny vd []
  | some vb => { needAny vd [vb] with bad := badCase 2 (x.tag vb).isInt }
/-- A store. -/
def needStore (x : Hart) (vd : VReg) (ix : Option VReg) : Need := { needLoad x vd ix with writes := [] }
/-- A vector atomic (R263). -/
def needAtomic (x : Hart) (comp : Bool) (cmp : Bool) (vd vb vc : VReg) (nr : Bool) (fx : BitVec 4) : Need :=
  { regs := (if nr && !cmp then [] else [vd]) ++ [vb, vc], writes := if nr then [] else [vd],
    bad := badCase 2 (x.tag vb).isInt ++
      badCase (if fx = 0 then 3 else 4) (!comp || (memTag (x.tag vc) fx).isAtomic) }
/-- A scan (R248). -/
def needScan (vd va : VReg) : Need := { needAny vd [va] with illegal := if vd = va then some 18 else none }

/-- What the check of a bolt word looks at. -/
def needOf (i : Instr) (x : Hart) : Need :=
  match i with
  | .vidx vd _ => { needAny vd [] with bad := badCase 0 ((x.tag vd).isInt || (x.tag vd).isFlt) }
  | .vmvs vd _ _ _ => needAny vd []
  | .vext va _ _ => { regs := [va] }
  | .vrng vd _ => { needAny vd [] with bad := badCase 0 (x.tag vd).notTE }
  | .vadd vd va vb _ _ | .vsub vd va vb _ _ | .vmul vd va vb _ _ | .vdiv vd va vb _ _ | .vmin vd va vb _ _
  | .vmax vd va vb _ _ => needAny vd [va, vb]
  | .vmulh vd va vb _ _ | .vmacc vd va vb _ | .vrem vd va vb _ _ | .vadds vd va vb _ _ | .vsubs vd va vb _ _
  | .vavg vd va vb _ _ | .vshl vd va vb _ _ | .vshr vd va vb _ _ | .vsra vd va vb _ _ | .vbext vd va vb _ _ =>
    needInts x vd va vb
  | .vmulw vd va vb _ fx _ =>
    { needAny vd [va, vb] with
      illegal := if fx = 0 ∨ x.cfg.sw < (Tag.ofFX fx).width then some 20 else none }
  | .vabs vd va _ _ => needAny vd [va]
  | .vneg vd va _ _ => { needAny vd [va] with bad := badCase 0 (x.tag vd != .e8m0) ++ badCase 1 (x.tag va != .e8m0) }
  | .vand vd va vb _ _ | .vor vd va vb _ _ | .vxor vd va vb _ _ => needSame x vd va vb
  | .vpopc vd va _ | .vclz vd va _ => { needAny vd [va] with bad := badCase 0 (x.tag vd).isInt }
  | .vfma vd va vb vc _ _ | .vfms vd va vb vc _ _ | .vfnma vd va vb vc _ _ => needFP x vd [va, vb, vc]
  | .vsqrt vd va _ _ | .vrcp vd va _ _ | .vrsq vd va _ _ | .vexp vd va _ _ | .vlog vd va _ _ | .vsig vd va _ _
  | .vtanh vd va _ _ => needFP x vd [va]
  | .vcvt vd va _ _ _ | .vnarrow vd va _ _ _ => needAny vd [va]
  | .vwiden vd va _ => { needAny vd [va] with bad := badCase 7 (widens (x.tag va) (x.tag vd)) }
  | .vqnt vd va _ _ zp _ =>
    { needAny vd [va] with
      illegal := if zp && !(x.tag vd).isInt then some 21 else none,
      bad := badCase 0 ((x.tag vd).isInt || (x.tag vd).isFlt || (x.tag vd == .ts8)) }
  | .vdqnt vd va _ _ zp _ =>
    { needFP x vd [va] with illegal := if zp && !(x.tag va).isInt then some 21 else none }
  | .vrnd vd va _ _ => { needAny vd [va] with bad := badCase 0 (x.tag vd).isFlt ++ badCase 1 (x.tag va).isFlt }
  | .vclass vd va _ => { needAny vd [va] with bad := badCase 0 ((x.tag vd).isInt && decide (9 ≤ (x.tag vd).width)) }
  | .vscl vd va vb _ _ => { needAny vd [va, vb] with bad := badCase 0 (x.tag vd).isFlt ++ badCase 2 (x.tag vb).isInt }
  | .vsat vd va vb vc _ _ => needAny vd [va, vb, vc]
  | .vcmp _ va vb _ _ | .vcmpn _ va vb _ _ => { regs := [va, vb] }
  | .mpop vd _ _ | .mfirst vd _ _ => { needAny vd [] with bad := badCase 0 (x.tag vd).isInt }
  | .vsel vd va vb _ _ => needAny vd [va, vb]
  | .vrsum vd va _ _ | .vrmax vd va _ _ | .vrmin vd va _ _ => needAny vd [va]
  | .vrand vd va _ _ | .vror vd va _ _ =>
    { needAny vd [va] with
      bad := badCase 0 (x.tag vd).isInt ++ badCase 1 (x.tag va).isInt ++
        badCase 7 (decide ((x.tag vd).width = (x.tag va).width)) }
  | .vscan vd va _ _ | .vscanmx vd va _ _ => needScan vd va
  | .vrdot vd va vb _ _ => { needAny vd [va, vb] with bad := badCase 0 (x.tag vd).isIFP }
  | .vslup vd va _ _ | .vsldn vd va _ _ => needAny vd [va]
  | .vgthr vd va vb _ => { needAny vd [va, vb] with bad := badCase 2 (x.tag vb).isInt }
  | .vcomp vd va _ | .vexpd vd va _ | .vrev vd va _ => needAny vd [va]
  | .vbcast vd _ _ => needAny vd []
  | .vzip vd va vb _ _ | .vunzip vd va vb _ _ => needAny vd [va, vb]
  | .vld vd _ _ _ _ _ _ | .vlds vd _ _ _ _ _ _ _ | .vldm vd _ _ _ _ _ _ | .vldsp vd _ _ _ _ _ _ => needLoad x vd none
  | .vldx vd _ vb _ _ _ _ _ | .vldxo vd _ vb _ _ _ _ _ | .vldspx vd _ vb _ _ _ _ => needLoad x vd (some vb)
  | .vst vd _ _ _ _ _ _ | .vsts vd _ _ _ _ _ _ _ | .vstm vd _ _ _ _ _ _ | .vstsp vd _ _ _ _ _ _ => needStore x vd none
  | .vstx vd _ vb _ _ _ _ _ | .vstxo vd _ vb _ _ _ _ _ | .vstspx vd _ vb _ _ _ _ => needStore x vd (some vb)
  | .vldseg vd _ _ _ _ nf _ _ _ | .vstseg vd _ _ _ _ nf _ _ _ =>
    { regs := segRegs vd (nf.toNat + 1), illegal := if x.cfg.nreg < vd.toNat + nf.toNat + 1 then some 17 else none,
      writes := segRegs vd (nf.toNat + 1) }
  | .vaadd vd _ vb vc _ _ nr _ fx _ _ | .vamin vd _ vb vc _ _ nr _ fx _ _ | .vamax vd _ vb vc _ _ nr _ fx _ _ =>
    needAtomic x true false vd vb vc nr fx
  | .vaand vd _ vb vc _ _ nr _ fx _ _ | .vaor vd _ vb vc _ _ nr _ fx _ _ | .vaxor vd _ vb vc _ _ nr _ fx _ _
  | .vaswap vd _ vb vc _ _ nr _ fx _ _ => needAtomic x false false vd vb vc nr fx
  | .vacas vd _ vb vc _ _ nr _ fx _ _ => needAtomic x false true vd vb vc nr fx
  | .tld _ _ _ _ fx _ | .tldf _ _ _ _ _ fx => { regs := [], bad := badCase 5 (isWeight fx) }
  | .mrow va _ _ _ _ _ | .mrowz va _ _ _ _ _ => { regs := [va], bad := badCase 6 (x.tag va).isActivation }
  | .msweep _ _ _ _ _ fx _ =>
    { regs := [], illegal := if fx = 0 then some 22 else none, bad := badCase 6 (Tag.ofFX fx).isActivation }
  | .mdrain vd _ _ _ => { needAny vd [] with bad := badCase 0 (x.tag vd).isIFP }
  | .mdrains _ _ _ _ _ fx => { regs := [], illegal := if fx = 0 then some 22 else none }
  | .mldacc va _ _ => { regs := [va] }
  | .qcmp _ va vb _ _ _ => { regs := [va, vb] }
  | .qblend vd va vb _ _ _ => needAny vd [va, vb]
  | .qcoll _ _ (some vb) _ => { regs := [vb], bad := badCase 2 (x.tag vb).isInt }
  | .qgrad vd (.soft _) _ _ => { needAny vd [] with bad := badCase 0 (x.tag vd == .flt .f32) }
  | .qgrad vd (.blend va vb) _ _ => { needAny vd [va, vb] with bad := badCase 0 (x.tag vd == .flt .f32) }
  | .qmov (.toQ _ va _) _ _ => { regs := [va], bad := badCase 1 (x.tag va).notTE }
  | .qmov (.fromQ vd _) _ _ => { needAny vd [] with bad := badCase 0 (x.tag vd).notTE }
  | .qseed (.vec va) _ => { regs := [va], bad := badCase 1 (x.tag va).isInt }
  | _ => { regs := [] }

/-- The cause of a bolt word's operands, in the order of R164. -/
def operandCause (i : Instr) (x : Hart) : Option Nat :=
  let n := needOf i x
  if n.regs.any (fun v => decide (x.cfg.nreg ≤ v.toNat)) then some 17
  else match n.illegal with
    | some c => some c
    | none => match n.bad with
      | c :: _ => some (24 + c)
      | [] => if n.writes.any (fun v => (x.bindOf v.toNat).isSome) then some 56 else none

/-- An error that a structure of the core or the hart holds, met by the running bolt instruction at an element (R321, R324). -/
def meetUpset (st place : Nat) (has : Nat → Bool) (e : Nat) : Act Unit := do
  let s ← get
  if s.rel.upsets = [] then pure () else consumeUpset (s.upsetAt st place has) (s.vecTrap 0 0 e)

/-- Where a bit of a mask stands among the places of structure 7. -/
def maskKey (m : MReg) (e : Nat) : Nat := elKey m.toNat e
/-- Where a code of a soft predicate stands among the places of structure 7. -/
def softKey (q : QReg) (e : Nat) : Nat := elKey (8 + q.toNat) e
/-- The elements of the running fragment that are below VL. -/
def Bolt.members (b : Bolt) : List Nat := (upTo b.vl).filter (Bits.has b.run)
/-- Errors of a structure of a hart that stand in registers an instruction reads and in no place that it reads are found and
poisoned (R324). -/
def State.findElsewhere (s : State) (st : Nat) (regs : List Nat) : State :=
  (s.rel.upsets.filter (fun u => decide (u.s = st) && decide (u.place = s.cur) && u.unc &&
    regs.contains (u.word / 2 ^ 20))).foldl (fun s u => s.findUpset u s.cur) s

/-- Errors of the masks, soft predicates and status registers that a bolt instruction reads, at the elements it reads them for:
its mask operand for every element of the running fragment, the others for the active ones. What it writes loses its errors
(R321, R324, R374). -/
def predCheck (i : Instr) (b : Bolt) : Act Unit := do
  let s ← get
  if s.rel.upsets = [] then pure ()
  else do
    i.csrsRead.forM (fun n => meetUpset 9 s.cur (fun w => decide (w = n)) 0)
    match i.maskOp with
    | none => pure ()
    | some k => do
      if k.m ≠ 0 then b.members.forM (fun e => meetUpset 7 s.cur (fun w => decide (w = maskKey k.m e)) e)
      let es := b.actives s.me k
      es.forM (fun e => do
        i.masksRead.forM (fun m => meetUpset 7 s.cur (fun w => decide (w = maskKey m e)) e)
        i.softsRead.forM (fun q => meetUpset 7 s.cur (fun w => decide (w = softKey q e)) e))
      modify (fun s => s.findElsewhere 7 (k.m.toNat :: i.masksRead.map (·.toNat) ++ i.softsRead.map (8 + ·.toNat)))
      modify (fun s => s.clearUpsets 7 s.cur (fun w => es.any (fun e =>
        i.masksWritten.any (fun m => decide (w = maskKey m e)) || i.softsWritten.any (fun q => decide (w = softKey q e)))))

/-- The operand checks of a bolt instruction. -/
def operands (i : Instr) : Act Unit := do
  let s ← get
  match operandCause i s.me with
  | some c => vraise c
  | none =>
    match s.me.bolts with
    | [] => pure ()
    | b :: _ => predCheck i b

/-- Errors in the slots that active elements read, and those a register read holds elsewhere, which are found and poisoned
(R321, R324). -/
def regCheck (b : Bolt) (k : MaskOp) (vs : List VReg) : Act Unit := do
  let s ← get
  if s.rel.upsets = [] then pure ()
  else
    let es := b.actives s.me k
    (vs.flatMap (fun v => es.map (fun e => (v, e)))).forM (fun p =>
      meetUpset 0 s.cur (fun w => decide (w = elKey p.1.toNat p.2)) p.2)
    modify (fun s => s.findElsewhere 0 (vs.map (·.toNat)))
/-- Slots wholly written lose their poison (R324). -/
def slotsWritten (v : VReg) (es : List Nat) : Act Unit := fun s =>
  .ok ((), if s.rel.upsets = [] then s else s.clearUpsets 0 s.cur (fun w => es.any (fun e => decide (w = elKey v.toNat e))))

/-! ### Footprints (R126, R259) -/

/-- A part of a footprint: element, address, bits. -/
structure Foot where
  e : Nat
  a : Nat
  w : Nat
  deriving DecidableEq, Repr

/-- The lowest bit of a part that `lo` to `hi - 1` does not cover. -/
def Foot.outside (p : Foot) (lo hi : Nat) : Option Nat :=
  if p.w = 0 then none
  else if p.a < lo then some p.a
  else if hi < p.a + p.w then some (max p.a hi)
  else none

/-- The lowest failing bit of a footprint and the lowest element with one. -/
def failing (fp : List Foot) (f : Foot → Option Nat) : Option (Nat × Nat) :=
  fp.foldl (fun r p => match f p with
    | none => r
    | some b => match r with
      | none => some (b, p.e)
      | some (b', e') => some (min b b', min p.e e')) none

/-- Who consumes a token, for SWAP_EVICTED (R311). -/
def evictCode (s : State) (consumer : Nat) (m l : Nat) : Nat :=
  let still := match s.ctx m with
    | some c => decide (entState (s.lrtEntry c l) = 3)
    | none => false
  256 + 2 * consumer + if still then 1 else 0

/-- What the running hart's vector side does is past its footprint check: it was held at a page that has moved since (R128, R129). -/
def State.pastCheck (s : State) : Bool := s.migs.any (fun g => g.moved && g.queue.contains (.vec s.cur))
/-- probe_covers of R126 on a footprint of the running hart: the cause, the failing bit and the element. -/
def State.probeCause (s : State) (k : Nat) (kind : AccKind) (cls consumer : Nat) (fp : List Foot) : Option (Nat × Nat × Nat) :=
  let fp := fp.filter (fun p => decide (p.w ≠ 0))
  let t := s.me.tok k
  let all (p : Foot) : Option Nat := some p.a
  let out (p : Foot) : Option Nat := p.outside t.base (t.base + t.ext)
  match failing fp (if decide (t.st = .free) || !(t.allows kind) then all else out) with
  | some (b, e) => some (memCause 6 cls, b, e)
  | none =>
    match t.st, failing fp all with
    | .unmapped, some (b, e) => if s.pastCheck then none else some (memCause 7 cls, b, e)
    | .evicted m l, some (b, e) => some (evictCode s consumer m l, b, e)
    | _, _ => none

/-- A footprint checked under a token. -/
def tokenCheck (k : Nat) (kind : AccKind) (cls consumer : Nat) (fp : List Foot) : Act Unit := do
  let s ← get
  match s.probeCause k kind cls consumer fp with
  | some (c, b, e) => vraise c b e k
  | none => pure ()

/-- A transfer that the running bolt's access must wait for (R135): overlapping, and not standing behind the bolt. One that a
handler or routine issued comes before what is left of the bolts set aside (log 90). -/
def State.vecInterlocked (s : State) (seq a n : Nat) (write : Bool) : Bool :=
  s.xfers.any (fun t => decide (t.hart = s.cur) && decide (t.uid = s.me.uid) && !(t.behind.contains seq) && t.meets a n write)

/-- The virtual address of a scratchpad bit in the aperture (R197), where interlock ranges name it. -/
def aperture : Nat := 2 ^ 64 - 2 ^ 24

/-- The running hart has not yet performed an access of its vector stream that meets a part, or, where the part is read through
port 1, one through port 1: the access waits for it (R142, R338). -/
def State.lateMeets (s : State) (sp : Nat) (kind : AccKind) (p : Foot) : Bool :=
  s.me.stores.any (fun q => (q.vec && partsMeet q.parts (s.phys sp p.a p.w)) ||
    (decide (kind ≠ .wr) && portOne (s.phys sp p.a p.w) && portOne q.parts))
/-- A checked footprint reached, in the address space `sp` (R129, R135, R142, R307, R370). -/
def vreach (sp seq : Nat) (kind : AccKind) (cls : Nat) (fp : List Foot) : Act Unit := do
  let s ← get
  match fp.find? (fun p => (s.blocked sp p.a p.w).isSome) with
  | some p => stall (.page p.a cls)
  | none =>
    if fp.any (fun p => s.vecInterlocked seq p.a p.w kind.writes || s.lateMeets sp kind p) then stall .interlock
    else
      match firstSome (fun (p : Foot) => (s.hostFail s.cur sp p.a p.w cls).map (fun q => (q, p.e))) fp with
      | some (q, e) => vraise q.1 q.2 e
      | none => pure ()

/-- A vector read of bits already checked, in the address space `sp`, with the errors the data may hold. -/
def vecRead (sp : Nat) (p : Foot) (sc : Scope := .grove) : Act Nat := do
  let s ← get
  let g := groveOf s.cur
  consumeUpsets (s.memUpsets g sc (s.phys sp p.a p.w)) (s.vecTrap 0 0 p.e)
  let s ← get
  let (v, s') := s.vread sp g sc p.a p.w
  set s'
  pure v
/-- A vector write of bits already checked, in the address space `sp`. -/
def vecWrite (sp : Nat) (p : Foot) (v : Nat) (sc : Scope := .grove) : Act Unit := modify (fun s => s.putBits sp p.a p.w v sc)
/-- The address space a token reaches memory through. -/
def tokSpace (k : Nat) : Act Nat := fun s => .ok (s.spaceOf s.cur k, s)

/-! ### Strips of bound registers (R133, R195, R214) -/

/-- Fields of a flume record (R132). -/
def recField (r : BitVec 256) (hi lo : Nat) : Nat := field r.toNat hi lo

/-- Elements of a strip that read memory: element, stream index. -/
def Binding.elems (d : Binding) (vl : Nat) : List (Nat × Nat) :=
  let st := recField d.record 63 44
  let len := if st = 0 then vl else st
  ((upTo (min len vl)).map (fun j => (j, d.strips * len + j))).filter (fun p => decide (p.2 < recField d.record 95 64))
/-- Address of a stream element. -/
def Binding.elemAt (d : Binding) (n : Nat) : Nat :=
  wrap ((recField d.record 255 192 : Nat) + (n : Int) * signed (recField d.record 127 96) 32) 64
/-- Address of a stream element's scale. -/
def Binding.scaleAt (d : Binding) (n : Nat) : Nat :=
  wrap ((recField d.record 191 128 : Nat) + ((n >>> recField d.record 19 16 : Nat) : Int) * signed (recField d.record 43 32) 12) 64
/-- Tag of the stored elements. -/
def Binding.tag (d : Binding) : Tag := (Tag.ofCode (fmtOf d.record)).getD (.nat 8)

/-- R53 and R334: the layer of a flume is checked once its token is live. SWAP_ABSENT names the LRT entry in TADDR, as the
causes of LWAIT do (log 95). -/
def layerCheck (d : Binding) : Act Unit := do
  let s ← get
  match s.ctx s.me.mctx.toNat with
  | none => pure ()
  | some c =>
    if entState (s.lrtEntry c (layerOf d.record)) = 2 then pure ()
    else if onabsOf d.record then vraise (272 + d.slot) (c.entryAt (layerOf d.record))
    else stall (.lwait 0 (layerOf d.record))

/-- Token of a record. -/
def Binding.token (d : Binding) : Nat := recField d.record 23 20
/-- The stored code and the scale code of stream element `n` for element `e`: as read ahead, or read now (R134). -/
def streamElem (sp : Nat) (d : Binding) (e n : Nat) : Act (Nat × Nat) := do
  match d.early.find? (fun q => decide (q.1 = n)) with
  | some q => pure q.2
  | none => do
    let c ← vecRead sp ⟨e, d.elemAt n, d.tag.width⟩
    let sc ← if senOf d.record then vecRead sp ⟨e, d.scaleAt n, 8⟩ else pure 0
    pure (c, sc)

/-- One element of a strip: its code in the register's tag and the flags of its rounding (R133). -/
def stripElem (sp : Nat) (x : Hart) (d : Binding) (t : Tag) (p : Nat × Nat) : Act (Nat × Nat × Fl) := do
  let (c, sc) ← streamElem sp d p.1 p.2
  let v := d.tag.value c
  if senOf d.record then
    let (y, fl) := v.mul (Tag.e8m0.value sc)
    let (r, fl') := t.narrow (x.mode .fmode) false x.satfin true y.res
    pure (p.1, r, fl ||| fl')
  else
    let (r, fl') := t.narrow (x.mode .fmode) false x.satfin (!d.tag.isInt) v.res
    pure (p.1, r, fl')

/-- The next strip of a bound register: its codes by element, its flags from active elements, and the binding after it. -/
def strip (b : Bolt) (k : MaskOp) (v : VReg) (d : Binding) : Act (List (Nat × Nat) × Fl) := do
  let x ← me
  let es := d.elems b.vl
  let fp := es.map (fun p => ⟨p.1, d.elemAt p.2, d.tag.width⟩) ++
    (if senOf d.record then es.map (fun p => ⟨p.1, d.scaleAt p.2, 8⟩) else [])
  tokenCheck d.token .rd 5 3 fp
  if lenOf d.record && !es.isEmpty then layerCheck d
  let sp ← tokSpace d.token
  vreach sp b.seq .rd 5 fp
  let rs ← es.mapM (stripElem sp x d (x.tag v))
  let zeros := (upTo b.vl).map (fun e => (e, (x.tag v).zeroCode))
  let fl := (rs.filter (fun r => b.active x k r.1)).foldl (fun f r => f ||| r.2.2) 0
  pure (zeros ++ rs.map (fun r => (r.1, r.2.1)), fl)

/-- A flume reads stream element `n` ahead of its strip (R134), where an access through its token would be performed now; else
nothing happens. -/
def State.flumeAhead (s : State) (h v n : Nat) : State :=
  let s := s.on h
  match s.me.bindOf v with
  | none => s
  | some d =>
    let fp : List Foot := ⟨0, d.elemAt n, d.tag.width⟩ :: (if senOf d.record then [⟨0, d.scaleAt n, 8⟩] else [])
    let act : Act (Nat × Nat) := do
      tokenCheck d.token .rd 5 3 fp
      if lenOf d.record then layerCheck d
      let sp ← tokSpace d.token
      vreach sp (s.me.boltSeq + 1) .rd 5 fp
      streamElem sp d 0 n
    if n < recField d.record 95 64 then
      match act s with
      | .ok (c, s1) => s1.modMe (fun x => { x with binds := x.binds.map (fun (d' : Binding) =>
          if d'.reg = v then { d' with early := Tab.put d'.early n c } else d') })
      | .error _ => s
    else s

/-- One source register: a strip of it, if it is bound, laid over the view `y`; `quiet` where its rounding sets no flag (R82). -/
def source (quiet : Bool) (b : Bolt) (k : MaskOp) (y : Hart) (v : VReg) : Act Hart := do
  let x ← me
  match x.bindOf v.toNat with
  | none => pure y
  | some d => do
    let (codes, fl) ← strip b k v d
    modMe (fun x => { x with binds := x.binds.map (fun (d' : Binding) =>
      if d'.reg = v.toNat then { d' with strips := d'.strips + 1 } else d') }.addFlags (if quiet then 0 else fl))
    pure (y.putCodes v codes)

/-- The hart as an instruction's sources read it: each bound register shows its next strip, once (R214). -/
def sourcesOf (quiet : Bool) (b : Bolt) (k : MaskOp) (vs : List VReg) : Act Hart := do
  regCheck b k vs
  let x ← me
  if x.binds = [] then pure x else vs.eraseDups.foldlM (source quiet b k) x
/-- The sources of a vector instruction. -/
def sources (b : Bolt) (k : MaskOp) (vs : List VReg) : Act Hart := sourcesOf false b k vs
/-- The sources of a matrix instruction, which sets no flag by them (R82). -/
def mxSources (b : Bolt) (k : MaskOp) (vs : List VReg) : Act Hart := sourcesOf true b k vs

/-- Codes written to a register with the flags they set, and the vector unit past its word. -/
def putResult (vd : VReg) (rs : List (Nat × Nat × Fl)) : Act Unit := do
  slotsWritten vd (rs.map (·.1))
  modMe (fun x => ((x.putCodes vd (rs.map (fun r => (r.1, r.2.1)))).addFlags (rs.foldl (fun fl r => fl ||| r.2.2) 0)).vnext)

/-! ### Element-wise instructions (R225) -/

/-- An element-wise instruction: every active element's code and flags computed from the sources, then written. -/
def elementwise (i : Instr) (vd : VReg) (srcs : List VReg) (k : MaskOp) (f : Hart → Nat → Nat × Fl) (b : Bolt) : Act Unit := do
  operands i
  let y ← sources b k srcs
  putResult vd ((b.actives y k).map (fun e => (e, f y e)))

/-- A result narrowed to a register's tag in a mode (R213). -/
def Hart.narrowTo (y : Hart) (vd : VReg) (md : Mode) (sat real : Bool) (r : Res × Fl) : Nat × Fl :=
  let (c, fl) := (y.tag vd).narrow md sat y.satfin real r.1
  (c, fl ||| r.2)

/-- An element moved between registers (R245, R255): its code where the tags are equal, else its value narrowed modular. -/
def Hart.moved (y : Hart) (vd va : VReg) (md : Mode) (e : Nat) : Nat × Fl :=
  if y.tag vd = y.tag va then (y.code va e, 0)
  else y.narrowTo vd md false (!(y.tag va).isInt) ((y.val va e).res, 0)
/-- A whole-number result (R86). -/
def Res.ofInt (i : Int) : Res := .fin (decide (i < 0)) i.natAbs 1 0

end Sys2Proof.Machine
end

