-- ==== Sys2Proof/Machine/BoltArith.lean ====
section
/-!
DEFINITION. Element arithmetic of bolts: integer and shared operations, fused operations and special functions
(R225-R233).
-/
namespace Sys2Proof.Machine

open Sys2Proof

/-- The exact common type of some registers is real (R86). -/
def Hart.isReal (y : Hart) (vs : List VReg) : Bool := vs.any (fun v => !(y.tag v).isInt)

/-- A binary operation on values, narrowed once (R225). -/
def binop (sat : Bool) (op : Mode → Val → Val → Res × Fl) (vd va vb : VReg) (r : Rnd) (y : Hart) (e : Nat) : Nat × Fl :=
  let md := y.mode r
  y.narrowTo vd md sat (y.isReal [va, vb]) (op md (y.val va e) (y.val vb e))
/-- A binary operation on integers. -/
def intop (sat : Bool) (op : Int → Int → Int) (vd va vb : VReg) (r : Rnd) (y : Hart) (e : Nat) : Nat × Fl :=
  y.narrowTo vd (y.mode r) sat false (Res.ofInt (op (y.val va e).toInt (y.val vb e).toInt), 0)
/-- A value with flags as a result with flags. -/
def asRes (p : Val × Fl) : Res × Fl := (p.1.res, p.2)

/-- VADD (R225). -/
def execVadd (vd va vb : VReg) (r : Rnd) (k : MaskOp) (s : State) :=
  runVec (elementwise (.vadd vd va vb r k) vd [va, vb] k (binop false (fun md x y => asRes (x.add md y)) vd va vb r)) s
/-- VSUB (R225). -/
def execVsub (vd va vb : VReg) (r : Rnd) (k : MaskOp) (s : State) :=
  runVec (elementwise (.vsub vd va vb r k) vd [va, vb] k (binop false (fun md x y => asRes (x.sub md y)) vd va vb r)) s
/-- VMUL (R225). -/
def execVmul (vd va vb : VReg) (r : Rnd) (k : MaskOp) (s : State) :=
  runVec (elementwise (.vmul vd va vb r k) vd [va, vb] k (binop false (fun _ x y => asRes (x.mul y)) vd va vb r)) s
/-- VADDS (R225, R231). -/
def execVadds (vd va vb : VReg) (r : Rnd) (k : MaskOp) (s : State) :=
  runVec (elementwise (.vadds vd va vb r k) vd [va, vb] k (intop true (· + ·) vd va vb r)) s
/-- VSUBS (R225, R231). -/
def execVsubs (vd va vb : VReg) (r : Rnd) (k : MaskOp) (s : State) :=
  runVec (elementwise (.vsubs vd va vb r k) vd [va, vb] k (intop true (· - ·) vd va vb r)) s
/-- VAVG (R225): the floor of (x + y + 1) / 2. -/
def execVavg (vd va vb : VReg) (r : Rnd) (k : MaskOp) (s : State) :=
  runVec (elementwise (.vavg vd va vb r k) vd [va, vb] k (intop true (fun x y => (x + y + 1) / 2) vd va vb r)) s

/-- VDIV (R226): on integers x quot y, and -1 for a zero divisor, which is the all-ones code of an integer tag. -/
def divop (vd va vb : VReg) (r : Rnd) (y : Hart) (e : Nat) : Nat × Fl :=
  if y.isReal [va, vb] then binop false (fun _ x z => x.div z) vd va vb r y e
  else intop false (fun x z => if z = 0 then -1 else x.tdiv z) vd va vb r y e

/-- VDIV (R226). -/
def execVdiv (vd va vb : VReg) (r : Rnd) (k : MaskOp) (s : State) :=
  runVec (elementwise (.vdiv vd va vb r k) vd [va, vb] k (divop vd va vb r)) s
/-- VREM (R226): x for a zero divisor. -/
def execVrem (vd va vb : VReg) (r : Rnd) (k : MaskOp) (s : State) :=
  runVec (elementwise (.vrem vd va vb r k) vd [va, vb] k (intop false (fun x z => if z = 0 then x else x.tmod z) vd va vb r)) s

/-- VMULH (R227): the product divided by 2^w, rounded down, w the width of vd. -/
def execVmulh (vd va vb : VReg) (r : Rnd) (k : MaskOp) (s : State) :=
  runVec (elementwise (.vmulh vd va vb r k) vd [va, vb] k
    (fun y e => intop false (fun x z => x * z / 2 ^ (y.tag vd).width) vd va vb r y e)) s

/-- VMULW's second source: the low bits of the slot as a code of the FX tag (R227). -/
def mulwop (vd va vb : VReg) (r : Rnd) (fx : BitVec 4) (y : Hart) (e : Nat) : Nat × Fl :=
  let t := Tag.ofFX fx
  let z := t.value ((Tab.get 0 y.vregs (elKey vb.toNat e)).toNat % 2 ^ t.width)
  y.narrowTo vd (y.mode r) false (y.isReal [va] || !t.isInt) (asRes ((y.val va e).mul z))
/-- VMULW (R227). -/
def execVmulw (vd va vb : VReg) (r : Rnd) (fx : BitVec 4) (k : MaskOp) (s : State) :=
  runVec (elementwise (.vmulw vd va vb r fx k) vd [va, vb] k (mulwop vd va vb r fx)) s

/-- VMACC (R227): vd is a third source. -/
def execVmacc (vd va vb : VReg) (k : MaskOp) (s : State) :=
  runVec (elementwise (.vmacc vd va vb k) vd [vd, va, vb] k
    (fun y e => y.narrowTo vd (y.mode .fmode) false false
      (Res.ofInt ((y.val vd e).toInt + (y.val va e).toInt * (y.val vb e).toInt), 0))) s

/-- VMIN and VMAX of two registers (R228): the chosen code where vd has the chosen source's tag; neither sets NV. -/
def pickop (wantMax : Bool) (vd va vb : VReg) (r : Rnd) (y : Hart) (e : Nat) : Nat × Fl :=
  let x := y.val va e
  let z := y.val vb e
  let v := if Val.picksSecond wantMax x z then vb else va
  if y.tag v = y.tag vd ∧ !(x.isNan && z.isNan) then (y.code v e, 0)
  else
    let (c, fl) := y.narrowTo vd (y.mode r) false (y.isReal [va, vb]) ((Val.pick wantMax x z).res, 0)
    (c, fl &&& ~~~flNV)
/-- VMIN (R228). -/
def execVmin (vd va vb : VReg) (r : Rnd) (k : MaskOp) (s : State) :=
  runVec (elementwise (.vmin vd va vb r k) vd [va, vb] k (pickop false vd va vb r)) s
/-- VMAX (R228). -/
def execVmax (vd va vb : VReg) (r : Rnd) (k : MaskOp) (s : State) :=
  runVec (elementwise (.vmax vd va vb r k) vd [va, vb] k (pickop true vd va vb r)) s

/-- VABS and VNEG (R229): on equal floating tags the sign bit alone changes. -/
def signop (neg : Bool) (vd va : VReg) (r : Rnd) (y : Hart) (e : Nat) : Nat × Fl :=
  match y.tag va with
  | .flt f =>
    let c := y.code va e
    let x := f.value c
    if y.tag vd = .flt f then
      let mag := c % 2 ^ (f.exp + f.man)
      (if neg && !(c.testBit (f.exp + f.man)) then mag + 2 ^ (f.exp + f.man) else mag, 0)
    else y.narrowTo vd (y.mode r) false true ((if neg || x.isNeg then x.neg else x).res, 0)
  | .e8m0 =>
    if y.tag vd = .e8m0 then (y.code va e, 0)
    else y.narrowTo vd (y.mode r) false true ((y.val va e).res, 0)
  | t =>
    let x := y.val va e
    y.narrowTo vd (y.mode r) false (!t.isInt) ((if (neg || x.isNeg) && !x.isZero then x.neg else x).res, 0)
/-- VABS (R229). -/
def execVabs (vd va : VReg) (r : Rnd) (k : MaskOp) (s : State) :=
  runVec (elementwise (.vabs vd va r k) vd [va] k (signop false vd va r)) s
/-- VNEG (R229). -/
def execVneg (vd va : VReg) (r : Rnd) (k : MaskOp) (s : State) :=
  runVec (elementwise (.vneg vd va r k) vd [va] k (signop true vd va r)) s

/-- A bitwise operation on codes of one width. -/
def bitop (f : Nat → Nat → Nat) (va vb : VReg) (y : Hart) (e : Nat) : Nat × Fl := (f (y.code va e) (y.code vb e), 0)
/-- VAND (R225). -/
def execVand (vd va vb : VReg) (r : Rnd) (k : MaskOp) (s : State) :=
  runVec (elementwise (.vand vd va vb r k) vd [va, vb] k (bitop (· &&& ·) va vb)) s
/-- VOR (R225). -/
def execVor (vd va vb : VReg) (r : Rnd) (k : MaskOp) (s : State) :=
  runVec (elementwise (.vor vd va vb r k) vd [va, vb] k (bitop (· ||| ·) va vb)) s
/-- VXOR (R225). -/
def execVxor (vd va vb : VReg) (r : Rnd) (k : MaskOp) (s : State) :=
  runVec (elementwise (.vxor vd va vb r k) vd [va, vb] k (bitop (· ^^^ ·) va vb)) s

/-- A code of va's tag computed from va's code and y, narrowed as a value of that tag (R230). -/
def codeop (f : Nat → Nat → Nat → Nat) (vd va vb : VReg) (r : Rnd) (y : Hart) (e : Nat) : Nat × Fl :=
  let t := y.tag va
  let n := (y.val vb e).toInt.emod (2 ^ 64) |>.toNat
  y.narrowTo vd (y.mode r) false false ((t.value (f t.width (y.code va e) n)).res, 0)
/-- VSHL's code: zeros enter from the right. -/
def shlCode (w c y : Nat) : Nat := c * 2 ^ (y % 64) % 2 ^ w
/-- VSHR's code: zeros enter from the left. -/
def shrCode (_ c y : Nat) : Nat := c / 2 ^ (y % 64)
/-- VSRA's code: copies of the top bit enter from the left. -/
def sraCode (w c y : Nat) : Nat := wrap (signed c w / 2 ^ (y % 64)) w
/-- VSHL (R230). -/
def execVshl (vd va vb : VReg) (r : Rnd) (k : MaskOp) (s : State) :=
  runVec (elementwise (.vshl vd va vb r k) vd [va, vb] k (codeop shlCode vd va vb r)) s
/-- VSHR (R230). -/
def execVshr (vd va vb : VReg) (r : Rnd) (k : MaskOp) (s : State) :=
  runVec (elementwise (.vshr vd va vb r k) vd [va, vb] k (codeop shrCode vd va vb r)) s
/-- VSRA (R230). -/
def execVsra (vd va vb : VReg) (r : Rnd) (k : MaskOp) (s : State) :=
  runVec (elementwise (.vsra vd va vb r k) vd [va, vb] k (codeop sraCode vd va vb r)) s

/-- A count of a code's bits, narrowed (R230). -/
def countop (f : Nat → Nat → Nat) (vd va : VReg) (y : Hart) (e : Nat) : Nat × Fl :=
  y.narrowTo vd (y.mode .fmode) false false (Res.ofInt (f (y.tag va).width (y.code va e)), 0)
/-- VPOPC (R230). -/
def execVpopc (vd va : VReg) (k : MaskOp) (s : State) :=
  runVec (elementwise (.vpopc vd va k) vd [va] k (countop (fun w c => Bits.count c w) vd va)) s
/-- VCLZ (R230). -/
def execVclz (vd va : VReg) (k : MaskOp) (s : State) :=
  runVec (elementwise (.vclz vd va k) vd [va] k (countop (fun w c => leadingZeros c w) vd va)) s

/-- VBEXT's field, clipped at the width (R167, R230). -/
def bextCode (w c y : Nat) : Nat := (c / 2 ^ (y % 64)) % 2 ^ min (y / 256 % 64 + 1) (w - y % 64)
/-- VBEXT (R230): the field is a natural number. -/
def execVbext (vd va vb : VReg) (r : Rnd) (k : MaskOp) (s : State) :=
  runVec (elementwise (.vbext vd va vb r k) vd [va, vb] k (fun y e =>
    let n := ((y.val vb e).toInt.emod (2 ^ 64)).toNat
    y.narrowTo vd (y.mode r) false false (Res.ofInt (bextCode (y.tag va).width (y.code va e) n : Nat), 0))) s

/-! ### Fused operations (R232) -/

/-- x × y + z, with the signs of the product and of z as the operation gives them. -/
def fuse (np nz : Bool) (vd va vb vc : VReg) (r : Rnd) (y : Hart) (e : Nat) : Nat × Fl :=
  let md := y.mode r
  let (p, fl) := (y.val va e).mul (y.val vb e)
  let z := y.val vc e
  let (v, fl') := Val.add md (if np then p.neg else p) (if nz then z.neg else z)
  y.narrowTo vd md false true (v.res, fl ||| fl')
/-- VFMA (R232). -/
def execVfma (vd va vb vc : VReg) (r : Rnd) (k : MaskOp) (s : State) :=
  runVec (elementwise (.vfma vd va vb vc r k) vd [va, vb, vc] k (fuse false false vd va vb vc r)) s
/-- VFMS (R232). -/
def execVfms (vd va vb vc : VReg) (r : Rnd) (k : MaskOp) (s : State) :=
  runVec (elementwise (.vfms vd va vb vc r k) vd [va, vb, vc] k (fuse false true vd va vb vc r)) s
/-- VFNMA (R232). -/
def execVfnma (vd va vb vc : VReg) (r : Rnd) (k : MaskOp) (s : State) :=
  runVec (elementwise (.vfnma vd va vb vc r k) vd [va, vb, vc] k (fuse true false vd va vb vc r)) s

/-! ### Special functions (R233) -/

/-- A special function of an element. -/
def specop (f : Special) (vd va : VReg) (r : Rnd) (y : Hart) (e : Nat) : Nat × Fl :=
  y.narrowTo vd (y.mode r) false true (f.eval (y.val va e))
/-- A special function of a register. -/
def special (f : Special) (i : Instr) (vd va : VReg) (r : Rnd) (k : MaskOp) (b : Bolt) : Act Unit :=
  elementwise i vd [va] k (specop f vd va r) b

/-- VSQRT (R233). -/
def execVsqrt (vd va : VReg) (r : Rnd) (k : MaskOp) (s : State) := runVec (special .sqrt (.vsqrt vd va r k) vd va r k) s
/-- VRCP (R233). -/
def execVrcp (vd va : VReg) (r : Rnd) (k : MaskOp) (s : State) := runVec (special .rcp (.vrcp vd va r k) vd va r k) s
/-- VRSQ (R233). -/
def execVrsq (vd va : VReg) (r : Rnd) (k : MaskOp) (s : State) := runVec (special .rsq (.vrsq vd va r k) vd va r k) s
/-- VEXP (R233). -/
def execVexp (vd va : VReg) (r : Rnd) (k : MaskOp) (s : State) := runVec (special .exp (.vexp vd va r k) vd va r k) s
/-- VLOG (R233). -/
def execVlog (vd va : VReg) (r : Rnd) (k : MaskOp) (s : State) := runVec (special .log (.vlog vd va r k) vd va r k) s
/-- VSIG (R233). -/
def execVsig (vd va : VReg) (r : Rnd) (k : MaskOp) (s : State) := runVec (special .sig (.vsig vd va r k) vd va r k) s
/-- VTANH (R233). -/
def execVtanh (vd va : VReg) (r : Rnd) (k : MaskOp) (s : State) := runVec (special .tanh (.vtanh vd va r k) vd va r k) s

end Sys2Proof.Machine
end

