-- ==== Sys2Proof/Machine/BoltConv.lean ====
section
/-!
DEFINITION. Conversion and quantisation of bolts, with the scales, zero points and statistics they use (R88-R91, R234-R241).
-/
namespace Sys2Proof.Machine

open Sys2Proof

/-- A value narrowed, through the FX tag first where one is given (R234). -/
def convop (sat : Bool) (vd va : VReg) (r : Rnd) (fx : BitVec 4) (y : Hart) (e : Nat) : Nat × Fl :=
  let md := y.mode r
  let x := y.val va e
  let real := !(y.tag va).isInt
  if fx = 0 then y.narrowTo vd md sat real (x.res, 0)
  else
    let t := Tag.ofFX fx
    let (c, fl) := t.narrow md sat y.satfin real x.res
    y.narrowTo vd md sat (!t.isInt) ((t.value c).res, fl)

/-- VCVT (R234). -/
def execVcvt (vd va : VReg) (r : Rnd) (fx : BitVec 4) (k : MaskOp) (s : State) :=
  runVec (elementwise (.vcvt vd va r fx k) vd [va] k (convop false vd va r fx)) s
/-- VNARROW (R234). -/
def execVnarrow (vd va : VReg) (r : Rnd) (fx : BitVec 4) (k : MaskOp) (s : State) :=
  runVec (elementwise (.vnarrow vd va r fx k) vd [va] k (convop true vd va r fx)) s
/-- VWIDEN (R235): exact for every pair accepted. -/
def execVwiden (vd va : VReg) (k : MaskOp) (s : State) :=
  runVec (elementwise (.vwiden vd va k) vd [va] k (convop false vd va .rne 0)) s

/-! ### Scales and zero points (R88, R89) -/

/-- The scale-file entry of index `k` for a hart (R88). -/
def Hart.scaleIndex (x : Hart) (k : Nat) : Nat := x.sfbase.toNat % 2048 + k / 2 ^ x.cfg.blk
/-- A scale-file code; 0x7F where nothing was loaded. -/
def Hart.sfCode (x : Hart) (i : Nat) : Nat := (Tab.get (0x7F : BitVec 8) x.sf i).toNat
/-- The zero point of R89 read in a tag. -/
def zeroPoint (zpa : Word) (t : Tag) : Int :=
  let zp := zpa.toNat % 256
  if t.width ≤ 8 then (t.value zp).toInt
  else match t with
    | .int _ => signed zp 8
    | _ => zp
/-- An SLD of the running hart issued before a bolt has yet to write an entry (R135, R203). -/
def State.scaleFilling (s : State) (seq i : Nat) : Bool :=
  s.xfers.any (fun t => decide (t.kind = .sld) && decide (t.hart = s.cur) && decide (t.uid = s.me.uid) &&
    !(t.behind.contains seq) && decide (t.first ≤ i) && decide (i < t.first + t.len))
/-- Scale-file entries read by elements: SCALE_RANGE for the first index past the file (R88), the wait for an SLD, and
errors in the entries. -/
def scaleRead (cause : Nat) (b : Bolt) (es : List Nat) : Act Unit := do
  let s ← get
  let x := s.me
  match es.find? (fun e => decide (2047 < x.scaleIndex e)) with
  | some e => vraise cause 0 e
  | none => do
    if es.any (fun e => s.scaleFilling b.seq (x.scaleIndex e)) then stall .interlock
    if s.rel.upsets ≠ [] then es.forM (fun e => meetUpset 6 s.cur (fun w => decide (w = x.scaleIndex e)) e)
/-- The scales of a conversion's active elements (R236, R237). -/
def scaleCheck (use : Bool) (cause : Nat) (b : Bolt) (k : MaskOp) : Act Unit := do
  let x ← me
  if use then scaleRead cause b (b.actives x k)
/-- x divided by the scale of an element (R236): exact, NaN for a scale of 0xFF. -/
def Hart.unscale (y : Hart) (x : Val) (e : Nat) : Val :=
  let c := y.sfCode (y.scaleIndex e)
  if c = 255 then .nan else x.scale (127 - c)

/-! ### VQNT and VDQNT -/

/-- What VQNT does to an element: its code, its flags, whether it was clipped, and whether a non-zero became zero. -/
structure Quant where
  code : Nat
  fl : Fl
  clip : Bool
  zero : Bool

/-- VQNT of one element (R236, R90). -/
def quantise (vd va : VReg) (r : Rnd) (sc zp : Bool) (y : Hart) (e : Nat) : Quant :=
  let t := y.tag vd
  let x := if sc then y.unscale (y.val va e) e else y.val va e
  let (c, fl) := t.narrow (y.mode r) true y.satfin (sc || !(y.tag va).isInt) x.res
  let fl := if x.isNan then flNV else fl
  let clip := clipped x.isNan fl
  let zero := !x.isNan && !x.isInf && !x.isZero && (t.value c).isZero
  if zp then
    let sum := (t.value c).toInt + zeroPoint y.zpa t
    let sg := match t with
      | .int _ => true
      | _ => false
    let v := intHold sg t.width sum
    ⟨wrap v t.width, fl ||| flIf (decide (v ≠ sum)) flOF, clip || decide (v ≠ sum), zero⟩
  else ⟨c, fl, clip, zero⟩

/-- A 64-bit counter that saturates (R90). -/
def addSat (c : Word) (n : Nat) : Word := nword (min (c.toNat + n) (2 ^ 64 - 1))
/-- R91 on updated counters: SCLBAD is set. -/
def Hart.scaleBad (x : Hart) : Bool :=
  decide ((min (x.clipth.toNat % 65536) 0x8000) * x.qntn.toNat < x.clipn.toNat * 32768)

/-- The hart after a VQNT's elements: codes, flags, counters (R90). -/
def Hart.countQuants (x : Hart) (vd : VReg) (qs : List (Nat × Quant)) : Hart :=
  let y := (x.putCodes vd (qs.map (fun q => (q.1, q.2.code)))).addFlags (qs.foldl (fun f q => f ||| q.2.fl) 0)
  { y with qntn := addSat y.qntn qs.length,
           clipn := addSat y.clipn (qs.filter (fun q => q.2.clip)).length,
           zeron := addSat y.zeron (qs.filter (fun q => q.2.zero)).length }

/-- The code of SCALE_CLIP by the class of the destination (R308). -/
def clipCause (t : Tag) : Nat := if t.isInt then 133 else if t.isFlt then 134 else 135

/-- VQNT (R236, R90, R91, R304). -/
def vqntAct (vd va : VReg) (r : Rnd) (sc zp : Bool) (k : MaskOp) (b : Bolt) : Act (Option TrapInfo) := do
  operands (.vqnt vd va r sc zp k)
  scaleCheck sc 128 b k
  let y ← sources b k [va]
  let t := (← get).vecTrap (clipCause (y.tag vd)) 0
  slotsWritten vd (b.actives y k)
  modMe (fun x => x.countQuants vd ((b.actives y k).map (fun e => (e, quantise vd va r sc zp y e))))
  let x ← me
  let bad := x.scaleBad && !(x.clipth.getLsbD 16)
  if bad then modMe (fun x => { x with clipth := x.clipth ||| 0x10000 })
  modMe Hart.vnext
  pure (if bad && x.clipth.getLsbD 17 then some t else none)

/-- VQNT (R236). -/
def execVqnt (vd va : VReg) (r : Rnd) (sc zp : Bool) (k : MaskOp) (s : State) := runVecThen (vqntAct vd va r sc zp k) s

/-- VDQNT of one element (R237), whose difference has the sign of R77 where it is zero. -/
def dequantise (vd va : VReg) (r : Rnd) (sc zp : Bool) (y : Hart) (e : Nat) : Nat × Fl :=
  let md := y.mode r
  let x := y.val va e
  let d := if zp then (Val.sub md x (Val.ofInt (zeroPoint y.zpa (y.tag va)))).1 else x
  let c := y.sfCode (y.scaleIndex e)
  let p := if sc then (if c = 255 then .nan else d.scale (c - 127)) else d
  y.narrowTo vd md false true (p.res, 0)

/-- VDQNT (R237). -/
def execVdqnt (vd va : VReg) (r : Rnd) (sc zp : Bool) (k : MaskOp) (s : State) :=
  runVec (fun b => do
    operands (.vdqnt vd va r sc zp k)
    scaleCheck sc 129 b k
    elementwise (.vdqnt vd va r sc zp k) vd [va] k (dequantise vd va r sc zp) b) s

/-! ### VRND, VCLASS, VSCL, VSAT -/

/-- VRND (R238): no NX. -/
def execVrnd (vd va : VReg) (r : Rnd) (k : MaskOp) (s : State) :=
  runVec (elementwise (.vrnd vd va r k) vd [va] k (fun y e =>
    let (c, fl) := y.narrowTo vd (y.mode r) false true (((y.val va e).integral (y.mode r)).res, 0)
    (c, fl &&& ~~~flNX))) s

/-- The class bit of a code (R239). -/
def classBit (t : Tag) (c : Nat) : Nat :=
  match t.value c with
  | .nan => 8
  | .inf neg => if neg then 0 else 7
  | .fin d neg =>
    let sub : Bool := match t with
      | .flt f => decide (c / 2 ^ f.man % 2 ^ f.exp = 0)
      | _ => false
    if d.m = 0 then (if neg && t.isFlt then 3 else 4)
    else if neg then (if sub then 2 else 1)
    else if sub then 5 else 6
/-- VCLASS (R239). -/
def execVclass (vd va : VReg) (k : MaskOp) (s : State) :=
  runVec (elementwise (.vclass vd va k) vd [va] k (fun y e =>
    y.narrowTo vd (y.mode .fmode) false false (Res.ofInt (2 ^ classBit (y.tag va) (y.code va e) : Nat), 0))) s

/-- VSCL (R240). -/
def execVscl (vd va vb : VReg) (r : Rnd) (k : MaskOp) (s : State) :=
  runVec (elementwise (.vscl vd va vb r k) vd [va, vb] k (fun y e =>
    y.narrowTo vd (y.mode r) false true (((y.val va e).scale (y.val vb e).toInt).res, 0))) s

/-- VSAT (R241): VMIN(VMAX(x, lo), hi), narrowed saturating. -/
def execVsat (vd va vb vc : VReg) (r : Rnd) (k : MaskOp) (s : State) :=
  runVec (elementwise (.vsat vd va vb vc r k) vd [va, vb, vc] k (fun y e =>
    let v := Val.pick false (Val.pick true (y.val va e) (y.val vb e)) (y.val vc e)
    y.narrowTo vd (y.mode r) true (y.isReal [va, vb, vc]) (v.res, 0))) s

end Sys2Proof.Machine
end

