-- ==== Sys2Proof/Machine/BoltMask.lean ====
section
/-!
DEFINITION. Compares, masks and selection of bolts (R242-R246).
-/
namespace Sys2Proof.Machine

open Sys2Proof

/-- Bits of md written at the active elements (R211). -/
def maskwise (i : Instr) (md : MReg) (srcs : List VReg) (k : MaskOp) (f : Hart → Bolt → Nat → Bool) (b : Bolt) : Act Unit := do
  operands i
  let y ← sources b k srcs
  modMe (fun x => (x.putMask md (b.actives y k) (f y b)).vnext)

/-- A condition on natural numbers. -/
def condNat (c : Cond) (x y : Nat) : Bool :=
  match c with
  | .eq => decide (x = y)
  | .ne => decide (x ≠ y)
  | .lt => decide (x < y)
  | .le => decide (x ≤ y)
  | .gt => decide (y < x)
  | .ge => decide (y ≤ x)

/-- VCMP (R242): values. -/
def execVcmp (md : MReg) (va vb : VReg) (c : Cond) (k : MaskOp) (s : State) :=
  runVec (maskwise (.vcmp md va vb c k) md [va, vb] k (fun y _ e => Val.compare c (y.val va e) (y.val vb e))) s
/-- VCMPN (R242): raw codes. -/
def execVcmpn (md : MReg) (va vb : VReg) (c : Cond) (k : MaskOp) (s : State) :=
  runVec (maskwise (.vcmpn md va vb c k) md [va, vb] k (fun y _ e => condNat c (y.code va e) (y.code vb e))) s

/-- A bit of a mask as a source. -/
def Hart.maskAt (x : Hart) (b : Bolt) (m : MReg) (e : Nat) : Bool := Bits.has (x.mask m b.vl) e

/-- MAND (R243). -/
def execMand (md ma mb : MReg) (k : MaskOp) (s : State) :=
  runVec (maskwise (.mand md ma mb k) md [] k (fun y b e => y.maskAt b ma e && y.maskAt b mb e)) s
/-- MOR (R243). -/
def execMor (md ma mb : MReg) (k : MaskOp) (s : State) :=
  runVec (maskwise (.mor md ma mb k) md [] k (fun y b e => y.maskAt b ma e || y.maskAt b mb e)) s
/-- MXOR (R243). -/
def execMxor (md ma mb : MReg) (k : MaskOp) (s : State) :=
  runVec (maskwise (.mxor md ma mb k) md [] k (fun y b e => y.maskAt b ma e != y.maskAt b mb e)) s
/-- MNOT (R243). -/
def execMnot (md ma : MReg) (k : MaskOp) (s : State) :=
  runVec (maskwise (.mnot md ma k) md [] k (fun y b e => !(y.maskAt b ma e))) s

/-- The members of MPOP's and MFIRST's set A (R244). -/
def maskSet (b : Bolt) (y : Hart) (ma : MReg) (k : MaskOp) : List Nat := (b.actives y k).filter (y.maskAt b ma)
/-- MPOP (R244). -/
def execMpop (vd : VReg) (ma : MReg) (k : MaskOp) (s : State) :=
  runVec (fun b => elementwise (.mpop vd ma k) vd [] k (fun y _ =>
    y.narrowTo vd (y.mode .fmode) false false (Res.ofInt (maskSet b y ma k).length, 0)) b) s
/-- MFIRST (R244). -/
def execMfirst (vd : VReg) (ma : MReg) (k : MaskOp) (s : State) :=
  runVec (fun b => elementwise (.mfirst vd ma k) vd [] k (fun y _ =>
    y.narrowTo vd (y.mode .fmode) false false (Res.ofInt ((maskSet b y ma k).head?.getD b.vl : Nat), 0)) b) s

/-- VSEL (R245). -/
def execVsel (vd va vb : VReg) (mc : MReg) (k : MaskOp) (s : State) :=
  runVec (fun b => elementwise (.vsel vd va vb mc k) vd [va, vb] k (fun y e =>
    y.moved vd (if y.maskAt b mc e then va else vb) (y.mode .fmode) e) b) s

/-- MSET (R246). -/
def execMset (md : MReg) (m : MsetMode) (k : MaskOp) (s : State) :=
  runVec (maskwise (.mset md m k) md [] k (fun _ b e =>
    match m with
    | .zero => false
    | .one => true
    | .below sa => decide (e < (b.f sa).toNat))) s

end Sys2Proof.Machine
end

