-- ==== Sys2Proof/Machine/BoltControl.lean ====
section
/-!
DEFINITION. BOLT and control within a bolt (R11-R19, R187, R217-R224), and the draws of the lane generators (R99, R100).
-/
namespace Sys2Proof.Machine

open Sys2Proof

/-! ### Bolt words -/

/-- Why a bolt word cannot be fetched: a memory cause of class 1, a host access that fails, or data that cannot be corrected; the
cause, its address and its DETAIL (R307, R312, R386). -/
def State.wordFault (s : State) (h a : Nat) : Option (Nat × Nat × Nat) :=
  let asid := (s.hart h).asid
  if 2 ^ 64 ≤ a then some (memCause 1 1, a - 64, 0)
  else match s.checkAccess asid a 64 .rd true with
    | some (kind, b) => some (memCause kind 1, b, 0)
    | none => match s.hostFail h asid a 64 1 with
      | some (c, b) => some (c, b, 0)
      | none => match s.memUpset (groveOf h) .grove (s.phys asid a 64) with
        | some u => if u.unc then some (321 + 2 * u.s, u.addr, if u.poisoned then 1 else 0) else none
        | none => none
/-- A bolt word fetched for a hart: one its bolt has fetched ahead, the word in memory, or why it cannot be fetched. -/
def State.boltWord (s : State) (h : Nat) (ahead : Tab (BitVec 64)) (a : Nat) : Except (Nat × Nat × Nat) (BitVec 64) :=
  match ahead.find? (fun p => decide (p.1 = a)) with
  | some p => .ok p.2
  | none => match s.wordFault h a with
    | some q => .error q
    | none => .ok (BitVec.ofNat 64 (s.vread (s.hart h).asid (groveOf h) .grove a 64).1)

/-- A word starts a convoy. -/
def hasCB (w : BitVec 64) : Bool := w.getLsbD 63
/-- A word's major opcode (R157). -/
def majorOf (w : BitVec 64) : Nat := (w.extractLsb' 56 7).toNat

/-- Words up to and including the first STOP, at most 32 (R12); a word whose fetch faults is not STOP. -/
def State.countWords (s : State) (h : Nat) : Nat → Nat → Nat
  | _, 0 => 0
  | a, n + 1 =>
    match s.boltWord h [] a with
    | .ok w => if majorOf w = 0 then 1 else 1 + State.countWords s h (a + 64) n
    | .error _ => 1 + State.countWords s h (a + 64) n

/-- Words the hart's incomplete bolts hold in its queue (R12). -/
def Hart.queued (x : Hart) : Nat := x.bolts.foldl (fun n b => n + b.words) 0

/-- Mirror-issue mode of a hart's context, or the image's for no context (R372). -/
def State.recheckOf (s : State) (x : Hart) : Nat :=
  match s.ctx x.mctx.toNat with
  | some c => c.recheck
  | none => if s.boot.img = 1 then s.boot.slotB.recheck else s.boot.slotA.recheck

/-- A bolt as it is issued (R11, R14, R187). -/
def State.newBolt (s : State) (entry : Word) (words : Nat) : Bolt :=
  let x := s.me
  { seq := x.boltSeq + 1, entry := entry, frame := x.regs, dims := x.dims, vl := x.vl, mvl := x.mvl, lanes := x.lc,
    frags := [⟨entry.toNat, Bits.below x.vl, none⟩], convoy := [], begun := false, words := words, mpos := none,
    vstep := false, recheck := s.recheckOf x, ext := 0, ahead := [], cut := false, rowsTold := [], chain := [] }

/-- An access whose register is yet to be written when a bolt captures it: the bolt's frame gets it too (R11, R142). -/
def Pending.captured (seq : Nat) (p : Pending) : Pending := if p.dests = [] then p else { p with bolts := p.bolts ++ [seq] }
/-- BOLT (R11, R12, R147, R187): a misaligned target is MISALIGNED_PC, code 42; a bolt of VL 0 completes at once. -/
def boltAct (off : BitVec 26) : Act Unit := do
  let x ← me
  let t := x.pc + off.signExtend 64 * 32
  raiseIf (t.toNat % 64 != 0) 42 t.toNat
  if x.vl = 0 then next
  else
    let s ← get
    let n := s.countWords s.cur t.toNat 32
    stallIf (decide (x.bolts ≠ []) && decide (32 < x.queued + n)) .boltRoom
    let b := s.newBolt t n
    modMe (fun x => { x with bolts := x.bolts ++ [b], boltSeq := x.boltSeq + 1, stores := x.stores.map (Pending.captured b.seq) }.advance)

/-- BOLT (R187). -/
def execBolt (off : BitVec 26) (s : State) := runStem (boltAct off) s

/-- BOLT_QUEUE_ROOM (R12): a BOLT that waits executes again when bolts ahead of it have completed. -/
def execBoltQueueRoom (h : Nat) (s : State) : Host.Outcome State Fault Refusal :=
  match s.waitOf h with
  | some ⟨.boltRoom, _, _, _⟩ =>
    let x := s.hart h
    let t := branchRoomTarget x s
    .next (if x.bolts = [] ∨ x.queued + t ≤ 32 then s.endWait h else s)
  | _ => .next s
where
  /-- Words of the bolt that the waiting BOLT names. -/
  branchRoomTarget (x : Hart) (s : State) : Nat :=
    match (s.checkAccess x.asid x.pc.toNat 32 .rd true) with
    | some _ => 0
    | none =>
      let w := BitVec.ofNat 32 (s.vread x.asid (groveOf h) .grove x.pc.toNat 32).1
      s.countWords h (x.pc + (w.extractLsb' 0 26).signExtend 64 * 32).toNat 32

/-- The bolt of number `seq` of hart `h` has its word at `a` fetched ahead (R12, R386), where a fetch would be performed now; else
nothing happens. -/
def State.prefetchBolt (s : State) (h seq a : Nat) : State :=
  let x := s.hart h
  let asid := x.asid
  let up (b : Bolt) (w : BitVec 64) : Bolt :=
    if b.seq = seq ∧ b.entry.toNat ≤ a ∧ a < b.entry.toNat + 64 * b.words ∧ a % 64 = 0 then { b with ahead := Tab.put b.ahead a w }
    else b
  if (s.blocked asid a 64).isSome || (s.memUpset (groveOf h) .grove (s.phys asid a 64)).isSome then s
  else match s.boltWord h [] a with
    | .error _ => s
    | .ok w =>
      let s1 := (s.vread asid (groveOf h) .grove a 64).2
      s1.setHart h { s1.hart h with bolts := x.bolts.map (up · w),
                                    frames := x.frames.map (fun (f : Frame) => { f with bolts := f.bolts.map (up · w) }) }

/-! ### Fragments and branches (R14-R19, R217-R219) -/

/-- The fragment with the lowest counter runs, with every other at that counter merged into it (R14, R17). -/
def Bolt.choose (b : Bolt) : Bolt :=
  match b.frags with
  | [] => b
  | f :: t =>
    let low := t.foldl (fun n g => min n g.pc) f.pc
    let here := (f :: t).filter (fun g => decide (g.pc = low))
    let rest := (f :: t).filter (fun g => !(decide (g.pc = low)))
    { b with frags := ⟨low, here.foldl (fun m g => m ||| g.mask) 0, none⟩ :: rest }
/-- The running fragment ends its convoy as `f`, and the lowest fragment runs. -/
def Hart.moveTo (x : Hart) (f : Frag) : Hart :=
  { x.modBolt (fun b => { b with convoy := [], frags := f :: b.frags.tail }.choose) with vwait := none }

/-- STOP (R19): the running fragment ends; the bolt completes when none is left. -/
def Hart.stopFrag (x : Hart) : Hart :=
  match x.bolts with
  | [] => x
  | b :: t =>
    match b.frags.tail with
    | [] => { x with bolts := t, vwait := none }
    | fs => { x with bolts := { b with frags := fs, convoy := [] }.choose :: t, vwait := none }

/-- STOP (R19). -/
def execStop (s : State) := runVec (fun _ => modMe Hart.stopFrag) s

/-- A branch target (R160). -/
def Bolt.target (b : Bolt) (off : BitVec 20) : Nat := wrap (b.pc + off.toInt * 64) 64
/-- A cause of a word that cannot be fetched. -/
def fetchFail {α : Type} (q : Nat × Nat × Nat) : Act α := fun s =>
  let t := s.vecTrap q.1 q.2.1
  .error (.trap (if q.2.2 = 0 then t else { t with detail := q.2.2 }))
/-- A word fetched by the running bolt `b`: a fetch of a migrating page waits. -/
def fetchWord (b : Bolt) (a : Nat) : Act (BitVec 64) := do
  let s ← get
  match s.boltWord s.cur b.ahead a with
  | .error q => fetchFail q
  | .ok w =>
    match (if b.ahead.any (fun p => decide (p.1 = a)) then none else s.blocked s.me.asid a 64) with
    | some va => stall (.page va 1) (some (2 ^ 24))
    | none => pure w
/-- The target of a taken branch is fetched and must carry CB (R219). -/
def targetCheck (b : Bolt) (t : Nat) : Act Unit := do
  let w ← fetchWord b t
  vraiseIf (!(hasCB w)) 33

/-- A scratchpad quarter (R105). -/
def quarterOf (a : Nat) : Nat := a / 2 ^ 22
/-- The running hart holds every quarter of a scratchpad range. -/
def State.holdsRange (s : State) (a n : Nat) : Bool :=
  (upFrom (quarterOf a) (quarterOf (a + n - 1) + 1 - quarterOf a)).all (fun q => s.holds 2 q)

/-- Bits of a spill slot (R17). -/
def spillSize (mvl : Nat) : Nat := 512 * ((64 + mvl + 511) / 512)
/-- The parked fragments of a hart: those of the bolts set aside share its buffer and its spill area (R17, R387). -/
def Hart.parked (x : Hart) : List Frag := (x.bolts ++ x.frames.flatMap (·.bolts)).flatMap (fun b => b.frags.tail)
/-- The lowest spill slot below the capacity that no parked fragment has. -/
def freeSpill (parked : List Frag) (cap : Nat) : Option Nat :=
  (upTo cap).find? (fun i => !(parked.any (fun f => decide (f.slot = some i))))

/-- A fragment of bolt `b` to park beside those parked, in the buffer or spilled (R17): FRAG_OVERFLOW, SP_RANGE, LOT_NOT_HELD. -/
def park (parked : List Frag) (b : Bolt) (f : Frag) : Act Frag := do
  if (parked.filter (fun g => g.slot.isNone)).length < 8 then pure f
  else
    let x ← me
    match freeSpill parked (x.pfspill.extractLsb' 24 16).toNat with
    | none => vraise 55
    | some i =>
      let z := spillSize b.mvl
      let a := (x.pfspill.extractLsb' 9 15).toNat * 512 + i * z
      vraiseIf (decide (2 ^ 24 < a + z)) 60 (max a (2 ^ 24))
      let s ← get
      vraiseIf (!(s.holdsRange a z)) 199
      modMyCore (fun c => { c with scratch := Memory.write (Memory.write c.scratch a 64 f.pc) (a + 64) b.mvl f.mask })
      pure { f with slot := some i }

/-- The running fragment moves to `t`. Where another is lower, that one returns, and the moved one is parked (R14, R17). -/
def moveFrag (b : Bolt) (t : Nat) : Act Unit := do
  let f : Frag := ⟨t, b.run, none⟩
  let low := b.frags.tail.foldl (fun n g => min n g.pc) t
  if low < t then
    let x ← me
    let kept := x.modBolt (fun b => { b with frags := f :: b.frags.tail.filter (fun g => !(decide (g.pc = low))) })
    let f' ← park kept.parked b f
    modMe (fun x => x.moveTo f')
  else modMe (fun x => x.moveTo f)
/-- A branch that moves the whole fragment where its condition holds. -/
def uniform (i : Instr) (taken : Bolt → Hart → Bool) (off : BitVec 20) (b : Bolt) : Act Unit := do
  predCheck i b
  let x ← me
  if taken b x then
    targetCheck b (b.target off)
    moveFrag b (b.target off)
  else moveFrag b (b.pc + 64)

/-- VBANY (R217). -/
def execVbany (off : BitVec 20) (k : MaskOp) (s : State) :=
  runVec (uniform (.vbany off k) (fun b x => b.members.any (b.active x k)) off) s
/-- VBALL (R217). -/
def execVball (off : BitVec 20) (k : MaskOp) (s : State) :=
  runVec (uniform (.vball off k) (fun b x => b.members.all (b.active x k)) off) s
/-- VBNONE (R217). -/
def execVbnone (off : BitVec 20) (k : MaskOp) (s : State) :=
  runVec (uniform (.vbnone off k) (fun b x => !(b.members.any (b.active x k))) off) s
/-- VJMP (R218). -/
def execVjmp (off : BitVec 20) (s : State) := runVec (uniform (.vjmp off) (fun _ _ => true) off) s

/-- VBDIV (R16-R18, R218). Where the target is the next word both parts have one counter: the part that is not taken runs, and the
other is parked, which can spill, before they merge (log 93). -/
def vbdivAct (off : BitVec 20) (k : MaskOp) (b : Bolt) : Act Unit := do
  predCheck (.vbdiv off k) b
  let x ← me
  let yes := Bits.ofList (b.members.filter (b.active x k))
  let no := Bits.ofList (b.members.filter (fun e => !(b.active x k e)))
  let t := b.target off
  if yes = 0 then moveFrag b (b.pc + 64)
  else
    targetCheck b t
    if no = 0 then moveFrag b t
    else
      let lo : Frag := if t < b.pc + 64 then ⟨t, yes, none⟩ else ⟨b.pc + 64, no, none⟩
      let hi : Frag := if t < b.pc + 64 then ⟨b.pc + 64, no, none⟩ else ⟨t, yes, none⟩
      let hi' ← park x.parked b hi
      modMe (fun x => { x.modBolt (fun b => { b with convoy := [], frags := lo :: hi' :: b.frags.tail }.choose) with vwait := none })

/-- VBDIV (R218). -/
def execVbdiv (off : BitVec 20) (k : MaskOp) (s : State) := runVec (vbdivAct off k) s

/-- VFENCE (R220): the vector accesses before it are performed, and at sys scope what the hart has written through port 1 (R338);
engine transfers issued before the bolt are waited for. -/
def execVfence (sc : Scope) (s : State) :=
  runVec (fun b => do
    let s ← get
    stallIf ((s.xfersOf s.cur).any (fun t => !(t.behind.contains b.seq))) .interlock
    drainedBy (fenceBehind .vv sc)
    modify (fun s => s.fence sc)
    modMe Hart.vnext) s

/-! ### Elements and scalars (R221-R224) -/

/-- VIDX (R221). -/
def execVidx (vd : VReg) (k : MaskOp) (s : State) :=
  runVec (elementwise (.vidx vd k) vd [] k (fun y e => y.narrowTo vd (y.mode .fmode) false false (Res.ofInt (e : Nat), 0))) s

/-- VMVS (R221). -/
def execVmvs (vd : VReg) (sa sb : Reg) (k : MaskOp) (s : State) :=
  runVec (fun b => do
    operands (.vmvs vd sa sb k)
    let x ← me
    let e := (b.f sb).toNat
    if b.active x k e then slotsWritten vd [e]
    modMe (fun y => (if b.active x k e then y.putCode vd e (b.f sa).toNat else y).vnext)) s

/-- An entry of the scalar return queue (R222): sign-extended for an i tag. -/
def Hart.entry (y : Hart) (v : VReg) (e : Nat) : Word :=
  match y.tag v with
  | .int w => sext64 (y.code v e) w
  | _ => nword (y.code v e)
/-- The entries a VEXT appends (R222). -/
def vextEntries (va : VReg) (sel : ExtSel) (k : MaskOp) (b : Bolt) (y : Hart) : List Word :=
  match sel with
  | .elem sb => let e := (b.f sb).toNat; [if b.active y k e then y.entry va e else 0]
  | .all => (b.actives y k).map (y.entry va)
/-- VEXT with room in the queue for its remaining entries, or for some of them (R13, R222). -/
def vextAct (va : VReg) (sel : ExtSel) (k : MaskOp) (b : Bolt) : Act Bool := do
  operands (.vext va sel k)
  let s0 ← get
  let y ← sources b k [va]
  let left := (vextEntries va sel k b y).drop b.ext
  let room := 64 - s0.me.vretq.length
  if left.length ≤ room then
    modMe (fun x => ({ x with vretq := x.vretq ++ left }.modBolt (fun b => { b with ext := 0 })).vnext)
    pure true
  else
    set (s0.modMe (fun x =>
      ({ x with vretq := x.vretq ++ left.take room }.modBolt (fun b => { b with ext := b.ext + room }))))
    pure false

/-- VEXT (R222): entries go to the queue as it has room. -/
def execVext (va : VReg) (sel : ExtSel) (k : MaskOp) (s : State) : Host.Outcome State Fault Refusal :=
  match s.me.bolts with
  | [] => .next s
  | b :: _ =>
    match vextAct va sel k b s with
    | .ok (true, s') => .next s'
    | .ok (false, s') => .next (s'.vwaitFor (.vretq 0) none)
    | .error (.trap t) => .next (s.takeTrap t)
    | .error (.stall w l) => .next (s.vwaitFor w l)

/-- VTRAP (R223, R304): taken after the VTRAP, with the lowest active element in TIDX. -/
def execVtrap (n : BitVec 6) (k : MaskOp) (s : State) :=
  runVecThen (fun b => do
    predCheck (.vtrap n k) b
    let s ← get
    modMe Hart.vnext
    pure (match b.actives s.me k with
      | [] => none
      | e :: _ => some (s.vecTrap (448 + n.toNat) 0 e))) s

/-! ### Draws (R99, R100) -/

/-- One draw: the new state and the output (R99). -/
def splitmix (g : Word) : Word × Word :=
  let st := g + 0x9E3779B97F4A7C15
  let z1 := (st ^^^ (st >>> 30)) * 0xBF58476D1CE4E5B9
  let z2 := (z1 ^^^ (z1 >>> 27)) * 0x94D049BB133111EB
  (st, z2 ^^^ (z2 >>> 31))

/-- The lane of the core that holds an element of a bolt (R23). -/
def Bolt.laneOf (b : Bolt) (e : Nat) : Nat :=
  let cl := Bits.members b.lanes 8
  let i := e % (8 * cl.length)
  8 * cl.getD (i / 8) 0 + i % 8

/-- Draws for elements in ascending order, each from its lane, keyed where `key` answers (R100, R289): the generators
after, and the outputs by element. -/
def drawAll (b : Bolt) (key : Nat → Option Word) : Tab Word → List Nat → Tab Word × List (Nat × Word)
  | g, [] => (g, [])
  | g, e :: t =>
    let l := b.laneOf e
    let (st, z) := splitmix ((key e).getD (Tab.get 0 g l))
    let (g', r) := drawAll b key (Tab.set 0 g l st) t
    (g', (e, z) :: r)

/-- VRNG's code from an output (R224). -/
def drawCode (t : Tag) (z : Word) : Nat × Fl :=
  match t with
  | .p16 => ((z >>> 49).toNat, 0)
  | .flt f => f.round .rtz false (.fin false (z >>> 40).toNat 1 (-24))
  | t => (z.toNat % 2 ^ t.width, 0)

/-- Errors in the generators that elements draw from (R374). -/
def drawCheck (b : Bolt) (es : List Nat) : Act Unit := do
  let s ← get
  meetUpset 21 (coreOf s.cur) (fun w => es.any (fun e => decide (b.laneOf e = w))) 0

/-- VRNG (R224). -/
def execVrng (vd : VReg) (k : MaskOp) (s : State) :=
  runVec (fun b => do
    operands (.vrng vd k)
    let x ← me
    drawCheck b (b.actives x k)
    let c ← myCore
    let (g, zs) := drawAll b (fun _ => none) c.gens (b.actives x k)
    modMyCore (fun c => { c with gens := g })
    putResult vd (zs.map (fun p => (p.1, drawCode (x.tag vd) p.2)))) s

end Sys2Proof.Machine
end

