-- ==== Sys2Proof/Machine/BoltReduce.lean ====
section
/-!
DEFINITION. Reductions and scans (R93, R94, R247-R249).
-/
namespace Sys2Proof.Machine

open Sys2Proof

/-- The least or greatest value of an integer tag, or the infinity that VRMAX or VRMIN starts from (R247). -/
def Tag.extreme (t : Tag) (wantMax : Bool) : Val :=
  match t with
  | .int w => Val.ofInt (if wantMax then intMin true w else intMax true w)
  | .nat w => Val.ofInt (if wantMax then 0 else intMax false w)
  | _ => .inf wantMax

/-- The smallest power of two at least `n`, and at least 1. -/
def pow2Above : Nat → Nat → Nat → Nat
  | 0, p, _ => p
  | f + 1, p, n => if n ≤ p then p else pow2Above f (2 * p) n

/-- One level of the tree (R93). -/
def treeLevel {α : Type} (op : α → α → α × Fl) : List α → List α × Fl
  | x :: y :: t =>
    let (z, f) := op x y
    let (r, g) := treeLevel op t
    (z :: r, f ||| g)
  | l => (l, 0)
/-- The tree over a power of two of entries, level by level. -/
def treeFold {α : Type} (op : α → α → α × Fl) : Nat → List α → List α × Fl
  | 0, l => (l, 0)
  | n + 1, l =>
    match l with
    | [] => ([], 0)
    | [x] => ([x], 0)
    | l =>
      let (l', f) := treeLevel op l
      let (r, g) := treeFold op n l'
      (r, f ||| g)

/-- An entry of the tree: its value, and the code of vd's tag that a node has given it. -/
abbrev Entry := Val × Option Nat
/-- A node's exact result narrowed to vd's tag, and read back (R93, R247). -/
def Hart.node (y : Hart) (vd : VReg) (md : Mode) (real : Bool) (v : Val) : Entry × Fl :=
  let (c, fl) := y.narrowTo vd md false real (v.res, 0)
  (((y.tag vd).value c, some c), fl)
/-- The code of the root: as its node wrote it, or its only entry narrowed. -/
def Hart.root (y : Hart) (vd : VReg) (md : Mode) (real : Bool) (e : Entry) : Nat × Fl :=
  match e.2 with
  | some c => (c, 0)
  | none => y.narrowTo vd md false real (e.1.res, 0)

/-- VRSUM's node. -/
def sumNode (vd : VReg) (md : Mode) (real : Bool) (y : Hart) (a b : Entry) : Entry × Fl :=
  let (s, f) := Val.add md a.1 b.1
  let (v, g) := y.node vd md real s
  (v, f ||| g)
/-- VRMAX's and VRMIN's node on entries that may be padding (R228, R247): padding and NaNs are missing. Each node rounds, and a
node that comes out as a NaN, by an overflow into e4m3 or a value of no more than zero into e8m0, is missing to the nodes above it
(log 96). -/
def pickNode (wantMax : Bool) (vd : VReg) (md : Mode) (real : Bool) (y : Hart) (a b : Option Entry) : Option Entry × Fl :=
  let one (e : Entry) : Option Entry × Fl :=
    if e.1.isNan then (some e, 0) else let (w, f) := y.node vd md real e.1; (some w, f)
  match a, b with
  | none, none => (none, 0)
  | none, some e => one e
  | some e, none => one e
  | some e, some e' => one (Val.pick wantMax e.1 e'.1, none)

/-- The entries of the tree: the active elements, and padding elsewhere (R93). -/
def treeLeaves {α : Type} (b : Bolt) (y : Hart) (k : MaskOp) (pad : α) (f : Nat → α) : List α :=
  (upTo (pow2Above 32 1 b.vl)).map (fun e => if b.active y k e then f e else pad)

/-- A reduction that ends with a value and flags goes to element 0 of vd. -/
def reduce (i : Instr) (vd : VReg) (srcs : List VReg) (k : MaskOp) (f : Hart → Bolt → Nat × Fl) (b : Bolt) : Act Unit := do
  operands i
  let y ← sources b k srcs
  putResult vd [(0, f y b)]

/-- VRSUM's result (R93, R247). -/
def sumOf (vd va : VReg) (r : Rnd) (k : MaskOp) (y : Hart) (b : Bolt) : Nat × Fl :=
  let md := y.mode r
  let real := y.isReal [va]
  let pad : Entry := (Val.zero true, none)
  let (l, f) := treeFold (sumNode vd md real y) 32 (treeLeaves b y k pad (fun e => (y.val va e, none)))
  let (c, g) := y.root vd md real (l.headD pad)
  (c, f ||| g)
/-- VRMAX's or VRMIN's result (R93, R228, R247); neither sets NV. -/
def extremeOf (wantMax : Bool) (vd va : VReg) (r : Rnd) (k : MaskOp) (y : Hart) (b : Bolt) : Nat × Fl :=
  let md := y.mode r
  let real := y.isReal [va]
  let (l, f) := treeFold (pickNode wantMax vd md real y) 32 (treeLeaves b y k none (fun e => some (y.val va e, none)))
  let (c, g) := y.root vd md real ((l.headD none).getD ((y.tag vd).extreme wantMax, none))
  (c, (f ||| g) &&& ~~~flNV)

/-- VRSUM (R247). -/
def execVrsum (vd va : VReg) (r : Rnd) (k : MaskOp) (s : State) :=
  runVec (reduce (.vrsum vd va r k) vd [va] k (sumOf vd va r k)) s
/-- VRMAX (R247). -/
def execVrmax (vd va : VReg) (r : Rnd) (k : MaskOp) (s : State) :=
  runVec (reduce (.vrmax vd va r k) vd [va] k (extremeOf true vd va r k)) s
/-- VRMIN (R247). -/
def execVrmin (vd va : VReg) (r : Rnd) (k : MaskOp) (s : State) :=
  runVec (reduce (.vrmin vd va r k) vd [va] k (extremeOf false vd va r k)) s
/-- VRAND (R247): on codes of one width. -/
def execVrand (vd va : VReg) (r : Rnd) (k : MaskOp) (s : State) :=
  runVec (reduce (.vrand vd va r k) vd [va] k (fun y b =>
    ((b.actives y k).foldl (fun c e => c &&& y.code va e) (2 ^ (y.tag va).width - 1), 0))) s
/-- VROR (R247). -/
def execVror (vd va : VReg) (r : Rnd) (k : MaskOp) (s : State) :=
  runVec (reduce (.vror vd va r k) vd [va] k (fun y b =>
    ((b.actives y k).foldl (fun c e => c ||| y.code va e) 0, 0))) s

/-- A scan over the active elements from a running value (R94, R248): codes by element and flags. -/
def scanFrom (op : Val → Val → Val × Fl) (y : Hart) (vd va : VReg) (md : Mode) (real : Bool) :
    Val → List Nat → List (Nat × Nat) × Fl
  | _, [] => ([], 0)
  | run, e :: t =>
    let (v, f) := op run (y.val va e)
    let (c, g) := y.narrowTo vd md false real (v.res, 0)
    let (r, h) := scanFrom op y vd va md real ((y.tag vd).value c) t
    ((e, c) :: r, f ||| g ||| h)

/-- A scan instruction, with the flags it may set. -/
def scan (i : Instr) (vd va : VReg) (r : Rnd) (k : MaskOp) (start : Hart → Val) (op : Mode → Val → Val → Val × Fl)
    (keep : Fl) (b : Bolt) : Act Unit := do
  operands i
  let y ← sources b k [va]
  let (l, fl) := scanFrom (op (y.mode r)) y vd va (y.mode r) (y.isReal [va]) (start y) (b.actives y k)
  slotsWritten vd (l.map (·.1))
  modMe (fun x => ((x.putCodes vd l).addFlags (fl &&& keep)).vnext)

/-- VSCAN (R248). -/
def execVscan (vd va : VReg) (r : Rnd) (k : MaskOp) (s : State) :=
  runVec (scan (.vscan vd va r k) vd va r k (fun _ => Val.zero true) Val.add 0xFF) s
/-- VSCANMX (R248). -/
def execVscanmx (vd va : VReg) (r : Rnd) (k : MaskOp) (s : State) :=
  runVec (scan (.vscanmx vd va r k) vd va r k (fun y => (y.tag vd).extreme true) (fun _ x z => (Val.pick true x z, 0)) (~~~flNV)) s

/-- The exact sum of some terms (R77): of none, a zero as of terms of both signs (log 26). The terms are taken in ascending order, so
infinities of opposite sign set NV where they meet before a NaN (log 122). -/
def sumTerms (md : Mode) : List (Val × Fl) → Val × Fl
  | [] => (Val.zero (decide (md = .rdn)), 0)
  | (v, f) :: t => t.foldl (fun a x => let (s, g) := Val.add md a.1 x.1; (s, a.2 ||| g ||| x.2)) (v, f)

/-- VRDOT (R94, R249): the zero point of R89 leaves an integer va of at most 8 bits. -/
def dotOf (vd va vb : VReg) (r : Rnd) (k : MaskOp) (y : Hart) (b : Bolt) : Nat × Fl :=
  let md := y.mode r
  let t := y.tag va
  let term (e : Nat) : Val × Fl :=
    let x := y.val va e
    let x' := if t.isInt && decide (t.width ≤ 8) then Val.ofInt (x.toInt - zeroPoint y.zpa t) else x
    x'.mul (y.val vb e)
  let (v, f) := sumTerms md ((b.actives y k).map term)
  let (c, g) := y.narrowTo vd md false (y.isReal [va, vb]) (v.res, 0)
  (c, f ||| g)
/-- VRDOT (R249). -/
def execVrdot (vd va vb : VReg) (r : Rnd) (k : MaskOp) (s : State) :=
  runVec (reduce (.vrdot vd va vb r k) vd [va, vb] k (dotOf vd va vb r k)) s

end Sys2Proof.Machine
end

