-- ==== Sys2Proof/Machine/BoltPerm.lean ====
section
/-!
DEFINITION. Permutations (R250-R255).
-/
namespace Sys2Proof.Machine

open Sys2Proof

/-- The elements a permutation writes: each takes an element of a register, or zero. -/
abbrev Moves := List (Nat × Option (VReg × Nat))

/-- A permutation: every source is read before an element is written (R209), and moves under R255. -/
def permute (i : Instr) (vd : VReg) (srcs : List VReg) (k : MaskOp) (f : Hart → Bolt → Moves) (b : Bolt) : Act Unit := do
  operands i
  let y ← sources b k srcs
  let one (p : Nat × Option (VReg × Nat)) : Nat × Nat × Fl :=
    match p.2 with
    | none => (p.1, (y.tag vd).zeroCode, 0)
    | some (v, j) => let (c, fl) := y.moved vd v (y.mode .fmode) j; (p.1, c, fl)
  putResult vd ((f y b).map one)

/-- The distance of a slide (R250). -/
def SlideAmt.dist (b : Bolt) (a : SlideAmt) : Nat :=
  match a with
  | .imm n => n.toNat
  | .frame sb => (b.f sb).toNat

/-- VSLUP (R250): elements below the distance keep their values. -/
def execVslup (vd va : VReg) (amt : SlideAmt) (k : MaskOp) (s : State) :=
  runVec (permute (.vslup vd va amt k) vd [va] k (fun y b =>
    ((b.actives y k).filter (fun e => decide (SlideAmt.dist b amt ≤ e))).map (fun e => (e, some (va, e - SlideAmt.dist b amt))))) s
/-- VSLDN (R250). -/
def execVsldn (vd va : VReg) (amt : SlideAmt) (k : MaskOp) (s : State) :=
  runVec (permute (.vsldn vd va amt k) vd [va] k (fun y b =>
    (b.actives y k).map (fun e =>
      (e, if e + SlideAmt.dist b amt < b.vl then some (va, e + SlideAmt.dist b amt) else none)))) s
/-- VGTHR (R251). -/
def execVgthr (vd va vb : VReg) (k : MaskOp) (s : State) :=
  runVec (permute (.vgthr vd va vb k) vd [va, vb] k (fun y b =>
    (b.actives y k).map (fun e =>
      let i := (y.val vb e).toInt
      (e, if 0 ≤ i ∧ i < b.vl then some (va, i.toNat) else none)))) s
/-- VCOMP (R252): the elements from the count of active ones up to VL are zero. -/
def execVcomp (vd va : VReg) (k : MaskOp) (s : State) :=
  runVec (permute (.vcomp vd va k) vd [va] k (fun y b =>
    let es := b.actives y k
    (upTo b.vl).map (fun j => (j, match es[j]? with
      | some e => some (va, e)
      | none => none)))) s
/-- VEXPD (R252). -/
def execVexpd (vd va : VReg) (k : MaskOp) (s : State) :=
  runVec (permute (.vexpd vd va k) vd [va] k (fun y b =>
    let es := b.actives y k
    (es.zip (upTo es.length)).map (fun p => (p.1, some (va, p.2))))) s
/-- VBCAST (R253). -/
def execVbcast (vd : VReg) (sa : Reg) (k : MaskOp) (s : State) :=
  runVec (fun b => elementwise (.vbcast vd sa k) vd [] k (fun _ _ => ((b.f sa).toNat, 0)) b) s
/-- VREV (R253). -/
def execVrev (vd va : VReg) (k : MaskOp) (s : State) :=
  runVec (permute (.vrev vd va k) vd [va] k (fun y b => (b.actives y k).map (fun e => (e, some (va, b.vl - 1 - e))))) s
/-- VZIP (R254). -/
def execVzip (vd va vb : VReg) (n : Bool) (k : MaskOp) (s : State) :=
  runVec (permute (.vzip vd va vb n k) vd [va, vb] k (fun y b =>
    (b.actives y k).map (fun e =>
      let i := e / 2 + if n then b.vl / 2 else 0
      (e, if i < b.vl then some (if e % 2 = 0 then va else vb, i) else none)))) s
/-- VUNZIP (R254). -/
def execVunzip (vd va vb : VReg) (n : Bool) (k : MaskOp) (s : State) :=
  runVec (permute (.vunzip vd va vb n k) vd [va, vb] k (fun y b =>
    (b.actives y k).map (fun e =>
      let j := 2 * e + if n then 1 else 0
      (e, if j < b.vl then some (va, j) else some (vb, j - b.vl))))) s

end Sys2Proof.Machine
end

