-- ==== Sys2Proof/Machine/BoltMem.lean ====
section
/-!
DEFINITION. Vector loads and stores on memory and scratchpad (R256-R262), and vector atomics (R263, R264).
-/
namespace Sys2Proof.Machine

open Sys2Proof

/-! ### Addresses (R258) -/

/-- F[sa] + sext(DISP), modulo 2^64. -/
def Bolt.base {n : Nat} (b : Bolt) (sa : Reg) (disp : BitVec n) : Nat := (b.f sa + disp.signExtend 64).toNat
/-- An address plus a signed offset, modulo 2^64. -/
def addrPlus (a : Nat) (d : Int) : Nat := wrap ((a : Int) + d) 64
/-- An index read under its own tag. -/
def Hart.index (y : Hart) (vb : VReg) (e : Nat) : Int := (y.val vb e).toInt
/-- LEN of a dimension of the frame (R187, R196). -/
def Bolt.len (b : Bolt) (i : Nat) : Nat := (Tab.get Dim.initial b.dims i).len
/-- STRIDE of a dimension of the frame. -/
def Bolt.stride (b : Bolt) (i : Nat) : Int := (Tab.get Dim.initial b.dims i).stride.toInt
/-- Elements of the box of the frame's dimensions. -/
def Bolt.box (b : Bolt) : Nat := b.len 0 * b.len 1 * b.len 2
/-- Offset of an element of the box. -/
def Bolt.boxAt (b : Bolt) (e : Nat) : Int :=
  (e % b.len 0 : Nat) * b.stride 0 + (e / b.len 0 % b.len 1 : Nat) * b.stride 1 + (e / (b.len 0 * b.len 1) : Nat) * b.stride 2

/-- Whether an access goes to memory through a token or to scratchpad; `chain` where it goes on behind the arrival pointers of a
copy, element group by element group (R136, R262). -/
inductive Where where
  | mem (tok : Tok)
  | scratch (chain : Bool)
  deriving DecidableEq, Repr

/-- Bits below this are scratchpad bits (R105). -/
def scratchBits : Nat := 2 ^ 24

/-- check_footprint of a scratchpad instruction (R259): SP_RANGE, then LOT_NOT_HELD. -/
def scratchCheck (fp : List Foot) : Act Unit := do
  let s ← get
  match failing fp (fun p => p.outside 0 scratchBits) with
  | some (a, e) => vraise 60 a e
  | none =>
    match failing fp (fun p => (firstSome (fun q => if s.holds 2 q then none else some (max p.a (q * 2 ^ 22)))
        (upFrom (quarterOf p.a) (quarterOf (p.a + p.w - 1) + 1 - quarterOf p.a)))) with
    | some (a, e) => vraise 198 a e
    | none => pure ()

/-- The bank of a scratchpad bit (R105); the aperture is aligned to the banks. -/
def bankOf (a : Nat) : Nat := a / 512 % 64
/-- The arrival pointer of the bank of a bit has passed bits that end at `hi` in that bit's row, or all bits to there have been moved
(R136). -/
def Xfer.passed (t : Xfer) (a hi : Nat) : Bool :=
  decide (hi ≤ t.dstLo + t.done) || decide (hi ≤ Tab.get 0 t.banks (bankOf a))
/-- The bits of a part that a copy fills have arrived (R136), row by row. -/
def Xfer.arrived (t : Xfer) (a n : Nat) : Bool :=
  (decide (t.kind = .copy) || decide (t.kind = .copym)) &&
    (linesOf a n).all (fun r => t.passed (512 * r) (min (512 * r + 512) (min (a + n) t.dstHi)))
/-- A part waits for a transfer: interlock ranges of scratchpad bits are those of the aperture (R135, R197, R262). A read that chains
waits for a copy until the bits it reads have arrived (R136). -/
def State.scratchHeld (s : State) (b : Bolt) (chain write : Bool) (p : Foot) : Bool :=
  s.xfers.any (fun t => decide (t.hart = s.cur) && decide (t.uid = s.me.uid) && !(t.behind.contains b.seq) &&
    t.meets (aperture + p.a) p.w write && !(chain && t.arrived (aperture + p.a) p.w))
/-- A footprint that does not chain waits for every transfer it meets (R262). -/
def scratchWait (b : Bolt) (write : Bool) (fp : List Foot) : Act Unit := do
  let s ← get
  if fp.any (s.scratchHeld b false write) then stall .interlock else pure ()

/-- A footprint checked and reached. -/
def footprint (b : Bolt) (w : Where) (kind : AccKind) (consumer : Nat) (fp : List Foot) : Act Unit := do
  let cls := match kind with
    | .rd => 5
    | .wr => 6
    | .rmw => 7
  match w with
  | .mem k =>
    tokenCheck k.toNat kind cls consumer fp
    let sp ← tokSpace k.toNat
    vreach sp b.seq kind cls fp
  | .scratch chain =>
    scratchCheck fp
    if !chain then scratchWait b kind.writes fp

/-- Bits of an element read at its place. -/
def readFoot (w : Where) (p : Foot) (sc : Scope := .grove) : Act Nat := do
  match w with
  | .mem k => do
    let sp ← tokSpace k.toNat
    vecRead sp p sc
  | .scratch _ => do
    let s ← get
    meetUpset 5 (coreOf s.cur) (fun u => decide (p.a < 64 * u + 64) && decide (64 * u < p.a + p.w)) p.e
    let c ← myCore
    pure (Memory.read c.scratch p.a p.w)

/-- Bits of an element written at its place. -/
def writeFoot (w : Where) (p : Foot) (v : Nat) (sc : Scope := .grove) : Act Unit := do
  match w with
  | .mem k => do
    let sp ← tokSpace k.toNat
    vecWrite sp p v sc
  | .scratch _ => do
    let s ← get
    set (s.clearUpsets 5 (coreOf s.cur) (fun u => decide (p.a ≤ 64 * u) && decide (64 * u + 64 ≤ p.a + p.w)))
    modMyCore (fun c => { c with scratch := Memory.write c.scratch p.a p.w v })

/-- An element stored at its place: performed, or left to be performed where the step says so (R142). -/
def storeFoot (w : Where) (ordered : Bool) (p : Foot) (v : Nat) : Act Unit := do
  let s ← get
  match w with
  | .mem k =>
    if s.leaves then
      let ps := s.phys (s.spaceOf s.cur k.toNat) p.a p.w
      modMe (fun x => { x with stores := x.stores ++ [⟨ps, if ordered then .ordered v s.cycle else .store v, .grove, true, []⟩] })
    else writeFoot w p v
  | .scratch _ => writeFoot w p v

/-- conv of R257: the code unchanged between equal tags, else narrowed modular. -/
def conv (src dst : Tag) (md : Mode) (satfin : Bool) (c : Nat) : Nat × Fl :=
  if src = dst then (c % 2 ^ dst.width, 0) else dst.narrow md false satfin (!src.isInt) (src.value c).res

/-! ### Loads -/

/-- One element loaded: its code and flags. -/
def loadOne (w : Where) (mt vt : Tag) (md : Mode) (satfin : Bool) (p : Foot) : Act (Nat × Nat × Fl) := do
  let c ← readFoot w p
  pure (p.e, conv mt vt md satfin c)

/-- The parts of a footprint by element group, as many elements to a group as lanes are granted. -/
def groupsOf (b : Bolt) (fp : List Foot) : List (List Foot) :=
  let g := max 1 (8 * Bits.count b.lanes 8)
  (upTo (b.vl / g + 1)).map (fun i => fp.filter (fun p => decide (p.e / g = i)))
/-- The element groups of a load that chains whose bits have arrived are read, each once (R136). -/
def chainRead (b : Bolt) (ps : List Foot) : Act Unit := do
  let s ← get
  let read (p : Foot) : Bool := (s.me.bolts.head?.map (·.chain)).any (fun l => l.any (fun q => decide (q.1 = p.e)))
  if ps.all read || ps.any (s.scratchHeld b true false) then pure ()
  else
    let cs ← ps.mapM (fun p => do
      let c ← readFoot (.scratch true) p
      pure (p.e, c))
    modMe (fun x => x.modBolt (fun b => { b with chain := b.chain ++ cs }))
/-- The codes of a footprint: read now, or by a load that chains as its groups arrive, and none while one of them has not. -/
def loadCodes (b : Bolt) (w : Where) (fp : List Foot) : Act (Option (List Nat)) := do
  match w with
  | .scratch true => do
    (groupsOf b fp).forM (chainRead b)
    let x ← me
    pure (fp.mapM (fun p => ((x.bolts.head?.map (·.chain)).getD []).lookup p.e))
  | _ => do
    let cs ← fp.mapM (readFoot w)
    pure (some cs)

/-- A load (R259): `addr` gives each element's address; active elements outside `inside` read zero (R258). -/
def vload (i : Instr) (vd : VReg) (srcs : List VReg) (r : Rnd) (fx : BitVec 4) (w : Where) (k : MaskOp)
    (addr : Hart → Nat → Nat) (inside : Nat → Bool) (b : Bolt) : Act Unit := do
  operands i
  let y ← sources b k srcs
  let mt := memTag (y.tag vd) fx
  let fp := ((b.actives y k).filter inside).map (fun e => (⟨e, addr y e, mt.width⟩ : Foot))
  footprint b w .rd 0 fp
  match ← loadCodes b w fp with
  | none => modify (fun s => s.vwaitFor .interlock none)
  | some cs =>
    putResult vd (((b.actives y k).filter (fun e => !(inside e))).map (fun e => (e, (y.tag vd).zeroCode, 0)) ++
      (fp.zip cs).map (fun p => (p.1.e, conv mt (y.tag vd) (y.mode r) y.satfin p.2)))

/-- VLD (R258, R259). -/
def execVld (vd : VReg) (sa : Reg) (r : Rnd) (disp : BitVec 17) (fx : BitVec 4) (tok : Tok) (k : MaskOp) (s : State) :=
  runVec (fun b => vload (.vld vd sa r disp fx tok k) vd [] r fx (.mem tok) k
    (fun y e => addrPlus (b.base sa disp) (e * (memTag (y.tag vd) fx).width : Nat)) (fun _ => true) b) s
/-- VLDS (R258). -/
def execVlds (vd : VReg) (sa sb : Reg) (r : Rnd) (disp : BitVec 17) (fx : BitVec 4) (tok : Tok) (k : MaskOp) (s : State) :=
  runVec (fun b => vload (.vlds vd sa sb r disp fx tok k) vd [] r fx (.mem tok) k
    (fun _ e => addrPlus (b.base sa disp) (e * (b.f sb).toInt)) (fun _ => true) b) s
/-- VLDX (R258). -/
def execVldx (vd : VReg) (sa : Reg) (vb : VReg) (r : Rnd) (disp : BitVec 17) (fx : BitVec 4) (tok : Tok) (k : MaskOp)
    (s : State) :=
  runVec (fun b => vload (.vldx vd sa vb r disp fx tok k) vd [vb] r fx (.mem tok) k
    (fun y e => addrPlus (b.base sa disp) (y.index vb e)) (fun _ => true) b) s
/-- VLDXO (R258, R260): by ascending element. -/
def execVldxo (vd : VReg) (sa : Reg) (vb : VReg) (r : Rnd) (disp : BitVec 17) (fx : BitVec 4) (tok : Tok) (k : MaskOp)
    (s : State) :=
  runVec (fun b => vload (.vldxo vd sa vb r disp fx tok k) vd [vb] r fx (.mem tok) k
    (fun y e => addrPlus (b.base sa disp) (y.index vb e)) (fun _ => true) b) s
/-- VLDM (R258): elements outside the box read zero. -/
def execVldm (vd : VReg) (sa : Reg) (r : Rnd) (disp : BitVec 17) (fx : BitVec 4) (tok : Tok) (k : MaskOp) (s : State) :=
  runVec (fun b => vload (.vldm vd sa r disp fx tok k) vd [] r fx (.mem tok) k
    (fun _ e => addrPlus (b.base sa disp) (b.boxAt e)) (fun e => decide (e < b.box)) b) s
/-- VLDSP (R258, R262): it chains behind copies. -/
def execVldsp (vd : VReg) (sa sb : Reg) (r : Rnd) (disp : BitVec 17) (fx : BitVec 4) (k : MaskOp) (s : State) :=
  runVec (fun b => vload (.vldsp vd sa sb r disp fx k) vd [] r fx (.scratch true) k
    (fun y e => addrPlus (b.base sa disp)
      (if sb = 0 then (e * (memTag (y.tag vd) fx).width : Nat) else e * (b.f sb).toInt)) (fun _ => true) b) s
/-- VLDSPX (R258). -/
def execVldspx (vd : VReg) (sa : Reg) (vb : VReg) (r : Rnd) (disp : BitVec 17) (fx : BitVec 4) (k : MaskOp) (s : State) :=
  runVec (fun b => vload (.vldspx vd sa vb r disp fx k) vd [vb] r fx (.scratch false) k
    (fun y e => addrPlus (b.base sa disp) (y.index vb e)) (fun _ => true) b) s

/-! ### Stores -/

/-- A write of bits: where, and the value. -/
structure Put where
  foot : Foot
  v : Nat

/-- Two writes overlap. -/
def Put.meets (a b : Put) : Bool := decide (a.foot.a < b.foot.a + b.foot.w) && decide (b.foot.a < a.foot.a + a.foot.w)
/-- Some two writes of a list overlap. -/
def anyMeet : List Put → Bool
  | [] => false
  | p :: t => t.any p.meets || anyMeet t
/-- The parts of a write within one 64-bit word each (R121, R260). -/
def Put.words : Nat → Put → List Put
  | 0, _ => []
  | f + 1, p =>
    let n := min p.foot.w (64 - p.foot.a % 64)
    if p.foot.w ≤ n then [p]
    else ⟨{ p.foot with w := n }, p.v % 2 ^ n⟩ :: Put.words f ⟨{ p.foot with a := p.foot.a + n, w := p.foot.w - n }, p.v / 2 ^ n⟩
/-- Insertion by a key. -/
def insertBy {α : Type} (x : Nat × α) : List (Nat × α) → List (Nat × α)
  | [] => [x]
  | y :: t => if x.1 ≤ y.1 then x :: y :: t else y :: insertBy x t
/-- A list in the order of free keys drawn at a counter (R260, R264; log 16). -/
def freeOrder {α : Type} (n : Nat) (l : List α) : List α :=
  (((upTo l.length).zip l).foldl (fun t p => insertBy (Config.freeKey n p.1, p.2) t) []).map (·.2)

/-- Unordered writes (R260): where two overlap, the order of their word parts is free. -/
def writeAll (w : Where) (ordered : Bool) (ps : List Put) : Act Unit := do
  let s ← get
  if ordered || !(anyMeet ps) then ps.forM (fun p => storeFoot w ordered p.foot p.v)
  else
    set { s with free := s.free + 1 }
    (freeOrder s.free (ps.flatMap (Put.words 3))).forM (fun p => storeFoot w ordered p.foot p.v)

/-- A store (R259). -/
def vstore (i : Instr) (vd : VReg) (srcs : List VReg) (r : Rnd) (fx : BitVec 4) (w : Where) (ordered : Bool) (k : MaskOp)
    (addr : Hart → Nat → Nat) (inside : Nat → Bool) (b : Bolt) : Act Unit := do
  operands i
  let y ← sources b k (vd :: srcs)
  let mt := memTag (y.tag vd) fx
  let es := (b.actives y k).filter inside
  let cs := es.map (fun e => (e, conv (y.tag vd) mt (y.mode r) y.satfin (y.code vd e)))
  footprint b w .wr 1 (es.map (fun e => ⟨e, addr y e, mt.width⟩))
  writeAll w ordered (cs.map (fun c => ⟨⟨c.1, addr y c.1, mt.width⟩, c.2.1⟩))
  modMe (fun x => (x.addFlags (cs.foldl (fun f c => f ||| c.2.2) 0)).vnext)

/-- VST (R258, R259). -/
def execVst (vd : VReg) (sa : Reg) (r : Rnd) (disp : BitVec 17) (fx : BitVec 4) (tok : Tok) (k : MaskOp) (s : State) :=
  runVec (fun b => vstore (.vst vd sa r disp fx tok k) vd [] r fx (.mem tok) false k
    (fun y e => addrPlus (b.base sa disp) (e * (memTag (y.tag vd) fx).width : Nat)) (fun _ => true) b) s
/-- VSTS (R258). -/
def execVsts (vd : VReg) (sa sb : Reg) (r : Rnd) (disp : BitVec 17) (fx : BitVec 4) (tok : Tok) (k : MaskOp) (s : State) :=
  runVec (fun b => vstore (.vsts vd sa sb r disp fx tok k) vd [] r fx (.mem tok) false k
    (fun _ e => addrPlus (b.base sa disp) (e * (b.f sb).toInt)) (fun _ => true) b) s
/-- VSTX (R258). -/
def execVstx (vd : VReg) (sa : Reg) (vb : VReg) (r : Rnd) (disp : BitVec 17) (fx : BitVec 4) (tok : Tok) (k : MaskOp)
    (s : State) :=
  runVec (fun b => vstore (.vstx vd sa vb r disp fx tok k) vd [vb] r fx (.mem tok) false k
    (fun y e => addrPlus (b.base sa disp) (y.index vb e)) (fun _ => true) b) s
/-- VSTXO (R258, R260): the higher element's bits stand. -/
def execVstxo (vd : VReg) (sa : Reg) (vb : VReg) (r : Rnd) (disp : BitVec 17) (fx : BitVec 4) (tok : Tok) (k : MaskOp)
    (s : State) :=
  runVec (fun b => vstore (.vstxo vd sa vb r disp fx tok k) vd [vb] r fx (.mem tok) true k
    (fun y e => addrPlus (b.base sa disp) (y.index vb e)) (fun _ => true) b) s
/-- VSTM (R258): nothing is written outside the box. -/
def execVstm (vd : VReg) (sa : Reg) (r : Rnd) (disp : BitVec 17) (fx : BitVec 4) (tok : Tok) (k : MaskOp) (s : State) :=
  runVec (fun b => vstore (.vstm vd sa r disp fx tok k) vd [] r fx (.mem tok) false k
    (fun _ e => addrPlus (b.base sa disp) (b.boxAt e)) (fun e => decide (e < b.box)) b) s
/-- VSTSP (R258). -/
def execVstsp (vd : VReg) (sa sb : Reg) (r : Rnd) (disp : BitVec 17) (fx : BitVec 4) (k : MaskOp) (s : State) :=
  runVec (fun b => vstore (.vstsp vd sa sb r disp fx k) vd [] r fx (.scratch false) false k
    (fun y e => addrPlus (b.base sa disp)
      (if sb = 0 then (e * (memTag (y.tag vd) fx).width : Nat) else e * (b.f sb).toInt)) (fun _ => true) b) s
/-- VSTSPX (R258). -/
def execVstspx (vd : VReg) (sa : Reg) (vb : VReg) (r : Rnd) (disp : BitVec 17) (fx : BitVec 4) (k : MaskOp) (s : State) :=
  runVec (fun b => vstore (.vstspx vd sa vb r disp fx k) vd [vb] r fx (.scratch false) false k
    (fun y e => addrPlus (b.base sa disp) (y.index vb e)) (fun _ => true) b) s

/-! ### Segments (R261) -/

/-- The fields of the records: register, element, footprint. -/
def segFeet (b : Bolt) (y : Hart) (vd : VReg) (nf : Nat) (sa sb : Reg) (disp : BitVec 14) (fx : BitVec 4) (k : MaskOp) :
    List (VReg × Foot) :=
  let w := (memTag (y.tag vd) fx).width
  let rs : Int := if sb = 0 then (nf * w : Nat) else (b.f sb).toInt
  (b.actives y k).flatMap (fun e => (upTo nf).map (fun f =>
    (vd + BitVec.ofNat 6 f, ⟨e, addrPlus (b.base sa disp) (e * rs + (f * w : Nat)), w⟩)))

/-- VLDSEG (R261): each field goes to its own register, in that register's tag. -/
def vldsegAct (vd : VReg) (sa sb : Reg) (r : Rnd) (disp : BitVec 14) (nf : BitVec 3) (fx : BitVec 4) (tok : Tok) (k : MaskOp)
    (b : Bolt) : Act Unit := do
  operands (.vldseg vd sa sb r disp nf fx tok k)
  let y ← sources b k []
  let mt := memTag (y.tag vd) fx
  let fs := segFeet b y vd (nf.toNat + 1) sa sb disp fx k
  footprint b (.mem tok) .rd 0 (fs.map (·.2))
  let rs ← fs.mapM (fun p => do
    let q ← loadOne (.mem tok) mt (y.tag p.1) (y.mode r) y.satfin p.2
    pure (p.1, q))
  (segRegs vd (nf.toNat + 1)).forM (fun v => slotsWritten v (b.actives y k))
  modMe (fun x => ((rs.foldl (fun x q => x.putCode q.1 q.2.1 q.2.2.1) x).addFlags
    (rs.foldl (fun f q => f ||| q.2.2.2) 0)).vnext)
/-- VLDSEG (R261). -/
def execVldseg (vd : VReg) (sa sb : Reg) (r : Rnd) (disp : BitVec 14) (nf : BitVec 3) (fx : BitVec 4) (tok : Tok)
    (k : MaskOp) (s : State) := runVec (vldsegAct vd sa sb r disp nf fx tok k) s

/-- VSTSEG (R261). -/
def vstsegAct (vd : VReg) (sa sb : Reg) (r : Rnd) (disp : BitVec 14) (nf : BitVec 3) (fx : BitVec 4) (tok : Tok) (k : MaskOp)
    (b : Bolt) : Act Unit := do
  operands (.vstseg vd sa sb r disp nf fx tok k)
  let y ← sources b k (segRegs vd (nf.toNat + 1))
  let mt := memTag (y.tag vd) fx
  let fs := segFeet b y vd (nf.toNat + 1) sa sb disp fx k
  let cs := fs.map (fun p => (p.2, conv (y.tag p.1) mt (y.mode r) y.satfin (y.code p.1 p.2.e)))
  footprint b (.mem tok) .wr 1 (fs.map (·.2))
  writeAll (.mem tok) false (cs.map (fun c => ⟨c.1, c.2.1⟩))
  modMe (fun x => (x.addFlags (cs.foldl (fun f c => f ||| c.2.2) 0)).vnext)
/-- VSTSEG (R261). -/
def execVstseg (vd : VReg) (sa sb : Reg) (r : Rnd) (disp : BitVec 14) (nf : BitVec 3) (fx : BitVec 4) (tok : Tok)
    (k : MaskOp) (s : State) := runVec (vstsegAct vd sa sb r disp nf fx tok k) s

end Sys2Proof.Machine
end

