-- ==== Sys2Proof/Machine/BoltAtomic.lean ====
section
/-!
DEFINITION. Vector atomics (R263, R264).
-/
namespace Sys2Proof.Machine

open Sys2Proof

/-- What a vector atomic writes: from the memory tag, the old code, the operand's code and the comparand's. -/
abbrev AtomicOp := Tag → Nat → Nat → Nat → Option Nat

/-- The sum of codes (R263): exact and wrapped for integers, rounded once under RNE for floats. -/
def atomicSum : AtomicOp := fun t o x _ =>
  if t.isInt then some ((o + x) % 2 ^ t.width)
  else some (t.narrow .rne false false true ((t.value o).add .rne (t.value x)).1.res).1
/-- The smaller or larger of codes (R228, R263). -/
def atomicPick (wantMax : Bool) : AtomicOp := fun t o x _ =>
  let a := t.value o
  let b := t.value x
  if a.isNan && b.isNan then some (t.narrow .rne false false true .nan).1
  else some (if Val.picksSecond wantMax a b then x else o)

/-- The checks of a vector atomic after its operands (R263, R264): the footprint, ATOMIC_SPAN, port-1 forms, then the
waits. -/
def atomicReach (b : Bolt) (w : Where) (f : PortForm) (fp : List Foot) : Act Unit := do
  match w with
  | .mem k => tokenCheck k.toNat .rmw 7 2 fp
  | .scratch _ => scratchCheck fp
  match fp.find? (fun p => !(oneLine p.a p.w)) with
  | some p => vraise 52 p.a p.e
  | none =>
    match w with
    | .scratch _ => scratchWait b true fp
    | .mem k => do
      let s ← get
      let sp := s.spaceOf s.cur k.toNat
      match firstSome (fun (p : Foot) => (s.portCause f (s.physIn sp p.a) p.w).map (fun c => (c, p))) fp with
      | some (c, p) => vraise c (hostOff (s.physIn sp p.a)) p.e
      | none => vreach sp b.seq .rmw 7 fp

/-- One element performed (R263): the old code. -/
def atomicOne (w : Where) (sc : Scope) (op : AtomicOp) (mt : Tag) (p : Foot × Nat × Nat) : Act (Nat × Nat) := do
  let old ← readFoot w p.1 sc
  match op mt old p.2.1 p.2.2 with
  | some v => writeFoot w p.1 v sc
  | none => pure ()
  pure (p.1.e, old)

/-- A vector atomic (R263): the operand, the comparand and the old value are converted as R257 has it, under FMODE.SATFIN (R83);
overlapping elements are performed in a free order (log 16). -/
def vatomic (i : Instr) (f : PortForm) (op : AtomicOp) (cmp : Bool) (vd : VReg) (sa : Reg) (vb vc : VReg) (sc : Scope)
    (sp nr : Bool) (disp : BitVec 12) (fx : BitVec 4) (tok : Tok) (k : MaskOp) (b : Bolt) : Act Unit := do
  operands i
  let y ← sources b k ([vc, vb] ++ if cmp then [vd] else [])
  let mt := memTag (y.tag vc) fx
  let w : Where := if sp then .scratch false else .mem tok
  let es := b.actives y k
  let code (v : VReg) (e : Nat) : Nat := (conv (y.tag v) mt .rne y.satfin (y.code v e)).1
  let ps := es.map (fun e =>
    ((⟨e, addrPlus (b.base sa disp) (y.index vb e), mt.width⟩ : Foot), code vc e, if cmp then code vd e else 0))
  atomicReach b w f (ps.map (·.1))
  let s ← get
  let rs ← if anyMeet (ps.map (fun p => ⟨p.1, 0⟩)) then do
      set { s with free := s.free + 1 }
      (freeOrder s.free ps).mapM (atomicOne w sc op mt)
    else ps.mapM (atomicOne w sc op mt)
  putResult vd (if nr then [] else rs.map (fun r => (r.1, (conv mt (y.tag vd) .rne y.satfin r.2).1, 0)))

/-- VAADD (R263). -/
def execVaadd (vd : VReg) (sa : Reg) (vb vc : VReg) (sc : Scope) (sp nr : Bool) (disp : BitVec 12) (fx : BitVec 4) (tok : Tok)
    (k : MaskOp) (s : State) :=
  let form (y : Hart) : PortForm := if (memTag (y.tag vc) fx).isInt then .fetchAdd else .none
  runVec (vatomic (.vaadd vd sa vb vc sc sp nr disp fx tok k) (form s.me) atomicSum false vd sa vb vc sc sp nr disp fx tok k) s
/-- VAMIN (R263). -/
def execVamin (vd : VReg) (sa : Reg) (vb vc : VReg) (sc : Scope) (sp nr : Bool) (disp : BitVec 12) (fx : BitVec 4) (tok : Tok)
    (k : MaskOp) (s : State) :=
  runVec (vatomic (.vamin vd sa vb vc sc sp nr disp fx tok k) .none (atomicPick false) false vd sa vb vc sc sp nr disp fx tok k) s
/-- VAMAX (R263). -/
def execVamax (vd : VReg) (sa : Reg) (vb vc : VReg) (sc : Scope) (sp nr : Bool) (disp : BitVec 12) (fx : BitVec 4) (tok : Tok)
    (k : MaskOp) (s : State) :=
  runVec (vatomic (.vamax vd sa vb vc sc sp nr disp fx tok k) .none (atomicPick true) false vd sa vb vc sc sp nr disp fx tok k) s
/-- VAAND (R263). -/
def execVaand (vd : VReg) (sa : Reg) (vb vc : VReg) (sc : Scope) (sp nr : Bool) (disp : BitVec 12) (fx : BitVec 4) (tok : Tok)
    (k : MaskOp) (s : State) :=
  runVec (vatomic (.vaand vd sa vb vc sc sp nr disp fx tok k) .none (fun _ o x _ => some (o &&& x)) false vd sa vb vc sc sp nr
    disp fx tok k) s
/-- VAOR (R263). -/
def execVaor (vd : VReg) (sa : Reg) (vb vc : VReg) (sc : Scope) (sp nr : Bool) (disp : BitVec 12) (fx : BitVec 4) (tok : Tok)
    (k : MaskOp) (s : State) :=
  runVec (vatomic (.vaor vd sa vb vc sc sp nr disp fx tok k) .none (fun _ o x _ => some (o ||| x)) false vd sa vb vc sc sp nr
    disp fx tok k) s
/-- VAXOR (R263). -/
def execVaxor (vd : VReg) (sa : Reg) (vb vc : VReg) (sc : Scope) (sp nr : Bool) (disp : BitVec 12) (fx : BitVec 4) (tok : Tok)
    (k : MaskOp) (s : State) :=
  runVec (vatomic (.vaxor vd sa vb vc sc sp nr disp fx tok k) .none (fun _ o x _ => some (o ^^^ x)) false vd sa vb vc sc sp nr
    disp fx tok k) s
/-- VASWAP (R263). -/
def execVaswap (vd : VReg) (sa : Reg) (vb vc : VReg) (sc : Scope) (sp nr : Bool) (disp : BitVec 12) (fx : BitVec 4) (tok : Tok)
    (k : MaskOp) (s : State) :=
  runVec (vatomic (.vaswap vd sa vb vc sc sp nr disp fx tok k) .swap (fun _ _ x _ => some x) false vd sa vb vc sc sp nr
    disp fx tok k) s
/-- VACAS (R263): codes are compared; a failed compare writes nothing. -/
def execVacas (vd : VReg) (sa : Reg) (vb vc : VReg) (sc : Scope) (sp nr : Bool) (disp : BitVec 12) (fx : BitVec 4) (tok : Tok)
    (k : MaskOp) (s : State) :=
  runVec (vatomic (.vacas vd sa vb vc sc sp nr disp fx tok k) .cas (fun _ o x c => if o = c then some x else none) true vd sa
    vb vc sc sp nr disp fx tok k) s

end Sys2Proof.Machine
end

