-- ==== Sys2Proof/Machine/Branch.lean ====
section
/-!
DEFINITION. Branches and jumps of the stem (R147, R171, R172).
-/
namespace Sys2Proof.Machine

open Sys2Proof

/-- The target of an SB branch: PC + sext(OFF, 16) x 32 bits (R147). -/
def branchTarget (pc : Word) (off : BitVec 16) : Word := pc + off.signExtend 64 * 32
/-- The target of an SJ jump: PC + sext(OFF, 26) x 32 bits (R147). -/
def jumpTarget (pc : Word) (off : BitVec 26) : Word := pc + off.signExtend 64 * 32

/-- An SB branch on a condition (R171). -/
def branch (c : Word → Word → Bool) (a b : Reg) (off : BitVec 16) (s : State) : Host.Outcome State Fault Refusal :=
  .next (s.modMe (fun x => if c (x.reg a) (x.reg b) then x.jump (branchTarget x.pc off) else x.advance))

/-- BEQ (R171). -/
def execBeq (a b : Reg) (off : BitVec 16) (s : State) := branch (fun x y => decide (x = y)) a b off s
/-- BNE (R171). -/
def execBne (a b : Reg) (off : BitVec 16) (s : State) := branch (fun x y => decide (x ≠ y)) a b off s
/-- BLT (R171). -/
def execBlt (a b : Reg) (off : BitVec 16) (s : State) := branch (fun x y => x.slt y) a b off s
/-- BGE (R171). -/
def execBge (a b : Reg) (off : BitVec 16) (s : State) := branch (fun x y => y.sle x) a b off s
/-- BLTN (R171). -/
def execBltn (a b : Reg) (off : BitVec 16) (s : State) := branch (fun x y => x.ult y) a b off s
/-- BGEN (R171). -/
def execBgen (a b : Reg) (off : BitVec 16) (s : State) := branch (fun x y => y.ule x) a b off s
/-- JMP (R172). -/
def execJmp (off : BitVec 26) (s : State) : Host.Outcome State Fault Refusal :=
  .next (s.modMe (fun x => x.jump (jumpTarget x.pc off)))
/-- JAL (R172): PC + 32 goes to s31 first. -/
def execJal (off : BitVec 26) (s : State) : Host.Outcome State Fault Refusal :=
  .next (s.modMe (fun x => (x.setReg 31 (x.pc + 32)).jump (jumpTarget x.pc off)))
/-- JR (R172): MISALIGNED_PC, code 41, with the target in TADDR (R147). -/
def execJr (a : Reg) (s : State) : Host.Outcome State Fault Refusal :=
  let t := s.me.reg a
  if t.extractLsb' 0 5 ≠ 0 then .next (s.takeTrap (s.stemTrap 41 t.toNat))
  else .next (s.modMe (fun x => x.jump t))

end Sys2Proof.Machine
end

