-- ==== Sys2Proof/Machine/Engines.lean ====
section
/-!
DEFINITION. Copy and collective engines (R127, R131, R135-R139, R196-R203): issue, movement, completion, and the arrival
words of engine and matrix operations.
-/
namespace Sys2Proof.Machine

open Sys2Proof

/-! ### Dimensions (R196) -/

/-- Dimension register `n` of a hart. -/
def Hart.dim (x : Hart) (n : Nat) : Dim := Tab.get Dim.initial x.dims n

/-- DIMS (R196); a LEN of 2^21 or more raises DIM_RANGE. -/
def execDims (a b : Reg) (n : BitVec 2) (s : State) :=
  runStem (do
    let x ← me
    raiseIf (decide (2 ^ 21 ≤ (x.reg a).toNat)) 54
    modMe (fun x => { x with dims := Tab.set Dim.initial x.dims n.toNat ⟨(x.reg a).toNat, x.reg b⟩ }.advance)) s

/-! ### Engine accesses (R131, R197) -/

/-- A failure of an engine access: cause and address. -/
abbrev EngErr := Nat × Nat

/-- An engine access of hart `h` checked: the cause of a range that cannot be reached (R131, R173, R307). -/
def State.engCheck (s : State) (h asid a n : Nat) (k : AccKind) (cls : Nat) : Option EngErr :=
  match s.checkAccess asid a n k with
  | some (kind, b) => some (memCause kind cls, b)
  | none => s.hostFail h asid a n cls

/-- The effect of errors on an engine's read (R377): the first that cannot be corrected stops it, and the others are put right. -/
def State.engUpset (s : State) (h : Nat) (l : List Upset) : Except EngErr State :=
  match l.find? (·.unc) with
  | some u => .error (320 + 2 * u.s + 1, 64 * u.word)
  | none => .ok (l.foldl (fun s u => (s.clearUpset u).logError (64 * u.word) (320 + 2 * u.s) 0 h) s)
/-- The errors of a range of a scratchpad, word by word. -/
def State.scratchUpsets (s : State) (k o n : Nat) : List Upset :=
  if s.rel.upsets = [] then []
  else (upFrom (o / 64) ((o + n + 63) / 64 - o / 64)).flatMap (fun w =>
    s.rel.upsets.filter (fun u => decide (u.s = 5) && decide (u.place = k) && decide (u.word = w)))

/-- Bits read by a hart's engine: scratchpad through the aperture, else memory at dev scope. -/
def State.engRead (s : State) (h asid a n cls : Nat) : Except EngErr (Nat × State) :=
  if aperture ≤ a then
    let o := a - aperture
    match s.engUpset h (s.scratchUpsets (coreOf h) o n) with
    | .error e => .error e
    | .ok s1 => .ok (Memory.read (s1.core (coreOf h)).scratch o n, s1)
  else
    match s.engCheck h asid a n .rd cls with
    | some e => .error e
    | none =>
      match s.engUpset h (s.memUpsets (groveOf h) .dev (s.phys asid a n)) with
      | .error e => .error e
      | .ok s1 => .ok (s1.vread asid (groveOf h) .dev a n)

/-- Bits written by a hart's engine. -/
def State.engWrite (s : State) (h asid a n cls v : Nat) : Except EngErr State :=
  if aperture ≤ a then
    let o := a - aperture
    let s1 := s.clearUpsets 5 (coreOf h) (fun u => decide (o ≤ 64 * u) && decide (64 * u + 64 ≤ o + n))
    let c := s1.core (coreOf h)
    .ok (s1.setCore (coreOf h) { c with scratch := Memory.write c.scratch o n v })
  else
    match s.engCheck h asid a n .wr cls with
    | some e => .error e
    | none => .ok ((s.vwrite asid (groveOf h) .dev a n v).cleanWords (groveOf h) .dev (s.phys asid a n))

/-! ### Arrival words of engine and matrix operations (R138) -/

/-- An arrival: COUNT + `n`, and with a cause ERR, and CAUSE where ERR was clear (R138). -/
def arrivalWord (w n : Nat) (cause : Option Nat) : Nat :=
  let w1 := arrivalAdd w n
  match cause with
  | none => w1
  | some c => if w1.testBit 32 then w1 else w1 - field w1 41 33 * 2 ^ 33 + 2 ^ 32 + c % 512 * 2 ^ 33

/-- One arrival of hart `h` on a word at dev scope with release, or the cause that keeps it from the word. An update that
adds nothing to COUNT is no release (R276). -/
def State.arriveOn (s : State) (h asid va n : Nat) (cause : Option Nat) : Except EngErr State :=
  match s.engCheck h asid va 64 .rmw 7 with
  | some e => .error e
  | none =>
    let s1 := if n = 0 then s else s.release (groveOf h) .dev
    match s1.engUpset h (s1.memUpsets (groveOf h) .dev (s1.phys asid va 64)) with
    | .error e => .error e
    | .ok s2 =>
      let (w, s3) := s2.vread asid (groveOf h) .dev va 64
      .ok (s3.vwrite asid (groveOf h) .dev va 64 (arrivalWord w n cause))

/-- The check of a named arrival word (R138): alignment under `align`, class 7, and port 1. -/
def arrivalCheck (fail : Nat → Nat → Act Unit) (align va : Nat) : Act Unit := do
  if va % 64 ≠ 0 then fail align va
  let s ← get
  match s.checkAccess s.me.asid va 64 .rmw with
  | some (kind, b) => fail (memCause kind 7) b
  | none => if isHost (s.physOf va) && hostPort (s.physOf va) == 1 then fail 432 (hostOff (s.physOf va)) else pure ()

/-! ### Issue (R197) -/

/-- Steps 1.2 and 1.3 on ranges given by first bit, length and access class. -/
def rangeChecks (fail : Nat → Nat → Act Unit) (rs : List (Nat × Nat × Nat)) : Act Unit := do
  let rs := rs.filter (fun r => decide (r.2.1 ≠ 0))
  rs.forM (fun r =>
    if aperture ≤ r.1 then pure ()
    else match nonCanonical r.1 r.2.1 with
      | some b => fail (memCause 0 r.2.2) b
      | none => if 2 ^ 64 < r.1 + r.2.1 then fail (memCause 1 r.2.2) r.1 else pure ())
  rs.forM (fun r =>
    if r.1 < aperture ∧ aperture < r.1 + r.2.1 then fail 60 aperture
    else if 2 ^ 64 < r.1 + r.2.1 then fail 60 r.1 else pure ())
  let s ← get
  rs.forM (fun r => if aperture ≤ r.1 ∧ !(s.holdsRange (r.1 - aperture) r.2.1) then fail 199 0 else pure ())

/-- The bounding range of a box of runs of `n` bits from `a`; a lowest bit below address 0 wraps (log 113). -/
def boxRange (a n : Nat) (dims : List Dim) : Nat × Nat :=
  let span (d : Dim) : Int := ((d.len : Int) - 1) * d.stride.toInt
  let lo := dims.foldl (fun (t : Int) d => t + min 0 (span d)) (a : Int)
  let hi := dims.foldl (fun (t : Int) d => t + max 0 (span d)) (a : Int) + n
  if n = 0 ∨ dims.any (fun d => decide (d.len = 0)) then (a, 0) else (wrap lo 64, (hi - lo).toNat)

/-- Room for one more transfer (R197): its counter is below 65,535 and the interlock table has a free entry. -/
def State.engRoom (s : State) (h : Nat) (cn : CReg) : Bool :=
  decide (Tab.get 0 (s.hart h).ctrs cn.toNat < 65535) && decide ((s.xfersOf h).length < 16)

/-- A counter changed by one operation (R139). -/
def Hart.count (x : Hart) (cn : Nat) (f : Nat → Nat) : Hart := { x with ctrs := Tab.set 0 x.ctrs cn (f (Tab.get 0 x.ctrs cn)) }

/-- Steps 2 to 4 (R197): the wait for room, the count, the entry of the ranges. -/
def startXfer (t : Xfer) : Act Unit := do
  let s ← get
  if !(s.engRoom s.cur (BitVec.ofNat 3 t.cn)) then stall (.engineRoom (BitVec.ofNat 3 t.cn))
  modMe (fun x => x.count t.cn (· + 1))
  modify (fun s => { s with xfers := s.xfers ++ [{ t with id := s.nextUid }], nextUid := s.nextUid + 1 })

/-- A transfer of the running hart with nothing filled in, behind the bolts issued before it (R142, R387). -/
def State.newXfer (s : State) (kind : XferKind) (cn : Nat) (dst src len : Nat) : Xfer :=
  { id := 0, hart := s.cur, uid := s.me.uid, asid := s.me.asid, cn := cn, kind := kind, dst := dst, src := src, len := len,
    dims := [], desc := 0, stride := 0, first := 0, tile := 0, fx := 0, srcLo := src, srcHi := src + len, dstLo := dst,
    dstHi := dst + len, arr := none, behind := s.me.bolts.map (·.seq), bolt := none, done := 0, banks := [] }

/-- A transfer of length 0 counts and completes at once (R197); it needs room, and arrives where it names a word. -/
def emptyXfer (t : Xfer) : Act Unit := do
  let s ← get
  if !(s.engRoom s.cur (BitVec.ofNat 3 t.cn)) then stall (.engineRoom (BitVec.ofNat 3 t.cn))
  match t.arr with
  | none => pure ()
  | some va =>
    match s.arriveOn s.cur s.me.asid va 1 none with
    | .ok s1 => set s1
    | .error e => modMe (fun x => { x with engFails := x.engFails ++ [⟨t.cn, e.1, nword e.2⟩] })

/-- A cause of the stem with its address. -/
def stemFail (cause addr : Nat) : Act Unit := raise cause addr

/-- The first failing check of ENGINE_OPERAND, in the order of the codes; TADDR holds the first failing bit of the transfer, where
it has an address (R314, log 102). -/
def engOperand (l : List (Bool × Nat × Nat)) : Act Unit := l.forM (fun p => raiseIf p.1 p.2.1 (p.2.2 % 2 ^ 64))

/-- COPY (R199). -/
def copyAct (dst src len cn : Nat) : Act Unit := do
  engOperand [(decide (2 ^ 40 < len), 168, src + 2 ^ 40), (rangesMeet (src, len) (dst, len), 169, max src dst)]
  rangeChecks stemFail [(src, len, 5), (dst, len, 6)]
  let s ← get
  let t := s.newXfer .copy cn dst src len
  if len = 0 then emptyXfer t else startXfer t
  next

/-- COPYM (R199): its box is read at its own issue. -/
def copymAct (dst src len cn : Nat) : Act Unit := do
  let x ← me
  let dims := [x.dim 0, x.dim 1, x.dim 2]
  let total := (x.dim 0).len * (x.dim 1).len * (x.dim 2).len * len
  let (lo, n) := boxRange src len dims
  engOperand [(decide (2 ^ 40 < len), 168, src + 2 ^ 40), (rangesMeet (lo, n) (dst, total), 169, max lo dst),
    (decide (2 ^ 40 < total), 175, dst + 2 ^ 40)]
  rangeChecks stemFail [(lo, n, 5), (dst, total, 6)]
  let s ← get
  let t := { s.newXfer .copym cn dst src len with
    dims := (upTo 3).zip dims, srcLo := lo, srcHi := lo + n, dstHi := dst + total }
  if total = 0 then emptyXfer t else startXfer t
  next

/-- SLD (R203, R387): `f` is S[sa], the first entry and the stride. SCALE_RANGE is tested after ENGINE_OPERAND and before the ranges
(log 98); it waits for the earlier bolts before it issues. -/
def sldAct (f : Word) (src len cn : Nat) : Act Unit := do
  let first := f.toNat % 2048
  let st := (f.extractLsb' 32 32).toInt
  let (lo, n) := boxRange src 8 [⟨len, word st⟩]
  engOperand [(decide (2 ^ 40 < len), 168, addrPlus src (2 ^ 40 * st)), (decide (f.extractLsb' 11 21 ≠ 0), 173, 0),
    (decide (2048 < first + len), 132, 0)]
  rangeChecks stemFail [(lo, n, 5)]
  awaitBolts
  let s ← get
  let t := { s.newXfer .sld cn 0 src len with
    first := first, stride := st, srcLo := lo, srcHi := lo + n, dstHi := 0 }
  if len = 0 then emptyXfer t else startXfer t
  next

/-- Two destinations of a collective on one device overlap. -/
def destsMeet (len : Nat) : List (Nat × Nat) → Bool
  | [] => false
  | p :: t => t.any (fun q => decide (q.1 = p.1) && rangesMeet (p.2, len) (q.2, len)) || destsMeet len t
/-- The first bit that two destinations of a collective on one device share. -/
def destsShare (len : Nat) : List (Nat × Nat) → Nat
  | [] => 0
  | p :: t =>
    match t.find? (fun q => decide (q.1 = p.1) && rangesMeet (p.2, len) (q.2, len)) with
    | some q => max p.2 q.2
    | none => destsShare len t
/-- The lowest bit of a collective descriptor that ENGINE_OPERAND 170 finds wrong (R200). -/
def badDescriptor (d : BitVec 1024) : Option Nat :=
  let nd := ndestOf d
  (upTo 192).find? (fun i => (d.getLsbD i && (decide (i < 64) || (decide (65 ≤ i) && decide (i < 128)) || decide (i = 132) ||
      decide (i = 133))) || (decide (i = 128) && (decide (nd = 0) || decide (12 < nd))) ||
    (decide (i = 134) && decide (d.extractLsb' 134 2 = 3)) ||
    (decide (144 ≤ i) && decide (i % 4 = 0) && decide (8 < (destOf d ((i - 144) / 4)).1)))
/-- The first element of `w` bits of a destination that crosses a line. The pattern repeats after 512 elements. -/
def spanning (w len a : Nat) : Option Nat :=
  ((upTo (min 512 (len / w))).find? (fun k => !(oneLine (a + k * w) w))).map (fun k => a + k * w)

/-- MCAST and REDST (R200-R202): the descriptor is read once, at issue. -/
def collectiveAct (red : Bool) (da : Nat) (src len cn : Nat) : Act Unit := do
  raiseIf (decide (2 ^ 40 < len)) 168 ((src + 2 ^ 40) % 2 ^ 64)
  raiseIf (decide (da % 64 ≠ 0)) 170 da
  access da 1024 .rd 2
  let v ← readBits da 1024 .grove
  let d := BitVec.ofNat 1024 v
  let ds := destsOf d
  let own := ds.filter (fun p => decide (p.1 = 0))
  let tag := Tag.ofCode (d.extractLsb' 136 8)
  let w := (tag.getD (.nat 8)).width
  engOperand [
    (own.any (fun p => rangesMeet (src, len) (p.2, len)), 169,
      max src (((own.find? (fun p => rangesMeet (src, len) (p.2, len))).map (·.2)).getD 0)),
    ((badDescriptor d).isSome, 170, da + (badDescriptor d).getD 0),
    (own.any (fun p => decide (aperture ≤ p.2)) || destsMeet len ds, 171,
      ((own.find? (fun p => decide (aperture ≤ p.2))).map (·.2)).getD (destsShare len ds)),
    (red && !((tag.map Tag.isAtomic).getD false), 172, da + 136),
    (red && decide (len % w ≠ 0), 172, src + (len - len % w))]
  if red then
    match firstSome (fun (p : Nat × Nat) => spanning w len p.2) ds with
    | some a => raise 52 a
    | none => pure ()
  rangeChecks stemFail ((src, len, 5) :: own.map (fun p => (p.2, len, if red then 7 else 6)))
  let va := (d.extractLsb' 192 64).toNat
  let aen := d.getLsbD 64
  if aen then arrivalCheck stemFail (if red then 189 else 188) va
  let s ← get
  let t := { s.newXfer (if red then .redst else .mcast) cn 0 src len with
    desc := d, dstHi := 0, arr := if aen then some va else none }
  if len = 0 then emptyXfer t else startXfer t
  next

/-- The length of the immediate form (R154). -/
def immLen (len : BitVec 9) : Nat := len.toNat + 1

/-- COPY_REG_LEN (R199). -/
def execCopyRegLen (a b l : Reg) (cn : BitVec 3) (s : State) :=
  runStem (copyAct (s.me.reg a).toNat (s.me.reg b).toNat (s.me.reg l).toNat cn.toNat) s
/-- COPY_IMM_LEN (R199). -/
def execCopyImmLen (a b : Reg) (len : BitVec 9) (cn : BitVec 3) (s : State) :=
  runStem (copyAct (s.me.reg a).toNat (s.me.reg b).toNat (immLen len) cn.toNat) s
/-- COPYM_REG_LEN (R199). -/
def execCopymRegLen (a b l : Reg) (cn : BitVec 3) (s : State) :=
  runStem (copymAct (s.me.reg a).toNat (s.me.reg b).toNat (s.me.reg l).toNat cn.toNat) s
/-- COPYM_IMM_LEN (R199). -/
def execCopymImmLen (a b : Reg) (len : BitVec 9) (cn : BitVec 3) (s : State) :=
  runStem (copymAct (s.me.reg a).toNat (s.me.reg b).toNat (immLen len) cn.toNat) s
/-- MCAST_REG_LEN (R201). -/
def execMcastRegLen (a b l : Reg) (cn : BitVec 3) (s : State) :=
  runStem (collectiveAct false (s.me.reg a).toNat (s.me.reg b).toNat (s.me.reg l).toNat cn.toNat) s
/-- MCAST_IMM_LEN (R201). -/
def execMcastImmLen (a b : Reg) (len : BitVec 9) (cn : BitVec 3) (s : State) :=
  runStem (collectiveAct false (s.me.reg a).toNat (s.me.reg b).toNat (immLen len) cn.toNat) s
/-- REDST_REG_LEN (R202). -/
def execRedstRegLen (a b l : Reg) (cn : BitVec 3) (s : State) :=
  runStem (collectiveAct true (s.me.reg a).toNat (s.me.reg b).toNat (s.me.reg l).toNat cn.toNat) s
/-- REDST_IMM_LEN (R202). -/
def execRedstImmLen (a b : Reg) (len : BitVec 9) (cn : BitVec 3) (s : State) :=
  runStem (collectiveAct true (s.me.reg a).toNat (s.me.reg b).toNat (immLen len) cn.toNat) s
/-- SLD_REG_LEN (R203). -/
def execSldRegLen (a b l : Reg) (cn : BitVec 3) (s : State) :=
  runStem (sldAct (s.me.reg a) (s.me.reg b).toNat (s.me.reg l).toNat cn.toNat) s
/-- SLD_IMM_LEN (R203). -/
def execSldImmLen (a b : Reg) (len : BitVec 9) (cn : BitVec 3) (s : State) :=
  runStem (sldAct (s.me.reg a) (s.me.reg b).toNat (immLen len) cn.toNat) s

/-! ### Movement (R131) -/

/-- Where a transfer stands: the state, and the failure that stopped it. -/
abbrev Moved := State × Option EngErr

/-- Pieces of a run that stay in one page of 2^19 bits at both ends. -/
def pieces (fuel dst src n : Nat) : List (Nat × Nat × Nat) :=
  match fuel with
  | 0 => []
  | f + 1 =>
    if n = 0 then []
    else
      let k := min n (min (pageBits - src % pageBits) (pageBits - dst % pageBits))
      (dst, src, k) :: pieces f (dst + k) (src + k) (n - k)

/-- How many bits of an engine's source, in one page, come before the word whose data an error stops it at (R377). -/
def State.before (s : State) (asid a : Nat) (e : EngErr) : Nat :=
  if 320 ≤ e.1 then e.2 - (if aperture ≤ a then a - aperture else s.physIn asid a) else 0
/-- A piece that an error of data stops is moved as far as its word (R377), and ends with the error. -/
def upToError (move : Moved → Nat → Moved) (s : State) (asid a : Nat) (e : EngErr) : Moved :=
  let n := s.before asid a e
  if n = 0 then (s, some e) else ((move (s, none) n).1, some e)
/-- One piece copied, without a stop at a word. -/
def Xfer.copyWhole (t : Xfer) (dst src : Nat) (m : Moved) (n : Nat) : Moved :=
  match m.1.engRead t.hart t.asid src n 5 with
  | .error e => (m.1, some e)
  | .ok (v, s1) =>
    match s1.engWrite t.hart t.asid dst n 6 v with
    | .error e => (m.1, some e)
    | .ok s2 => (s2, none)
/-- One piece copied. -/
def Xfer.copyPiece (t : Xfer) (m : Moved) (p : Nat × Nat × Nat) : Moved :=
  match m.2 with
  | some _ => m
  | none =>
    let a := p.2.1 % 2 ^ 64
    match t.copyWhole (p.1 % 2 ^ 64) a m p.2.2 with
    | (s, some e) => if 320 ≤ e.1 then upToError (t.copyWhole (p.1 % 2 ^ 64) a) s t.asid a e else (s, some e)
    | r => r
/-- A run copied, page by page. -/
def Xfer.copyRun (t : Xfer) (m : Moved) (dst src n : Nat) : Moved :=
  (pieces (n / pageBits * 2 + 3) dst src n).foldl t.copyPiece m

/-- Runs of a COPYM, in order: source addresses. -/
def Xfer.runs (t : Xfer) : List Nat :=
  let d (i : Nat) : Dim := Tab.get Dim.initial t.dims i
  (upTo (d 2).len).flatMap (fun (i2 : Nat) => (upTo (d 1).len).flatMap (fun (i1 : Nat) => (upTo (d 0).len).map (fun (i0 : Nat) =>
    addrPlus t.src (i0 * (d 0).stride.toInt + i1 * (d 1).stride.toInt + i2 * (d 2).stride.toInt))))

/-- The first page of a range that an access of a kind cannot use decides (R127): its kind of R307 and its address. -/
def State.firstPage (s : State) (asid a n : Nat) (k : AccKind) : Option (Nat × Nat) :=
  firstSome (fun p => match p.page with
    | none => some (2, p.va)
    | some m =>
      if m.bad then some (4, p.va)
      else if !(k.allowed m.r m.w) then some (3, p.va)
      else if !(isDev (p.pa + p.len - 1)) && !(isHost p.pa) then some (2, if isDev p.pa then p.va + (3 * 2 ^ 41 - p.pa) else p.va)
      else none) (s.parts asid a n)
/-- The check of every destination page before anything is written (R112, R127, R200): a link that is down, a peer that
refuses (`ext`, by link), and the pages of this device. -/
def State.destError (s : State) (t : Xfer) (ext : Nat) : Option EngErr :=
  firstSome (fun (p : Nat × Nat) =>
    if p.1 = 0 then
      let cls := if t.kind = .redst then 7 else 6
      match ((s.firstPage t.asid p.2 t.len (if t.kind = .redst then .rmw else .wr)).map (fun q => (memCause q.1 cls, q.2))).or
          (s.hostFail t.hart t.asid p.2 t.len cls) with
      | some e => some e
      | none =>
        if t.kind = .redst then
          ((s.parts t.asid p.2 t.len).find? (fun q => isHost q.pa && hostPort q.pa == 1)).map
            (fun q => (432, hostOff q.pa))
        else none
    else if s.host.linkDown.testBit (p.1 - 1) then some (416 + (p.1 - 1), p.2)
    else if ext.testBit (p.1 - 1) then some (424 + (p.1 - 1), p.2)
    else none) (destsOf t.desc)

/-- A run of a MCAST from offset `o`: read once, written to every destination of this device; peers receive it too. -/
def Xfer.castWhole (t : Xfer) (o : Nat) (m : Moved) (n : Nat) : Moved :=
  match m.1.engRead t.hart t.asid (t.src + o) n 5 with
  | .error e => (m.1, some e)
  | .ok (v, s1) => t.dstRanges.foldl (fun (m : Moved) r =>
      match m.2 with
      | some _ => m
      | none => match m.1.engWrite t.hart t.asid (r.1 + o) n 6 v with
        | .error e => (m.1, some e)
        | .ok s2 => (s2, none)) (s1, none)
/-- A piece of a MCAST. -/
def Xfer.castPiece (t : Xfer) (m : Moved) (p : Nat × Nat × Nat) : Moved :=
  match m.2 with
  | some _ => m
  | none =>
    match t.castWhole p.1 m p.2.2 with
    | (s, some e) => if 320 ≤ e.1 then upToError (t.castWhole p.1) s t.asid (t.src + p.1) e else (s, some e)
    | r => r

/-- combine of R202: the element's code after the update. -/
def combine (op : Nat) (t : Tag) (y x : Nat) : Nat :=
  ((if op = 0 then atomicSum t y x 0 else atomicPick (decide (op = 2)) t y x 0)).getD y

/-- One element of a REDST, in every destination of this device. -/
def Xfer.redPiece (t : Xfer) (tag : Tag) (m : Moved) (k : Nat) : Moved :=
  match m.2 with
  | some _ => m
  | none =>
    match m.1.engRead t.hart t.asid (t.src + k * tag.width) tag.width 5 with
    | .error e => (m.1, some e)
    | .ok (x, s1) => t.dstRanges.foldl (fun (m : Moved) r =>
        match m.2 with
        | some _ => m
        | none =>
          match m.1.engRead t.hart t.asid (r.1 + k * tag.width) tag.width 7 with
          | .error e => (m.1, some e)
          | .ok (y, s2) =>
            match s2.engWrite t.hart t.asid (r.1 + k * tag.width) tag.width 7
                (combine (t.desc.extractLsb' 134 2).toNat tag y x) with
            | .error e => (m.1, some e)
            | .ok s3 => (s3, none)) (s1, none)

/-- One entry of an SLD. -/
def Xfer.sldPiece (t : Xfer) (m : Moved) (i : Nat) : Moved :=
  match m.2 with
  | some _ => m
  | none =>
    match m.1.engRead t.hart t.asid (addrPlus t.src (i * t.stride)) 8 5 with
    | .error e => (m.1, some e)
    | .ok (v, s1) =>
      let s2 := s1.clearUpsets 6 t.hart (fun w => decide (w = t.first + i))
      (s2.setHart t.hart { s2.hart t.hart with
        sf := Tab.set 0x7F (s2.hart t.hart).sf (t.first + i) (BitVec.ofNat 8 v) }, none)

/-- What is left of the run that a COPY or COPYM has reached, and the runs after it: destination, source and length. -/
def Xfer.runsLeft (t : Xfer) : List (Nat × Nat × Nat) :=
  let runs := if t.kind = .copym then t.runs else [t.src]
  if t.len = 0 then []
  else ((upTo runs.length).zip runs).filterMap (fun p =>
    let k := min t.len (t.done - p.1 * t.len)
    if k < t.len then some (t.dst + p.1 * t.len + k, p.2 + k, t.len - k) else none)
/-- The piece in one page that a COPY or COPYM has reached. -/
def Xfer.piece (t : Xfer) : Option (Nat × Nat × Nat) := t.runsLeft.head?.bind (fun r => (pieces 1 r.1 r.2.1 r.2.2).head?)
/-- The rows of a piece that its banks' arrival pointers have not passed (R136). -/
def Xfer.rowsLeft (t : Xfer) (p : Nat × Nat × Nat) : List (Nat × Nat × Nat) :=
  ((lineParts (p.2.2 / 512 + 2) p.1 p.2.2).filter (fun r => decide (Tab.get 0 t.banks (bankOf r.1) < r.1 + r.2))).map
    (fun r => (r.1, p.2.1 + (r.1 - p.1), r.2))
/-- What is left of a COPY or COPYM is copied: the rows left of the piece it has reached, then the pieces after it. -/
def Xfer.copyRest (t : Xfer) (s : State) : Moved :=
  let m := match t.piece with
    | some p => if t.banks = [] then (s, none) else (t.rowsLeft p).foldl t.copyPiece (s, none)
    | none => (s, none)
  let u := match t.piece with
    | some p => if t.banks = [] then t else { t with done := t.done + p.2.2 }
    | none => t
  u.runsLeft.foldl (fun (m : Moved) r =>
    match m.2 with
    | some _ => m
    | none => t.copyRun m r.1 r.2.1 r.2.2) m

/-- What a transfer moves, and how it ends. -/
def State.moveXfer (s : State) (t : Xfer) (ext : Nat) : Moved :=
  match t.kind with
  | .copy | .copym => t.copyRest s
  | .mcast =>
    match s.destError t ext with
    | some e => (s, some e)
    | none => (pieces (t.len / pageBits * 2 + 3) 0 t.src t.len).foldl t.castPiece (s, none)
  | .redst =>
    match s.destError t ext with
    | some e => (s, some e)
    | none =>
      let tag := (Tag.ofCode (t.desc.extractLsb' 136 8)).getD (.nat 8)
      (upTo (t.len / tag.width)).foldl (t.redPiece tag) (s, none)
  | .sld => (upTo t.len).foldl t.sldPiece (s, none)
  | .tldf => (s, none)

/-! ### Completion (R135, R138, R139, R198) -/

/-- A failure reported on a transfer's counter (R198). -/
def State.engFailed (s : State) (t : Xfer) (e : EngErr) : State :=
  s.setHart t.hart { s.hart t.hart with engFails := (s.hart t.hart).engFails ++ [⟨t.cn, e.1, nword e.2⟩] }
/-- The hart's waits for its transfers end when one completes: what waited looks again. -/
def Hart.xferDone (x : Hart) : Hart :=
  match x.wait with
  | some ⟨.transfers, _, _, _⟩ | some ⟨.interlock, _, _, _⟩ => { x with wait := none }
  | _ => x
/-- A transfer completes: its entry retires, its counter falls, and it arrives or reports its failure. -/
def State.finishXfer (s : State) (t : Xfer) (fail : Option EngErr) : State :=
  let s0 := match fail with
    | some e => s.logConsumed t.hart e.1 e.2
    | none => s
  let sa := match fail with
    | some e => s0.answered t.hart t.asid e.1 e.2
    | none => s0
  let s1 := { sa with xfers := sa.xfers.filter (fun u => decide (u.id ≠ t.id)) }
  let s2 := s1.setHart t.hart ((s1.hart t.hart).count t.cn (· - 1)).xferDone
  match t.arr with
  | some va =>
    match s2.arriveOn t.hart t.asid va 1 (fail.map (·.1)) with
    | .ok s3 => s3
    | .error e => s2.engFailed t e
  | none =>
    match fail with
    | some e => s2.engFailed t e
    | none => s2

/-- A shootdown is pending for an address space, and its engines pause (R131): an UNMAP, a MIGRATE of one of its pages that is not yet
moved, or an eviction of a layer. -/
def State.shootdown (s : State) (asid : Nat) : Bool :=
  s.migs.any (fun g => if g.unmap then decide (g.asid = asid)
    else !g.moved && s.maps.any (fun m => decide (m.asid = asid) && decide (m.pa = g.pa))) ||
  s.swaps.any (fun w => decide (w.phase = .evicting) && (s.ctx w.mctx).any (fun c => decide (c.asid = asid)))
/-- Transfer `e` stands before transfer `t` in the vector stream of their hart: a TLDF stands where its bolt does (R135, R270). -/
def Xfer.earlier (e t : Xfer) : Bool :=
  match e.bolt, t.bolt with
  | some q, none => t.behind.contains q || decide (e.id < t.id)
  | none, some q => !(e.behind.contains q) && decide (e.id < t.id)
  | _, _ => decide (e.id < t.id)
/-- A transfer has to follow another of its hart (R135, R142). -/
def Xfer.follows (t e : Xfer) : Bool :=
  decide (e.hart = t.hart) && decide (e.uid = t.uid) && decide (e.id ≠ t.id) && e.earlier t &&
    (e.meets t.srcLo (t.srcHi - t.srcLo) false || t.dstRanges.any (fun r => e.meets r.1 r.2 true) ||
      (decide (e.kind = t.kind) && decide (t.kind = .sld)))
/-- The vector side stands at a convoy boundary, or at a matrix group boundary (R317, R318). -/
def Hart.vectorStopped (x : Hart) : Bool :=
  match x.bolts with
  | [] => true
  | b :: _ => decide (b.convoy = []) || b.mpos.isSome
/-- A bolt may yet reach a range: scratchpad, through a token, or, as a tile's source or an arrival word, at an address that its frame
gives (R138, R270). -/
def Bolt.mayReach (b : Bolt) (x : Hart) (r : Nat × Nat) : Bool :=
  let vs := b.frame.map (·.2)
  let near (v w : Word) : Bool :=
    rangesMeet r (boxRange (addrPlus v.toNat (-(2 ^ 17))) (2 ^ 18) [⟨256, w⟩])
  decide (0 < r.2) && (decide (aperture < r.1 + r.2) || x.toks.any (fun p => decide (p.2.st ≠ .free) && rangesMeet r (p.2.base, p.2.ext)) ||
    (0 :: vs).any (fun v => (0 :: vs).any (near v)))
/-- A bolt that a transfer stands behind is not complete (R142): it waits for every bolt issued before it, whatever they access, and
for those set aside since that may yet reach its ranges (log 89). Once a pre-emption has stopped the hart's bolts it waits for none
of them (R320, log 103). -/
def Xfer.waits (t : Xfer) (x : Hart) : Bool :=
  !(x.preempt.isSome && x.vectorStopped) && (x.bolts.any (fun b => t.behind.contains b.seq) ||
    x.frames.any (fun f => f.bolts.any (fun b => t.behind.contains b.seq && (t.srcRange :: t.dstRanges).any (b.mayReach x))))
/-- A transfer may complete: the bolts it waits for are complete, and the transfers it follows, and no shootdown is pending (R131,
R142, R387). -/
def State.xferReady (s : State) (t : Xfer) : Bool :=
  !(t.waits (s.hart t.hart)) && !(s.xfers.any t.follows) && !(s.shootdown t.asid)

/-- A transfer in flight. -/
def State.xfer (s : State) (x : Nat) : Option Xfer := s.xfers.find? (fun t => decide (t.id = x))

/-- Row `r` of piece `p` has been filled: the pointer of its bank moves, and the piece is done once every row is (R136). -/
def Xfer.filled (t : Xfer) (p r : Nat × Nat × Nat) : Xfer :=
  let u := { t with banks := Tab.set 0 t.banks (bankOf r.1) (r.1 + r.2.2) }
  if u.rowsLeft p = [] then { u with done := u.done + p.2.2, banks := [] } else u
/-- The next row of bank `k`, or while a structure holds an error of any bank, in the piece that a COPY or COPYM has reached is moved,
where the transfer may go on (R131, R136); a failure ends it. -/
def State.moveNext (s0 : State) (x k : Nat) : State :=
  match s0.xfer x with
  | none => s0
  | some t =>
    let s := s0.drainBy t.hart (·.vec)
    match t.piece with
    | none => s0
    | some p =>
      let any := decide (s.rel.upsets ≠ [])
      match (t.rowsLeft p).find? (fun r => any || decide (bankOf r.1 = k)) with
      | none => s0
      | some r =>
        if (t.kind = .copy ∨ t.kind = .copym) ∧ s.xferReady t then
          match t.copyPiece (s, none) r with
          | (s1, some e) => s1.finishXfer t (some e)
          | (s1, none) =>
            let s2 := s1.setHart t.hart (s1.hart t.hart).xferDone
            { s2 with xfers := s2.xfers.map (fun (u : Xfer) => if u.id = x then u.filled p r else u) }
        else s0

/-- ENGINE_TRANSFER_COMPLETE (R127, R131, R136, R139, R201-R203), behind the vector accesses of its hart (R135); `ext` is the set of
links whose peers refuse. -/
def execEngineTransferComplete (x ext : Nat) (s : State) : Host.Outcome State Fault Refusal :=
  match s.xfer x with
  | none => .next s
  | some t =>
    if t.kind ≠ .tldf ∧ s.xferReady t then
      let m := (s.drainBy t.hart (·.vec)).moveXfer t ext
      .next (m.1.finishXfer t m.2)
    else .next s

/-- ENGINE_ISSUE_ROOM (R197): a hart that waits for room issues again. -/
def execEngineIssueRoom (h : Nat) (s : State) : Host.Outcome State Fault Refusal :=
  match s.waitOf h with
  | some ⟨.engineRoom cn, _, _, _⟩ => .next (if s.engRoom h cn then s.endWait h else s)
  | _ => .next s

end Sys2Proof.Machine
end

