-- ==== Sys2Proof/Machine/Matrix.lean ====
section
/-!
DEFINITION. The matrix engine: tiles and scales, row products and sweeps, one group of 32 products a step, drains, zeroing
and accumulator loads, with their checksums (R265-R280, R323, R333).
-/
namespace Sys2Proof.Machine

open Sys2Proof

/-! ### Tiles (R265, R268, R275) -/

/-- K of a weight tag (R265); 0 for the code of a tile never loaded. -/
def tileK (fx : BitVec 4) : Nat :=
  if fx = 0 then 0 else if fx = 8 ∨ fx = 9 then 256 else if fx = 14 ∨ fx = 15 then 1024 else 512
/-- A tile of a core. -/
def Core.tile (c : Core) (t : Nat) : Tile := Tab.get Tile.cleared c.tiles t
/-- A tile replaced. -/
def Core.setTile (c : Core) (t : Nat) (x : Tile) : Core := { c with tiles := Tab.set Tile.cleared c.tiles t x }
/-- W[k][j] as a value. -/
def Tile.weight (x : Tile) (k j : Nat) : Val := (Tag.ofFX x.fx).value (Tab.get 0 x.w (256 * k + j)).toNat
/-- TS[g][j] as a value. -/
def Tile.scale (x : Tile) (g j : Nat) : Val := Tag.e8m0.value (Tab.get (0x7F : BitVec 8) x.ts (256 * g + j)).toNat
/-- An exact sum of terms, a zero by the signs of its terms (R77). -/
def sumVals : List Val → Val
  | [] => Val.zero false
  | v :: t => t.foldl (fun s v => (s.add .rne v).1) v
/-- An exact product of values. -/
def mulVal (a b : Val) : Val := (a.mul b).1
/-- The checksum column C[k] (R275). -/
def Tile.c (x : Tile) (k : Nat) : Val := sumVals ((upTo 256).map (fun j => mulVal (x.weight k j) (x.scale (k / 32) j)))
/-- The unscaled checksum column U[k] (R275). -/
def Tile.u (x : Tile) (k : Nat) : Int := ((upTo 256).map (fun j => (x.weight k j).toInt)).sum

/-! ### Checks (R20, R267, R308, R310) -/

/-- A matrix position at the start. -/
def MPos.start : MPos := ⟨0, 0, 0, 0⟩
/-- A cause of a bolt with its address. -/
def vecFail (cause addr : Nat) : Act Unit := vraise cause addr

/-- MX_DIVERGENT, LOT_NOT_HELD for a slab or the engine, MX_ROW_RANGE. -/
def mxChecks (b : Bolt) (dcase n rows rcase : Nat) : Act Unit := do
  let s ← get
  vraiseIf (decide (1 < b.frags.length)) (140 + dcase)
  let last := (min (n + rows) 1024 - 1) / 128
  vraiseIf (decide (rows ≠ 0) && !((upFrom (n / 128) (last + 1 - n / 128)).all (fun q => s.holds 1 q))) 196
  vraiseIf (!(s.holds 3 0)) 197
  vraiseIf (decide (1024 < n + rows)) (145 + rcase)

/-- A matrix instruction of the running hart. A precise trap and a wait keep its position, from which it goes on (R274); a trap it
answers is taken with what it has changed. -/
def runMx (m : Bolt → Act (Option TrapInfo)) (s : State) : Host.Outcome State Fault Refusal :=
  match s.me.bolts with
  | [] => .next s
  | b :: _ =>
    let b' := { b with mpos := some (b.mpos.getD .start) }
    let s0 := s.modMe (fun x => x.modBolt (fun _ => b'))
    match m b' s0 with
    | .ok (none, s') => .next s'
    | .ok (some t, s') => .next (s'.takeTrap t)
    | .error (.trap t) => .next (s0.takeTrap t)
    | .error (.stall k l) => .next (s0.vwaitFor k l)

/-- The bolt past a matrix instruction. -/
def Hart.mxNext (x : Hart) : Hart := (x.modBolt (fun b => { b with mpos := none })).vnext
/-- The bolt at a later position of its matrix instruction. -/
def Hart.mxAt (x : Hart) (p : MPos) : Hart := { x.modBolt (fun b => { b with mpos := some p }) with vwait := none }

/-! ### Tile loads (R269-R271) -/

/-- The rows of a tile's source as footprints. -/
def tileRows (base : Nat) (rs : Int) (fx : BitVec 4) : List Foot :=
  (upTo (tileK fx)).map (fun (k : Nat) => ⟨0, addrPlus base (k * rs), 256 * (Tag.ofFX fx).width⟩)
/-- The codes of a tile row. -/
def rowCodes (k w v : Nat) : List (Nat × BitVec 16) :=
  ((upTo 256).map (fun j => (256 * k + j, BitVec.ofNat 16 (v / 2 ^ (j * w) % 2 ^ w)))).filter (fun p => decide (p.2 ≠ 0))
/-- The codes of a tile's rows. -/
def tileCodes (w : Nat) (rows : List Nat) : Tab (BitVec 16) :=
  ((upTo rows.length).zip rows).flatMap (fun p => rowCodes p.1 w p.2)

/-- A loaded tile: VALID, every scale 1.0. -/
def Tile.loaded (fx : BitVec 4) (w : Tab (BitVec 16)) (tok : Option Nat) (base : Nat) (rs : Int) : Tile :=
  { st := .valid, fx := fx, w := w, ts := [], tok := tok, base := base, rs := rs, fill := none }

/-- Base and row stride of a tile load (R269). -/
def tileSource (b : Bolt) (sa sb : Reg) (disp : BitVec 17) (fx : BitVec 4) : Nat × Int :=
  (b.base sa disp, if sb = 0 then (256 * (Tag.ofFX fx).width : Nat) else (b.f sb).toInt)

/-- A load of a tile being filled waits for the fill (R280). -/
def tileFree (t : Nat) : Act Unit := do
  let c ← myCore
  if (c.tile t).st = .filling then stall .interlock

/-- The errors of a tile's codes, scales and checksums are gone as all of them are written anew (R377). -/
def State.clearTile (s : State) (k t : Nat) : State :=
  (s.clearUpsets (2 + t) k (fun _ => true)).clearUpsets 4 k (fun w => decide (w % 2 = t))
/-- TLD (R269). -/
def tldAct (td : TReg) (sa sb : Reg) (disp : BitVec 17) (fx : BitVec 4) (tok : Tok) (b : Bolt) : Act (Option TrapInfo) := do
  operands (.tld td sa sb disp fx tok)
  mxChecks b 2 0 0 0
  tileFree td.toNat
  let (base, rs) := tileSource b sa sb disp fx
  let fp := tileRows base rs fx
  tokenCheck tok.toNat .rd 5 4 fp
  let sp ← tokSpace tok.toNat
  vreach sp b.seq .rd 5 fp
  let rows ← fp.mapM (fun p => vecRead sp p)
  modify (fun s => s.clearTile (coreOf s.cur) td.toNat)
  modMyCore (fun c => c.setTile td.toNat (.loaded fx (tileCodes (Tag.ofFX fx).width rows) (some tok.toNat) base rs))
  modMe Hart.mxNext
  pure none
/-- TLD (R269). -/
def execTld (td : TReg) (sa sb : Reg) (disp : BitVec 17) (fx : BitVec 4) (tok : Tok) (s : State) :=
  runMx (tldAct td sa sb disp fx tok) s

/-- TLDF (R270): issued as an engine transfer, in the vector stream where its bolt stands. -/
def tldfAct (td : TReg) (sa sb : Reg) (cc : CReg) (disp : BitVec 17) (fx : BitVec 4) (b : Bolt) : Act (Option TrapInfo) := do
  operands (.tldf td sa sb cc disp fx)
  mxChecks b 2 0 0 0
  let (base, rs) := tileSource b sa sb disp fx
  let (lo, n) := boxRange base (256 * (Tag.ofFX fx).width) [⟨tileK fx, word rs⟩]
  vraiseIf (decide (aperture ≤ lo) && decide (2 ^ 64 < lo + n)) 174 lo
  rangeChecks vecFail [(lo, n, 5)]
  tileFree td.toNat
  let s ← get
  startXfer { s.newXfer .tldf cc.toNat 0 base (256 * (Tag.ofFX fx).width) with
    stride := rs, tile := td.toNat, fx := fx, srcLo := lo, srcHi := lo + n, dstHi := 0, behind := [],
    bolt := some b.seq }
  modMyCore (fun c => c.setTile td.toNat { Tile.cleared with st := .filling, fx := fx, fill := some s.nextUid })
  modMe Hart.mxNext
  pure none
/-- TLDF (R270). -/
def execTldf (td : TReg) (sa sb : Reg) (cc : CReg) (disp : BitVec 17) (fx : BitVec 4) (s : State) :=
  runMx (tldfAct td sa sb cc disp fx) s

/-- The rows of a TLDF as its engine reads them. -/
def Xfer.fillRows (t : Xfer) : State → List Foot → Except EngErr (List Nat × State)
  | s, [] => .ok ([], s)
  | s, p :: r =>
    match s.engRead t.hart t.asid p.a p.w 5 with
    | .error e => .error e
    | .ok (v, s1) =>
      match Xfer.fillRows t s1 r with
      | .error e => .error e
      | .ok (l, s2) => .ok (v :: l, s2)
/-- A filled tile of a transfer's core, if it still waits for that transfer (R268). -/
def State.tileFilled (s : State) (t : Xfer) (x : Tile) : State :=
  let c := s.core (coreOf t.hart)
  if (c.tile t.tile).st = .filling ∧ (c.tile t.tile).fill = some t.id then
    (s.setCore (coreOf t.hart) (c.setTile t.tile x)).clearTile (coreOf t.hart) t.tile
  else s

/-- TLDF_FILL_COMPLETE (R268, R270): VALID and detached, or INVALID where the fill fails. -/
def execTldfFillComplete (x ext : Nat) (s : State) : Host.Outcome State Fault Refusal :=
  match s.xfer x with
  | none => .next s
  | some t =>
    if t.kind = .tldf ∧ s.xferReady t ∧ ext = 0 then
      let s := s.drainBy t.hart (·.vec)
      match t.fillRows s (tileRows t.src t.stride t.fx) with
      | .error e => .next ((s.tileFilled t .cleared).finishXfer t (some e))
      | .ok (rows, s1) =>
        .next ((s1.tileFilled t (.loaded t.fx (tileCodes (Tag.ofFX t.fx).width rows) none 0 0)).finishXfer t none)
    else .next s

/-- TSCL (R271); the footprint comes before the tile's state. -/
def tsclAct (td : TReg) (sa : Reg) (disp : BitVec 17) (tok : Tok) (b : Bolt) : Act (Option TrapInfo) := do
  operands (.tscl td sa disp tok)
  mxChecks b 2 0 0 0
  let c ← myCore
  let x := c.tile td.toNat
  let g := tileK x.fx / 32
  let fp : List Foot := [⟨0, b.base sa disp, 2048 * g⟩]
  tokenCheck tok.toNat .rd 5 5 fp
  vraiseIf (decide (x.st = .invalid) || decide (x.st = .filling)) (150 + td.toNat)
  let sp ← tokSpace tok.toNat
  vreach sp b.seq .rd 5 fp
  let rows ← fp.mapM (fun p => vecRead sp p)
  let v := rows.foldl (fun _ v => v) 0
  modify (fun s => s.clearUpsets 4 (coreOf s.cur) (fun w => decide (w % 2 = td.toNat)))
  let ts := ((upTo (256 * g)).map (fun i => (i, BitVec.ofNat 8 (v / 2 ^ (8 * i))))).filter (fun p => decide (p.2 ≠ 0x7F))
  modMyCore (fun c => c.setTile td.toNat { x with ts := ts })
  modMe Hart.mxNext
  pure none
/-- TSCL (R271). -/
def execTscl (td : TReg) (sa : Reg) (disp : BitVec 17) (tok : Tok) (s : State) := runMx (tsclAct td sa disp tok) s

/-! ### The check of a tile before a group (R268, R323, R333) -/

/-- A tile of the running hart's core set. -/
def setMyTile (t : Nat) (x : Tile) : Act Unit := modMyCore (fun c => c.setTile t x)

/-- RELOAD (R268): the weight codes are read again through the token, and the scales are kept. TADDR of a revoked token is the first
weight row of the group (log 115). -/
def reloadTile (b : Bolt) (t : Nat) (x : Tile) (k g : Nat) : Act (Except TrapInfo Tile) := do
  setMyTile t { x with st := .reload }
  let s ← get
  let fp := tileRows x.base x.rs x.fx
  match s.probeCause k .rd 5 6 fp with
  | some (c, a, _) =>
    let at_ := if c = memCause 6 5 then a else addrPlus x.base (32 * g * x.rs)
    pure (.error (s.vecTrap c at_ 0 k))
  | none => do
    let sp ← tokSpace k
    vreach sp b.seq .rd 5 fp
    let rows ← fp.mapM (fun p => vecRead sp p)
    modify (fun s => s.clearUpsets (2 + t) (coreOf s.cur) (fun _ => true))
    let y := { x with st := .valid, w := tileCodes (Tag.ofFX x.fx).width rows }
    setMyTile t y
    pure (.ok y)

/-- The tile check before group `g`: the tile, or the trap, which is taken with the tile's new state. -/
def tileCheck (b : Bolt) (t g r : Nat) : Act (Except TrapInfo Tile) := do
  let s ← get
  let x := s.myCore.tile t
  let scaleUpset := s.upsetAt 4 (coreOf s.cur) (fun w => decide (w % 2 = t))
  let upset := s.upsetAt (2 + t) (coreOf s.cur) (fun _ => true)
  match x.st, x.tok with
  | .invalid, _ => pure (.error (s.vecTrap (148 + t) 0))
  | .filling, _ => stall .interlock
  | .reload, some k => reloadTile b t x k g
  | .reload, none => pure (.ok x)
  | .valid, tok => do
    consumeUpset scaleUpset (s.vecTrap 0 0 r)
    match tok with
    | some k =>
      match (s.me.tok k).st with
      | .unmapped | .evicted _ _ => reloadTile b t x k g
      | _ =>
        match upset with
        | none => pure (.ok x)
        | some u =>
          if u.unc then do
            let s ← get
            let s1 := (s.clearUpset u).logError 0 (320 + 2 * u.s) 0 s.cur
            set (if s1.me.cen then s1.modMe (fun x => x.keep 2 (s.vecTrap (320 + 2 * u.s) 0 r)) else s1)
            reloadTile b t x k g
          else do
            consumeUpset (some u) (s.vecTrap 0 0 r)
            pure (.ok x)
    | none =>
      match upset with
      | some u =>
        if u.unc then do
          modify (fun s => s.clearUpset u)
          setMyTile t .cleared
          pure (.error { s.vecTrap (321 + 2 * u.s) 0 r with detail := if u.poisoned then 1 else 0 })
        else do
          consumeUpset (some u) (s.vecTrap 0 0 r)
          pure (.ok x)
      | none => pure (.ok x)

/-! ### Accumulator rows (R266, R275) -/

/-- Column `j` of a row. -/
def Core.accAt (c : Core) (r j : Nat) : Nat := (Tab.get 0 c.acc (256 * r + j)).toNat
/-- A row written, column by column. -/
def Core.setRow (c : Core) (r : Nat) (f : Nat → Nat) : Core :=
  { c with acc := (upTo 256).foldl (fun t j => Tab.set 0 t (256 * r + j) (BitVec.ofNat 32 (f j))) c.acc }
/-- CHK and arrival word of a row. -/
def Core.row (c : Core) (r : Nat) : RowInfo := Tab.get ⟨0, none⟩ c.rows r
/-- CHK and arrival word of a row replaced. -/
def Core.setInfo (c : Core) (r chk : Nat) (arr : Option Word) : Core :=
  { c with rows := Tab.set ⟨0, none⟩ c.rows r ⟨BitVec.ofNat 32 chk, arr⟩ }
/-- A value rounded to f32 under RNE, which FMODE does not change (R92). -/
def rneF32 (v : Val) : Nat := ((Tag.flt .f32).narrow .rne false false true v.res).1
/-- A code of 32 bits as the accumulator tag reads it (R266). -/
def accVal (f32 : Bool) (c : Nat) : Val := if f32 then Flt.f32.value c else Val.ofInt (signed c 32)
/-- add_group of R92 on the products of a group: the terms of one exact sum with the column (R77). -/
def addGroup (f32 : Bool) (c : Nat) (vs : List Val) : Nat :=
  if f32 then rneF32 (sumVals (accVal true c :: vs)) else wrap (signed c 32 + (vs.map Val.toInt).sum) 32

/-- One group of a row product added into row `r` (R92, R272, R275): `acts` are the supplied a(k). -/
def addRowGroup (x : Tile) (f32 : Bool) (g r : Nat) (acts : List (Nat × Val)) (arr : Option Word) (c : Core) : Core :=
  let col (j : Nat) : List Val := acts.map (fun p =>
    if f32 then mulVal (mulVal p.2 (x.weight p.1 j)) (x.scale g j) else mulVal p.2 (x.weight p.1 j))
  let chk : List Val := acts.map (fun p => mulVal p.2 (if f32 then x.c p.1 else Val.ofInt (x.u p.1)))
  let i := c.row r
  (c.setRow r (fun j => addGroup f32 (c.accAt r j) (col j))).setInfo r (addGroup f32 i.chk.toNat chk) arr

/-- Words of an accumulator row (R374). -/
def accWord (r w : Nat) : Bool := decide (w / 128 = r)
/-- The errors of a row of the running hart's core. -/
def State.rowUpsets (s : State) (r : Nat) : List Upset :=
  s.rel.upsets.filter (fun u => decide (u.s = 1) && decide (u.place = coreOf s.cur) && accWord r u.word)
/-- An error in a row that an instruction adds into (R323): 323, once for a row of the instruction unless the row is struck again,
and its columns stay poisoned. -/
def accAddCheck (b : Bolt) (r : Nat) : Act (Option TrapInfo) := do
  let s ← get
  let l := s.rowUpsets r
  match l.find? (fun u => u.unc && (!u.poisoned || !(b.rowsTold.contains r))) with
  | none => do
    consumeUpsets (l.filter (fun u => !u.unc)) (s.vecTrap 0 0 r)
    pure none
  | some u => do
    set { s with rel := { s.rel with upsets := s.rel.upsets.map (fun (v : Upset) =>
      if l.contains v && v.unc then { v with poisoned := true } else v) } }
    modMe (fun x => x.modBolt (fun b => { b with rowsTold := r :: b.rowsTold }))
    pure (some { s.vecTrap 323 0 r with detail := if u.poisoned then 1 else 0 })
/-- An error in a row that a drain reads (R323). -/
def accReadCheck (r : Nat) : Act Unit := do
  let s ← get
  consumeUpsets (s.rowUpsets r) (s.vecTrap 0 0 r)

/-! ### Row products and sweeps (R272-R274) -/

/-- a(k) of R272: the zero point of R89, and the scale of R88. -/
def Hart.activation (y : Hart) (t : Tag) (f32 useScale : Bool) (k : Nat) (v : Val) : Val :=
  let d := if t.isInt && decide (t.width ≤ 8) then Val.ofInt (v.toInt - zeroPoint y.zpa t) else v
  if f32 && useScale then mulVal d (Tag.e8m0.value (y.sfCode (y.scaleIndex k))) else d
/-- The accumulator tag is f32 (R266). -/
def accF32 (act weight : Tag) : Bool := !(act.isInt && weight.isInt)

/-- A row product or sweep completes: its arrival, behind the hart's vector accesses, or the memory cause that keeps it from its word
(R138, R304). -/
def mxComplete (b : Bolt) (sc : Reg) : Act (Option TrapInfo) := do
  if sc = 0 then do
    modMe Hart.mxNext
    pure none
  else do
    let s ← get
    let va := (b.f sc).toNat
    if (s.blocked s.me.asid va 64).isSome then stall (.page va 7)
    if s.vecInterlocked b.seq va 64 true then stall .interlock
    drainedBy (·.vec)
    let s ← get
    match s.arriveOn s.cur s.me.asid va 1 none with
    | .ok s1 => do
      set s1
      modMe Hart.mxNext
      pure none
    | .error e => do
      modMe Hart.mxNext
      pure (some (s.vecTrap e.1 e.2))

/-- The arrival word recorded for a row. -/
def Bolt.arrival (b : Bolt) (sc : Reg) : Option Word := if sc = 0 then none else some (b.f sc)

/-- MROW and MROWZ (R272): the group at the bolt's position, then the next, or completion. A bound source is consumed once,
at completion. Every k below K reads sa(k), supplied or not, as the text of R272 writes it (DEDUCED, safe). -/
def mrowAct (i : Instr) (zero : Bool) (va : VReg) (tb : TReg) (sc : Reg) (useScale : Bool) (n : BitVec 10) (k : MaskOp)
    (b : Bolt) : Act (Option TrapInfo) := do
  operands i
  mxChecks b 0 n.toNat 1 0
  let p := b.mpos.getD .start
  if sc ≠ 0 ∧ p = .start then arrivalCheck vecFail 186 (b.f sc).toNat
  let s ← get
  let binds := s.me.binds
  let t0 := s.myCore.tile tb.toNat
  let y ← mxSources b k [va]
  let tag := y.tag va
  if useScale && accF32 tag (Tag.ofFX t0.fx) then scaleRead 130 b (upTo (tileK t0.fx))
  if zero && decide (p.g = 0) then modMyCore (fun c => (c.setRow n.toNat (fun _ => 0)).setInfo n.toNat 0 (c.row n.toNat).arr)
  match ← tileCheck b tb.toNat p.g n.toNat with
  | .error t => do
    modMe (fun x => { x with binds := binds })
    pure (some t)
  | .ok x =>
    if tileK x.fx ≤ 32 * p.g then mxComplete b sc
    else do
      let f32 := accF32 tag (Tag.ofFX x.fx)
      match ← accAddCheck b n.toNat with
      | some t => do
        modMe (fun x => { x with binds := binds })
        pure (some t)
      | none => do
        let ks := (upFrom (32 * p.g) 32).filter (b.active y k)
        let acts := ks.map (fun e => (e, y.activation tag f32 useScale e (y.val va e)))
        modMyCore (addRowGroup x f32 p.g n.toNat acts (b.arrival sc))
        if tileK x.fx ≤ 32 * (p.g + 1) then mxComplete b sc
        else do
          modMe (fun x => { x with binds := binds }.mxAt { p with g := p.g + 1 })
          pure none
/-- MROW (R272). -/
def execMrow (va : VReg) (tb : TReg) (sc : Reg) (useScale : Bool) (n : BitVec 10) (k : MaskOp) (s : State) :=
  runMx (mrowAct (.mrow va tb sc useScale n k) false va tb sc useScale n k) s
/-- MROWZ (R272). -/
def execMrowz (va : VReg) (tb : TReg) (sc : Reg) (useScale : Bool) (n : BitVec 10) (k : MaskOp) (s : State) :=
  runMx (mrowAct (.mrowz va tb sc useScale n k) true va tb sc useScale n k) s

/-- The first position of a sweep at or after `p`, whose tile has `g` groups; none once the box is done (R273). -/
def sweepPos (l0 l1 l2 g : Nat) (p : MPos) : Option MPos :=
  if l0 * l1 * l2 = 0 then none
  else
    let p1 : MPos := if 0 < g ∧ g ≤ p.g then ⟨p.i2, p.i1, p.i0 + 1, 0⟩ else p
    let p2 : MPos := if l0 ≤ p1.i0 then ⟨p1.i2, p1.i1 + 1, 0, 0⟩ else p1
    let p3 : MPos := if l1 ≤ p2.i1 then ⟨p2.i2 + 1, 0, 0, 0⟩ else p2
    if l2 ≤ p3.i2 then none else some p3

/-- MSWEEP (R273): the group at the bolt's position, then the next, or completion. -/
def msweepAct (sa : Reg) (tb : TReg) (sc : Reg) (useScale : Bool) (n : BitVec 10) (fx : BitVec 4) (tok : Tok)
    (b : Bolt) : Act (Option TrapInfo) := do
  operands (.msweep sa tb sc useScale n fx tok)
  mxChecks b 1 n.toNat b.box 0
  if sc ≠ 0 ∧ b.mpos.getD .start = .start then arrivalCheck vecFail 187 (b.f sc).toNat
  let s ← get
  let t0 := s.myCore.tile tb.toNat
  match sweepPos (b.len 0) (b.len 1) (b.len 2) (tileK t0.fx / 32) (b.mpos.getD .start) with
  | none => mxComplete b sc
  | some p => do
    let tag := Tag.ofFX fx
    let w := tag.width
    let fp : Foot := ⟨0, addrPlus (b.f sa).toNat (p.i0 * b.stride 0 + p.i1 * b.stride 1 + p.i2 * b.stride 2
      + (32 * p.g * w : Nat)), 32 * w⟩
    tokenCheck tok.toNat .rd 5 7 [fp]
    let sp ← tokSpace tok.toNat
    vreach sp b.seq .rd 5 [fp]
    if useScale && accF32 tag (Tag.ofFX t0.fx) then scaleRead 131 b (upTo (tileK t0.fx))
    let r := n.toNat + p.i0 + b.len 0 * (p.i1 + b.len 1 * p.i2)
    let v ← vecRead sp fp
    match ← tileCheck b tb.toNat p.g r with
    | .error t => pure (some t)
    | .ok x => do
      let f32 := accF32 tag (Tag.ofFX x.fx)
      match ← accAddCheck b r with
      | some t => pure (some t)
      | none => do
        let y ← me
        let acts := (upTo 32).map (fun j =>
          (32 * p.g + j, y.activation tag f32 useScale (32 * p.g + j) (tag.value (v / 2 ^ (j * w) % 2 ^ w))))
        modMyCore (addRowGroup x f32 p.g r acts (b.arrival sc))
        match sweepPos (b.len 0) (b.len 1) (b.len 2) (tileK x.fx / 32) { p with g := p.g + 1 } with
        | none => mxComplete b sc
        | some q => do
          modMe (fun x => x.mxAt q)
          pure none
/-- MSWEEP (R273). -/
def execMsweep (sa : Reg) (tb : TReg) (sc : Reg) (useScale : Bool) (n : BitVec 10) (fx : BitVec 4) (tok : Tok) (s : State) :=
  runMx (msweepAct sa tb sc useScale n fx tok) s

/-! ### Drains (R276-R278) -/

/-- A finite f32 code in units of 2^-149. -/
def f32Units (c : Nat) : Int :=
  let e := c / 2 ^ 23 % 256
  let m := c % 2 ^ 23
  let v : Nat := if e = 0 then m else (m + 2 ^ 23) * 2 ^ (e - 1)
  if c.testBit 31 then -(v : Int) else v
/-- A row mismatches its checksum (R276). -/
def Core.mismatch (c : Core) (f32 : Bool) (r : Nat) : Bool :=
  let l := (upTo 256).map (c.accAt r)
  let chk := (c.row r).chk.toNat
  if f32 then
    if (chk :: l).any (fun x => decide (x / 2 ^ 23 % 256 = 255)) then false
    else
      let sum := (l.map f32Units).sum
      decide (((l.map (fun x => (f32Units x).natAbs)).sum + (f32Units chk).natAbs)
        < 2 ^ 12 * (sum - f32Units chk).natAbs)
  else decide ((l.sum) % 2 ^ 32 ≠ chk)

/-- The mismatch of one row (R276): ERR and CAUSE in its recorded word, or the trap of the lowest row that records none. A word that
cannot be reached gives its memory cause, where no row takes MX_CHECKSUM (log 118). -/
def drainTest (f32 : Bool) (m : State × Option TrapInfo) (r : Nat) : State × Option TrapInfo :=
  let s := m.1
  if s.myCore.mismatch f32 r then
    let s : State := { s with rel := { s.rel with mxBad := s.rel.mxBad + 1 } }
    match (s.myCore.row r).arr with
    | some va =>
      match s.arriveOn s.cur s.me.asid va.toNat 0 (some (152 + r / 128)) with
      | .ok s1 => (s1, m.2)
      | .error e => (s, if m.2.isNone then some (s.vecTrap e.1 e.2) else m.2)
    | none =>
      match m.2 with
      | some t => if 152 ≤ t.cause ∧ t.cause < 160 then (s, m.2) else (s, some { s.vecTrap (152 + r / 128) 0 with idx := nword r })
      | none => (s, some { s.vecTrap (152 + r / 128) 0 with idx := nword r })
  else m
/-- The tests of the rows a drain has read; the trap is taken with the bolt past the drain (R276, R304). -/
def drainTests (f32 : Bool) (rows : List Nat) : Act (Option TrapInfo) := fun s =>
  let m := rows.foldl (drainTest f32) (s, none)
  .ok (m.2, m.1)

/-- MDRAIN (R277). -/
def mdrainAct (vd : VReg) (r : Rnd) (n : BitVec 10) (k : MaskOp) (b : Bolt) : Act (Option TrapInfo) := do
  operands (.mdrain vd r n k)
  mxChecks b 3 n.toNat 1 0
  accReadCheck n.toNat
  let y ← me
  let c ← myCore
  let f32 := !(y.tag vd).isInt
  let es := (b.actives y k).filter (fun e => decide (e < 256))
  slotsWritten vd es
  let code (e : Nat) : Nat := (y.narrowTo vd (y.mode r) true f32 ((accVal f32 (c.accAt n.toNat e)).res, 0)).1
  modMe (fun x => x.putCodes vd (es.map (fun e => (e, code e))))
  let t ← drainTests f32 [n.toNat]
  modMe Hart.mxNext
  pure t
/-- MDRAIN (R277). -/
def execMdrain (vd : VReg) (r : Rnd) (n : BitVec 10) (k : MaskOp) (s : State) := runMx (mdrainAct vd r n k) s

/-- MDRAINS (R278); its rows are written in ascending order where they overlap (log 116), and TIDX of a scratchpad cause is the row
within the instruction (log 117). -/
def mdrainsAct (sa sb : Reg) (r : Rnd) (rows : BitVec 7) (n : BitVec 10) (fx : BitVec 4) (b : Bolt) :
    Act (Option TrapInfo) := do
  operands (.mdrains sa sb r rows n fx)
  mxChecks b 3 n.toNat (rows.toNat + 1) 1
  let tag := Tag.ofFX fx
  let w := tag.width
  let f32 := !tag.isInt
  let rs : Int := if sb = 0 then (256 * w : Nat) else (b.f sb).toInt
  let fp : List (Nat × Foot) := (upTo (rows.toNat + 1)).flatMap (fun (i : Nat) => (upTo 256).map (fun (j : Nat) =>
    (j, ⟨i, addrPlus (b.f sa).toNat (i * rs + (j * w : Nat)), w⟩)))
  scratchCheck (fp.map (·.2))
  scratchWait b true (fp.map (·.2))
  let rs := upFrom n.toNat (rows.toNat + 1)
  rs.forM accReadCheck
  let y ← me
  let c ← myCore
  fp.forM (fun p =>
    writeFoot (.scratch false) p.2 (tag.narrow (y.mode r) true y.satfin f32 ((accVal f32 (c.accAt (n.toNat + p.2.e) p.1)).res)).1)
  let t ← drainTests f32 rs
  modMe Hart.mxNext
  pure t
/-- MDRAINS (R278). -/
def execMdrains (sa sb : Reg) (r : Rnd) (rows : BitVec 7) (n : BitVec 10) (fx : BitVec 4) (s : State) :=
  runMx (mdrainsAct sa sb r rows n fx) s

/-! ### Zeroing and accumulator loads (R279) -/

/-- MZERO (R279). -/
def mzeroAct (rows : BitVec 7) (n : BitVec 10) (b : Bolt) : Act (Option TrapInfo) := do
  operands (.mzero rows n)
  mxChecks b 4 n.toNat (rows.toNat + 1) 2
  let rs := upFrom n.toNat (rows.toNat + 1)
  modify (fun s => s.clearUpsets 1 (coreOf s.cur) (fun w => rs.any (fun r => accWord r w)))
  modMyCore (fun c => rs.foldl (fun c r => (c.setRow r (fun _ => 0)).setInfo r 0 none) c)
  modMe Hart.mxNext
  pure none
/-- MZERO (R279). -/
def execMzero (rows : BitVec 7) (n : BitVec 10) (s : State) := runMx (mzeroAct rows n) s

/-- The code MLDACC writes for a value, and whether an integer was held in range. -/
def loadAcc (f32 : Bool) (v : Val) : Nat × Bool :=
  if f32 then (rneF32 v, false) else (wrap (intHold true 32 v.toInt) 32, decide (intHold true 32 v.toInt ≠ v.toInt))
/-- MLDACC (R275, R279). -/
def mldaccAct (va : VReg) (n : BitVec 10) (k : MaskOp) (b : Bolt) : Act (Option TrapInfo) := do
  operands (.mldacc va n k)
  mxChecks b 4 n.toNat 1 0
  let y ← mxSources b k [va]
  let f32 := !(y.tag va).isInt
  let es := (b.actives y k).filter (fun e => decide (e < 256))
  let code (j : Nat) : Nat := if j ∈ es then (loadAcc f32 (y.val va j)).1 else 0
  let chk := if f32 then rneF32 (sumVals ((upTo 256).map (fun j => accVal true (code j)))) else ((upTo 256).map code).sum
  modify (fun s => s.clearUpsets 1 (coreOf s.cur) (accWord n.toNat))
  modMyCore (fun c => (c.setRow n.toNat code).setInfo n.toNat chk none)
  modMe (fun x => (if es.any (fun j => (loadAcc f32 (y.val va j)).2) then x.addFlags flNV else x).mxNext)
  pure none
/-- MLDACC (R279). -/
def execMldacc (va : VReg) (n : BitVec 10) (k : MaskOp) (s : State) := runMx (mldaccAct va n k) s

end Sys2Proof.Machine
end

