-- ==== Sys2Proof/Machine/Soft.lean ====
section
/-!
DEFINITION. Soft predicates: compares, combination, blends, collapses, generator seeds and gradients (R95-R100, R281-R295).
-/
namespace Sys2Proof.Machine

open Sys2Proof

/-! ### The soft compare (R97) -/

/-- A p16 code of an exact result, under RNE (R81). -/
def p16Of (r : Res) : Nat := (roundP16 .rne r).1
/-- The code of sigma(x), or of sigma(-x) with `flip`. -/
def sigmaCode (flip : Bool) (x : Res) : Nat :=
  match x with
  | .nan => 0
  | .inf neg => if neg != flip then 0 else 0x8000
  | .fin neg n d e => if n = 0 then 0x4000 else p16Of (sigOf (neg == flip) n d e)
/-- 1 - e^-x for x = n / d * 2^e above 0. -/
def oneLessExp (n d : Nat) (e : Int) : Res :=
  if isFar n d e then nearOne false
  else settled (fun p =>
    let (lo, hi) := expBounds p n d e
    let one : Int := 2 ^ p
    (one - (2 ^ (2 * p) / lo + 1 : Nat), one - (2 ^ (2 * p) / hi : Nat)))
/-- The code of exp(-x²), or of 1 - exp(-x²) with `less`. -/
def bellCode (less : Bool) (x : Res) : Nat :=
  match x with
  | .nan => 0
  | .inf _ => if less then 0x8000 else 0
  | .fin _ n d e =>
    if n = 0 then (if less then 0 else 0x8000)
    else p16Of (if less then oneLessExp (n * n) (d * d) (2 * e) else expOf true (n * n) (d * d) (2 * e))

/-- (a - b) / T of R97, T neither NaN nor zero. -/
def softRatio (a b t : Val) : Res :=
  if Val.compare .eq a b then .fin false 0 1 0
  else
    let d := (Val.sub .rne a b).1
    if t.isInf then (if d.isInf then d.res else .fin false 0 1 0) else (d.div t).1

/-- soft_cmp (R97). -/
def softCmp (c : Cond) (a b t : Val) : Nat :=
  if a.isNan || b.isNan then (if c = .ne then 0x8000 else 0)
  else if t.isZero then (if Val.compare c a b then 0x8000 else 0)
  else
    let x := softRatio a b t
    match c with
    | .gt | .ge => sigmaCode false x
    | .lt | .le => sigmaCode true x
    | .eq => bellCode false x
    | .ne => bellCode true x

/-- TEMP.T (R96). -/
def Hart.temperature (x : Hart) : Val := Flt.f32.value (x.temp.toNat % 2 ^ 32)
/-- SOFT_TEMP (R283, R292, R308): a NaN, or a negative non-zero T. -/
def tempCheck (case : Nat) : Act Unit := do
  let x ← me
  vraiseIf x.temperature.isNan (136 + case)
  vraiseIf (x.temperature.isNeg && !x.temperature.isZero) (137 + case)

/-! ### Making soft predicates (R283-R285) -/

/-- Codes and lineage written, QRANGE noted for the sources read as values (R281). -/
def putSoft (qd : QReg) (reads : List QReg) (es : List Nat) (lin : BitVec 8) (f : Nat → Nat) : Act Unit :=
  modMe (fun x => ((reads.foldl (fun x q => x.noteRange q es) x).putQ qd (es.map (fun e => (e, f e))) lin).vnext)

/-- QCMP (R97, R283). -/
def execQcmp (qd : QReg) (va vb : VReg) (lin : BitVec 8) (c : Cond) (k : MaskOp) (s : State) :=
  runVec (fun b => do
    operands (.qcmp qd va vb lin c k)
    tempCheck 0
    let y ← sources b k [va, vb]
    putSoft qd [] (b.actives y k) lin (fun e => softCmp c (y.val va e) (y.val vb e) y.temperature)) s

/-- QSET (R284). -/
def execQset (qd : QReg) (code : BitVec 16) (k : MaskOp) (s : State) :=
  runVec (fun b => do
    operands (.qset qd code k)
    let y ← me
    putSoft qd [] (b.actives y k) 0 (fun _ => code.toNat)) s

/-- QLIN (R284). -/
def execQlin (qd : QReg) (lin : BitVec 8) (s : State) :=
  runVec (fun _ => do
    operands (.qlin qd lin)
    modMe (fun x => { x with qlin := Tab.set 0 x.qlin qd.toNat lin }.vnext)) s

/-- QMOV (R285). -/
def execQmov (mv : QMove) (r : Rnd) (k : MaskOp) (s : State) :=
  runVec (fun b => do
    operands (.qmov mv r k)
    match mv with
    | .qq qd qa => do
      let y ← me
      putSoft qd [] (b.actives y k) (y.lin qa) (y.qcode qa)
    | .toQ qd va lin => do
      let y ← sources b k [va]
      let res (e : Nat) : Nat × Fl := Tag.p16.narrow (y.mode r) false y.satfin (!(y.tag va).isInt) (y.val va e).res
      modMe (fun x => x.addFlags ((b.actives y k).foldl (fun f e => f ||| (res e).2) 0))
      putSoft qd [] (b.actives y k) lin (fun e => (res e).1)
    | .fromQ vd qa => do
      let y ← me
      let es := b.actives y k
      if y.tag vd = .p16 then putResult vd (es.map (fun e => (e, y.qcode qa e, 0)))
      else do
        modMe (fun x => x.noteRange qa es)
        putResult vd (es.map (fun e => (e, y.narrowTo vd (y.mode r) false true ((Tag.p16.value (y.qcode qa e)).res, 0))))) s

/-! ### Combining soft predicates (R98, R286, R287) -/

/-- n / 32,768 rounded to an integer, ties to even. -/
def div15 (n : Nat) : Nat :=
  let q := n / 32768
  let r := n % 32768
  if 16384 < r ∨ (r = 16384 ∧ q % 2 = 1) then q + 1 else q
/-- The product rules of R98. -/
def softProduct (isAnd : Bool) (p q : Nat) : Nat := if isAnd then div15 (p * q) else div15 (32768 * (p + q) - p * q)
/-- The .c rules of R98. -/
def softBound (isAnd : Bool) (p q : Nat) : Nat := if isAnd then min p q else max p q

/-- The sources of a QAND or QOR share a lineage (R286). -/
def Hart.overlap (x : Hart) (qa qb : QReg) : Bool := decide (x.lin qa &&& x.lin qb ≠ 0)
/-- QSTAT.QDEP as a QAND or QOR sets it before anything else, whatever cause it then takes (R286, R293). -/
def State.noteDep (s : State) (i : Instr) : State :=
  match i with
  | .qand _ qa qb form _ | .qor _ qa qb form _ =>
    if !form && s.me.overlap qa qb && decide (s.me.bolts ≠ []) then s.modMe (fun x => { x with qstat := x.qstat ||| 2 }) else s
  | _ => s
/-- QAND and QOR (R286): `form` is the .c form. -/
def softLogic (i : Instr) (isAnd : Bool) (qd qa qb : QReg) (form : Bool) (k : MaskOp) (b : Bolt) : Act Unit := do
  operands i
  let y ← me
  let ov := y.overlap qa qb
  putSoft qd [qa, qb] (b.actives y k) (y.lin qa ||| y.lin qb) (fun e =>
    if !form && !ov then softProduct isAnd (y.qheld qa e) (y.qheld qb e) else softBound isAnd (y.qheld qa e) (y.qheld qb e))
/-- QAND (R286). -/
def execQand (qd qa qb : QReg) (form : Bool) (k : MaskOp) (s : State) :=
  runVec (softLogic (.qand qd qa qb form k) true qd qa qb form k) (s.noteDep (.qand qd qa qb form k))
/-- QOR (R286). -/
def execQor (qd qa qb : QReg) (form : Bool) (k : MaskOp) (s : State) :=
  runVec (softLogic (.qor qd qa qb form k) false qd qa qb form k) (s.noteDep (.qor qd qa qb form k))
/-- QNOT (R287). -/
def execQnot (qd qa : QReg) (k : MaskOp) (s : State) :=
  runVec (fun b => do
    operands (.qnot qd qa k)
    let y ← me
    putSoft qd [qa] (b.actives y k) (y.lin qa) (fun e => 32768 - y.qheld qa e)) s

/-! ### Consuming soft predicates (R288-R290) -/

/-- One element of QBLEND (R288). -/
def blendOf (vd va vb : VReg) (qc : QReg) (r : Rnd) (y : Hart) (e : Nat) : Nat × Fl :=
  let p := y.qheld qc e
  let md := y.mode r
  if p = 0x8000 then ((y.moved vd va md e).1, 0)
  else if p = 0 then ((y.moved vd vb md e).1, 0)
  else if (y.val va e).isNan || (y.val vb e).isNan then y.narrowTo vd md false true (.nan, flNV)
  else
    let a := ((Tag.p16.value p).mul (y.val va e)).1
    let c := ((Tag.p16.value (32768 - p)).mul (y.val vb e)).1
    let (v, fl) := a.add md c
    y.narrowTo vd md false true (v.res, fl)
/-- QBLEND (R288). -/
def execQblend (vd va vb : VReg) (qc : QReg) (r : Rnd) (k : MaskOp) (s : State) :=
  runVec (fun b => do
    let x ← me
    modMe (fun y => y.noteRange qc (b.actives x k))
    elementwise (.qblend vd va vb qc r k) vd [va, vb] k (blendOf vd va vb qc r) b) s

/-- QCOLL (R99, R289). -/
def execQcoll (md : MReg) (qa : QReg) (key : Option VReg) (k : MaskOp) (s : State) :=
  runVec (fun b => do
    operands (.qcoll md qa key k)
    let y ← sources b k key.toList
    let es := b.actives y k
    if key.isNone then drawCheck b es
    let c ← myCore
    let (g, zs) := drawAll b (fun e => key.map (fun v => nword (y.code v e))) c.gens es
    modMyCore (fun c => { c with gens := g })
    let hit := (zs.filter (fun (p : Nat × Word) => decide ((p.2 >>> 49).toNat < y.qheld qa p.1))).map (·.1)
    modMe (fun x => ((x.noteRange qa es).putMask md es (fun e => hit.contains e)).vnext)) s

/-- QHARD (R290). -/
def execQhard (md : MReg) (qa : QReg) (thr : BitVec 16) (k : MaskOp) (s : State) :=
  runVec (fun b => do
    operands (.qhard md qa thr k)
    let y ← me
    let es := b.actives y k
    modMe (fun x => ((x.noteRange qa es).putMask md es (fun e => decide (thr.toNat ≤ y.qheld qa e))).vnext)) s

/-- QSEED (R291). -/
def execQseed (src : SeedSrc) (k : MaskOp) (s : State) :=
  runVec (fun b => do
    operands (.qseed src k)
    let y ← sources b k (match src with
      | .vec va => [va]
      | .frame _ => [])
    let ls := (b.actives y k).filter (fun l => decide (l < 8 * Bits.count b.lanes 8))
    let state (l : Nat) : Word := match src with
      | .vec va => nword (y.code va l)
      | .frame sa => b.f sa + nword l
    modify (fun s => s.clearUpsets 21 (coreOf s.cur) (fun w => ls.any (fun l => decide (w = b.laneOf l))))
    modMyCore (fun c => { c with gens := ls.foldl (fun g l => Tab.set 0 g (b.laneOf l) (state l)) c.gens })
    modMe Hart.vnext) s

/-! ### Gradients (R292) -/

/-- p (1 - p) / T (R292), p a held code. -/
def slopeOf (t : Val) (p : Nat) : Res × Fl :=
  if t.isZero || t.isInf then (.fin false 0 1 0, 0)
  else ((((Tag.p16.value p).mul (Tag.p16.value (32768 - p))).1.div t).1, 0)
/-- QGRAD (R292). -/
def execQgrad (vd : VReg) (src : GradSrc) (r : Rnd) (k : MaskOp) (s : State) :=
  runVec (fun b =>
    match src with
    | .soft qa => do
      operands (.qgrad vd src r k)
      tempCheck 2
      let x ← me
      modMe (fun y => y.noteRange qa (b.actives x k))
      elementwise (.qgrad vd src r k) vd [] k (fun y e => y.narrowTo vd (y.mode r) false true
        (slopeOf y.temperature (y.qheld qa e))) b
    | .blend va vb =>
      elementwise (.qgrad vd src r k) vd [va, vb] k (binop false (fun md x y => asRes (x.sub md y)) vd va vb r) b) s

/-! ### Errors of the pipes and queues of the vector unit (R321, R322, R374) -/

/-- A structure of the vector unit whose errors its replay recovers. -/
def isPipe (st : Nat) : Bool := (decide (12 ≤ st) && decide (st ≤ 19)) || decide (st = 22) || decide (st = 23)
/-- An error of a pipe or queue that the running bolt's instruction meets. What the replay recovers is reported-corrected. Mirror
issue leaves matrix instructions out, and under mode off finds nothing; a second disagreement is 365, at its element. -/
def meetPipe (i : Instr) (b : Bolt) (u : Upset) : Act Unit := fun s =>
  if u.s = 22 ∧ i.isMatrix then .ok ((), s)
  else if u.s = 22 ∧ b.recheck = 0 then .ok ((), s.clearUpset u)
  else if u.s = 22 ∧ u.unc then .error (.trap (s.vecTrap 365 0 u.word))
  else
    let s1 := (s.clearUpset u).logError 0 (320 + 2 * u.s) 0 s.cur
    let s2 : State := { s1 with rel := { s1.rel with squashes := s1.rel.squashes + 1 } }
    .ok ((), if s2.me.cen then s2.modMe (fun x => x.keep 2 (s.vecTrap (320 + 2 * u.s) 0 (if u.s = 22 then u.word else 0))) else s2)
/-- The errors that an instruction of the running bolt meets in the pipes and queues of its hart, before it executes. -/
def meetPipes (i : Instr) (b : Bolt) : Act Unit := do
  let s ← get
  (s.rel.upsets.filter (fun u => isPipe u.s && decide (u.place = s.cur))).forM (meetPipe i b)
/-- The state after a trap of `meetPipes`: the error is gone with the squashed window, and QDEP is set first. -/
def State.squashed (s : State) (i : Instr) : State :=
  let s1 := s.noteDep i
  { s1 with rel := { s1.rel with upsets := s1.rel.upsets.filter (fun u =>
      !(decide (u.s = 22) && decide (u.place = s.cur) && u.unc)) } }

end Sys2Proof.Machine
end

