-- ==== Sys2Proof/Machine/System.lean ====
section
/-!
DEFINITION. System instructions of the stem: the status and control registers (R13, R156, R204, R205), TRAP, RETT, BKPT
(R206, R208, R302), and the firmware services (R207, R353, R365).
-/
namespace Sys2Proof.Machine

open Sys2Proof

/-! ### Status and control registers (R156) -/

/-- The value of a listed register other than VRETQ. -/
def State.csrValue (s : State) (n : Nat) : Option Word :=
  let x := s.me
  match n with
  | 0x000 => some x.pstat
  | 0x001 => some x.vtype
  | 0x002 => some (nword x.vl)
  | 0x003 => some (nword x.mvl)
  | 0x004 => some x.fmode
  | 0x005 => some x.temp
  | 0x006 => some x.qstat
  | 0x007 => some x.zpa
  | 0x008 => some x.sfbase
  | 0x009 => some x.clipn
  | 0x00A => some x.zeron
  | 0x00B => some x.qntn
  | 0x00C => some x.clipth
  | 0x00D => some x.sbudget
  | 0x00E => some x.srlimit
  | 0x00F => some x.srefn
  | 0x010 => some x.recallW
  | 0x011 => some x.pfspill
  | 0x013 => some x.tvec
  | 0x014 => some x.tcause
  | 0x015 => some x.tpc
  | 0x016 => some x.taddr
  | 0x017 => some x.tidx
  | 0x018 => some x.ttoken
  | 0x019 => some x.mctx
  | 0x100 => some s.myCore.lanepart
  | 0x101 => some s.myCore.lotmap
  | _ => none

/-- SBUDGET as a write leaves it (R43). Its reserved bits ignore the write before its value is held to 4,096 (log 92). -/
def sbudgetOf (v : Word) : Word := let b := v &&& 0x1FFF; if b = 0 then 1 else if 4096 < b then 4096 else b
/-- SREFN as a write leaves it (R44). -/
def srefnOf (v : Word) : Word := let b := v &&& 0x1F; if 16 < b then 16 else b
/-- TVEC as a write leaves it: bits 63:57 copy bit 56 (R297). -/
def tvecOf (v : Word) : Word := ((v.extractLsb' 0 57).signExtend 64) &&& 0xFFFFFFFFFFFFFFE0

/-- The hart with a RW register written; reserved fields ignore the write. -/
def Hart.csrWrite (x : Hart) (n : Nat) (v : Word) : Option Hart :=
  match n with
  | 0x000 => some { x with pstat := v &&& 0xFF00 }
  | 0x004 => some { x with fmode := v &&& 0xF7 }
  | 0x005 => some { x with temp := v &&& 0xFFFFFFFF }
  | 0x006 => some { x with qstat := v &&& 3 }
  | 0x007 => some { x with zpa := v &&& 0xFF }
  | 0x008 => some { x with sfbase := v &&& 0x7FF }
  | 0x009 => some { x with clipn := v }
  | 0x00A => some { x with zeron := v }
  | 0x00B => some { x with qntn := v }
  | 0x00C => some { x with clipth := v &&& 0x3FFFF }
  | 0x00D => some { x with sbudget := sbudgetOf v }
  | 0x00E => some { x with srlimit := v &&& 15 }
  | 0x00F => some { x with srefn := srefnOf v }
  | 0x011 => some { x with pfspill := v &&& 0xFFFFFFFE00 }
  | 0x013 => some { x with tvec := tvecOf v }
  | 0x014 => some { x with tcause := v &&& 0x3FFFF }
  | 0x015 => some { x with tpc := v }
  | 0x016 => some { x with taddr := v }
  | 0x017 => some { x with tidx := v &&& 0x7FFFFFFFFFFFFFFF }
  | 0x018 => some { x with ttoken := v &&& 15 }
  | _ => none

/-- The vector-side status registers, whose accesses wait for earlier bolts (R205). -/
def csrWaits (n : Nat) : Bool := decide (4 ≤ n) && decide (n ≤ 0xC)

/-- A read of VRETQ (R13). -/
def vretqAct (d : Reg) : Act Unit := do
  let x ← me
  match x.vretq with
  | v :: t => modMe (fun x => ({ x with vretq := t }.setReg d v).advance)
  | [] => if x.bolts = [] then raise 50 else stall (.vretq d)

/-- CSRR (R13, R156, R204-R205). -/
def csrrAct (d : Reg) (n : Nat) : Act Unit := do
  if n = 0x012 then vretqAct d
  else do
    let s ← get
    match s.csrValue n with
    | none => raise (if n < 0x800 then 44 else 46)
    | some _ => do
      if csrWaits n then awaitBolts
      let s ← get
      wrNext d ((s.csrValue n).getD 0)
/-- CSRR (R204). -/
def execCsrr (d : Reg) (csr : BitVec 12) (s : State) := runStem (csrrAct d csr.toNat) s

/-- What a write of a register raises before it: unlisted, read-only, or a management number (R156, R306). -/
def State.csrFault (s : State) (n : Nat) : Option Nat :=
  if 0x800 ≤ n then some 46
  else if (s.me.csrWrite n 0).isSome then none
  else if n = 0x012 ∨ (s.csrValue n).isSome then some 45
  else some 44
/-- CSRW and CSRX: `d` receives the old value of a CSRX. -/
def csrwAct (d : Option Reg) (a : Reg) (n : Nat) : Act Unit := do
  let s ← get
  if d.isSome && n == 0x012 then raise 47
  else
    match s.csrFault n with
    | some c => raise c
    | none => do
      if csrWaits n then awaitBolts
      modify (fun s => s.modMe (fun x =>
        let y := (x.csrWrite n (x.reg a)).getD x
        (match d with
          | some d => y.setReg d ((s.csrValue n).getD 0)
          | none => y).advance))
/-- CSRW (R204). -/
def execCsrw (a : Reg) (csr : BitVec 12) (s : State) := runStem (csrwAct none a csr.toNat) s
/-- CSRX (R204). -/
def execCsrx (d a : Reg) (csr : BitVec 12) (s : State) := runStem (csrwAct (some d) a csr.toNat) s
/-- VRETQ_READ (R13). -/
def execVretqRead (d : Reg) (s : State) := runStem (vretqAct d) s

/-! ### Traps by instruction -/

/-- TRAP (R206): taken after it, with TPC at the next instruction. -/
def execTrap (n : BitVec 6) (s : State) : Host.Outcome State Fault Refusal :=
  let s1 := s.modMe Hart.advance
  .next (s1.takeTrap (s1.stemTrap (448 + n.toNat) 0))
/-- BKPT (R208): BREAKPOINT, or a halt while a debug session holds the hart. -/
def execBkpt (_n : BitVec 12) (s : State) : Host.Outcome State Fault Refusal :=
  if s.rel.dbgHarts.contains s.cur then
    .next ({ s with rel := { s.rel with dbgHalted := s.me.uid :: s.rel.dbgHalted } }.modMe (fun x => { x with halted := true }))
  else .next (s.takeTrap (s.stemTrap 48 0))
/-- A debug session takes hold of hart `h`, or lets it go, and with it what it has halted there (R208; log 77). -/
def State.debugHold (s : State) (h : Nat) (on : Bool) : State :=
  let others := s.rel.dbgHarts.filter (fun i => decide (i ≠ h))
  if on then { s with rel := { s.rel with dbgHarts := h :: others } }
  else
    let x := s.hart h
    let s1 : State := { s with rel := { s.rel with dbgHarts := others, dbgHalted := s.rel.dbgHalted.filter (fun u => decide (u ≠ x.uid)) } }
    if s.rel.dbgHalted.contains x.uid then s1.setHart h { x with halted := false } else s1

/-- RETT (R302). -/
def execRett (s : State) : Host.Outcome State Fault Refusal :=
  match s.me.rett with
  | .ok y => .next (s.modMe (fun _ => y))
  | .error (c, a) => .next (s.takeTrap (s.stemTrap c a.toNat))

/-! ### Firmware services (R207, R353, R365) -/

/-- s10 and s11 as a service returns them. -/
def Hart.returns (x : Hart) (a b : Word) : Hart := (x.setReg 10 a).setReg 11 b
/-- s10 as a service returns it. -/
def Hart.returns1 (x : Hart) (a : Word) : Hart := x.setReg 10 a

/-- Layers `first` to `first + count - 1` of a context requested (R364). -/
def State.requestLayers (s : State) (m first count : Nat) : State :=
  (upFrom first count).foldl (fun s l => s.requestLayer m l) s

/-- A service, on the state between its two fences. -/
def State.service (s : State) (n : Nat) : State :=
  let x := s.me
  let none_ : State := s.modMe (fun x => x.returns1 (BitVec.allOnes 64))
  match n with
  | 0 => s.modMe (fun x => x.returns Config.partNumber Config.firmwareVersion)
  | 1 =>
    let (s1, dropped) := s.post (s.hartEvent s.cur 6 0 (x.reg 10) (x.reg 11) [])
    s1.modMe (fun x => x.returns1 (if dropped then 1 else 0))
  | 2 => s.modMe (fun x => x.returns1 (nword s.nanos))
  | 0x100 =>
    match s.ctx x.mctx.toNat with
    | none => none_
    | some c =>
      if x.mctx = 0 then none_
      else if c.nlayer < (x.reg 10).toNat + (x.reg 11).toNat then s.modMe (fun x => x.returns1 1)
      else (s.requestLayers c.mctx (x.reg 10).toNat (x.reg 11).toNat).modMe (fun x => x.returns1 0)
  | 0x101 =>
    match s.ctx x.mctx.toNat with
    | none => none_
    | some c => if x.mctx = 0 then none_ else s.modMe (fun x => x.returns (nword (s.heldPages c)) (nword c.quota))
  | _ => none_

/-- FWCALL (R207): FENCE.all.sys, the service, FENCE.all.sys. -/
def fwcallAct (n : Nat) : Act Unit := do
  awaitBolts
  awaitXfers
  drained
  modMe (fun x => { x with fetched := [] })
  modify (fun s => ((s.fence .sys).service n).fence .sys)
  next
/-- FWCALL (R207). -/
def execFwcall (n : BitVec 12) (s : State) := runStem (fwcallAct n.toNat) s
/-- FWCALL_PART_NUMBER (R353). -/
def execFwcallPartNumber (s : State) := runStem (fwcallAct 0) s
/-- FWCALL_POST_EVENT (R353). -/
def execFwcallPostEvent (s : State) := runStem (fwcallAct 1) s
/-- FWCALL_TIME (R353). -/
def execFwcallTime (s : State) := runStem (fwcallAct 2) s
/-- FWCALL_LAYER_REQUEST (R365). -/
def execFwcallLayerRequest (s : State) := runStem (fwcallAct 0x100) s
/-- FWCALL_RESIDENT_PAGES (R365). -/
def execFwcallResidentPages (s : State) := runStem (fwcallAct 0x101) s

end Sys2Proof.Machine
end

