-- ==== Sys2Proof/Machine/Preempt.lean ====
section
/-!
DEFINITION. Pending events at a stem boundary, pre-emption, and the saving and restoring of a context (R48, R304, R315-R320,
R373).
-/
namespace Sys2Proof.Machine

open Sys2Proof

/-! ### Events kept for a later boundary (R318) -/

/-- The instruction that a kept completion-time trap follows has completed (R304): no group of its sweep, row product or VEXT is left, and
it does not wait. -/
def Hart.pendReady (x : Hart) (p : Pend) : Bool :=
  if p.order ≠ 2 then true
  else if p.trap.vec then !(x.bolts.head?.any (fun b => (b.mpos.isSome || b.ext != 0) && decide (nword b.pc = p.trap.pc)))
  else !(x.wait.isSome && decide (p.trap.pc = x.pc))
/-- A kept event may be taken (R318): a completion-time trap at no greater depth than it arose, once its instruction has completed,
STEP and VSTEP at depth 0. -/
def Hart.allows (x : Hart) (p : Pend) : Bool :=
  (if p.order = 3 then decide (x.depth = 0) else decide (x.depth ≤ p.depth)) && x.pendReady p

/-- The kept event to take at this boundary: the first in order of those that may be taken, and of one order a vector-origin one
first (R318). -/
def Hart.duePend (x : Hart) : Option Pend :=
  let ok := x.pend.filter x.allows
  let low := ok.foldl (fun n p => min n p.order) 9
  let l := ok.filter (fun p => decide (p.order = low))
  match l.find? (·.trap.vec) with
  | some p => some p
  | none => l.head?
/-- A kept vector-origin trap may be taken: the vector unit executes nothing until it is (R296). -/
def Hart.vecDue (x : Hart) : Bool := x.pend.any (fun p => p.trap.vec && x.allows p)

/-- A kept trap as it is taken: TPC names the stem instruction not yet executed, for VSTEP the first word of the convoy to
run, and for another vector trap the word recorded (R304). -/
def Hart.pendTrap (x : Hart) (p : Pend) : TrapInfo :=
  if !p.trap.vec then { p.trap with pc := x.pc }
  else if p.order = 3 then { p.trap with pc := x.vpc }
  else p.trap

/-- A hart at a stem boundary: it executes, and no stem instruction waits. -/
def Hart.atBoundary (x : Hart) : Bool := x.placed && !x.halted && x.wait.isNone

/-- FW_NOTIFY may be delivered now: NEN is 1, the depth is 0, and nothing before it in order is due (R304, R318). -/
def Hart.mayNotify (x : Hart) : Bool :=
  x.atBoundary && x.nen && decide (x.depth = 0) && x.duePend.isNone && x.preempt.isNone && !x.recallDue

/-- The trap of FW_NOTIFY n (R304, R313). -/
def Hart.notifyTrap (x : Hart) (n : Nat) : TrapInfo :=
  { cause := 435 + n, detail := 0, pc := x.pc, addr := 0, idx := 0, tok := 0, vec := false }

/-- PENDING_EVENT_TAKEN (R318): the kept event that is due at this boundary, else a notification that waits. A stem instruction
that waits is left for a kept event, and executes again after it (log 104). -/
def execPendingEventTaken (h : Nat) (s : State) : Host.Outcome State Fault Refusal :=
  let x := s.hart h
  match x.duePend with
  | some p =>
    if x.placed && !x.halted then .next ((s.setHart h { x with pend := x.pend.erase p }).takeTrapOn h (x.pendTrap p)) else .next s
  | none =>
    match x.notes with
    | n :: t => if x.mayNotify then .next ((s.setHart h { x with notes := t }).takeTrapOn h (x.notifyTrap n)) else .next s
    | [] => .next s

/-- FW_NOTIFY (R304, R313): firmware posts notification `n` of 0 to 12 to hart `h`; it is delivered at once, or kept until it
may be. -/
def execFwNotify (h n : Nat) (s : State) : Host.Outcome State Fault Refusal :=
  let x := s.hart h
  if !x.placed || decide (12 < n) then .next s
  else if x.mayNotify && decide (x.notes = []) then .next (s.takeTrapOn h (x.notifyTrap n))
  else .next (s.setHart h { x with notes := x.notes ++ [n] })

/-! ### Pre-emption (R317) -/

/-- The running bolt's convoy is cut: what has retired stands, and the rest is reissued from its word (R315, R316). -/
def Hart.cutConvoy (x : Hart) : Hart :=
  { x.modBolt (fun b => { b.restart with convoy := [], cut := b.cut || decide (b.convoy ≠ []) }) with vwait := none }

/-- CONVOY_CUT (R317): no convoy boundary has come within 4,096 cycles of the request. -/
def execConvoyCut (h : Nat) (s : State) : Host.Outcome State Fault Refusal :=
  let x := s.hart h
  match x.preempt with
  | some t => .next (if t + 4096 ≤ s.cycle then s.setHart h x.cutConvoy else s)
  | none => .next s

/-! ### The save (R319, R320, R373) -/

/-- Accumulator rows of the slabs held, renumbered by their index among them. -/
def packRows {α : Type} (slabs : List Nat) (unit : Nat) (t : Tab α) : Tab α :=
  ((upTo slabs.length).zip slabs).flatMap (fun p =>
    (t.filter (fun e => decide (e.1 / unit = p.2))).map (fun e => (p.1 * unit + e.1 % unit, e.2)))
/-- The reverse: what a restored hart holds, over a table without the lots' old contents. -/
def unpackRows {α : Type} (slabs : List Nat) (unit : Nat) (from_ : Tab α) (t : Tab α) : Tab α :=
  let clean := t.filter (fun e => !(slabs.contains (e.1 / unit)))
  from_.foldl (fun t e => Tab.put t (slabs.getD (e.1 / unit) 0 * unit + e.1 % unit) e.2) clean

/-- The generators of the lanes counted for a hart, by granted-lane index. -/
def Core.laneGens (c : Core) (lc : Nat) : List Word :=
  (Bits.members lc 8).flatMap (fun k => (upFrom (8 * k) 8).map (Tab.get 0 c.gens))

/-- The hart as it is saved: what waits executes again in full, nothing is asked of it, and no word is fetched ahead (R48, R315). -/
def Hart.atRest (x : Hart) : Hart :=
  { x.mapBolts (fun b => { b.restart with ahead := [] }) with
    preempt := none, wait := none, vwait := none, recalls := [], fetched := []
    routine := x.routine.map (fun (r : Routine) => { r with lots := 0 }) }

/-- The number that a word of a packed table has, given its number among the units held. -/
def packed (held : List Nat) (unit w : Nat) : Option Nat :=
  if held.contains (w / unit) then some (held.idxOf (w / unit) * unit + w % unit) else none
/-- The word that an error of what hart `h` saves has in the saved context, by index as its data; none for another error. -/
def State.carriedAs (s : State) (h : Nat) (u : Upset) : Option Nat :=
  let c := s.core (coreOf h)
  let held := c.heldLots (slotOf h)
  if u.s = 0 ∨ (6 ≤ u.s ∧ u.s ≤ 9) then (if u.place = h then some u.word else none)
  else if u.place ≠ coreOf h then none
  else if u.s = 1 then packed (held 1) (128 * 128) u.word
  else if u.s = 5 then packed (held 2) (2 ^ 16) u.word
  else if u.s = 21 then packed (Bits.members (s.hart h).lc 8) 8 u.word
  else if 2 ≤ u.s ∧ u.s ≤ 4 ∧ held 3 ≠ [] then some u.word
  else none
/-- The reverse, for a hart restored in slot `h`. -/
def State.carriedTo (s : State) (h : Nat) (u : Upset) : Upset :=
  let c := s.core (coreOf h)
  let held := c.heldLots (slotOf h)
  let at_ (l : List Nat) (unit : Nat) : Nat := l.getD (u.word / unit) 0 * unit + u.word % unit
  if u.s = 0 ∨ (6 ≤ u.s ∧ u.s ≤ 9) then { u with place := h }
  else
    { u with
      place := coreOf h
      word := if u.s = 1 then at_ (held 1) (128 * 128) else if u.s = 5 then at_ (held 2) (2 ^ 16)
        else if u.s = 21 then at_ (Bits.members (c.lanesOf (slotOf h)) 8) 8 else u.word }
/-- The errors that the copying of hart `h`'s state meets are found; its poison goes with the data (R377). -/
def State.takeErrors (s : State) (h : Nat) : State × List Upset :=
  if s.rel.upsets = [] then (s, [])
  else
    let s1 := (s.rel.upsets.filter (fun u => (s.carriedAs h u).isSome)).foldl (fun s u => s.findUpset u h) s
    let kept := s1.rel.upsets.filterMap (fun u => (s1.carriedAs h u).map (fun w => ({ u with place := 0, word := w } : Upset)))
    ({ s1 with rel := { s1.rel with upsets := s1.rel.upsets.filter (fun u => (s1.carriedAs h u).isNone || decide (u.s = 5)) } }, kept)

/-- Instructions of a context that retire unchecked are counted (R322, R372, R380). -/
def State.countUnchecked (s : State) (m n : Nat) : State :=
  { s with rel := { s.rel with unchecked := s.rel.unchecked + n },
           ctxs := s.ctxs.map (fun (c : Ctx) => if c.mctx = m then { c with unchecked := c.unchecked + n } else c) }
/-- The rechecks that hart `h` still has pending retire unchecked, and are counted (R322). -/
def State.settleRechecks (s : State) (h : Nat) : State :=
  let n := ((s.core (coreOf h)).rechecks.filter (fun i => decide (i = h))).length
  if n = 0 then s else (s.dropRechecks h).countUnchecked (s.hart h).mctx.toNat n

/-- What is saved of hart `h` into an area (R319), with the errors that go with it. -/
def State.savedOf (s : State) (h area len : Nat) (errors : List Upset) : Saved :=
  let x := s.hart h
  let c := s.core (coreOf h)
  let sl := slotOf h
  let slabs := c.heldLots sl 1
  { hart := x.atRest, number := h, farm := x.farm, g := x.g,
    lots := (upTo 4).flatMap (fun kind => (c.heldLots sl kind).map (fun i => (kind, c.lot kind i))),
    acc := packRows slabs (128 * 256) c.acc, rows := packRows slabs 128 c.rows,
    tiles := if c.heldLots sl 3 = [] then [] else c.tiles,
    scratch := packRows (c.heldLots sl 2) (2 ^ 19) c.scratch, gens := c.laneGens x.lc, errors := errors,
    tlb := (upTo 16).flatMap (fun k => (s.maps.filter (fun m => decide (m.asid = tokenSpace h k))).map (fun m => { m with asid := k })),
    area := area, len := len, dest := none, claims := [] }

/-- A hart has left its slot, its farm having one less that runs. -/
def State.slotLeft (s : State) (h : Nat) : State :=
  let s1 := match s.farmOf (s.hart h).farm with
    | some f => s.setFarm (s.runsLess f)
    | none => s
  ({ s1 with noReply := s1.noReply.filter (fun q => !(decide (q.1 = h))) }.setHart h Hart.vacant).noteIdle h
/-- The hart is saved into an area and its lots and slot are freed (R48, R320): its stores are performed, its rechecks settled, and
its writes are visible at dev scope. -/
def State.saveHart (s : State) (h area len : Nat) : State × Saved :=
  let p := ((s.drain h).settleRechecks h).takeErrors h
  let v := p.1.savedOf h area len p.2
  let s1 := ((p.1.release (groveOf h) .dev).leaveLots h).dropSpaces h
  ({ s1.slotLeft h with saved := (s1.slotLeft h).saved ++ [v] }, v)

/-! ### The save area (R373) -/

/-- How many lots of a kind a saved hart held. -/
def Saved.held (v : Saved) (kind : Nat) : Nat := (v.lots.filter (fun p => decide (p.1 = kind))).length
/-- The items of a saved hart, by length. -/
def Saved.items (v : Saved) : List Nat :=
  areaItems v.hart (v.held 2) (v.held 1) (v.held 3)
/-- Where an item begins in its area. -/
def Saved.offset (v : Saved) (i : Nat) : Nat := (v.items.take i).foldl (fun n w => n + up512 w) 512
/-- The 25 registers of R156 that a save holds, in the order of their numbers. -/
def Hart.savedCsrs (x : Hart) : List Word :=
  [x.pstat, x.vtype, nword x.vl, nword x.mvl, x.fmode, x.temp, x.qstat, x.zpa, x.sfbase, x.clipn, x.zeron, x.qntn, x.clipth,
   x.sbudget, x.srlimit, x.srefn, x.recallW, x.pfspill, x.tvec, x.tcause, x.tpc, x.taddr, x.tidx, x.ttoken, x.mctx]
/-- Fields laid one after the other, each of `w` bits. -/
def rowOf (w : Nat) (l : List Nat) : List (Nat × Nat × Nat) := ((upTo l.length).zip l).map (fun p => (p.1 * w, w, p.2))
/-- Meta bits of a token: its state, kinds, sharing, pinned pages, and the layer that an eviction recorded. -/
def Token.meaning (t : Token) : Nat :=
  let e := match t.st with
    | .evicted m l => m % 4096 * 2 ^ 25 + l % 4096 * 2 ^ 37
    | _ => 0
  (match t.st with
    | .free => 0
    | .live => 1
    | .unmapped => 2
    | .evicted _ _ => 3) + (if t.r then 4 else 0) + (if t.w then 8 else 0) + (if t.shared then 16 else 0) + t.pages % 2 ^ 20 * 32 + e
/-- The token of a range and meta bits. -/
def Token.of (base ext m : Nat) : Token :=
  ⟨match m % 4 with
    | 0 => .free
    | 1 => .live
    | 2 => .unmapped
    | _ => .evicted (field m 36 25) (field m 48 37),
   base, ext, m.testBit 2, m.testBit 3, field m 24 5, m.testBit 4⟩
/-- The first failure of counter `n` not yet reported. -/
def Hart.failOf (x : Hart) (n : Nat) : Option EngFail := x.engFails.find? (fun f => decide (f.cn = n))
/-- Every incomplete bolt of a hart, the running ones first. -/
def Hart.boltList (x : Hart) : List Bolt := x.bolts ++ x.frames.flatMap (·.bolts)
/-- The dimensions of a hart or bolt from bit `o` of an item. -/
def dimFields (o : Nat) (t : Tab Dim) : List (Nat × Nat × Nat) :=
  (upTo 3).flatMap (fun n => let d := Tab.get Dim.initial t n
    [(o + 96 * n, 32, d.len), (o + 96 * n + 32, 64, d.stride.toNat)])
/-- A bolt: its frame, lengths, resume point and dimensions. -/
def Bolt.fields (o : Nat) (b : Bolt) : List (Nat × Nat × Nat) :=
  let m := b.mpos.getD ⟨0, 0, 0, 0⟩
  (o, 64, b.entry.toNat) :: b.frame.map (fun p => (o + 64 * p.1, 64, p.2.toNat)) ++
    [(o + 2048, 32, b.vl), (o + 2080, 32, b.mvl), (o + 2112, 64, (b.frags.head?.map (·.pc)).getD 0 % 2 ^ 64),
     (o + 2176, 64, m.idx * 2 + if b.mpos.isSome then 1 else 0), (o + 2240, 32, m.g)] ++ dimFields (o + 2272) b.dims
/-- The parked fragments in the buffer (R17). -/
def bufferedFrags (bs : List Bolt) : List Frag := bs.flatMap (fun b => b.frags.tail.filter (fun f => f.slot.isNone))
/-- The bits of an item, as fields by offset, width and value; what no field names is zero. The layout within each is the model's
(log 56). -/
def Saved.fields (v : Saved) (i : Nat) : List (Nat × Nat × Nat) :=
  let x := v.hart
  let row (o : Nat) (t : Nat × Tile) : List (Nat × Nat × Nat) :=
    let w := (Tag.ofFX t.2.fx).width
    let st : Nat := match t.2.st with
      | .invalid => 0
      | .valid => 1
      | .filling => 2
      | .reload => 3
    t.2.w.map (fun p => (o + w * p.1, w, p.2.toNat)) ++ t.2.ts.map (fun p => (o + 2097152 + 8 * p.1, 8, p.2.toNat)) ++
      [(o + 2162688, 64, t.2.base % 2 ^ 64), (o + 2162752, 64, st + 4 * t.2.fx.toNat + match t.2.tok with
        | none => 0
        | some k => 64 + 128 * k)]
  match i with
  | 0 => (0, 64, x.pc.toNat) :: x.regs.map (fun p => (64 * p.1, 64, p.2.toNat))
  | 1 => rowOf 64 (x.savedCsrs.map (·.toNat))
  | 2 => (512, 64, x.cfg.nreg + 2 ^ 8 * x.cfg.sw + 2 ^ 16 * x.cfg.blk) :: rowOf 8 (x.cfg.tags.map (·.toNat))
  | 3 => x.vregs.map (fun p => ((p.1 / 2 ^ 20 * x.mvl + p.1 % 2 ^ 20) * x.cfg.sw, x.cfg.sw, p.2.toNat))
  | 4 => x.masks.map (fun p => ((p.1 - 1) * x.mvl, x.mvl, p.2))
  | 5 => x.qcodes.map (fun p => ((p.1 / 2 ^ 20 * x.mvl + p.1 % 2 ^ 20) * 16, 16, p.2.toNat)) ++
      x.qlin.map (fun p => (128 * x.mvl + 8 * p.1, 8, p.2.toNat))
  | 6 => rowOf 64 (v.gens.map (·.toNat))
  | 7 => rowOf 8 ((upTo 2048).map (fun n => (Tab.get 0x7F x.sf n).toNat))
  | 8 => x.toks.flatMap (fun p => [(192 * p.1, 64, p.2.base), (192 * p.1 + 64, 64, p.2.ext), (192 * p.1 + 128, 64, p.2.meaning)])
  | 9 => (upTo 8).flatMap (fun n => [(16 * n, 16, Tab.get 0 x.ctrs n),
      (128 + 16 * n, 16, ((x.failOf n).map (fun f => 2 ^ 15 + f.cause)).getD 0)])
  | 10 => dimFields 0 x.dims
  | 11 => x.binds.flatMap (fun d => [(384 * d.slot, 256, d.record.toNat), (384 * d.slot + 256, 64, d.strips),
      (384 * d.slot + 320, 64, 2 ^ 63 + d.reg)])
  | 12 => ((upTo x.boltList.length).zip x.boltList).flatMap (fun p => p.2.fields (2560 * p.1))
  | 13 => ((upTo 8).zip (bufferedFrags x.boltList)).flatMap (fun p =>
      [(p.1 * (64 + x.mvl), 64, p.2.pc % 2 ^ 64), (p.1 * (64 + x.mvl) + 64, x.mvl, p.2.mask)])
  | 14 => rowOf 64 (x.vretq.map (·.toNat))
  | 15 => rowOf 64 ((v.lots.take 14).map (fun p => p.2.routine.toNat / 4 * 4 + p.2.st.toNat)) ++
      (match x.routine with
        | none => []
        | some r => [(960, 64, 2 ^ 63 + r.kind + match r.budget with
          | none => 0
          | some n => 4 + 8 * n)])
  | 16 => v.scratch.map (fun p => (8 * p.1, 8, p.2.toNat))
  | 17 => v.acc.map (fun p => (p.1 / 256 * 8288 + 32 * (p.1 % 256), 32, p.2.toNat)) ++
      v.rows.flatMap (fun p => [(p.1 * 8288 + 8192, 32, p.2.chk.toNat), (p.1 * 8288 + 8224, 64, (p.2.arr.getD 1).toNat)])
  | 18 => v.tiles.flatMap (fun t => row (2228352 * t.1) t)
  | _ => []

/-- A table of the numbers of a list, ascending, with what a function gives for each. -/
def tabOf {α : Type} [DecidableEq α] (d : α) (ks : List Nat) (f : Nat → α) : Tab α :=
  ks.filterMap (fun k => if f k = d then none else some (k, f k))
/-- Registers of R156 as a restore takes them from an area: those a CSRW may write as it would write them, VL, RECALL and MCTX. -/
def Hart.loadCsrs (x : Hart) (r : Nat → Word) : Hart :=
  let rw (x : Hart) (p : Nat × Nat) : Hart := (x.csrWrite p.2 (r p.1)).getD x
  let y := ((upTo 25).zip ((upTo 0x12) ++ upFrom 0x13 7)).foldl rw x
  { y with vl := min (r 2).toNat x.mvl, recallW := r 16 &&& 0xFFFF01, mctx := r 24 &&& 0xFFF }
/-- The dimensions in bits from `o` of an item. -/
def loadDims (o : Nat) (r : Nat → Nat → Nat) : Tab Dim :=
  tabOf Dim.initial (upTo 3) (fun n => ⟨r (o + 96 * n) 32 % 2 ^ 21, nword (r (o + 96 * n + 32) 64)⟩)
/-- A bolt with what its part of an item, from bit `o`, holds: a counter that has passed the last word stays (R307). -/
def Bolt.load (b : Bolt) (o : Nat) (r : Nat → Nat → Nat) : Bolt :=
  let z := r (o + 2176) 64
  { b with
    entry := nword (r o 64), frame := tabOf 0 (upFrom 1 31) (fun k => nword (r (o + 64 * k) 64)), vl := r (o + 2048) 32,
    mvl := r (o + 2080) 32, dims := loadDims (o + 2272) r,
    mpos := if z % 2 = 1 then some ⟨field z 63 43, field z 42 22, field z 21 1, r (o + 2240) 32⟩ else none,
    frags := match b.frags with
      | [] => []
      | f :: t => { f with pc := if f.pc = 2 ^ 64 then f.pc else r (o + 2112) 64 } :: t }
/-- The bolts of a list and of frames, each changed by its number among them. -/
def numbered (f : Nat → Bolt → Bolt) (n : Nat) (bs : List Bolt) : List Bolt := ((upFrom n bs.length).zip bs).map (fun p => f p.1 p.2)
/-- The bolts that frames hold, each changed by its number. -/
def numberedFrames (f : Nat → Bolt → Bolt) : Nat → List Frame → List Frame
  | _, [] => []
  | n, k :: t => { k with bolts := numbered f n k.bolts } :: numberedFrames f (n + k.bolts.length) t
/-- A hart's bolts, each changed by its number among all of them. -/
def Hart.eachBolt (x : Hart) (f : Nat → Bolt → Bolt) : Hart :=
  { x with bolts := numbered f 0 x.bolts, frames := numberedFrames f x.bolts.length x.frames }
/-- Parked fragments with what the buffer holds, from its entry `n` on. -/
def refill (w : Nat) (r : Nat → Nat → Nat) : Nat → List Frag → List Frag
  | _, [] => []
  | n, f :: t =>
    if f.slot.isSome then f :: refill w r n t
    else { f with pc := r (n * (64 + w)) 64, mask := r (n * (64 + w) + 64) w } :: refill w r (n + 1) t
/-- A saved hart with an item taken from bits: `r o w` answers `w` bits at offset `o`. -/
def Saved.load (v : Saved) (i : Nat) (r : Nat → Nat → Nat) : Saved :=
  let x := v.hart
  let keys (n : Nat) : List Nat := (upTo n).flatMap (fun k => upFrom (k * 2 ^ 20) x.mvl)
  let slot (k w : Nat) : Nat := r ((k / 2 ^ 20 * x.mvl + k % 2 ^ 20) * w) w
  let put (y : Hart) : Saved := { v with hart := y }
  let tile (o : Nat) (t : Tile) : Tile :=
    let z := r (o + 2162752) 64
    let fx := BitVec.ofNat 4 (z / 4)
    let w := (Tag.ofFX fx).width
    { t with
      st := if z % 4 = 0 then .invalid else if z % 4 = 1 then .valid else if z % 4 = 2 then .filling else .reload, fx := fx
      w := tabOf 0 (upTo (256 * tileK fx)) (fun k => BitVec.ofNat 16 (r (o + w * k) w))
      ts := tabOf 0x7F (upTo (8 * tileK fx)) (fun k => BitVec.ofNat 8 (r (o + 2097152 + 8 * k) 8))
      tok := if z.testBit 6 then some (field z 10 7) else none, base := r (o + 2162688) 64 }
  match i with
  | 0 => put { x with pc := nword (r 0 64), regs := tabOf 0 (upFrom 1 31) (fun k => nword (r (64 * k) 64)) }
  | 1 => put (x.loadCsrs (fun k => nword (r (64 * k) 64)))
  | 2 =>
    let z := r 512 64
    let c : VCfg := ⟨z % 2 ^ 8, field z 15 8, field z 18 16, (upTo (z % 2 ^ 8)).map (fun k => BitVec.ofNat 8 (r (8 * k) 8))⟩
    if c.nreg ≤ 64 ∧ (c.sw = 8 ∨ c.sw = 16 ∨ c.sw = 32 ∨ c.sw = 64) then
      put { x with cfg := c, vtype := vtypeOf c x.lc, mvl := mvlOf c x.lc, vl := min x.vl (mvlOf c x.lc) }
    else v
  | 3 => put { x with vregs := tabOf 0 (keys x.cfg.nreg) (fun k => BitVec.ofNat 64 (slot k x.cfg.sw)) }
  | 4 => put { x with masks := tabOf 0 (upFrom 1 7) (fun m => r ((m - 1) * x.mvl) x.mvl) }
  | 5 => put { x with qcodes := tabOf 0 (keys 8) (fun k => BitVec.ofNat 16 (slot k 16)),
                      qlin := tabOf 0 (upTo 8) (fun q => BitVec.ofNat 8 (r (128 * x.mvl + 8 * q) 8)) }
  | 6 => { v with gens := (upTo v.gens.length).map (fun l => nword (r (64 * l) 64)) }
  | 7 => put { x with sf := tabOf 0x7F (upTo 2048) (fun n => BitVec.ofNat 8 (r (8 * n) 8)) }
  | 8 => put { x with toks := tabOf Token.none (upTo 16) (fun k => Token.of (r (192 * k) 64) (r (192 * k + 64) 64) (r (192 * k + 128) 64)) }
  | 9 =>
    let failed (n : Nat) : Option EngFail :=
      let z := r (128 + 16 * n) 16
      if z < 2 ^ 15 then none else some ⟨n, z % 512, ((x.failOf n).map (·.addr)).getD 0⟩
    put { x with ctrs := tabOf 0 (upTo 8) (fun n => r (16 * n) 16),
                 engFails := (upTo 8).filterMap failed ++ x.engFails.filter (fun f => decide (x.failOf f.cn ≠ some f)) }
  | 10 => put { x with dims := loadDims 0 r }
  | 11 => put { x with binds := (upTo 8).filterMap (fun n =>
      let z := r (384 * n + 320) 64
      if z < 2 ^ 63 then none else some ⟨n, z % 64, BitVec.ofNat 256 (r (384 * n) 256), r (384 * n + 256) 64, []⟩) }
  | 12 => put (x.eachBolt (fun n b => b.load (2560 * n) r))
  | 13 =>
    let fill (n : Nat) (l : List Frag) : List Frag := l.take 1 ++ refill x.mvl r (bufferedFrags (x.boltList.take n)).length l.tail
    put (x.eachBolt (fun n b => { b with frags := fill n b.frags }))
  | 14 => put { x with vretq := (upTo x.vretq.length).map (fun n => nword (r (64 * n) 64)) }
  | 15 =>
    let lot (n : Nat) (p : Nat × Lot) : Nat × Lot :=
      let z := r (64 * n) 64
      if n < 14 ∧ (z % 4 = 1 ∨ z % 4 = 2) then (p.1, { p.2 with st := BitVec.ofNat 2 z, routine := nword (z / 4 * 4) }) else p
    let z := r 960 64
    let budget : Option Nat := if z.testBit 2 then some (field z 15 3) else none
    let rt : Option Routine := if z < 2 ^ 63 then none else some ⟨budget, z % 4, 0, (x.routine.map (·.claim)).getD 0⟩
    { v with lots := ((upTo v.lots.length).zip v.lots).map (fun p => lot p.1 p.2), hart := { x with routine := rt } }
  | 16 => { v with scratch := tabOf 0 (upTo (v.held 2 * 2 ^ 19)) (fun k => BitVec.ofNat 8 (r (8 * k) 8)) }
  | 17 =>
    { v with acc := tabOf 0 (upTo (v.held 1 * 128 * 256)) (fun k => BitVec.ofNat 32 (r (k / 256 * 8288 + 32 * (k % 256)) 32)),
             rows := tabOf ⟨0, none⟩ (upTo (v.held 1 * 128)) (fun k => ⟨BitVec.ofNat 32 (r (k * 8288 + 8192) 32),
               let a := r (k * 8288 + 8224) 64; if a % 2 = 1 then none else some (nword a)⟩) }
  | 18 => { v with tiles := tabOf Tile.cleared (upTo 2) (fun k => tile (2228352 * k) (Tab.get Tile.cleared v.tiles k)) }
  | _ => v

/-- The header of a saved hart's area (R373). -/
def Saved.header (v : Saved) : Nat :=
  v.len % 2 ^ 64 * 2 ^ 448 + v.number % 2 ^ 11 * 2 ^ 423 + v.hart.mctx.toNat % 2 ^ 12 * 2 ^ 411 + v.hart.mvl % 2 ^ 27 * 2 ^ 384
    + v.g % 2 ^ 7 * 2 ^ 377 + v.hart.allBolts % 2 ^ 6 * 2 ^ 371 + v.held 2 % 8 * 2 ^ 368 + v.held 1 % 16 * 2 ^ 364
    + v.held 3 % 2 * 2 ^ 363
/-- What an item with fields makes of its part of memory. -/
def Saved.image (v : Saved) (i : Nat) (fs : List (Nat × Nat × Nat)) : Memory :=
  fs.foldl (fun m f => Memory.write m (v.area + v.offset i + f.1) f.2.1 f.2.2) []
/-- The area of a saved hart is written: its header and its items, over zeros (R373). -/
def State.writeArea (s : State) (v : Saved) : State :=
  let s0 := { s with dev := s.dev.filter (fun c => decide (c.1 < v.area / 8) || decide ((v.area + v.len) / 8 ≤ c.1)) }
  let s1 := (s0.cleanPage v.area v.len).homeWrite v.area 512 v.header
  (upTo v.items.length).foldl (fun s i =>
    (v.fields i).foldl (fun s f => s.homeWrite (v.area + v.offset i + f.1) f.2.1 f.2.2) s) s1
/-- A saved hart as its area holds it: an item that has been written since is taken from there (R373). -/
def State.fromArea (s : State) (v : Saved) : Saved :=
  (upTo v.items.length).foldl (fun y i =>
    let a := v.area + v.offset i
    if v.image i (v.fields i) = Memory.window s.dev (a / 8) (up512 (v.items.getD i 0) / 8) then y
    else y.load i (fun o w => s.homeRead (a + o) w)) v

/-- PREEMPTION (R317-R320, R373): a pending request is honoured once the vector side has stopped, no kept event is due and
the hart's transfers are complete; a halted hart may be saved too (R300). Where no save area fits, the yard gives the request up. -/
def execPreemption (h : Nat) (s : State) : Host.Outcome State Fault Refusal :=
  let x := s.hart h
  if !x.placed || x.preempt.isNone || !x.vectorStopped || (x.duePend.isSome && !x.halted) || !(s.xfersOf h).isEmpty then .next s
  else
    match s.saveArea h with
    | none => .next (s.setHart h { x with preempt := none })
    | some a =>
      let p := (s.setHart h x.cutConvoy).saveHart h a (s.saveLen h)
      .next ((p.1.writeArea p.2).setAreas x.mctx.toNat (· ++ [(a, s.saveLen h)]))

/-- Firmware asks for the pre-emption of hart `h`, for a host command or an unload (R317): of a placed hart that is not being
restored, and for which an area fits (R373). -/
def State.askSave (s : State) (h : Nat) : State :=
  let x := s.hart h
  if x.placed && x.preempt.isNone && !(s.saved.any (fun v => decide (v.dest = some h))) && s.areaFits h then
    s.setHart h { x with preempt := some s.cycle }
  else s

/-! ### The restore (R48, R320) -/

/-- The fixed lots of a saved hart, as a packet states them (R32). -/
def Saved.fixed (v : Saved) : Nat :=
  let n (kind : Nat) : Nat := (v.lots.filter (fun p => decide (p.1 = kind) && decide (p.2.st = 1))).length
  n 0 * 2 ^ 128 + n 1 * 2 ^ 132 + n 2 * 2 ^ 136 + n 3 * 2 ^ 139
/-- The negotiated lots of a saved hart by kind and routine, with their counts. -/
def Saved.negotiated (v : Saved) : List (Nat × Word × Nat) :=
  let all := (v.lots.filter (fun p => decide (p.2.st = 2))).map (fun p => (p.1, p.2.routine))
  all.eraseDups.map (fun p => (p.1, p.2, (all.filter (fun q => decide (q = p))).length))

/-- The core a saved hart goes to: of its own die, then of the others, whose yards are asked in rotation (R35, R48). -/
def State.restoreCore (s : State) (v : Saved) : Option Nat :=
  let die := dieOf v.number
  firstSome (s.bestCore v.fixed (Tab.get 0 s.yardRot die)) (dieCores die :: (s.askOrder die).map dieCores)

/-- A saved context replaced. -/
def State.setSaved (s : State) (v : Saved) : State :=
  { s with saved := s.saved.map (fun y => if y.hart.uid = v.hart.uid then v else y) }

/-- A stall-mode claim made for a hart that is restored. -/
def State.restoreClaim (h uid : Nat) (acc : State × List Nat) (p : Nat × Word × Nat) : State × List Nat :=
  let (s, ids) := acc
  let k := coreOf h
  let id := (s.core k).nextClaim
  let y : Claim := { id := id, slot := slotOf h, uid := uid, pc := 1, kind := p.1, n := p.2.2, status := false,
                     routine := p.2.1, lots := 0, got := 0, outcome := none, refused := [], seen := 0 }
  let s1 := s.setCore k { s.core k with nextClaim := id + 1, claims := (s.core k).claims ++ [y] }
  (s1.takeUp k y, ids ++ [id])

/-- A hart of a farm has come to its slot again. -/
def State.slotTaken (s : State) (f : Nat) : State :=
  match s.farmOf f with
  | some x => s.setFarm (s.runsMore x)
  | none => s
/-- Step 1 of R48: the slot is taken with the fixed lots; step 2 begins with the claims. -/
def State.beginRestore (s : State) (v : Saved) (k sl : Nat) : State :=
  let h := 8 * k + sl
  let hold : Hart := { Hart.vacant with placed := true, halted := true, uid := v.hart.uid, farm := v.farm, asid := v.hart.asid }
  let s := (s.wakeGrove (groveOf h)).cleanSlot h
  let s1 := ((s.setCore k ((s.core k).grantFixed sl v.hart.uid v.fixed)).setHart h hold).slotTaken v.farm
  let s2 := { s1.asked (dieOf v.number) k with yardRot := Tab.set 0 s1.yardRot (dieOf h) (k + 1) }
  let (s3, ids) := v.negotiated.foldl (State.restoreClaim h v.hart.uid) (s2, [])
  s3.setSaved { v with dest := some h, claims := ids }

/-- The lanes of a restored hart, and the words of its bolts' lanes; another G acts as SETVL does (R24, R320). -/
def Hart.relane (x : Hart) (g lc : Nat) : Hart :=
  let y := x.mapBolts (fun b => { b with lanes := lc })
  if 8 * Bits.count lc 8 = g then { y with vtype := vtypeOf y.cfg lc }
  else
    let z := y.setLanes lc
    { z with vl := min z.vl z.mvl }

/-- The contents of the lots of a saved hart come to those of slot `sl`, by index (R320). -/
def Core.unpack (c : Core) (sl : Nat) (v : Saved) : Core :=
  let lanes := (Bits.members (c.lanesOf sl) 8).flatMap (fun i => upFrom (8 * i) 8)
  let slabs := c.heldLots sl 1
  { c with
    acc := unpackRows slabs (128 * 256) v.acc c.acc, rows := unpackRows slabs 128 v.rows c.rows,
    tiles := if c.heldLots sl 3 = [] then c.tiles else v.tiles,
    scratch := unpackRows (c.heldLots sl 2) (2 ^ 19) v.scratch c.scratch,
    gens := (lanes.zip v.gens).foldl (fun t p => Tab.set 0 t p.1 p.2) c.gens }
/-- The errors that travelled with a saved hart's data come with it (R377). -/
def State.putErrors (s : State) (h : Nat) (l : List Upset) : State :=
  if l = [] then s else { s with rel := { s.rel with upsets := l.map (s.carriedTo h) ++ s.rel.upsets } }
/-- Step 3 of R48: the contents come back by index from the area and the hart resumes; the area is freed (R373). -/
def State.endRestore (s : State) (saved : Saved) (h : Nat) : State :=
  let v := s.fromArea saved
  let k := coreOf h
  let sl := slotOf h
  let c := { s.core k with claims := (s.core k).claims.filter (fun y => !(v.claims.contains y.id)) }
  let x := { v.hart.relane v.g (c.lanesOf sl) with recalls := (s.hart h).recalls }
  let s1 := (((s.setCore k (c.unpack sl v)).setHart h x).putErrors h v.errors).acquire (groveOf h) .dev
  { s1.setAreas saved.hart.mctx.toNat (fun l => l.filter (fun a => !(decide (a.1 = v.area)))) with
    saved := s1.saved.filter (fun y => !(decide (y.hart.uid = v.hart.uid)))
    maps := s1.maps ++ v.tlb.map (fun m => { m with asid := tokenSpace h m.asid }) }

/-- The claims of a restore go on (R40), and once all are granted the hart resumes. -/
def State.goRestore (s : State) (v : Saved) (h : Nat) : State :=
  let k := coreOf h
  let s1 := v.claims.foldl (fun s id => match (s.core k).claimOf id with
    | some x => s.repostClaim k x
    | none => s) (s.retryClaims k)
  if v.claims.all (fun id => match (s1.core k).claimOf id with
    | some x => decide (x.outcome = some 0)
    | none => true) then s1.endRestore v h
  else s1

/-- CONTEXT_RESTORE (R48, R320, R373) of the saved hart of placement `x`: its slot and fixed lots, its negotiated lots by
claims, and then its state. -/
def execContextRestore (x : Nat) (s : State) : Host.Outcome State Fault Refusal :=
  match s.saved.find? (fun v => decide (v.hart.uid = x)) with
  | none => .next s
  | some saved =>
    match saved.dest with
    | some h => .next (s.goRestore saved h)
    | none =>
      let v := s.fromArea saved
      match s.restoreCore v with
      | none => .next s
      | some k =>
        match s.freeSlots k with
        | [] => .next s
        | sl :: _ =>
          let s1 := s.beginRestore v k sl
          match s1.saved.find? (fun v => decide (v.hart.uid = x)) with
          | none => .next s1
          | some v1 => .next (s1.goRestore v1 (8 * k + sl))

end Sys2Proof.Machine
end

