-- ==== Sys2Proof/Machine/Shake.lean ====
section
/-!
DEFINITION. SHAKE256 with a 512-bit output, the measurement of R359. R359 names the function and does not define it; what stands here is
that of FIPS 202 (log 18). Bits are numbered as they are stored: bit 0 of a message is its first.
-/
namespace Sys2Proof.Machine

open Sys2Proof

/-- A 64-bit word turned left by `n` places. -/
def turnLeft (x : Word) (n : Nat) : Word := nword (x.toNat * 2 ^ n % 2 ^ 64 + x.toNat / 2 ^ (64 - n))

/-- Word (x, y) of a state of 25 words. -/
def lane (a : List Word) (x y : Nat) : Word := a.getD (5 * (y % 5) + x % 5) 0

/-- How far each word is turned. -/
def laneTurns : List Nat :=
  [0, 1, 62, 28, 27, 36, 44, 6, 55, 20, 3, 10, 43, 25, 39, 41, 45, 15, 21, 8, 18, 2, 61, 56, 14]

/-- The constants of the 24 rounds. -/
def roundConstants : List Word :=
  [0x0000000000000001, 0x0000000000008082, 0x800000000000808A, 0x8000000080008000, 0x000000000000808B, 0x0000000080000001,
   0x8000000080008081, 0x8000000000008009, 0x000000000000008A, 0x0000000000000088, 0x0000000080008009, 0x000000008000000A] ++
  [0x000000008000808B, 0x800000000000008B, 0x8000000000008089, 0x8000000000008003, 0x8000000000008002, 0x8000000000000080,
   0x000000000000800A, 0x800000008000000A, 0x8000000080008081, 0x8000000000008080, 0x0000000080000001, 0x8000000080008008]

/-- Each word with the parities of two columns added. -/
def mixColumns (a : List Word) : List Word :=
  let c := (upTo 5).map (fun x => lane a x 0 ^^^ lane a x 1 ^^^ lane a x 2 ^^^ lane a x 3 ^^^ lane a x 4)
  let d := (upTo 5).map (fun x => lane c (x + 4) 0 ^^^ turnLeft (lane c (x + 1) 0) 1)
  (a.zip (d ++ d ++ d ++ d ++ d)).map (fun p => p.1 ^^^ p.2)

/-- The words turned and moved to their new places. -/
def moveLanes (a : List Word) : List Word :=
  let t := (a.zip laneTurns).map (fun p => turnLeft p.1 p.2)
  (upTo 25).map (fun i => lane t (i % 5 + 3 * (i / 5)) (i % 5))

/-- One round. -/
def keccakRound (a : List Word) (rc : Word) : List Word :=
  let b := moveLanes (mixColumns a)
  let r := (upTo 25).map (fun i => lane b i (i / 5) ^^^ (~~~ (lane b (i % 5 + 1) (i / 5)) &&& lane b (i % 5 + 2) (i / 5)))
  (lane r 0 0 ^^^ rc) :: r.drop 1

/-- The permutation of 1,600 bits. -/
def keccak (a : List Word) : List Word := roundConstants.foldl keccakRound a

/-- The first 1,088 bits of a value taken into a state: 17 words. -/
def absorb (a : List Word) (v : Nat) : List Word :=
  keccak ((upTo 25).map (fun i => if i < 17 then lane a i (i / 5) ^^^ nword (v / 2 ^ (64 * i)) else lane a i (i / 5)))

/-- A message of `n` blocks taken in. -/
def absorbAll : Nat → List Word → Nat → List Word
  | 0, a, _ => a
  | n + 1, a, v => absorbAll n (absorb a (v % 2 ^ 1088)) (v / 2 ^ 1088)

/-- The measurement of the low `len` bits of a value (R359). -/
def shake256 (len bits : Nat) : BitVec 512 :=
  let blocks := (len + 6 + 1087) / 1088
  let padded := bits % 2 ^ len + 0x1F * 2 ^ len + 2 ^ (1088 * blocks - 1)
  let a := absorbAll blocks (List.replicate 25 0) padded
  BitVec.ofNat 512 ((a.take 8).foldr (fun x n => x.toNat + n * 2 ^ 64) 0)

end Sys2Proof.Machine
end

