-- ==== Sys2Proof/Machine/Start.lean ====
section
/-!
DEFINITION. Power, the start states and their steps, and FREEZE (R343, R354-R357).
-/
namespace Sys2Proof.Machine

open Sys2Proof

/-! ### Start-up state -/

/-- Code of a start state (R354). -/
def StartState.code : StartState → Nat
  | .off => 0
  | .verify => 1
  | .train => 2
  | .restore => 3
  | .init => 4
  | .ready => 5
  | .failed => 6
/-- A start is in progress. -/
def StartState.starting : StartState → Bool
  | .verify | .train | .restore | .init => true
  | .off | .ready | .failed => false

/-- HSTAT (R343). -/
def State.hstat (s : State) : Word :=
  let b := s.boot
  nword (s.millis % 2 ^ 32 * 2 ^ 32 + b.lastFail % 2 ^ 8 * 2 ^ 24 + b.wfail % 4 * 2 ^ 22 + s.host.evdrop % 2 ^ 8 * 2 ^ 14
    + (if s.host.mbovr then 2 ^ 13 else 0) + b.img % 2 * 2 ^ 12 + b.kind % 4 * 2 ^ 4 + b.st.code)

/-- The start-up state changed. -/
def State.setBoot (s : State) (f : Boot → Boot) : State := { s with boot := f s.boot }

/-- A start of a kind begins: 1 cold, 2 warm. -/
def State.beginStart (s : State) (kind : Nat) : State :=
  s.setBoot (fun b => { b with st := .verify, kind := kind, initDone := false, hbmValid := b.hbmValid && decide (kind = 2) })

/-! ### The steps of a start (R355, R356) -/

/-- The image in a slot. -/
def Boot.image (b : Boot) (slot : Nat) : Image := if slot = 1 then b.slotB else b.slotA

/-- Dirty lines of the home are written to HBM, and HBM keeps its contents (R355). What runs on the dies stops. Once WFAIL has
reached 3 the next start is cold (R356). -/
def State.warmStart (s : State) : State :=
  let s1 := s.beginStart (if 3 ≤ s.boot.wfail then 1 else 2)
  { s1 with hbm := s1.hbm.clean }

/-- A start fails (R356): LASTFAIL; a warm start counts and posts class 0x0A, the third failure making the next start cold;
a cold start leaves the device in FAILED. -/
def State.failStart (s : State) (code : Nat) : State :=
  let s1 := s.setBoot (fun b => { b with lastFail := code })
  if s.boot.kind = 2 then
    let n := min 3 (s.boot.wfail + 1)
    let e : Event := { cls := 10, cause := 0, hart := 0, mctx := 0, info := nword code, addr := 0, data := [nword n] }
    ((s1.setBoot (fun b => { b with wfail := n })).posted e).warmStart
  else s1.setBoot (fun b => { b with st := .failed })

/-- An image's measurement (R359). -/
def Image.measure (m : Image) : BitVec 512 := shake256 m.len m.bits
/-- A code image's measurement (R355, R359). -/
def CodeImage.measure (m : CodeImage) : BitVec 512 := shake256 m.len m.bits
/-- The clock in MHz that an image's voltage and frequency points set (R355): the nominal one where it gives none, else one of the
clocks of R384 that the points name in a form the manual leaves open (log 114). -/
def Image.clock (m : Image) : Nat := if m.voltFreq = [] then 1050 else 600 + 50 * (Config.clockOf m.voltFreq % 10)

/-- Steps 1 to 3: the Hunik controller boots, an image is measured and verified, and the links train. A port 1 that does not
train is left out (R356). -/
def State.verifyStep (s : State) (fail : Nat) : State :=
  let s1 := s.setBoot (fun b => { b with bootAt := s.time, startNo := b.startNo + 1, hunikHalted := b.hunikHalted && decide (b.kind ≠ 1) })
  let s2 : State := { s1 with
    host := { s1.host with portDown := if fail = 0x41 then 2 else if fail = 0x40 then 1 else 0 }
    rel := { s1.rel with dieDown := [] } }
  let b := s2.boot
  let sel := if (b.image b.sel).ok then some b.sel else if (b.image (1 - b.sel)).ok then some (1 - b.sel) else none
  let links (b : Boot) : Boot := { b with port1Up := decide (fail ≠ 0x41), lastFail := if fail = 0x41 then 0x41 else b.lastFail }
  match sel with
  | none => (s2.setBoot links).failStart 1
  | some i =>
    if fail = 1 then (s2.setBoot links).failStart 1
    else
      let s3 := s2.setBoot (fun b =>
        { links b with img := i, sel := i, measured := { b.measured with image := (b.image i).measure } })
      let s4 : State := { s3 with rel := { s3.rel with mhz := (b.image i).clock } }
      if fail = 0x40 then s4.failStart 0x40
      else s4.setBoot (fun b => { b with st := if b.kind = 2 then .restore else .train })

/-- Everything that describes device memory is emptied (R355): harts, cores, groves, mappings, yards, farms, contexts,
transfers, host queues and windows. -/
def State.emptied (s : State) : State :=
  { s with harts := [], cores := [], groves := [], maps := [], pool := [], yardQs := [], yardRot := [], askRot := [], farms := [],
           ctxs := [], swaps := [], migs := [], xfers := [], saved := [], fwAreas := [], noReply := [],
           host := { s.host with queues := [], turn := [], windows := [], linkDown := 0 } }

/-- Step 5: the arrays are zeroed; a warm start keeps device memory and the memory-side caches with the errors they hold. -/
def State.zeroArrays (s : State) : State :=
  let s1 := s.emptied
  let kept := s1.rel.upsets.filter (fun u => decide (s.boot.kind = 2) && (decide (u.s = 28) || decide (u.s = 31)))
  { s1 with dev := if s.boot.kind = 2 then s1.dev else [], hbm := if s.boot.kind = 2 then s1.hbm else ⟨[], []⟩,
            rel := { s1.rel with upsets := kept },
            boot := { s1.boot with initDone := true, hbmValid := true } }

/-- A cold start leaves the host's settings at their reset values (R342-R345, R351, R352). -/
def HostSide.coldReset (x : HostSide) : HostSide :=
  { x with mbHdr := 0, mbWords := [], accepted := false, mbovr := false, evdrop := 0, w2base := 0, ring := none, evCount := 0, vecs := [],
           pba := [], msix := [], atomicEn := false }

/-- The firmware image, the foreman code and the default handler verify (R355, R359). -/
def Boot.codeOk (b : Boot) : Bool := b.firmware.ok && b.foreman.ok && b.handler.ok

/-- Steps 6 to 8: the firmware images are measured, the settings of the image are loaded, the foremen start, and STATE is READY
(R356, R360, R375). -/
def State.readyStep (s : State) : State :=
  let m := s.boot.image s.boot.img
  let put (l : List Word) : Tab Word := ((upTo l.length).zip l).foldl (fun t p => Tab.set 0 t p.1 p.2) []
  let s1 : State := { s with
    boot := { s.boot with
      st := .ready, wfail := 0, readyAt := s.time
      measured := { s.boot.measured with
        firmware := s.boot.firmware.measure, foreman := s.boot.foreman.measure, handler := s.boot.handler.measure } }
    rel := { s.rel with scrub := put m.scrub, elogc := put m.elogc, elogs := [], elogsel := 0, errCount := [], lastCauses := [],
                        squashes := 0, unchecked := 0, mxBad := 0, saved := 0, duty := 0, reason := 0,
                        dbgHarts := [], dbgHalted := [], rotP := [], reportAt := s.time } }
  s1.posted { cls := 9, cause := 0, hart := 0, mctx := 0, info := nword s.boot.kind, addr := 0, data := [] }

/-- START (R355, R356): the start in progress takes its next step, or fails with a code of R356 that the step can give;
another code is no failure of the step. A halted
controller takes no warm start (R374). -/
def execStart (fail : Nat) (s : State) : Host.Outcome State Fault Refusal :=
  if s.boot.perst || (s.boot.hunikHalted && decide (s.boot.kind = 2)) then .next s
  else
    match s.boot.st with
    | .verify => .next (s.verifyStep fail)
    | .train | .restore =>
      if 0x10 ≤ fail ∧ fail ≤ 0x1B then .next (s.failStart fail)
      else .next (s.setBoot (fun b => { b with st := .init, hbmValid := decide (b.kind = 2) }))
    | .init =>
      if !s.boot.initDone then
        .next (if fail = 0x20 then s.failStart 0x20
          else
            let s1 := s.zeroArrays
            if s.boot.kind = 2 then s1 else { s1 with host := s1.host.coldReset })
      else .next (if fail = 0x30 ∨ s.boot.codeOk = false then s.failStart 0x30 else s.readyStep)
    | .off | .ready | .failed => .next s

/-! ### Power and PERST# (R354, R356) -/

/-- POWER_GOOD (R354). -/
def execPowerGood (s : State) : Host.Outcome State Fault Refusal :=
  let s1 := s.setBoot (fun b => { b with powerGood := true })
  .next (if s.boot.st = .off ∧ !s.boot.perst ∧ !s.boot.frozen then s1.beginStart 1 else s1)

/-- PERST_DEASSERT (R354, R357): a start begins from OFF, which leaves the frozen state too; an abandoned start's successor goes
on. -/
def execPerstDeassert (s : State) : Host.Outcome State Fault Refusal :=
  let s1 := s.setBoot (fun b => { b with perst := false })
  .next (if s.boot.st = .off ∧ s.boot.powerGood then (s1.setBoot (fun b => { b with frozen := false })).beginStart 1 else s1)

/-- PERST_ASSERT (R354, R356, R357): a warm start from READY and from FAILED; a start in progress is abandoned, the next
being warm when HBM holds valid contents; a frozen device takes a cold start. -/
def execPerstAssert (s : State) : Host.Outcome State Fault Refusal :=
  let s1 := s.setBoot (fun b => { b with perst := true })
  if s.boot.frozen then
    .next (if s.boot.st = .off then s1 else (s1.setBoot (fun b => { b with frozen := false, hbmValid := false })).beginStart 1)
  else
    match s.boot.st with
    | .off => .next s1
    | .ready | .failed => .next s1.warmStart
    | .verify | .train | .restore | .init =>
      .next (s1.beginStart (if s.boot.kind = 2 ∨ s.boot.hbmValid then 2 else 1))

/-- The dies lose power (R354, R384): OFF, with memory and arrays lost; the next start is cold. -/
def State.powerOff (s : State) : State :=
  let s1 := s.emptied
  { s1 with dev := [], hbm := ⟨[], []⟩, host := s1.host.coldReset,
            rel := { s1.rel with upsets := [], dbgHarts := [], dbgHalted := [], dieDown := [] },
            boot := { s1.boot with st := .off, powerGood := false, frozen := false, hbmValid := false, initDone := false,
                                   port1Up := false, hunikHalted := false } }
/-- POWER_LOSS (R354). -/
def execPowerLoss (s : State) : Host.Outcome State Fault Refusal := .next s.powerOff

/-! ### FREEZE (R357) and the registers of firmware (R375, R378) -/

/-- FREEZE (R357): every clock stops in any state, and the host links go down. -/
def execFreeze (s : State) : Host.Outcome State Fault Refusal :=
  .next { s with boot := { s.boot with frozen := true }, host := { s.host with portDown := 3 } }

/-- FREEZE_DEASSERT (R357): the clocks stay stopped. -/
def execFreezeDeassert (s : State) : Host.Outcome State Fault Refusal := .next s

/-- A scrub register with PASSES for the seconds since the start (R375). -/
def withPasses (r : Word) (seconds : Nat) : Word :=
  let period := (r.extractLsb' 12 20).toNat
  nword (r.toNat % 2 ^ 32 + (if period = 0 then 0 else seconds / period % 2 ^ 16) * 2 ^ 32)
/-- Seconds since STATE became READY. -/
def State.readySeconds (s : State) : Nat := (s.time - s.boot.readyAt) / (1000 * ticksPerMilli)
/-- ELOGSEL's entry (R378): its level from bit 6 and its index in the low 6 bits (log 64); entries stand up to HEAD. -/
def State.elogEntry (s : State) : BitVec 128 :=
  let lv := s.rel.elogsel.toNat / 64
  let log := Tab.get [] s.rel.elogs lv
  let head := ((Tab.get 0 s.rel.elogc lv).extractLsb' 0 7).toNat
  log.getD ((s.rel.elogsel.toNat % 64 + 64 + log.length - head) % 64) 0
/-- A register of firmware by its number (R375, R378): the scrub and log registers, and the selected log entry. -/
def State.firmwareReg (s : State) (n : Nat) : Nat :=
  if n < 0x805 then
    let r := Tab.get 0 s.rel.scrub (n - 0x800)
    (if r.getLsbD 0 then withPasses r s.readySeconds else r).toNat
  else if 0x808 ≤ n ∧ n < 0x80D then (Tab.get 0 s.rel.elogc (n - 0x808)).toNat
  else if n = 0x810 then s.rel.elogsel.toNat
  else if n = 0x811 then (s.elogEntry.extractLsb' 64 64).toNat
  else if n = 0x812 then (s.elogEntry.extractLsb' 0 64).toNat
  else 0
/-- ELOG_SELECT (R378): firmware writes ELOGSEL. -/
def State.elogSelect (s : State) (v : Word) : State := { s with rel := { s.rel with elogsel := v } }

end Sys2Proof.Machine
end

