-- ==== Sys2Proof/Machine/Scan.lean ====
section
/-!
DEFINITION. Scan read-out of a frozen device (R357): the arrays, registers and queues, each by a key. What a register or queue entry
holds is read word by word, in the order of its fields in the state (log 61).
-/
namespace Sys2Proof.Machine

open Sys2Proof

/-- A token as scan shows it: state, kinds, sharing, pages, base and extent, one above the other. -/
def Token.scan (t : Token) : Nat :=
  let st := match t.st with
    | .free => 0
    | .live => 1
    | .unmapped => 2
    | .evicted m l => 3 + 4 * (m + 4096 * l)
  st + 2 ^ 32 * ((if t.r then 1 else 0) + (if t.w then 2 else 0) + (if t.shared then 4 else 0) + 8 * t.pages)
    + 2 ^ 64 * t.base + 2 ^ 128 * t.ext
/-- A number that may be absent, as words. -/
def optWords (o : Option Nat) : List Nat :=
  match o with
  | some n => [1, n]
  | none => [0, 0]
/-- The number of an atomic operation, in the order of R175. -/
def AtomicKind.code : AtomicKind → Nat
  | .add => 0
  | .and => 1
  | .or => 2
  | .xor => 3
  | .min => 4
  | .max => 5
  | .minn => 6
  | .maxn => 7
  | .swap => 8
  | .cas => 9
/-- The number of a scope (R145). -/
def scopeCode : Scope → Nat
  | .hart => 0
  | .core => 1
  | .grove => 2
  | .dev => 3
  | .sys => 4
/-- The words of a late access: its kind and values, whether it is of the vector stream, how many parts it has, and the parts. -/
def Pending.words (p : Pending) : List Nat :=
  (match p.op with
    | .store v => [1, v, 0, 0]
    | .ordered v n => [2, v, n, 0]
    | .release v => [3, v, 0, 0]
    | .load d sx => [4, d.toNat, sx.toNat, 0]
    | .atomic d k x cmp => [5 + 2 * k.code, d.toNat, x, cmp]
    | .casq d x cmp => [6, d.toNat, x, cmp]) ++
    [scopeCode p.sc, p.vec.toNat, p.parts.length] ++ p.parts.flatMap (fun q => [q.1, q.2]) ++ [p.bolts.length] ++ p.bolts
/-- A kept trap's words. -/
def Pend.words (p : Pend) : List Nat :=
  [p.order, p.depth, p.trap.cause, p.trap.detail, p.trap.pc.toNat, p.trap.addr.toNat, p.trap.idx.toNat, p.trap.tok.toNat, p.trap.vec.toNat]
/-- What a hart waits for, since when and until when. -/
def WaitRec.words (w : WaitRec) : List Nat :=
  let k : Nat := match w.kind with
    | .bolts => 1
    | .boltRoom => 2
    | .vretq _ => 3
    | .waitc _ _ => 4
    | .waitm _ _ _ _ => 5
    | .waitb _ _ _ _ _ => 6
    | .lwait _ _ => 7
    | .launchRoom _ _ => 8
    | .engineRoom _ => 9
    | .claim _ => 10
    | .page _ _ => 11
    | .interlock => 12
    | .transfers => 13
  [k, w.since] ++ optWords w.deadline ++ [w.billed]
/-- The words of a hart that no other selection reads. -/
def Hart.words (x : Hart) : List Nat :=
  [x.placed.toNat, x.halted.toNat, x.uid, x.farm, x.idx, x.asid] ++ optWords (x.wrapFrom.map (·.toNat)) ++
    [x.cfg.nreg, x.cfg.sw, x.cfg.blk, x.boltSeq, x.told.toNat, x.position] ++ optWords x.preempt ++
    (match x.routine with
      | some r => optWords r.budget ++ [1, r.kind, r.lots, r.claim]
      | none => [0, 0, 0, 0, 0, 0]) ++
    ((x.wait.map WaitRec.words).getD [0, 0, 0, 0, 0]) ++ ((x.vwait.map WaitRec.words).getD [0, 0, 0, 0, 0]) ++
    [x.frames.length] ++ x.frames.flatMap (fun f => [f.routine.toNat, f.pc.toNat] ++ optWords (f.wrap.map (·.toNat)) ++ [f.bolts.length]) ++
    [x.notes.length] ++ x.notes ++ [x.engFails.length] ++ x.engFails.flatMap (fun f => [f.cn, f.cause, f.addr.toNat]) ++
    [x.pend.length] ++ x.pend.flatMap Pend.words ++ [x.fetched.length] ++ x.fetched.flatMap (fun p => [p.1, p.2.toNat])
/-- The words of a fragment. -/
def Frag.words (f : Frag) : List Nat := [f.pc, f.mask] ++ optWords f.slot
/-- The words of an incomplete bolt. -/
def Bolt.scanWords (b : Bolt) : List Nat :=
  [b.seq, b.entry.toNat, b.vl, b.mvl, b.lanes, b.begun.toNat, b.words, b.vstep.toNat, b.recheck, b.ext, b.cut.toNat] ++
    (match b.mpos with
      | some m => [1, m.i2, m.i1, m.i0, m.g]
      | none => [0, 0, 0, 0, 0]) ++
    (upTo 32).map (fun n => (Tab.get 0 b.frame n).toNat) ++
    (upTo 3).flatMap (fun n => let d := Tab.get Dim.initial b.dims n; [d.len, d.stride.toNat]) ++
    [b.frags.length] ++ b.frags.flatMap Frag.words ++ [b.convoy.length] ++ b.convoy.flatMap (fun p => [p.1, p.2.toNat]) ++
    [b.rowsTold.length] ++ b.rowsTold ++ [b.chain.length] ++ b.chain.flatMap (fun p => [p.1, p.2]) ++
    b.ahead.flatMap (fun p => [p.1, p.2.toNat])
/-- The words of a core: its lots, its claims' window and the like, and what R267 and R268 keep of its tiles. -/
def Core.words (c : Core) : List Nat :=
  [c.window, c.nextClaim, c.version] ++
    c.lots.flatMap (fun p => [p.1, p.2.st.toNat, p.2.owner.toNat, p.2.routine.toNat, p.2.lastUid] ++ optWords p.2.claim) ++
    (upTo 2).flatMap (fun t => let x := c.tile t; [x.fx.toNat] ++ optWords x.tok ++ [x.base, wrap x.rs 64] ++ optWords x.fill) ++
    c.claims.flatMap (fun y => [y.id, y.uid, y.pc.toNat, y.seen, y.status.toNat] ++ optWords y.outcome ++ y.refused.flatMap (fun r => [r.1, r.2]))
/-- The words of a grove. -/
def Grove.words (g : Grove) : List Nat := [g.gen.toNat, g.asleep.toNat, g.d, g.idleAt]
/-- The words of a line of a scalar L1. -/
def L1Line.words (l : L1Line) : List Nat := [l.core, l.asid, l.vline, l.pline, l.held.toNat]
/-- The words of a yard: which queues are halted, and whose turn it is. -/
def State.yardWords (s : State) (d : Nat) : List Nat :=
  (upTo 16).map (fun q => (s.yardQ d q).halted.toNat) ++ [Tab.get 0 s.yardRot d, Tab.get 0 s.askRot d]
/-- The words of a farm. -/
def Farm.words (f : Farm) : List Nat :=
  [f.id, f.asid, f.die, f.leadPlaced.toNat, f.opened.toNat, f.wanted, f.entry.toNat, f.placed, f.alive, f.running, f.since, f.full.toNat,
   wrap f.deficit 64, f.counted] ++ (upTo 32).map (fun n => (Tab.get 0 f.leadRegs n).toNat) ++
    (upTo 16).flatMap (fun n => let t := Tab.get Token.none f.leadToks n; [t.base, t.ext, t.meaning])
/-- The words of a transfer that its ranges do not show. -/
def Xfer.words (t : Xfer) : List Nat :=
  [t.id, t.uid, t.asid, t.cn, t.desc.toNat, wrap t.stride 64, t.first, t.tile, t.fx.toNat, t.srcLo, t.srcHi, t.dstLo, t.dstHi] ++
    optWords t.arr ++ optWords t.bolt ++ [t.done] ++
    (upTo 3).flatMap (fun n => let d := Tab.get Dim.initial t.dims n; [d.len, d.stride.toNat]) ++
    t.banks.flatMap (fun p => [p.1, p.2]) ++ t.behind
/-- The words of a migration or unmapping. -/
def Mig.words (m : Mig) : List Nat := [m.id, m.unmap.toNat, m.asid, m.va, m.ext, m.pa, m.newPa, m.sz, m.moved.toNat, m.queue.length]
/-- The words of a model context. -/
def Ctx.words (c : Ctx) : List Nat :=
  [c.mctx, c.lrt, c.src, c.saveBase, c.saveLen, c.quota, c.asid, c.hq, c.recheck, c.eprio, c.nlayer, c.unchecked] ++ optWords c.lastLwait ++
    c.areas.flatMap (fun p => [p.1, p.2])
/-- The words of a layer transfer or eviction. -/
def Swap.words (w : Swap) : List Nat :=
  [w.mctx, w.layer, match w.phase with
    | .needPages => 0
    | .filling => 1
    | .evicting => 2, w.since, w.again.toNat, w.req, w.evict.toNat] ++ w.pages
/-- The words of an open host queue. -/
def HostQ.words (q : HostQ) : List Nat :=
  [q.hqid, q.die, q.yq, q.base, q.ctrl, q.maxPrio, q.log2n, q.head, q.tail] ++ optWords q.copy ++ optWords q.closing ++ q.ctx
/-- The words of a window. -/
def Window.words (w : Window) : List Nat := [w.link, w.base, w.ext, w.write.toNat, w.reduce.toNat]
/-- The words of a mapping. -/
def Mapping.words (m : Mapping) : List Nat := [m.asid, m.va, m.sz, m.pa, m.r.toNat, m.w.toNat, m.x.toNat, m.bad.toNat]
/-- The words of the host interface. -/
def HostSide.words (x : HostSide) : List Nat :=
  [x.accepted.toNat, x.mbovr.toNat, x.evdrop, x.w2base.toNat, x.barLog] ++
    (match x.ring with
      | some r => [1, r.1, r.2.1, r.2.2]
      | none => [0, 0, 0, 0]) ++
    [x.evCount, x.linkDown, x.portDown, x.atomicEn.toNat] ++ (upTo 3).map (fun d => Tab.get 0 x.turn d)
/-- The words of start-up. -/
def Boot.words (b : Boot) : List Nat :=
  [b.st.code, b.kind, b.lastFail, b.wfail, b.img, b.sel, b.startNo, b.bootAt, b.readyAt, b.hbmValid.toNat, b.initDone.toNat, b.port1Up.toNat,
   b.hunikHalted.toNat, b.measured.image.toNat, b.measured.firmware.toNat, b.measured.foreman.toNat, b.measured.handler.toNat]
/-- The words of the reliability and power registers. -/
def Reliab.words (r : Reliab) : List Nat :=
  [r.squashes, r.unchecked, r.mxBad, r.saved, r.mhz, r.duty, r.reason, r.reportAt] ++ (upTo 201).map (fun n => Tab.get 0 r.rotP n) ++
    [r.dbgHarts.length] ++ r.dbgHarts ++ [r.dieDown.length] ++ r.dieDown.flatMap (fun p => [p.1, p.2]) ++
    r.lastCauses.flatMap (fun p => [p.1, p.2.1, p.2.2.1, p.2.2.2.toNat])

/-- What scan reads of a frozen device, in which a register of a hart with no placement, and the scales of a tile nothing has loaded,
hold zero (R355). A place in an array of a hart, core, grove or queue is a key in which the unit's number
stands above the place within it, whose places are counted as the comments say; the log gives them too (log 61). -/
def State.scan (s : State) (what : ScanSel) (key : Nat) : Nat :=
  let hart (n : Nat) : Hart := s.hart (key / n)
  let core (n : Nat) : Core := s.core (key / n)
  match what with
  | .devByte => (Memory.byte s.dev key).toNat
  -- 32 to a hart
  | .scalar => ((hart 32).reg (BitVec.ofNat 5 key)).toNat
  | .hartPc => (s.hart key).pc.toNat
  -- 2^18 to a core: 256 columns to a row
  | .accRow => (Tab.get 0 (core (2 ^ 18)).acc (key % 2 ^ 18)).toNat
  | .scratchByte => (Memory.byte (core (2 ^ 21)).scratch (key % 2 ^ 21)).toNat
  | .generator => (Tab.get 0 (core 64).gens (key % 64)).toNat
  -- 32 to a hart, in the order of R156
  | .status => if (hart 32).placed then ((hart 32).savedCsrs.getD (key % 32) 0).toNat else 0
  -- 2^20 elements to a register
  | .element => (Tab.get 0 (hart (2 ^ 26)).vregs (key % 2 ^ 26)).toNat
  | .maskBit => if ((hart (2 ^ 23)).mask (BitVec.ofNat 3 (key / 2 ^ 20)) (hart (2 ^ 23)).vl).testBit (key % 2 ^ 20) then 1 else 0
  | .soft => (Tab.get 0 (hart (2 ^ 23)).qcodes (key % 2 ^ 23)).toNat
  | .lineage => (Tab.get 0 (hart 8).qlin (key % 8)).toNat
  | .scale => if (hart 2048).placed then (Tab.get 0x7F (hart 2048).sf (key % 2048)).toNat else 0
  | .token => ((hart 16).tok (key % 16)).scan
  | .counter => Tab.get 0 (hart 8).ctrs (key % 8)
  | .dim => if (hart 4).placed then (let d := Tab.get Dim.initial (hart 4).dims (key % 4); d.len + 2 ^ 32 * d.stride.toNat) else 0
  | .flume => match (hart 8).binds.find? (fun b => decide (b.slot = key % 8)) with
    | some b => b.record.toNat + 2 ^ 256 * b.reg + 2 ^ 320 * b.strips
    | none => 0
  | .returnQueue => ((hart 64).vretq.getD (key % 64) 0).toNat
  | .boltQueue => match (hart 32).bolts[key % 32]? with
    | some b => b.entry.toNat + 2 ^ 64 * b.vl + 2 ^ 128 * b.mvl + 2 ^ 192 * b.pc
    | none => 0
  | .recall => match (hart 4).recalls[key % 4]? with
    | some r => (recallWord r 0).toNat
    | none => 0
  | .lots => (s.core key).lanepart.toNat + 2 ^ 64 * (s.core key).lotmap.toNat
  | .claim => match (core 8).claims[key % 8]? with
    | some y => y.slot + 8 * y.kind + 32 * y.n + 2 ^ 9 * y.lots + 2 ^ 17 * y.got + 2 ^ 64 * y.routine.toNat
    | none => 0
  -- 2^10 rows to a core
  | .accInfo => let r := (core (2 ^ 10)).row (key % 2 ^ 10); r.chk.toNat + 2 ^ 32 * (r.arr.getD 1).toNat
  -- 2 tiles of 2^16 codes to a core
  | .tileCode => (Tab.get 0 ((core (2 ^ 17)).tile (key / 2 ^ 16 % 2)).w (key % 2 ^ 16)).toNat
  | .tileScale => let t := (core (2 ^ 17)).tile (key / 2 ^ 16 % 2)
    if t = .cleared then 0 else (Tab.get 0x7F t.ts (key % 2 ^ 16)).toNat
  | .tileState => match ((core 2).tile (key % 2)).st with
    | .invalid => 0
    | .valid => 1
    | .filling => 2
    | .reload => 3
  -- 2^40 lines to a grove
  | .lineData => (s.line (key / 2 ^ 40) (key % 2 ^ 40)).data.toNat
  | .lineValid => (s.line (key / 2 ^ 40) (key % 2 ^ 40)).valid.toNat
  | .lineDirty => (s.line (key / 2 ^ 40) (key % 2 ^ 40)).dirty.toNat
  | .lineStamp => (s.line (key / 2 ^ 40) (key % 2 ^ 40)).stamp.toNat
  | .generation => (s.grove key).gen.toNat
  -- 64 packets to a queue
  | .yardPacket => match (s.yardQ (key / 1024) (key / 64 % 16)).packets[key % 64]? with
    | some p => p.pkt.toNat
    | none => 0
  | .farm => match s.farms[key]? with
    | some f => f.counter + 2 ^ 64 * f.total + 2 ^ 128 * f.pkt.toNat
    | none => 0
  | .transfer => match s.xfers[key]? with
    | some t => t.dst + 2 ^ 64 * t.src + 2 ^ 128 * t.len + 2 ^ 192 * t.hart
    | none => 0
  -- 64 entries to a core
  | .recheckQueue => (core 64).rechecks.getD (key % 64) numHarts
  | .pendingStore => ((hart (2 ^ 16)).stores.flatMap Pending.words).getD (key % 2 ^ 16) 0
  -- 2^16 words to a hart; 2^12 to a bolt of a hart, 64 bolts to a hart
  | .hartWord => ((hart (2 ^ 16)).words).getD (key % 2 ^ 16) 0
  | .vcfgTag => ((hart 64).cfg.tags.getD (key % 64) 0).toNat
  | .boltWord => (((hart (2 ^ 18)).boltList[key / 2 ^ 12 % 64]?).map Bolt.scanWords).getD [] |>.getD (key % 2 ^ 12) 0
  | .coreWord => ((core 2048).words).getD (key % 2048) 0
  | .groveWord => ((s.grove (key / 4)).words).getD (key % 4) 0
  | .lineOfL1 => (((s.grove (key / 2 ^ 20)).l1).flatMap L1Line.words).getD (key % 2 ^ 20) 0
  | .lineOfMsc => match Tab.get none s.hbm.msc key with
    | some d => 1 + 2 * d.toNat
    | none => 0
  -- 4 row buffers to a bank
  | .rowBuffer => match (Tab.get [] s.hbm.rows (key / 4))[key % 4]? with
    | some r => 1 + 2 * r.2.toNat + 4 * r.1
    | none => 0
  | .yardWord => (s.yardWords (key / 64)).getD (key % 64) 0
  | .packetFrom => match (s.yardQ (key / 1024) (key / 64 % 16)).packets[key % 64]? with
    | some p => p.addr + 2 ^ 64 * p.asid
    | none => 0
  -- 256 words to each of these
  | .farmWord => ((s.farms[key / 256]?).map Farm.words).getD [] |>.getD (key % 256) 0
  | .transferWord => ((s.xfers[key / 256]?).map Xfer.words).getD [] |>.getD (key % 256) 0
  | .migrationWord => ((s.migs[key / 256]?).map Mig.words).getD [] |>.getD (key % 256) 0
  | .contextWord => ((s.ctxs[key / 256]?).map Ctx.words).getD [] |>.getD (key % 256) 0
  | .swapWord => ((s.swaps[key / 256]?).map Swap.words).getD [] |>.getD (key % 256) 0
  | .hostQueueWord => ((s.host.queues[key / 256]?).map HostQ.words).getD [] |>.getD (key % 256) 0
  | .windowWord => ((s.host.windows[key / 256]?).map Window.words).getD [] |>.getD (key % 256) 0
  | .mappingWord => ((s.maps[key / 256]?).map Mapping.words).getD [] |>.getD (key % 256) 0
  | .hostWord => s.host.words.getD key 0
  | .vector => let v := Tab.get (0, 0) s.host.vecs key; v.1 + 2 ^ 64 * v.2
  | .pba => (Tab.get 0 s.host.pba key).toNat
  | .msix => (Tab.get 0 s.host.msix key).toNat
  | .startWord => s.boot.words.getD key 0
  | .powerWord => s.rel.words.getD key 0
  | .errorCount => Tab.get 0 s.rel.errCount key
  -- 64 entries to a level
  | .logEntry => ((Tab.get [] s.rel.elogs (key / 64)).getD (key % 64) 0).toNat
  | .firmware => s.firmwareReg key
  | .slotWord => if key = 0 then s.host.mbHdr.toNat else (Tab.get 0 s.host.mbWords (key - 1)).toNat
  | .hstat => s.hstat.toNat
  -- a structure of R312 in the low 6 bits, its place in the next 26, its word above: 1 and 2 for what its check bits show
  | .checkBits => match s.upsetAt (key % 64) (key / 64 % 2 ^ 26) (fun w => decide (w = key / 2 ^ 32)) with
    | some u => if u.unc then 2 else 1
    | none => 0
/-- SCAN_READOUT (R357): the value goes to the reader; nothing of the device is written. -/
def execScanReadout (what : ScanSel) (key : Nat) (s : State) : Host.Outcome State Fault Refusal :=
  .next (if s.boot.frozen then { s with host := { s.host with out := s.scan what key, how := .ok } } else s)

end Sys2Proof.Machine
end

