-- ==== Sys2Proof/Machine/Cache.lean ====
section
/-!
DEFINITION. Events of the grove L2 and of HBM that no instruction begins (R109, R117, R118).
-/
namespace Sys2Proof.Machine

open Sys2Proof

/-- L2_EVICTION (R117): a line's dirty bits go to the home, and the line is dropped. A grove in retention keeps every line (R382). -/
def execL2Eviction (g line : Nat) (s : State) : Host.Outcome State Fault Refusal :=
  .next (if (s.grove g).asleep then s else (s.writeBack g line (BitVec.allOnes 512)).dropLine g line)

/-- L2_STALE_SWEEP (R118). A grove in retention keeps every line, and its scan has stopped (R382). -/
def execL2StaleSweep (g : Nat) (s : State) : Host.Outcome State Fault Refusal :=
  .next (if (s.grove g).asleep then s else s.sweepLines g)

/-- HBM_REFRESH (R109): the four row buffers of a bank close. -/
def execHbmRefresh (bank : Nat) (s : State) : Host.Outcome State Fault Refusal :=
  .next { s with hbm := { s.hbm with rows := Tab.del s.hbm.rows bank } }

end Sys2Proof.Machine
end

