-- ==== Sys2Proof/Machine/Reliability.lean ====
section
/-!
DEFINITION. Scrubbing, reports, retention, throttling, links that fail, and upsets in the protected structures (R312, R321-R324,
R374-R384).
-/
namespace Sys2Proof.Machine

open Sys2Proof

/-! ### Scrubbing (R375, R376) -/

/-- The structure a scrubber's level holds. -/
def scrubStructure (level : Nat) : Nat :=
  if level = 0 then 5 else if level = 1 then 1 else if level = 2 then 24 else if level = 3 then 28 else 31

/-- SCRUB_WORD (R376, R377): one word at its place. A correctable error is logged, and written back under WBC; another is
logged as latent and poisoned. An error of the scrub engine fails the word in hand (R374). -/
def execScrubWord (level place word : Nat) (s : State) : Host.Outcome State Fault Refusal :=
  let r := Tab.get 0 s.rel.scrub level
  if s.boot.st ≠ .ready ∨ 4 < level ∨ !(r.getLsbD 0) then .next s
  else
    let s1 : State := { s with rel := { s.rel with scrub := Tab.set 0 s.rel.scrub level (withPasses r s.readySeconds) } }
    match s1.upsetAt 46 level (fun _ => true), s1.upsetAt (scrubStructure level) place (fun w => decide (w = word)) with
    | some e, _ => .next ((s1.clearUpset e).logError 0 413 1 2047)
    | none, none => .next s1
    | none, some u =>
      if !u.unc && !(r.getLsbD 1) then .next (s1.logError u.addr (320 + 2 * u.s) 0 2047)
      else .next (s1.findUpset u 2047)

/-! ### Reports, retention and power (R380, R382-R384) -/

/-- PERIODIC_REPORT (R380): every REPORT seconds; the counts begin again. Bursts saved by compression are a free value
(log 28). -/
def execPeriodicReport (s : State) : Host.Outcome State Fault Refusal :=
  let every := (s.boot.image s.boot.img).reportS * (1000 * ticksPerMilli)
  if s.boot.st ≠ .ready ∨ s.time < s.rel.reportAt + every then .next s
  else
    let e : Event :=
      { cls := 7, cause := 0, hart := 0, mctx := 0, info := 3 <<< 56, addr := 0,
        data := [nword s.rel.squashes, nword s.rel.unchecked, nword s.rel.mxBad, Config.burstsSaved s.free] }
    let s1 : State := { s with free := s.free + 1,
                               rel := { s.rel with squashes := 0, unchecked := 0, mxBad := 0, reportAt := s.time } }
    .next (s1.posted e)

/-- No hart is placed in a grove, and no foreman stands in it (R9, R382). -/
def State.vacantGrove (s : State) (g : Nat) : Bool :=
  decide (g % 6 ≠ 0) && (upFrom (64 * g) 64).all (fun h => !(s.hart h).placed)
/-- RETENTION_ENTRY (R382): no hart of the grove has been placed for RETIDLE. -/
def execRetentionEntry (g : Nat) (s : State) : Host.Outcome State Fault Refusal :=
  let x := s.grove g
  let idle := (s.boot.image s.boot.img).retIdleMs * ticksPerMilli
  if s.boot.st = .ready ∧ !x.asleep ∧ s.vacantGrove g ∧ max x.idleAt s.boot.readyAt + idle ≤ s.time then
    .next (s.setGrove g { x with asleep := true, d := 0 })
  else .next s
/-- GROVE_WAKE (R382). -/
def execGroveWake (g : Nat) (s : State) : Host.Outcome State Fault Refusal := .next (s.wakeGrove g)

/-- The event of a throttle step (R379, R384). -/
def State.throttled (s : State) (mhz duty reason : Nat) : State :=
  let s1 : State := { s with rel := { s.rel with mhz := mhz, duty := duty, reason := reason } }
  s1.posted { cls := 7, cause := 0, hart := 0, mctx := 0, info := 4 <<< 56, addr := 0, data := [nword mhz, nword reason] }
/-- THROTTLE (R384) for a reason of 1 to 3: matrix issue is gated first, then the clock falls by 50 MHz, down to 600 MHz. -/
def execThrottle (reason : Nat) (s : State) : Host.Outcome State Fault Refusal :=
  if reason = 0 ∨ 3 < reason then .next s
  else if s.rel.duty = 0 then .next (s.throttled s.rel.mhz 1 reason)
  else if 600 < s.rel.mhz then .next (s.throttled (max 600 (s.rel.mhz - 50)) 1 reason)
  else .next { s with rel := { s.rel with reason := reason } }
/-- THROTTLE_RECOVER (R384): one step undone, in the reverse order; reason 0 at the end. -/
def execThrottleRecover (s : State) : Host.Outcome State Fault Refusal :=
  if s.rel.duty = 0 then .next s
  else if s.rel.mhz < 1050 then .next (s.throttled (min 1050 (s.rel.mhz + 50)) 1 s.rel.reason)
  else .next (s.throttled s.rel.mhz 0 0)
/-- THERMAL_TRIP (R384). -/
def execThermalTrip (s : State) : Host.Outcome State Fault Refusal := .next s.powerOff

/-! ### Links (R374) -/

/-- A die link (structure 33) or bond (34) is down: it stands in the state, and the manual gives no further effect (R374,
log 29). -/
def State.dieLinkDown (s : State) (st link : Nat) : State :=
  let s1 := s.logError 0 (320 + 2 * st + 1) 1 0
  if s1.rel.dieDown.contains (st, link) then s1 else { s1 with rel := { s1.rel with dieDown := s1.rel.dieDown ++ [(st, link)] } }
/-- LINK_DOWN (R374): a link whose retries have failed is down, and the error is counted. -/
def execLinkDown (kind : LinkKind) (link : Nat) (s : State) : Host.Outcome State Fault Refusal :=
  match kind with
  | .hostPort =>
    if 1 < link then .next s
    else
      let s1 := s.logError 0 (320 + 2 * (41 + link) + 1) 1 0
      .next { s1 with host := { s1.host with portDown := s1.host.portDown ||| 2 ^ link } }
  | .thefy =>
    if 7 < link then .next s
    else
      let s1 := s.logError 0 (320 + 2 * 43 + 1) 1 0
      .next { s1 with host := { s1.host with linkDown := s1.host.linkDown ||| 2 ^ link } }
  | .die => .next (s.dieLinkDown 33 link)

/-! ### The end of a mailbox command (R345) -/

/-- OWN of the header. -/
def HostSide.own (x : HostSide) : Bool := x.mbHdr.getLsbD 63
/-- OP of the header. -/
def HostSide.op (x : HostSide) : Nat := (x.mbHdr.extractLsb' 0 8).toNat
/-- TAG of the header. -/
def HostSide.tag (x : HostSide) : Nat := (x.mbHdr.extractLsb' 16 16).toNat
/-- A command completes (R345, R352): response, LEN, STATUS, OWN clear, and an event of class 0x01. -/
def State.reply (s : State) (status : Nat) (resp : List Word) : State :=
  let x := s.host
  let words := ((upTo (resp.take 511).length).zip (resp.take 511)).foldl (fun t p => Tab.set 0 t p.1 p.2) x.mbWords
  let hdr := (x.mbHdr &&& 0x7F000000FFFFFFFF) ||| nword (status % 256 * 2 ^ 48 + (resp.take 511).length * 2 ^ 32)
  let s1 : State := { s with host := { x with mbWords := words, mbHdr := hdr, accepted := false } }
  s1.posted { cls := 1, cause := 0, hart := 0, mctx := 0, info := nword (x.tag * 2 ^ 16 + x.op), addr := 0, data := [] }

/-! ### Upsets (R374) -/

/-- The operation in hand fails with a code (R374): the head packet of a launch queue, a placement of a yard, a waiting claim of a
core, a layer transfer, an engine transfer of a hart, or the mailbox command. -/
def State.failInHand (s : State) (st place : Nat) : State :=
  let code := 320 + 2 * st + 1
  let s1 := s.logError 0 code 1 0
  if st = 35 then
    let q := s1.yardQ (place / 16) (place % 16)
    match q.packets with
    | [] => s1
    | p :: rest =>
      let e : Event :=
        { cls := 4, cause := code, hart := 0, mctx := pktMctx p.pkt.toNat, info := 0, addr := nword p.addr, data := [] }
      (s1.setYardQ (place / 16) (place % 16) { q with packets := rest }).posted e
  else if st = 36 then
    match s1.farms.find? (fun f => decide (f.die = place) && f.unmet) with
    | none => s1
    | some f =>
      if f.leadPlaced then s1.setFarm { f with wanted := 0 }
      else
        let e : Event :=
          { cls := 4, cause := code, hart := 0, mctx := pktMctx f.pkt.toNat, info := 0, addr := 0, data := [] }
        { s1 with farms := s1.farms.filter (fun y => decide (y.id ≠ f.id)) }.posted e
  else if st = 37 then
    match (s1.core place).claims.find? (fun x => x.outcome.isNone) with
    | none => s1
    | some x =>
      let h := 8 * place + x.slot
      let s2 := s1.undoClaim place x.id 1
      let s3 := s2.setCore place { s2.core place with claims := (s2.core place).claims.filter (fun y => !(decide (y.id = x.id))) }
      s3.takeTrapOn h { cause := code, detail := 0, pc := (s3.hart h).pc, addr := 0, idx := 0, tok := 0, vec := false }
  else if st = 38 then
    match s1.swaps.find? (fun w => decide (w.phase = .filling)) with
    | none => s1
    | some w => match s1.ctx w.mctx with
      | none => s1
      | some c => s1.failLayerWith c w.layer code
  else if st = 39 ∨ st = 40 then
    let mine (t : Xfer) : Bool := decide (t.hart = place) &&
      (decide (st = 40) == (decide (t.kind = .mcast) || decide (t.kind = .redst)))
    match s1.xfers.find? mine with
    | none => s1
    | some t => (if t.kind = .tldf then s1.tileFilled t .cleared else s1).finishXfer t (some (code, 0))
  else if st = 44 then if s1.host.own then s1.reply 5 [] else s1
  else if st = 45 then s1.setBoot (fun b => { b with hunikHalted := true })
  else s1

/-- The slots of a word of a lane's register file, by register and element (R23, R374; log 101). -/
def Hart.slotsOf (x : Hart) (w : Nat) : List Nat :=
  let file := 65536 / (x.cfg.nreg * x.cfg.sw) * x.cfg.sw
  if x.g = 0 ∨ x.mvl = 0 then []
  else (upTo (64 / x.cfg.sw)).filterMap (fun i =>
    let b := w % 1024 * 64 + i * x.cfg.sw
    if b / file < x.cfg.nreg then some (b / file * 2 ^ 20 + b % file / x.cfg.sw * x.g + w / 1024) else none)
/-- The error an upset leaves, for its reader, a scrubber or a write-back to find: of a vector register file, the scale file, a mask or
a soft predicate, in each place of the 64-bit word (`State.wordOfPlace`). -/
def State.upset (s : State) (st place word : Nat) (unc : Bool) : State :=
  let words := if st = 0 then (s.hart place).slotsOf word
    else if st = 6 then upFrom (8 * word) 8
    else if st = 7 then (if word < 2 ^ 17 then upFrom (64 * word) 64 else upFrom (2 ^ 23 + 4 * (word - 2 ^ 17)) 4)
    else [word]
  { s with rel := { s.rel with upsets := s.rel.upsets ++ words.map (fun w => ⟨st, place, w, unc, false⟩) } }
/-- SOFT_ERROR (R312, R374): an upset in structure `st` at a place and word. What a reader, a scrubber or a write-back finds
later is kept, and so is what the next instruction of a hart meets in its caches, queues and pipes; the word of an error of the
datapath is its element. The accesses executed so far are performed first, and meet no later error. -/
def execSoftError (st place word : Nat) (unc : Bool) (s : State) : Host.Outcome State Fault Refusal :=
  let s := s.drainAll
  if 47 < st then .next s
  else if st ≤ 24 ∨ st = 28 ∨ st = 31 ∨ (st = 46 ∧ unc) then .next (s.upset st place word unc)
  else if st ≤ 27 then
    .next (if unc then (s.logError 0 (320 + 2 * st + 1) 2 2047).poisonLine 24 place word else s.logError 0 (320 + 2 * st) 0 2047)
  else if st ≤ 30 then
    .next (if unc then (s.logError 0 (320 + 2 * st + 1) 2 2047).poisonLine 28 0 word else s.logError 0 (320 + 2 * st) 0 2047)
  else if st = 32 then
    .next (if unc then (s.logError 0 (320 + 2 * st + 1) 2 2047).poison 31 0 word else s.logError 0 (320 + 2 * st) 0 2047)
  else if st = 33 ∨ st = 34 then .next (if unc then s.dieLinkDown st place else s.logError 0 (320 + 2 * st) 0 0)
  else if st ≤ 40 ∨ (44 ≤ st ∧ st ≤ 46) then .next (if unc then s.failInHand st place else s.logError 0 (320 + 2 * st) 0 0)
  else if st = 41 ∨ st = 42 then
    if unc then execLinkDown .hostPort (st - 41) s else .next (s.logError 0 (320 + 2 * st) 0 0)
  else if st = 43 then
    if unc then execLinkDown .thefy place s else .next (s.logError 0 (320 + 2 * st) 0 0)
  else
    let s1 := s.logError 0 (320 + 2 * st + (if unc then 1 else 0)) (if unc then 2 else 0) 0
    .next (if !unc then s1
      else s1.setBoot (fun b => if place = 1 then { b with slotB := { b.slotB with ok := false } }
        else { b with slotA := { b.slotA with ok := false } }))

end Sys2Proof.Machine
end

