-- ==== Sys2Proof/Machine/HostAccess.lean ====
section
/-!
DEFINITION. Accesses that come from outside: BAR 0, BAR 2, AtomicOps, coherent host-managed device memory, configuration
requests, and a peer's reads and writes (R102, R103, R113, R340-R346, R354, R363, R377).
-/
namespace Sys2Proof.Machine

open Sys2Proof

/-- Bytes of device memory (R107). -/
def devBytes : Nat := 3 * 2 ^ 38

/-- The outside's access completes. -/
def State.completes (s : State) (how : Completion) (out : Nat) : State := { s with host := { s.host with out := out, how := how } }

/-- A port's link has trained (R354, R355). -/
def State.linkUp (s : State) (port : Nat) : Bool :=
  (match s.boot.st with
   | .off | .verify => false
   | .train | .restore | .init | .ready | .failed => true) &&
    decide (port < 2) && !(s.host.portDown.testBit port) && (decide (port = 0) || s.boot.port1Up)

/-! ### Accesses at the home (R102, R103, R129, R340, R346) -/

/-- The migration that holds the page of an access from outside (R129). -/
def State.heldPage (s : State) (a n : Nat) : Option Mig := s.migs.find? (fun m => !m.unmap && rangesMeet (a, n) (m.pa, 2 ^ m.sz))
/-- Where the bits of an access from outside lie, by address and length: at the new home, once their page has moved (R129). -/
def State.landing (s : State) (a n : Nat) : List (Nat × Nat) :=
  match s.heldPage a n with
  | some m =>
    if m.moved then
      let lo := max a m.pa
      let hi := min (a + n) (m.pa + 2 ^ m.sz)
      [(a, lo - a), (m.newPa + (lo - m.pa), hi - lo), (hi, a + n - hi)]
    else [(a, n)]
  | none => [(a, n)]
/-- How many of the bits from an address lie in device memory. -/
def bitsInside (a n : Nat) : Nat := min n (8 * devBytes - a)
/-- Bits of device memory as the outside reads them; one beyond it reads 1 (R344). -/
def State.outBits (s : State) (a n : Nat) : Nat := s.homeRead a (bitsInside a n) + (2 ^ (n - bitsInside a n) - 1) * 2 ^ bitsInside a n
/-- Bits that the outside reads at the home. -/
def State.outsideGet (s : State) (a n : Nat) : Nat := (s.landing a n).foldr (fun p v => s.outBits p.1 p.2 + v * 2 ^ p.2) 0
/-- The lines that an access from outside reads, at their memory-side caches (R104). -/
def State.outsideUse (s : State) (a n : Nat) : State :=
  { s with hbm := (s.landing a n).foldl (fun h p => (linesOf p.1 (bitsInside p.1 p.2)).foldl (Hbm.use · false ·) h) s.hbm }
/-- Bits that the outside writes at the home; one beyond device memory is dropped (R344), and words wholly written lose their poison
(R377). -/
def State.outsidePut (s : State) (a n v : Nat) : State :=
  ((s.landing a n).foldl (fun (m : State × Nat) p =>
    (if bitsInside p.1 p.2 = 0 then m.1 else m.1.homePut p.1 (bitsInside p.1 p.2) m.2, m.2 / 2 ^ p.2)) (s, v)).1
/-- Errors that an outside read of bits meets (R377): corrected ones are put right; an uncorrectable one poisons the
completion. -/
def State.outsideErrors (s : State) (a n : Nat) : State × Bool :=
  if s.rel.upsets = [] then (s, false)
  else
    let us := s.rel.upsets.filter (fun u => (decide (u.s = 28) || decide (u.s = 31)) && (s.landing a n).any (fun p =>
      decide (p.1 < 64 * u.word + 64) && decide (64 * u.word < p.1 + p.2)))
    us.foldl (fun m u =>
      if u.unc then (m.1.logError u.addr (320 + 2 * u.s + 1) 1 0, true)
      else ((m.1.clearUpset u).logError u.addr (320 + 2 * u.s) 0 0, m.2)) (s, false)

/-- A read of `n` bits of device memory from bit `a`, at the home at sys scope. -/
def State.hostRead (s : State) (a n : Nat) : State :=
  let m := s.outsideErrors a n
  (m.1.outsideUse a n).completes (if m.2 then .poisoned else .ok) (m.1.outsideGet a n)
/-- A write. -/
def State.hostWrite (s : State) (a n v : Nat) : State := (s.outsidePut a n v).completes .ok 0
/-- An atomic or a reduction, by what it stores for what it reads; the old value completes it, or zero where it wants none. -/
def State.hostModify (s : State) (a n : Nat) (wants : Bool) (f : Nat → Nat) : State :=
  let m := s.outsideErrors a n
  let old := m.1.outsideGet a n
  let answer := if wants then old else 0
  if m.2 then m.1.completes .poisoned answer else (m.1.outsidePut a n (f old)).completes .ok answer
/-- What a host atomic stores (R113, R341). -/
def atomResult (kind : AtomKind) (old cmp v w : Nat) : Nat :=
  match kind with
  | .fetchAdd => (old + v) % 2 ^ w
  | .swap => v % 2 ^ w
  | .cas => if old = cmp % 2 ^ w then v % 2 ^ w else old

/-- An access from outside to `n` bits from bit `a` of device memory, as the event `i`: a page that migrates holds it, in the order of
arrival, until the page has moved (R129). R370 withdraws a hart's access after 2^24 cycles with a cause that the outside has no
register for, so one from outside waits on (log 120). -/
def State.fromOutside (s : State) (i : Instr) (a n : Nat) (f : State → State) : State :=
  match s.heldPage a n with
  | none => f s
  | some m =>
    let queue (s : State) (q : List Sel → List Sel) : State :=
      { s with migs := s.migs.map (fun (y : Mig) => if y.id = m.id then { y with queue := q y.queue } else y) }
    if m.moved && m.queue.contains (.event i) then queue (f s) (·.erase (.event i)) else queue s (· ++ [.event i])

/-! ### BAR 2 (R341, R344) -/

/-- Device byte of BAR 2 byte `k`. -/
def State.bar2Byte (s : State) (k : Nat) : Nat :=
  let base := (s.host.w2base.extractLsb' 30 10).toNat
  (base / 2 ^ s.host.barLog * 2 ^ s.host.barLog) * 2 ^ 30 + k

/-- HOST_BAR2_READ (R344). -/
def execHostBar2Read (byte size : Nat) (s : State) : Host.Outcome State Fault Refusal :=
  let a := 8 * s.bar2Byte byte
  .next (if s.boot.st = .ready then s.fromOutside (.hostBar2Read byte size) a (8 * size) (·.hostRead a (8 * size))
    else s.completes .unsupported 0)
/-- HOST_BAR2_WRITE (R344). -/
def execHostBar2Write (byte size val : Nat) (s : State) : Host.Outcome State Fault Refusal :=
  let a := 8 * s.bar2Byte byte
  .next (if s.boot.st = .ready then s.fromOutside (.hostBar2Write byte size val) a (8 * size) (·.hostWrite a (8 * size) val) else s)

/-- An AtomicOp the ports complete (R341): form, size and natural alignment. -/
def atomicOpSize (kind : AtomKind) (byte size : Nat) : Bool :=
  (decide (size = 4) || decide (size = 8) || (decide (size = 16) && decide (kind = .cas))) && decide (byte % size = 0)
/-- HOST_ATOMICOP (R341, R344). -/
def execHostAtomicop (kind : AtomKind) (byte size cmp val : Nat) (s : State) : Host.Outcome State Fault Refusal :=
  let k := s.bar2Byte byte
  .next (if s.boot.st = .ready ∧ atomicOpSize kind byte size ∧ k + size ≤ devBytes then
      s.fromOutside (.hostAtomicop kind byte size cmp val) (8 * k) (8 * size)
        (·.hostModify (8 * k) (8 * size) true (fun old => atomResult kind old cmp val (8 * size)))
    else s.completes .unsupported 0)

/-- HOST_MANAGED_DEVICE_MEMORY_ACCESS (R113, R340): the HDM decoder covers all device memory. -/
def execHostManagedDeviceMemoryAccess (op : HdmOp) (byte size cmp val : Nat) (s : State) : Host.Outcome State Fault Refusal :=
  if devBytes < byte + size then .fault .outsideDeviceMemory
  else if s.boot.st ≠ .ready ∨ s.host.portDown.testBit 0 then .next (s.completes .unsupported 0)
  else
    .next (s.fromOutside (.hostManagedDeviceMemoryAccess op byte size cmp val) (8 * byte) (8 * size) (fun s =>
      match op with
      | .read => s.hostRead (8 * byte) (8 * size)
      | .write => s.hostWrite (8 * byte) (8 * size) val
      | .atomic kind => s.hostModify (8 * byte) (8 * size) true (fun old => atomResult kind old cmp val (8 * size))))

/-! ### BAR 0 and configuration (R342-R345, R354) -/

/-- A pending interrupt whose vector is unmasked is sent (R342, PCIe's MSI-X). -/
def HostSide.unmask (x : HostSide) (port v : Nat) : HostSide :=
  if (Tab.get 0 x.pba port).getLsbD v && !((Tab.get 0 x.msix (128 * port + 2 * v + 1)).getLsbD 32) then
    { x with pba := Tab.set 0 x.pba port (Tab.get 0 x.pba port &&& ~~~((1 : Word) <<< v)), sent := (port, v) :: x.sent }
  else x
/-- A write of 4 or 8 bytes into a port's MSI-X table. -/
def HostSide.msixWrite (x : HostSide) (port off size val : Nat) : HostSide :=
  let i := 128 * port + off / 8
  let old := Tab.get 0 x.msix i
  let new := if size = 8 then nword val
    else if off % 8 = 0 then (old &&& 0xFFFFFFFF00000000) ||| nword (val % 2 ^ 32)
    else (old &&& 0xFFFFFFFF) ||| nword (val % 2 ^ 32 * 2 ^ 32)
  ({ x with msix := Tab.set 0 x.msix i new }).unmask port (off / 16)
/-- A write of the command slot (R345): dropped while OWN is 1; STATUS is read-only. -/
def HostSide.slotWrite (x : HostSide) (off val : Nat) : HostSide :=
  if x.mbHdr.getLsbD 63 then { x with mbovr := true }
  else if off = 0x1000 then
    { x with mbHdr := (nword val &&& 0xFF00FFFFFFFFFFFF) ||| (x.mbHdr &&& 0x00FF000000000000) }
  else { x with mbWords := Tab.set 0 x.mbWords ((off - 0x1008) / 8) (nword val) }

/-- The MSI-X table and its pending bits, which may be reached by 4 bytes. -/
def bar0Narrow (off : Nat) : Bool := (decide (0x8000 ≤ off) && decide (off < 0x8400)) || (decide (0x9000 ≤ off) && decide (off < 0x9008))
/-- An offset of BAR 0 that R342 lists. -/
def bar0Listed (off : Nat) : Bool :=
  bar0Narrow off || decide (off < 8) || (decide (0x10 ≤ off) && decide (off < 0x18)) ||
    (decide (0x1000 ≤ off) && decide (off < 0x2000))
/-- A width and alignment that an offset allows. -/
def bar0Width (off size : Nat) : Bool :=
  (decide (size = 8) && decide (off % 8 = 0)) || (bar0Narrow off && decide (size = 4) && decide (off % 4 = 0))

/-- HOST_BAR0_WRITE (R342): W2BASE, the command slot, the MSI-X table; what is read-only or not listed ignores it. -/
def execHostBar0Write (port off size val : Nat) (s : State) : Host.Outcome State Fault Refusal :=
  if !(s.linkUp port) then .next s
  else
    if !(bar0Listed off) then .next (s.completes .ok 0)
    else if !(bar0Width off size) then .next (s.completes .unsupported 0)
    else
      let x := s.host
      let y : HostSide :=
        if 0x8000 ≤ off ∧ off < 0x8400 then x.msixWrite port (off - 0x8000) size val
        else if off = 0x10 then { x with w2base := nword val &&& 0xFFC0000000 }
        else if 0x1000 ≤ off ∧ off < 0x2000 then x.slotWrite off val
        else x
      .next ({ s with host := y }.completes .ok 0)

/-- A word of a port's BAR 0 as the host reads it, at an offset that is a multiple of 8: HSTAT, W2BASE, the command slot, the
MSI-X table and its pending bits; another offset reads zero (R342-R345). -/
def State.bar0Word (s : State) (port off : Nat) : Word :=
  if off = 0 then s.hstat
  else if off = 0x10 then s.host.w2base
  else if off = 0x1000 then s.host.mbHdr
  else if 0x1000 < off ∧ off < 0x2000 then Tab.get 0 s.host.mbWords ((off - 0x1008) / 8)
  else if 0x8000 ≤ off ∧ off < 0x8400 then Tab.get 0 s.host.msix (128 * port + (off - 0x8000) / 8)
  else if off = 0x9000 then Tab.get 0 s.host.pba port
  else 0
/-- The host reads BAR 0 (R342). -/
def State.bar0Read (s : State) (port off size : Nat) : State :=
  if !(s.linkUp port) then s.completes .unsupported 0
  else if !(bar0Listed off) then s.completes .ok 0
  else if !(bar0Width off size) then s.completes .unsupported 0
  else s.completes .ok ((s.bar0Word port (off / 8 * 8)).toNat / 2 ^ (8 * (off % 8)) % 2 ^ (8 * size))
/-- BAR 2 takes a size of 2^lg GiB, up to 1 TiB (R344). -/
def State.bar2Size (s : State) (lg : Nat) : State := if lg ≤ 10 then { s with host := { s.host with barLog := lg } } else s

/-- CONFIGURATION_REQUEST (R337, R354): Request Retry Status before a port's link trains; afterwards it is served, and a
write may set port 1's AtomicOp Requester Enable. -/
def execConfigurationRequest (port : Nat) (enable : Option Bool) (s : State) : Host.Outcome State Fault Refusal :=
  if !(s.linkUp port) then .next (s.completes .retry 0)
  else
    let s1 : State := match enable with
      | some b => if port = 1 then { s with host := { s.host with atomicEn := b } } else s
      | none => s
    .next (s1.completes .ok (Config.configSpace port))

/-! ### Peers (R200-R202, R346, R363) -/

/-- The window of a link that covers a range and grants a right (R346; log 30). -/
def State.window (s : State) (link off n : Nat) (right : Window → Bool) : Option Window :=
  s.host.windows.find? (fun w => decide (w.link = link) && right w && decide (off + n ≤ w.ext))

/-- PEER_WRITE (R346): `size` bits at an offset of a window; with `red` a reduction by an operation of R200 on a tag. What
the window does not allow is refused. -/
def execPeerWrite (link off size val : Nat) (red : Option (Nat × BitVec 8)) (s : State) : Host.Outcome State Fault Refusal :=
  if s.boot.st ≠ .ready ∨ s.host.linkDown.testBit link then .next s
  else
    match s.window link off size (fun w => match red with
      | none => w.write
      | some _ => w.reduce) with
    | none => .next (s.completes .unsupported 0)
    | some w =>
      let a := w.base + off
      match red with
      | none => .next (s.fromOutside (.peerWrite link off size val red) a size (·.hostWrite a size val))
      | some (op, code) =>
        match Tag.ofCode code with
        | none => .next (s.completes .unsupported 0)
        | some t =>
          if t.isAtomic && decide (t.width = size) && decide (op < 3) then
            .next (s.fromOutside (.peerWrite link off size val red) a size
              (·.hostModify a size false (fun old => combine op t old (val % 2 ^ size))))
          else .next (s.completes .unsupported 0)

/-- PEER_READ (R363): a far swap engine reads a layer source through a window. -/
def execPeerRead (link off size : Nat) (s : State) : Host.Outcome State Fault Refusal :=
  if s.boot.st ≠ .ready ∨ s.host.linkDown.testBit link then .next s
  else
    match s.window link off size (fun _ => true) with
    | none => .next (s.completes .unsupported 0)
    | some w =>
      .next (s.fromOutside (.peerRead link off size) (w.base + off) size (·.hostRead (w.base + off) size))

end Sys2Proof.Machine
end

