-- ==== Sys2Proof/Machine/Mailbox.lean ====
section
/-!
DEFINITION. The Hunik mailbox: its protocol, the commands 0x01 to 0x0D, and the foremen's service of host queues (R345-R352,
R358-R360).
-/
namespace Sys2Proof.Machine

open Sys2Proof

/-! ### The command slot (R345) -/

/-- A reserved bit of the header is set. -/
def HostSide.badHeader (x : HostSide) : Bool :=
  decide (x.mbHdr.extractLsb' 56 7 ≠ 0) || decide (x.mbHdr.extractLsb' 8 8 ≠ 0)
/-- Parameter word `i`. -/
def HostSide.param (x : HostSide) (i : Nat) : Nat := (Tab.get 0 x.mbWords i).toNat

/-- A submission with opcode `op` (R345, R346): a set reserved bit gives STATUS 2 and another start state STATUS 3; a command
clears MBOVR when it is accepted, and runs. One that has been accepted and is not complete goes on. -/
def mailbox (op : Nat) (states : StartState → Bool) (f : State → State) (s : State) : Host.Outcome State Fault Refusal :=
  if !s.host.own || decide (s.host.op ≠ op) || s.boot.hunikHalted then .next s
  else if s.host.accepted then .next (f s)
  else if s.host.badHeader then .next (s.reply 2 [])
  else if !(states s.boot.st) then .next (s.reply 3 [])
  else .next (f { s with host := { s.host with mbovr := false, accepted := true } })

/-- READY alone. -/
def inReady (x : StartState) : Bool := decide (x = .ready)
/-- READY or FAILED. -/
def inReadyOrFailed (x : StartState) : Bool := decide (x = .ready) || decide (x = .failed)
/-- Every state but OFF. -/
def notOff (x : StartState) : Bool := decide (x ≠ .off)

/-- The assigned opcodes (R346, R364). -/
def assignedOp (op : Nat) : Bool := (decide (1 ≤ op) && decide (op ≤ 0x0D)) || (decide (0x20 ≤ op) && decide (op ≤ 0x29))
/-- MAILBOX_UNKNOWN_OPCODE (R346). -/
def execMailboxUnknownOpcode (s : State) : Host.Outcome State Fault Refusal :=
  if !s.host.own || assignedOp s.host.op || s.boot.hunikHalted then .next s
  else .next (s.reply (if s.host.badHeader then 2 else 1) [])

/-! ### Identity, images and restarts (R346, R359, R360) -/

/-- The response of IDENT (R346, R359): part number, ordering code, the serial number of the image in use, the versions of the
images in both slots, and the certificate, in this order (log 18). -/
def State.identity (s : State) : List Word :=
  let m := s.boot.image s.boot.img
  [Config.partNumber, Config.orderingCode, m.serial, s.boot.slotA.version, s.boot.slotB.version] ++ m.cert
/-- IDENT (R346, R359). -/
def execIdent (s : State) := mailbox 1 (fun _ => true) (fun s => s.reply 0 s.identity) s

/-- A measurement as eight words, its low bits first. -/
def measureWords (m : BitVec 512) : List Word := (upTo 8).map (fun i => m.extractLsb' (64 * i) 64)
/-- The bits of words, those of the first lowest. -/
def wordsBits (l : List Word) : Nat := l.foldr (fun w n => w.toNat + n * 2 ^ 64) 0
/-- A signature of 1,280 bytes as 160 words, its low bits first. -/
def signatureWords (m : BitVec 10240) : List Word := (upTo 160).map (fun i => m.extractLsb' (64 * i) 64)
/-- The report of ATTEST (R360) before its signature: the nonce, the four measurements of the last start, the image slot, the
start count, KIND and STATE (log 18). -/
def State.report (s : State) (nonce : List Word) : List Word :=
  let m := s.boot.measured
  nonce ++ [m.image, m.firmware, m.foreman, m.handler].flatMap measureWords ++
    [nword s.boot.img, nword s.boot.startNo, nword s.boot.kind, nword s.boot.st.code]
/-- ATTEST (R360): a nonce of 256 bits; the report is signed with the identity key. -/
def execAttest (s : State) := mailbox 9 notOff (fun s =>
  let r := s.report ((upTo 4).map (fun i => Tab.get 0 s.host.mbWords i))
  s.reply 0 (r ++ signatureWords (Config.identitySign (64 * r.length) (wordsBits r)))) s

/-- WARM (R346, R355). -/
def execWarm (s : State) := mailbox 10 inReadyOrFailed (fun s => (s.reply 0 []).warmStart) s
/-- COLD (R346, R355). -/
def execCold (s : State) := mailbox 11 notOff (fun s => (s.reply 0 []).beginStart 1) s

/-- An image is accepted (R359): the measurement of its signer's key is one of the two in the ROM, and its signature verifies. -/
def acceptable (len bits : Nat) : Bool :=
  let k := Config.signerKey len bits
  let m := shake256 14344 k.toNat
  (decide (m = Config.signingKeys.1) || decide (m = Config.signingKeys.2)) &&
    Config.falconVerifies k (Config.signatureOf len bits) len bits
/-- A scrub register as an image sets it (R375): PERIOD of at least 1, WBC and EN; PASSES and the reserved bits are 0. -/
def scrubSetting (w : Word) : Word :=
  let v := w &&& 0xFFFFF003
  if v.extractLsb' 12 20 = 0 then v ||| 0x1000 else v
/-- The image of a length and bits (R354), with the settings it holds (log 11). -/
def newImage (len bits : Nat) : Image :=
  let w (i : Nat) : Word := Config.imageWord i len bits
  let l (i : Nat) : List Word := Config.imageWords i len bits
  { len := len, bits := bits, ok := acceptable len bits, tvec := tvecOf (w 0), scrub := (upFrom 1 5).map (fun i => scrubSetting (w i)),
    elogc := (upFrom 6 5).map (fun i => nword (min 64 (w i).toNat * 2 ^ 24)), reportS := 1 + (w 11).toNat % 3600,
    retIdleMs := 1 + (w 12).toNat % 10000, pcap := 2000 + (w 13).toNat % 3401, recheck := (w 14).toNat % 3,
    serial := w 15, version := w 16, laneMaps := l 0, hbmTiming := l 1, voltFreq := l 2, cert := l 3 }
/-- A range in device memory, or in host memory reached through port 0. -/
def coherent (a n : Nat) : Bool := decide (a + n ≤ 3 * 2 ^ 41) || (decide (2 ^ 50 ≤ a) && decide (a + n ≤ 2 ^ 51))
/-- IMGLOAD (R346): the bits at the source address go into the slot that is not in use, which becomes the slot of the next start;
the length is in bits (log 11). -/
def execImgload (s : State) := mailbox 13 inReadyOrFailed (fun s =>
  let slot := s.host.param 0
  let a := s.host.param 1
  let n := s.host.param 2
  if 1 < slot ∨ slot = s.boot.img ∨ !(coherent a n) then s.reply 2 []
  else
    let m := newImage n (s.homeRead a n)
    (s.setBoot (fun b => if slot = 1 then { b with slotB := m, sel := 1 } else { b with slotA := m, sel := 0 })).reply 0
      (measureWords m.measure)) s

/-- ENDHART (R346): a hart halted under R300 ends as by HEXIT, without waiting for its bolts; its transfers complete first. -/
def execEndhart (s : State) := mailbox 12 inReady (fun s =>
  let h := s.host.param 0
  let x := s.hart h
  if numHarts ≤ h ∨ !x.placed ∨ !x.halted ∨ x.depth ≠ 3 then s.reply 2 []
  else
    let s1 := s.setHart h { x with bolts := [], frames := [] }
    if (s1.xfersOf h).isEmpty then ((s1.drain h).endHart h).reply 0 [] else s1) s

/-! ### Events and windows (R346, R351, R352) -/

/-- SETEVT (R343, R351). -/
def execSetevt (s : State) := mailbox 5 inReady (fun s =>
  let lg := s.host.param 1
  if lg < 4 ∨ 12 < lg then s.reply 2 []
  else
    let x := { s.host with ring := some (s.host.param 0, lg, s.host.param 2), evCount := 0, evdrop := 0 }
    { s with host := x }.reply 0 []) s
/-- SETVEC (R352). -/
def execSetvec (s : State) := mailbox 6 inReady (fun s =>
  let cls := s.host.param 0
  let port := s.host.param 1
  let v := s.host.param 2
  if cls = 0 ∨ 10 < cls ∨ 1 < port ∨ 63 < v then s.reply 2 []
  else { s with host := { s.host with vecs := Tab.set (0, 0) s.host.vecs cls (port, v) } }.reply 0 []) s
/-- PEERWIN (R346): link, base, extent, and rights with write in bit 0 and reduce in bit 1 (log 30). -/
def execPeerwin (s : State) := mailbox 7 inReady (fun s =>
  let w : Window := ⟨s.host.param 0, s.host.param 1, s.host.param 2, (s.host.param 3).testBit 0, (s.host.param 3).testBit 1⟩
  if 7 < w.link ∨ 3 < s.host.param 3 ∨ 3 * 2 ^ 41 < w.base + w.ext then s.reply 2 []
  else { s with host := { s.host with windows := s.host.windows ++ [w] } }.reply 0 [nword s.host.windows.length]) s

/-! ### Host queues (R347-R350) -/

/-- The descriptor of OPENQ. -/
def HostSide.descriptor (x : HostSide) : Nat := (upTo 8).foldl (fun n i => n + x.param i * 2 ^ (64 * i)) 0
/-- The queue a descriptor opens, or none where R347 refuses it. -/
def State.queueOf (s : State) (d : Nat) : Option HostQ :=
  let base := field d 511 448
  let ctrl := field d 447 384
  let lg := field d 16 13
  if field d 335 32 ≠ 0 ∨ field d 12 0 ≠ 0 ∨ base % 1024 ≠ 0 ∨ ctrl % 128 ≠ 0 ∨ lg < 4 ∨ 12 < lg then none
  else if !(coherent base (1024 * 2 ^ lg)) || !(coherent ctrl 128) then none
  else if s.host.queues.any (fun q => decide (q.hqid = field d 31 26)) then none
  else some { hqid := field d 31 26, die := field d 25 24, yq := field d 23 20, base := base, ctrl := ctrl,
              ctx := (upTo 4).map (fun i => field d (347 + 12 * i) (336 + 12 * i)), maxPrio := field d 19 17, log2n := lg,
              head := 0, tail := 0, copy := none, closing := none }
/-- OPENQ (R347). -/
def execOpenq (s : State) := mailbox 2 inReady (fun s =>
  match s.queueOf s.host.descriptor with
  | none => s.reply 2 []
  | some q =>
    let s1 := (s.homePut q.ctrl 64 0).homePut (q.ctrl + 64) 64 0
    { s1 with host := { s1.host with queues := s1.host.queues ++ [q] } }.reply 0 []) s

/-- An open queue. -/
def State.hostQ (s : State) (hq : Nat) : Option HostQ := s.host.queues.find? (fun q => decide (q.hqid = hq))
/-- A queue replaced. -/
def State.setHostQ (s : State) (q : HostQ) : State :=
  { s with host := { s.host with queues := s.host.queues.map (fun y => if y.hqid = q.hqid then q else y) } }
/-- CLOSEQ (R350): TAIL is read, and the command waits for HEAD to reach it. -/
def execCloseq (s : State) := mailbox 3 inReady (fun s =>
  match s.hostQ (s.host.param 0) with
  | none => s.reply 2 []
  | some q => if q.closing.isSome then s else s.setHostQ { q with closing := some (s.homeRead q.ctrl 64) }) s
/-- CLOSEQ_COMPLETE (R350): serving stops, and the response is the final HEAD. -/
def execCloseqComplete (hq : Nat) (s : State) : Host.Outcome State Fault Refusal :=
  match s.hostQ hq with
  | none => .next s
  | some q =>
    if q.closing = some q.head then
      let s1 : State := { s with host := { s.host with queues := s.host.queues.filter (fun y => !(decide (y.hqid = hq))) } }
      .next (if s1.host.own && decide (s1.host.op = 3) then s1.reply 0 [nword q.head] else s1)
    else .next s

/-- QRESET in a mode (R350). -/
def qreset (mine : Nat → Bool) (f : YardQ → YardQ) (s : State) : Host.Outcome State Fault Refusal :=
  if s.host.own && decide (s.host.op = 4) && !(mine (s.host.param 2)) then .next s
  else mailbox 4 inReady (fun s =>
    let die := s.host.param 0
    let q := s.host.param 1
    if 3 < die ∨ 15 < q ∨ 2 < s.host.param 2 then s.reply 2 []
    else
      let y := s.yardQ die q
      let z := { f y with halted := false }
      (s.setYardQ die q z).reply 0 [nword (y.packets.length - z.packets.length)]) s
/-- QRESET_DROP_HEAD (R350). -/
def execQresetDropHead (s : State) := qreset (fun m => decide (m = 0)) (fun y => { y with packets := y.packets.tail }) s
/-- QRESET_DROP_ALL (R350). -/
def execQresetDropAll (s : State) := qreset (fun m => decide (m = 1)) (fun y => { y with packets := [] }) s
/-- QRESET_RETRY_HEAD (R350): the head's arrival word is evaluated again. A mode above 2 is refused. -/
def execQresetRetryHead (s : State) := qreset (fun m => decide (2 ≤ m)) (fun y => y) s

/-- A packet is rejected (R348, R352): the event, with HQID and the entry's count in INFO (log 31). -/
def State.rejectPacket (s : State) (q : HostQ) (p kind cause at_ : Nat) : State :=
  s.posted { cls := 4, cause := cause, hart := 384 * q.die + 7, mctx := pktMctx p,
             info := nword (kind * 2 ^ 56 + q.hqid * 2 ^ 48 + q.head % 2 ^ 32), addr := nword at_, data := [] }
/-- HEAD advances, and is written with release. -/
def State.advanceHead (s : State) (q : HostQ) : State :=
  let n := (q.head + 1) % 2 ^ 64
  (s.homePut (q.ctrl + 64) 64 n).countScoped.setHostQ { q with head := n }
/-- TAIL as the foreman goes by: it reads it, with acquire, when it has served all that the last read gave it, and stops at the
one that CLOSEQ read (R348, R350). -/
def State.tailOf (s : State) (q : HostQ) : Nat :=
  if q.tail = q.head then q.closing.getD (s.homeRead q.ctrl 64) else q.tail

/-- The foreman of a die turns from one queue to the next. -/
def State.nextTurn (s : State) (q : HostQ) : State :=
  { s with host := { s.host with turn := Tab.set 0 s.host.turn q.die ((q.hqid + 1) % 64) } }
/-- A foreman has packets of a queue to serve, or holds a copy of one. -/
def State.hasPackets (s : State) (q : HostQ) : Bool := q.copy.isSome || decide (s.tailOf q ≠ q.head)
/-- A queue has the turn of its die's foreman (R348): the foreman is one hart, so while a LAUNCH of it waits the queue it copied the
packet from keeps the turn (log 119); otherwise the queue is the first of those with packets, in rotation. -/
def State.hasTurn (s : State) (q : HostQ) : Bool :=
  let mine := s.host.queues.filter (fun y => decide (y.die = q.die))
  let after (y : HostQ) : Nat := (y.hqid + 64 - Tab.get 0 s.host.turn q.die) % 64
  if mine.any (·.copy.isSome) then q.copy.isSome
  else s.hasPackets q && !(mine.any (fun y => decide (after y < after q) && s.hasPackets y))
/-- LAUNCH of the copy of a packet (R32, R348): a cause of R32 rejects it, and a full yard queue holds it. -/
def State.launchCopy (s : State) (q : HostQ) (p a : Nat) : State :=
  match s.packetCause p with
  | some c => (((s.rejectPacket q p 0 c a).advanceHead { q with copy := none })).nextTurn q
  | none =>
    let y := s.yardQ q.die q.yq
    if y.full then s.setHostQ { q with copy := some p }
    else
      let z := { y with packets := y.packets ++ [⟨BitVec.ofNat 1024 p, a, s.asidOf (pktMctx p)⟩] }
      ((s.countScoped.setYardQ q.die q.yq z).advanceHead { q with copy := none }).nextTurn q
/-- FOREMAN_QUEUE_SERVICE (R348): in its turn, one packet of a queue is copied, checked and launched, or rejected; a copy whose LAUNCH
waits is launched, once its yard queue has room. -/
def execForemanQueueService (hq : Nat) (s : State) : Host.Outcome State Fault Refusal :=
  match s.hostQ hq with
  | none => .next s
  | some q0 =>
    if !(s.hasTurn q0) then .next s
    else
      let a := q0.base + q0.head % 2 ^ q0.log2n * 1024
      match q0.copy with
      | some p => .next (s.launchCopy q0 p a)
      | none =>
        let t := s.tailOf q0
        let s := if q0.tail = q0.head then s.countScoped else s
        let q := { q0 with tail := t }
        let e := s.homeRead a 1024
        let p := e - field e 147 144 * 2 ^ 144 + q.yq * 2 ^ 144
        if pktMctx p ≠ 0 ∧ !(q.ctx.contains (pktMctx p)) then .next (((s.rejectPacket q p 0 238 a).advanceHead q).nextTurn q)
        else if q.maxPrio < pktPrio p then .next (((s.rejectPacket q p 1 0 a).advanceHead q).nextTurn q)
        else if 2 ^ q.log2n < wrap ((t : Int) - q.head) 64 then .next (((s.rejectPacket q p 2 0 a).advanceHead q).nextTurn q)
        else .next (s.launchCopy q p a)

/-! ### RESYNC (R358) -/

/-- A section: entries of one width, laid from its start. -/
def section_ (w : Nat) (l : List Nat) : Nat × Nat :=
  ((l.foldl (fun (m : Nat × Nat) v => (m.1 + v % 2 ^ w * 2 ^ m.2, m.2 + w)) (0, 0)).1, w * l.length)
/-- A list made `n` long, with zero for what is missing. -/
def padTo (n : Nat) (l : List Nat) : List Nat := (upTo n).map (fun i => l.getD i 0)

/-- Entry of the contexts section. -/
def State.resyncCtx (s : State) (c : Ctx) : Nat :=
  let res := ((upTo c.nlayer).filter (fun l => decide (entState (s.lrtEntry c l) = 2))).length
  Config.resyncEntry 0 [c.mctx, c.eprio, c.nlayer, res, c.recheck, c.hq, c.unchecked]
/-- Entry of a yard queue: depth, head state and halting cause. -/
def State.resyncYard (s : State) (i : Nat) : Nat :=
  let y := s.yardQ (i / 16) (i % 16)
  Config.resyncEntry 1 [y.packets.length, if y.halted then 1 else 0, if y.halted then 240 + i % 16 else 0]
/-- Entry of a host queue. -/
def State.resyncHost (s : State) (q : HostQ) : Nat :=
  Config.resyncEntry 2 [q.hqid, q.die, q.yq, q.head, s.homeRead q.ctrl 64]
/-- Entry of a core's lots. -/
def State.resyncLots (s : State) (k : Nat) : Nat :=
  let bits (f : Hart → Bool) : Nat := Bits.ofList ((upTo 8).filter (fun sl => f (s.hart (8 * k + sl))))
  Config.resyncEntry 3 [(s.core k).lanepart.toNat, (s.core k).lotmap.toNat, bits (·.placed), bits Hart.inRoutine, bits (·.halted)]
/-- Entry of a swap in flight: context, layer, state, source, bits moved. -/
def State.resyncSwap (s : State) (w : Swap) : Nat :=
  let src := match s.ctx w.mctx with
    | some c => s.layerSource c w.layer
    | none => 0
  Config.resyncEntry 4 [w.mctx, w.layer, if w.phase = .evicting then 3 else 1, src, 0]
/-- Entry of the last causes. -/
def resyncCause (e : Nat × Nat × Nat × Word) : Nat := Config.resyncEntry 5 [e.1, e.2.1, e.2.2.1, e.2.2.2.toNat]

/-- The sections of the record, in order, each with its length. -/
def State.resyncSections (s : State) : List (Nat × Nat) :=
  let queues := s.host.queues.map s.resyncHost
  [section_ 128 (padTo 64 (s.ctxs.map s.resyncCtx)),
   (let a := section_ 64 ((upTo 64).map s.resyncYard)
    let b := section_ 256 (padTo 64 queues)
    (a.1 + b.1 * 2 ^ a.2, a.2 + b.2)),
   section_ 256 ((upTo 192).map s.resyncLots),
   section_ 128 ((s.swaps.take 256).map s.resyncSwap),
   section_ 32 ((upTo 96).map (Tab.get 0 s.rel.errCount)),
   section_ 128 (padTo 64 (s.rel.lastCauses.map resyncCause))]
/-- The record and its length: a header of 512 bits, with six offsets in its low 192 bits, and the sections (R358; log 20). -/
def State.resyncRecord (s : State) : Nat × Nat :=
  let secs := s.resyncSections
  let body := secs.foldl (fun (m : Nat × Nat × List Nat) x => (m.1 + x.1 * 2 ^ m.2.1, m.2.1 + x.2, m.2.2 ++ [m.2.1])) (0, 512, [])
  let offs := body.2.2.foldl (fun n o => n * 2 ^ 32 + o % 2 ^ 32) 0
  let top := Config.resyncEntry 6 [s.boot.startNo, s.nanos, body.2.1] % 2 ^ 320
  (body.1 + offs + top * 2 ^ 192, body.2.1)
/-- RESYNC (R358): a destination and a capacity; too small a capacity gives STATUS 2 with the length required. -/
def execResync (s : State) := mailbox 8 inReady (fun s =>
  let r := s.resyncRecord
  if s.host.param 1 < r.2 then s.reply 2 [nword r.2]
  else (s.homePut (s.host.param 0) r.2 r.1).reply 0 [nword r.2]) s

end Sys2Proof.Machine
end

