-- ==== Sys2Proof/Machine/Contexts.lean ====
section
/-!
DEFINITION. The mailbox commands 0x20 to 0x29: model contexts, layers, and the unmapping and migration of pages (R129, R361-R371).
-/
namespace Sys2Proof.Machine

open Sys2Proof

/-! ### Loading and unloading a context (R361, R364) -/

/-- The context of a 512-bit descriptor, or none where R361 refuses it. -/
def State.ctxOf (s : State) (d : Nat) : Option Ctx :=
  let m := field d 11 0
  let n := field d 28 16
  let lrt := field d 511 448
  let src := field d 447 384
  let save := field d 383 320
  if field d 251 64 ≠ 0 ∨ field d 39 36 ≠ 0 ∨ field d 31 29 ≠ 0 ∨ field d 15 12 ≠ 0 then none
  else if lrt % 64 ≠ 0 ∨ src % 128 ≠ 0 ∨ save % 512 ≠ 0 ∨ 3 * 2 ^ 41 < save + field d 319 280 then none
  else if field d 41 40 = 3 ∨ n = 0 ∨ 4096 < n ∨ m = 0 ∨ (s.ctx m).isSome then none
  else some { mctx := m, lrt := lrt, src := src, saveBase := save, saveLen := field d 319 280, quota := field d 279 252,
              asid := field d 63 48, hq := field d 47 42, recheck := field d 41 40, eprio := field d 35 32, nlayer := n,
              unchecked := 0, lastLwait := none, areas := [] }
/-- CTXLOAD (R361, R364). -/
def execCtxload (s : State) := mailbox 0x20 inReady (fun s =>
  let a := s.host.param 0
  if a % 64 ≠ 0 ∨ 3 * 2 ^ 41 < a + 512 then s.reply 2 []
  else
    match s.ctxOf (s.homeRead a 512) with
    | none => s.reply 2 []
    | some c => if 64 ≤ s.ctxs.length then s.reply 5 [] else { s with ctxs := s.ctxs ++ [c] }.reply 0 []) s

/-- Packets of a host queue between HEAD and TAIL name a context. -/
def State.ringNames (s : State) (q : HostQ) (m : Nat) : Bool :=
  let n := min (2 ^ q.log2n) (wrap ((s.homeRead q.ctrl 64 : Int) - q.head) 64)
  (upTo n).any (fun i => decide (pktMctx (s.homeRead (q.base + (q.head + i) % 2 ^ q.log2n * 1024) 1024) = m))
/-- What keeps a context resident (R364): a hart, a saved hart, a packet of a yard queue or a farm, or an open host queue. -/
def State.ctxInUse (s : State) (m : Nat) : Bool :=
  s.harts.any (fun p => p.2.placed && decide (p.2.mctx.toNat = m)) ||
  s.saved.any (fun v => decide (v.hart.mctx.toNat = m)) ||
  s.yardQs.any (fun p => p.2.packets.any (fun k => decide (pktMctx k.pkt.toNat = m))) ||
  s.farms.any (fun f => decide (pktMctx f.pkt.toNat = m)) ||
  s.host.queues.any (fun q => q.ctx.contains m || s.ringNames q m)
/-- A layer of a context that is unloaded: evicted at once, with the pages it frees (R364, R368). -/
def State.dropLayer (m : State × Nat) (c : Ctx) (l : Nat) : State × Nat :=
  let s := m.1
  let e := s.lrtEntry c l
  if entState e = 0 then m
  else
    let pages := match s.swapOf c.mctx l with
      | some w => if w.phase = .needPages then 0 else entPages e
      | none => entPages e
    let s1 := s.revoke c.asid (entRegion e) (entPages e * pageBits) (.evicted c.mctx l)
    let s2 := (s1.freeRegion c.asid (entRegion e) (entPages e * pageBits)).setEntry c l (entWith e 0)
    ((s2.dropSwap c.mctx l).posted (swapEvent 2 c.mctx l 0 (entRegion e)
      [nword (entWith e 0), nword (s.layerSource c l), 0, 0]), m.2 + pages)
/-- CTXUNLOAD (R364). -/
def execCtxunload (s : State) := mailbox 0x21 inReady (fun s =>
  match s.ctx (s.host.param 0) with
  | none => s.reply 2 []
  | some c =>
    if s.ctxInUse c.mctx then s.reply 3 []
    else
      let r := (upTo c.nlayer).foldl (fun m l => State.dropLayer m c l) (s, 0)
      { r.1 with ctxs := r.1.ctxs.filter (fun k => !(decide (k.mctx = c.mctx))) }.reply 0 [nword r.2]) s

/-! ### Layers (R364, R369) -/

/-- A command on a layer of a resident context; another layer or context gives STATUS 2. -/
def layerCommand (op : Nat) (f : State → Ctx → Nat → State) (s : State) : Host.Outcome State Fault Refusal :=
  mailbox op inReady (fun s =>
    match s.ctx (s.host.param 0) with
    | none => s.reply 2 []
    | some c => if c.nlayer ≤ s.host.param 1 then s.reply 2 [] else f s c (s.host.param 1)) s

/-- LREQ (R364). -/
def execLreq (s : State) := mailbox 0x22 inReady (fun s =>
  match s.ctx (s.host.param 0) with
  | none => s.reply 2 []
  | some c =>
    if c.nlayer < s.host.param 1 + s.host.param 2 then s.reply 2 []
    else (s.requestLayers c.mctx (s.host.param 1) (s.host.param 2)).reply 0 []) s

/-- LEVICT (R364, R369): a RESIDENT layer begins to leave, and an ARRIVING one leaves once it is RESIDENT. -/
def execLevict (s : State) := layerCommand 0x23 (fun s c l =>
  let e := s.lrtEntry c l
  if entPins e ≠ 0 then s.reply 4 []
  else if entState e = 2 then (s.beginEvict c.mctx l 0 false).reply 0 []
  else if entState e = 1 then
    match s.swapOf c.mctx l with
    | some w => (s.setSwap { w with evict := true }).reply 0 []
    | none => s.reply 0 []
  else s.reply 0 []) s

/-- An entry with its PINS replaced. -/
def entPinned (e n : Nat) : Nat := e - field e 5 2 * 4 + n % 16 * 4
/-- LPIN (R364). -/
def execLpin (s : State) := layerCommand 0x24 (fun s c l =>
  let e := s.lrtEntry c l
  if entPins e = 15 then s.reply 4 []
  else (s.setEntry c l (entPinned e (entPins e + 1))).reply 0 [nword (entPins e + 1)]) s
/-- LUNPIN (R364). -/
def execLunpin (s : State) := layerCommand 0x25 (fun s c l =>
  let e := s.lrtEntry c l
  if entPins e = 0 then s.reply 2 []
  else (s.setEntry c l (entPinned e (entPins e - 1))).reply 0 [nword (entPins e - 1)]) s

/-- CTXSET (R364, R372). -/
def execCtxset (s : State) := mailbox 0x26 inReady (fun s =>
  match s.ctx (s.host.param 0) with
  | none => s.reply 2 []
  | some c =>
    let prio := s.host.param 1
    let mode := s.host.param 2
    let quota := s.host.param 3
    if 15 < prio ∨ 2 < mode ∨ 2 ^ 28 ≤ quota then s.reply 2 []
    else
      { s with ctxs := s.ctxs.map (fun (k : Ctx) =>
          if k.mctx = c.mctx then { k with eprio := prio, recheck := mode, quota := quota } else k) }.reply 0 []) s

/-- SWAPCANCEL (R364): an ARRIVING layer's transfer ends with SWAP_FAILED, reason 3. -/
def execSwapcancel (s : State) := layerCommand 0x29 (fun s c l =>
  if entState (s.lrtEntry c l) = 1 then (s.failLayer c l 3).reply 0 [] else s.reply 3 []) s

/-! ### MIGRATE (R129, R370) -/

/-- A mapping of the page tables, and not of an old translation that a token keeps. -/
def Mapping.tabled (m : Mapping) : Bool := decide (m.asid < 2 ^ 16)
/-- The mappings of a physical page. -/
def State.mapsOf (s : State) (pa : Nat) : List Mapping := s.maps.filter (fun m => m.tabled && decide (m.pa = pa))
/-- A physical range is in use: mapped, in the swap pool's use, or the destination of a migration. -/
def State.physInUse (s : State) (pa n : Nat) : Bool :=
  s.maps.any (fun m => rangesMeet (pa, n) (m.pa, 2 ^ m.sz)) || s.pool.any (fun p => rangesMeet (pa, n) (p, pageBits)) ||
    s.migs.any (fun m => !m.unmap && rangesMeet (pa, n) (m.newPa, 2 ^ m.sz))
/-- Every token that covers a page, by its mappings, is revoked, reason unmap. -/
def State.revokePage (s : State) (ms : List Mapping) : State := ms.foldl (fun s m => s.revoke m.asid m.va (2 ^ m.sz) .unmapped) s
/-- Steps 1 and 2 of R129: the page is blocked and the tokens that cover it are revoked. -/
def State.beginMigrate (s : State) (ms : List Mapping) (pa newPa sz : Nat) : State :=
  let s1 := s.revokePage ms
  { s1 with migs := s1.migs ++ [⟨s1.nextUid, false, 0, 0, 0, pa, newPa, sz, false, []⟩], nextUid := s1.nextUid + 1 }
/-- MIGRATE (R364, R370): it completes with MIGRATE_COMPLETE (log 32). -/
def execMigrate (s : State) := mailbox 0x27 inReady (fun s =>
  let pa := s.host.param 0
  let new := s.host.param 1
  if s.migs ≠ [] then s
  else
    match s.mapsOf pa with
    | [] => s.reply 2 []
    | m :: t =>
      if new % 2 ^ m.sz ≠ 0 ∨ s.physInUse new (2 ^ m.sz) ∨ !(isDev (new + 2 ^ m.sz - 1)) ∨ !(isDev pa) then s.reply 2 []
      else s.beginMigrate (m :: t) pa new m.sz) s

/-- The grove L2 copies of a physical page go home and are dropped. -/
def State.flushPage (s : State) (pa sz : Nat) : State :=
  s.groves.foldl (fun s p => p.2.lines.foldl (fun s l =>
    if pa ≤ 512 * l.1 ∧ 512 * l.1 < pa + 2 ^ sz then (s.writeBack p.1 l.1 (BitVec.allOnes 512)).dropLine p.1 l.1 else s) s) s
/-- Errors of a page's words go with its data (R377). -/
def State.carryPage (s : State) (pa new sz : Nat) : State :=
  if s.rel.upsets = [] then s
  else
    let inside (u : Upset) : Bool := (decide (u.s = 28) || decide (u.s = 31)) && decide (pa ≤ 64 * u.word) &&
      decide (64 * u.word < pa + 2 ^ sz)
    { s with rel := { s.rel with upsets := s.rel.upsets.map (fun (u : Upset) =>
        if inside u then { u with word := u.word - pa / 64 + new / 64 } else u) } }
/-- The context and layer whose region an address of an address space lies in. -/
def State.layerAt (s : State) (asid va : Nat) : Option (Ctx × Nat) :=
  firstSome (fun (c : Ctx) =>
    if c.asid = asid then
      ((upTo c.nlayer).find? (fun l => let e := s.lrtEntry c l
        decide (entRegion e ≤ va) && decide (va < entRegion e + entPages e * pageBits))).map (fun l => (c, l))
    else none) s.ctxs
/-- The event of a page that has been migrated (R371), with the layer it lies in where it lies in one (log 31). -/
def State.migrateEvent (s : State) (g : Mig) : Event :=
  match (s.mapsOf g.newPa).head?.bind (fun m => s.layerAt m.asid m.va) with
  | some (c, l) => swapEvent 4 c.mctx l 0 g.pa [nword (s.lrtEntry c l), nword (s.layerSource c l), nword (2 ^ g.sz), 0]
  | none => swapEvent 4 0 0 0 g.pa [0, 0, nword (2 ^ g.sz), 0]
/-- Steps 3 to 5: what is past its check is performed, tokens probed since are revoked, the page is copied with the errors its
words hold, and the translations name the new page. The accesses that waited run next, in their order (step 6). -/
def State.movePage (s : State) (g : Mig) : State :=
  let s0 := (s.drainAll.revokePage (s.mapsOf g.pa)).flushPage g.pa g.sz
  let s1 := s0.homePut g.newPa (2 ^ g.sz) (s0.homeRead g.pa (2 ^ g.sz))
  let s2 := s1.carryPage g.pa g.newPa g.sz
  let wake (w : Option WaitRec) : Option WaitRec := match w with
    | some ⟨.page _ _, _, _, _⟩ => none
    | w => w
  let moved (p : Nat) : Nat := if p = g.pa then g.newPa else p
  { s2 with
    maps := s2.maps.map (fun (m : Mapping) => if m.tabled then { m with pa := moved m.pa } else m)
    pool := s2.pool.map moved
    swaps := s2.swaps.map (fun (w : Swap) => { w with pages := w.pages.map moved })
    migs := s2.migs.map (fun (m : Mig) => if m.id = g.id then { m with moved := true } else m)
    harts := s2.harts.map (fun p => (p.1, { p.2 with wait := wake p.2.wait, vwait := wake p.2.vwait }))
    agenda := g.queue ++ s2.agenda }
/-- A migration ends once the accesses that waited are performed. -/
def State.endMigrate (s : State) (g : Mig) : State :=
  let s1 := { s with migs := s.migs.filter (fun m => !(decide (m.id = g.id))) }
  let s2 := s1.posted (s1.migrateEvent g)
  if s2.host.own && decide (s2.host.op = 0x27) then s2.reply 0 [] else s2
/-- MIGRATE_COMPLETE (R129, R370). -/
def execMigrateComplete (pa : Nat) (s : State) : Host.Outcome State Fault Refusal :=
  match s.migs.find? (fun m => !m.unmap && decide (m.pa = pa)) with
  | none => .next s
  | some g =>
    let s1 := if g.moved then s else s.movePage g
    .next (if g.queue = [] then s1.endMigrate g
      else if s1.agenda.any g.queue.contains then s1
      else { s1 with agenda := g.queue ++ s1.agenda })

/-- An access of a hart's side is held at a page that migrates, in its turn, or is no longer (R129). -/
def State.noteHeld (s : State) (x : Sel) (w : Option WaitRec) : State :=
  let held (m : Mig) : Bool := match w with
    | some ⟨.page _ _, _, _, _⟩ => !m.moved && !m.unmap
    | _ => false
  if s.migs = [] then s
  else { s with migs := s.migs.map (fun (m : Mig) =>
    if held m then (if m.queue.contains x then m else { m with queue := m.queue ++ [x] })
    else { m with queue := m.queue.filter (fun y => !(decide (y = x))) }) }

/-! ### UNMAP (R370) -/

/-- A mapped page lies partly in a range. -/
def State.partlyCovered (s : State) (asid va n : Nat) : Bool :=
  s.maps.any (fun m => decide (m.asid = asid) && rangesMeet (va, n) (m.va, 2 ^ m.sz) &&
    !(decide (va ≤ m.va) && decide (m.va + 2 ^ m.sz ≤ va + n)))
/-- A range meets a layer region of a resident context. -/
def State.meetsLayer (s : State) (asid va n : Nat) : Bool :=
  s.ctxs.any (fun c => decide (c.asid = asid) && (upTo c.nlayer).any (fun l =>
    let e := s.lrtEntry c l
    rangesMeet (va, n) (entRegion e, entPages e * pageBits)))
/-- UNMAP (R364, R370): the tokens are revoked; it completes with UNMAP_COMPLETE (log 32). -/
def execUnmap (s : State) := mailbox 0x28 inReady (fun s =>
  let asid := s.host.param 0
  let va := s.host.param 1
  let n := s.host.param 2
  if s.migs ≠ [] then s
  else if s.partlyCovered asid va n then s.reply 2 []
  else if s.meetsLayer asid va n then s.reply 4 []
  else
    let s1 := s.revoke asid va n .unmapped
    { s1 with migs := s1.migs ++ [⟨s1.nextUid, true, asid, va, n, 0, 0, 0, false, []⟩], nextUid := s1.nextUid + 1 }) s
/-- UNMAP_COMPLETE (R128, R370): the instructions past their checks have drained, tokens probed since are revoked, and the pages
are unmapped. -/
def execUnmapComplete (x : Nat) (s : State) : Host.Outcome State Fault Refusal :=
  match s.migs.find? (fun m => m.unmap && decide (m.id = x)) with
  | none => .next s
  | some g =>
    let out (m : Mapping) : Bool := decide (m.asid = g.asid) && decide (g.va ≤ m.va) && decide (m.va < g.va + g.ext)
    let n := (s.maps.filter out).length
    let s0 := s.drainAll.revoke g.asid g.va g.ext .unmapped
    let s1 : State := { s0 with maps := s0.maps.filter (fun m => !(out m)), migs := s0.migs.filter (fun m => !(decide (m.id = x))) }
    let s2 := s1.posted (swapEvent 4 0 0 0 g.va [0, 0, 0, 0])
    .next (if s2.host.own && decide (s2.host.op = 0x28) then s2.reply 0 [nword n] else s2)

/-! ### Other changes of the page tables (R370) -/

/-- A mapping of the page tables: a size of R101, aligned at both ends, in an address space. -/
def Mapping.valid (m : Mapping) : Bool :=
  m.tabled && (decide (m.sz = 19) || decide (m.sz = 24) || decide (m.sz = 33)) && decide (m.va % 2 ^ m.sz = 0) &&
    decide (m.pa % 2 ^ m.sz = 0) && decide (m.va < 2 ^ 64)
/-- The old translations that live tokens keep: the mappings of their address space that meet a token's range, for those of them
that keep none yet. -/
def keptMaps (toks : Tab Token) (asid : Nat) (maps : List Mapping) (space : Nat → Nat) : List Mapping :=
  toks.flatMap (fun p =>
    if p.2.st = .live ∧ !(maps.any (fun m => decide (m.asid = space p.1))) then
      (maps.filter (fun m => decide (m.asid = asid) && rangesMeet (m.va, 2 ^ m.sz) (p.2.base, p.2.ext))).map
        (fun m => { m with asid := space p.1 })
    else [])
/-- The page tables are edited by another way than UNMAP or MIGRATE (R370): live tokens keep the old translation. -/
def State.pageTable (s : State) (maps : List Mapping) : State :=
  let kept := s.maps.filter (fun m => !m.tabled) ++
    s.harts.flatMap (fun p => if p.2.placed then keptMaps p.2.toks p.2.asid s.maps (tokenSpace p.1) else []) ++
    s.farms.flatMap (fun f => keptMaps f.leadToks f.asid s.maps (farmSpace f.id))
  let old (v : Saved) : List Mapping :=
    let space := keptMaps v.hart.toks v.hart.asid (s.maps.filter Mapping.tabled ++ v.tlb.map (fun m => { m with asid := 2 ^ 16 + m.asid })) (2 ^ 16 + ·)
    v.tlb ++ space.map (fun m => { m with asid := m.asid - 2 ^ 16 })
  { s with maps := maps.filter Mapping.valid ++ kept, saved := s.saved.map (fun (v : Saved) => { v with tlb := old v }) }

end Sys2Proof.Machine
end

