-- ==== Sys2Proof/WellFormed.lean ====
section
/-!
DEFINITION. Which instructions are well formed: the operand values that the encodings of 05, 08 and 09 admit beyond
the widths their types already fix. Each check cites the rule that makes the other values reserved.
-/
namespace Sys2Proof

/-- `~m0` is reserved (R61, R165). -/
def MaskOp.ok (k : MaskOp) : Bool := !(k.m == 0 && k.sns)

/-- How many lots of a kind a core has (R38, R153). -/
def lotKindCount (k : BitVec 2) : Nat :=
  match k.toNat with
  | 0 => 8
  | 1 => 8
  | 2 => 4
  | _ => 1

/-- A CLAIM count is at least 1 and at most its kind's count (R153). -/
def claimCountOk (k : BitVec 2) (n : BitVec 4) : Bool := 1 ≤ n.toNat && n.toNat ≤ lotKindCount k

/-- A vector atomic names token 0 with SP and v0 with NR (R256). -/
def vatomOk (vd : VReg) (sp nr : Bool) (tok : Tok) : Bool := (!sp || tok == 0) && (!nr || vd == 0)

/-- Well-formedness of an instruction, constructor by constructor. -/
def Instr.wellFormed (i : Instr) : Bool :=
  match i with
  | .add _ _ _ => true
  | .sub _ _ _ => true
  | .mul _ _ _ => true
  | .mulh _ _ _ => true
  | .mulhn _ _ _ => true
  | .div _ _ _ => true
  | .divn _ _ _ => true
  | .rem _ _ _ => true
  | .remn _ _ _ => true
  | .and _ _ _ => true
  | .or _ _ _ => true
  | .xor _ _ _ => true
  | .shl _ _ _ => true
  | .shr _ _ _ => true
  | .sra _ _ _ => true
  | .slt _ _ _ => true
  | .sltn _ _ _ => true
  | .min _ _ _ => true
  | .max _ _ _ => true
  | .minn _ _ _ => true
  | .maxn _ _ _ => true
  | .clz _ _ => true
  | .popc _ _ => true
  | .bext _ _ _ => true
  | .bins _ _ _ => true
  | .bix _ _ _ _ => true
  | .addi _ _ _ => true
  | .andi _ _ _ => true
  | .ori _ _ _ => true
  | .xori _ _ _ => true
  | .shli _ _ _ => true
  | .shri _ _ _ => true
  | .srai _ _ _ => true
  | .li _ _ => true
  | .lih _ _ => true
  | .beq _ _ _ => true
  | .bne _ _ _ => true
  | .blt _ _ _ => true
  | .bge _ _ _ => true
  | .bltn _ _ _ => true
  | .bgen _ _ _ => true
  | .jmp _ => true
  | .jal _ => true
  | .jr _ => true
  | .lds _ _ _ _ _ => true
  | .ldz _ _ _ _ _ => true
  | .st _ _ _ _ _ => true
  | .lda _ _ _ _ _ => true
  | .stl _ _ _ _ _ => true
  | .aadd _ _ _ _ _ => true
  | .aand _ _ _ _ _ => true
  | .aor _ _ _ _ _ => true
  | .axor _ _ _ _ _ => true
  | .amin _ _ _ _ _ => true
  | .amax _ _ _ _ _ => true
  | .aminn _ _ _ _ _ => true
  | .amaxn _ _ _ _ _ => true
  | .aswap _ _ _ _ _ => true
  | .cas _ _ _ _ _ => true
  | .casq _ _ _ _ => true
  | .fence _ _ => true
  | .waitm _ _ _ _ _ => true
  | .waitc _ _ _ => true
  | .arrive _ _ _ => true
  | .waitb _ _ _ _ _ => true
  | .lwait _ _ _ => true
  | .pause => true
  | .bolt _ => true
  | .vcfg _ _ => true
  | .setvl _ _ => true
  | .farm _ _ => true
  | .strip _ => true
  | .launch _ => true
  | .hexit => true
  | .claim _ _ k n _ => claimCountOk k n
  | .release _ _ => true
  | .sdone => true
  | .ssumm => true
  | .srefuse => true
  | .probe _ _ _ kd => kd != 0
  | .unprobe _ => true
  | .bind _ _ => true
  | .unbind _ => true
  | .copyRegLen _ _ _ _ => true
  | .copyImmLen _ _ _ _ => true
  | .copymRegLen _ _ _ _ => true
  | .copymImmLen _ _ _ _ => true
  | .mcastRegLen _ _ _ _ => true
  | .mcastImmLen _ _ _ _ => true
  | .redstRegLen _ _ _ _ => true
  | .redstImmLen _ _ _ _ => true
  | .sldRegLen _ _ _ _ => true
  | .sldImmLen _ _ _ _ => true
  | .dims _ _ n => n != 3
  | .csrr _ _ => true
  | .csrw _ _ => true
  | .csrx _ _ _ => true
  | .trap _ => true
  | .rett => true
  | .fwcall _ => true
  | .bkpt _ => true
  | .stop => true
  | .vbany _ k => k.ok
  | .vball _ k => k.ok
  | .vbnone _ k => k.ok
  | .vbdiv _ k => k.ok
  | .vjmp _ => true
  | .vfence _ => true
  | .vidx _ k => k.ok
  | .vmvs _ _ _ k => k.ok
  | .vext _ _ k => k.ok
  | .vtrap _ k => k.ok
  | .vrng _ k => k.ok
  | .vadd _ _ _ _ k => k.ok
  | .vsub _ _ _ _ k => k.ok
  | .vmul _ _ _ _ k => k.ok
  | .vmulh _ _ _ _ k => k.ok
  | .vmulw _ _ _ _ _ k => k.ok
  | .vmacc _ _ _ k => k.ok
  | .vdiv _ _ _ _ k => k.ok
  | .vrem _ _ _ _ k => k.ok
  | .vmin _ _ _ _ k => k.ok
  | .vmax _ _ _ _ k => k.ok
  | .vabs _ _ _ k => k.ok
  | .vneg _ _ _ k => k.ok
  | .vadds _ _ _ _ k => k.ok
  | .vsubs _ _ _ _ k => k.ok
  | .vavg _ _ _ _ k => k.ok
  | .vand _ _ _ _ k => k.ok
  | .vor _ _ _ _ k => k.ok
  | .vxor _ _ _ _ k => k.ok
  | .vshl _ _ _ _ k => k.ok
  | .vshr _ _ _ _ k => k.ok
  | .vsra _ _ _ _ k => k.ok
  | .vpopc _ _ k => k.ok
  | .vclz _ _ k => k.ok
  | .vbext _ _ _ _ k => k.ok
  | .vfma _ _ _ _ _ k => k.ok
  | .vfms _ _ _ _ _ k => k.ok
  | .vfnma _ _ _ _ _ k => k.ok
  | .vsqrt _ _ _ k => k.ok
  | .vrcp _ _ _ k => k.ok
  | .vrsq _ _ _ k => k.ok
  | .vexp _ _ _ k => k.ok
  | .vlog _ _ _ k => k.ok
  | .vsig _ _ _ k => k.ok
  | .vtanh _ _ _ k => k.ok
  | .vcvt _ _ _ _ k => k.ok
  | .vwiden _ _ k => k.ok
  | .vnarrow _ _ _ _ k => k.ok
  | .vqnt _ _ _ _ _ k => k.ok
  | .vdqnt _ _ _ _ _ k => k.ok
  | .vrnd _ _ _ k => k.ok
  | .vclass _ _ k => k.ok
  | .vscl _ _ _ _ k => k.ok
  | .vsat _ _ _ _ _ k => k.ok
  | .vcmp _ _ _ _ k => k.ok
  | .vcmpn _ _ _ _ k => k.ok
  | .mand _ _ _ k => k.ok
  | .mor _ _ _ k => k.ok
  | .mxor _ _ _ k => k.ok
  | .mnot _ _ k => k.ok
  | .mpop _ _ k => k.ok
  | .mfirst _ _ k => k.ok
  | .vsel _ _ _ _ k => k.ok
  | .mset _ _ k => k.ok
  | .vrsum _ _ _ k => k.ok
  | .vrmax _ _ _ k => k.ok
  | .vrmin _ _ _ k => k.ok
  | .vrand _ _ _ k => k.ok
  | .vror _ _ _ k => k.ok
  | .vscan _ _ _ k => k.ok
  | .vscanmx _ _ _ k => k.ok
  | .vrdot _ _ _ _ k => k.ok
  | .vslup _ _ _ k => k.ok
  | .vsldn _ _ _ k => k.ok
  | .vgthr _ _ _ k => k.ok
  | .vcomp _ _ k => k.ok
  | .vexpd _ _ k => k.ok
  | .vbcast _ _ k => k.ok
  | .vrev _ _ k => k.ok
  | .vzip _ _ _ _ k => k.ok
  | .vunzip _ _ _ _ k => k.ok
  | .vld _ _ _ _ _ _ k => k.ok
  | .vst _ _ _ _ _ _ k => k.ok
  | .vlds _ _ _ _ _ _ _ k => k.ok
  | .vsts _ _ _ _ _ _ _ k => k.ok
  | .vldx _ _ _ _ _ _ _ k => k.ok
  | .vstx _ _ _ _ _ _ _ k => k.ok
  | .vldxo _ _ _ _ _ _ _ k => k.ok
  | .vstxo _ _ _ _ _ _ _ k => k.ok
  | .vldseg _ _ _ _ _ _ _ _ k => k.ok
  | .vstseg _ _ _ _ _ _ _ _ k => k.ok
  | .vldm _ _ _ _ _ _ k => k.ok
  | .vstm _ _ _ _ _ _ k => k.ok
  | .vldsp _ _ _ _ _ _ k => k.ok
  | .vstsp _ _ _ _ _ _ k => k.ok
  | .vldspx _ _ _ _ _ _ k => k.ok
  | .vstspx _ _ _ _ _ _ k => k.ok
  | .vaadd vd _ _ _ _ sp nr _ _ tok k => vatomOk vd sp nr tok && k.ok
  | .vamin vd _ _ _ _ sp nr _ _ tok k => vatomOk vd sp nr tok && k.ok
  | .vamax vd _ _ _ _ sp nr _ _ tok k => vatomOk vd sp nr tok && k.ok
  | .vaand vd _ _ _ _ sp nr _ _ tok k => vatomOk vd sp nr tok && k.ok
  | .vaor vd _ _ _ _ sp nr _ _ tok k => vatomOk vd sp nr tok && k.ok
  | .vaxor vd _ _ _ _ sp nr _ _ tok k => vatomOk vd sp nr tok && k.ok
  | .vaswap vd _ _ _ _ sp nr _ _ tok k => vatomOk vd sp nr tok && k.ok
  | .vacas vd _ _ _ _ sp nr _ _ tok k => vatomOk vd sp nr tok && k.ok
  | .tld _ _ _ _ _ _ => true
  | .tldf _ _ _ _ _ _ => true
  | .tscl _ _ _ _ => true
  | .mrow _ _ _ _ _ k => k.ok
  | .mrowz _ _ _ _ _ k => k.ok
  | .msweep _ _ _ _ _ _ _ => true
  | .mdrain _ _ _ k => k.ok
  | .mdrains _ _ _ _ _ _ => true
  | .mzero _ _ => true
  | .mldacc _ _ k => k.ok
  | .qcmp _ _ _ _ _ k => k.ok
  | .qand _ _ _ _ k => k.ok
  | .qor _ _ _ _ k => k.ok
  | .qnot _ _ k => k.ok
  | .qblend _ _ _ _ _ k => k.ok
  | .qcoll _ _ _ k => k.ok
  | .qgrad _ _ _ k => k.ok
  | .qmov _ _ k => k.ok
  | .qset _ code k => decide (code.toNat ≤ 0x8000) && k.ok
  | .qhard _ _ _ k => k.ok
  | .qseed _ k => k.ok
  | .qlin _ _ => true
  | .hostBar0Write _ _ _ _ => true
  | .hostBar2Read _ _ => true
  | .hostBar2Write _ _ _ => true
  | .hostAtomicop _ _ _ _ _ => true
  | .hostManagedDeviceMemoryAccess _ _ _ _ _ => true
  | .configurationRequest _ _ => true
  | .peerWrite _ _ _ _ _ => true
  | .peerRead _ _ _ => true
  | .linkDown _ _ => true
  | .softError _ _ _ _ => true
  | .scanReadout _ _ => true
  | .throttle _ => true
  | .swapFailed _ _ _ => true
  | .backinvTimeout _ _ => true
  | .hbmRefresh _ => true
  | .scrubWord _ _ _ => true
  | .vretqRead _ => true
  | .boltQueueRoom _ => true
  | .boltsCompletedWaitEnd _ => true
  | .waitcWake _ => true
  | .waitTimeout _ => true
  | .waitmWake _ => true
  | .waitmTimeout _ => true
  | .waitbWake _ => true
  | .waitbTimeout _ => true
  | .lwaitWake _ => true
  | .swapTimeout _ => true
  | .launchQueueRoom _ => true
  | .engineIssueRoom _ => true
  | .engineTransferComplete _ _ => true
  | .tldfFillComplete _ _ => true
  | .recallDelivery _ => true
  | .surrenderBudget _ => true
  | .claimRetry _ => true
  | .claimRecallRepost _ => true
  | .packetRelease _ _ => true
  | .leadPlacement _ => true
  | .followerPlacement _ => true
  | .effectivePriorityAging _ => true
  | .preemption _ => true
  | .convoyCut _ => true
  | .contextRestore _ => true
  | .pendingEventTaken _ => true
  | .fwNotify _ _ => true
  | .layerArrival _ _ => true
  | .evictionComplete _ _ => true
  | .swapVictimTimeout _ _ => true
  | .pageBlocked _ => true
  | .hostTimeout _ _ _ => true
  | .l2Eviction _ _ => true
  | .l2StaleSweep _ => true
  | .foremanQueueService _ => true
  | .ident => true
  | .openq => true
  | .closeq => true
  | .closeqComplete _ => true
  | .qresetDropHead => true
  | .qresetDropAll => true
  | .qresetRetryHead => true
  | .setevt => true
  | .setvec => true
  | .peerwin => true
  | .resync => true
  | .attest => true
  | .warm => true
  | .cold => true
  | .endhart => true
  | .imgload => true
  | .ctxload => true
  | .ctxunload => true
  | .lreq => true
  | .levict => true
  | .lpin => true
  | .lunpin => true
  | .ctxset => true
  | .migrate => true
  | .migrateComplete _ => true
  | .unmap => true
  | .unmapComplete _ => true
  | .swapcancel => true
  | .fwcallPartNumber => true
  | .fwcallPostEvent => true
  | .fwcallTime => true
  | .fwcallLayerRequest => true
  | .fwcallResidentPages => true
  | .powerGood => true
  | .perstAssert => true
  | .powerLoss => true
  | .start _ => true
  | .freeze => true
  | .periodicReport => true
  | .retentionEntry _ => true
  | .groveWake _ => true
  | .throttleRecover => true
  | .thermalTrip => true
  | .reservedOpcode case => decide (case < 8)
  | .reservedField case => decide (case < 8)
  | .instructionFetchFault _ _ => true
  | .perstDeassert => true
  | .freezeDeassert => true
  | .mailboxUnknownOpcode => true

end Sys2Proof
end

