-- ==== Sys2Proof/Decode.lean ====
section
/-!
DEFINITION. Decoding of stem words (05 R145-R156) and bolt words (05 R157-R161, 07 R216, 08 R256, 09 R282), total on
every word and refusing by the name and case of 10 R306; after it the encoder, written from the same tables.
-/
namespace Sys2Proof

/-- Why a word is no legal instruction (R165): the cause's name, with its case under R306. -/
inductive DecodeError where
  /-- RESERVED_OPCODE, cause code `case`. -/
  | reservedOpcode (case : Nat)
  /-- RESERVED_FIELD, cause code `8 + case`. -/
  | reservedField (case : Nat)
  deriving DecidableEq, Repr

/-- The cause code of a refusal (R306). -/
def DecodeError.code : DecodeError → Nat
  | .reservedOpcode k => k
  | .reservedField k => 8 + k

/-- The lowest case among the defects found; the list is given in ascending case (R306). -/
def firstCase (ds : List (Bool × Nat)) : Option Nat := (ds.find? (·.1)).map (·.2)

/-- Refuse with RESERVED_FIELD on the first defect, else accept. -/
def checked (ds : List (Bool × Nat)) (i : Instr) : Except DecodeError Instr :=
  match firstCase ds with
  | some k => .error (.reservedField k)
  | none => .ok i

/-! ### Codes of the small fields -/

/-- Scope code (R149). -/
def Scope.bits : Scope → BitVec 3
  | .hart => 0 | .core => 1 | .grove => 2 | .dev => 3 | .sys => 4

/-- Scope of a code; 5-7 are reserved and are refused before this is used. -/
def Scope.ofBits (b : BitVec 3) : Scope :=
  match b.toNat with
  | 0 => .hart | 1 => .core | 2 => .grove | 3 => .dev | _ => .sys

/-- Fence kind code (R151). -/
def FenceKind.bits : FenceKind → BitVec 3
  | .ss => 0 | .sv => 1 | .vs => 2 | .vv => 3 | .all => 4

/-- Fence kind of a code; 5-7 are refused before this is used. -/
def FenceKind.ofBits (b : BitVec 3) : FenceKind :=
  match b.toNat with
  | 0 => .ss | 1 => .sv | 2 => .vs | 3 => .vv | _ => .all

/-- RND code (R160). -/
def Rnd.bits : Rnd → BitVec 3
  | .fmode => 0 | .rne => 1 | .rtz => 2 | .rdn => 3 | .rup => 4

/-- RND of a code; 5-7 are refused before this is used. -/
def Rnd.ofBits (b : BitVec 3) : Rnd :=
  match b.toNat with
  | 0 => .fmode | 1 => .rne | 2 => .rtz | 3 => .rdn | _ => .rup

/-- Condition code (R242). -/
def Cond.bits : Cond → BitVec 3
  | .eq => 0 | .ne => 1 | .lt => 2 | .le => 3 | .gt => 4 | .ge => 5

/-- Condition of a code; 6 and 7 are refused before this is used. -/
def Cond.ofBits (b : BitVec 3) : Cond :=
  match b.toNat with
  | 0 => .eq | 1 => .ne | 2 => .lt | 3 => .le | 4 => .gt | _ => .ge

/-- One bit as a Bool. -/
def bitBool (b : BitVec 1) : Bool := b == 1
/-- A Bool as one bit. -/
def boolBit (b : Bool) : BitVec 1 := if b then 1 else 0

/-- A 3-bit code above `n` is reserved. -/
def above (b : BitVec 3) (n : Nat) : Bool := decide (n < b.toNat)

/-! ### Stem words -/

/-- The fields of a stem word in SR format (R145); the other formats join neighbouring fields. -/
structure StemFields where
  major : BitVec 6
  a : BitVec 5
  b : BitVec 5
  c : BitVec 5
  fn : BitVec 11
  deriving DecidableEq, Repr

/-- The fields of a word. -/
def StemFields.ofWord (w : BitVec 32) : StemFields :=
  { major := w.extractLsb' 26 6, a := w.extractLsb' 21 5, b := w.extractLsb' 16 5,
    c := w.extractLsb' 11 5, fn := w.extractLsb' 0 11 }

/-- The word of the fields. -/
def StemFields.word (f : StemFields) : BitVec 32 :=
  (f.major ++ f.a ++ f.b ++ f.c ++ f.fn : BitVec (6 + 5 + 5 + 5 + 11))

/-- IMM[15:0] and OFF[15:0] of SI and SB format, SYS[15:0] of SX format (R145). -/
def StemFields.imm16 (f : StemFields) : BitVec 16 := (f.c ++ f.fn : BitVec (5 + 11))
/-- IMM[20:0] of SL format. -/
def StemFields.imm21 (f : StemFields) : BitVec 21 := (f.b ++ (f.c ++ f.fn) : BitVec (5 + (5 + 11)))
/-- OFF[25:0] of SJ format. -/
def StemFields.off26 (f : StemFields) : BitVec 26 := (f.a ++ (f.b ++ (f.c ++ f.fn)) : BitVec (5 + (5 + (5 + 11))))

/-- Register number of a nonzero test. -/
def nz {n : Nat} (x : BitVec n) : Bool := x != 0

/-- The address part of a load or store (R148). -/
def StemFields.index (f : StemFields) : Index :=
  if bitBool (f.fn.extractLsb' 1 1) then .reg f.c
  else .disp (f.fn.extractLsb' 0 1 ++ f.c : BitVec (1 + 5))

/-- The bits of FN named by `mask`. -/
def StemFields.fnAt (f : StemFields) (mask : BitVec 11) : Bool := nz (f.fn &&& mask)

/-- Major 0x01, the 25 integer operations, by FN[4:0] (R152). -/
def decodeMajor01 (f : StemFields) : Except DecodeError Instr :=
  match (f.fn.extractLsb' 0 5).toNat with
  | 0 => checked [(f.fnAt 0x7E0, 0)] (.add f.a f.b f.c)
  | 1 => checked [(f.fnAt 0x7E0, 0)] (.sub f.a f.b f.c)
  | 2 => checked [(f.fnAt 0x7E0, 0)] (.mul f.a f.b f.c)
  | 3 => checked [(f.fnAt 0x7E0, 0)] (.mulh f.a f.b f.c)
  | 4 => checked [(f.fnAt 0x7E0, 0)] (.mulhn f.a f.b f.c)
  | 5 => checked [(f.fnAt 0x7E0, 0)] (.div f.a f.b f.c)
  | 6 => checked [(f.fnAt 0x7E0, 0)] (.divn f.a f.b f.c)
  | 7 => checked [(f.fnAt 0x7E0, 0)] (.rem f.a f.b f.c)
  | 8 => checked [(f.fnAt 0x7E0, 0)] (.remn f.a f.b f.c)
  | 9 => checked [(f.fnAt 0x7E0, 0)] (.and f.a f.b f.c)
  | 10 => checked [(f.fnAt 0x7E0, 0)] (.or f.a f.b f.c)
  | 11 => checked [(f.fnAt 0x7E0, 0)] (.xor f.a f.b f.c)
  | 12 => checked [(f.fnAt 0x7E0, 0)] (.shl f.a f.b f.c)
  | 13 => checked [(f.fnAt 0x7E0, 0)] (.shr f.a f.b f.c)
  | 14 => checked [(f.fnAt 0x7E0, 0)] (.sra f.a f.b f.c)
  | 15 => checked [(f.fnAt 0x7E0, 0)] (.slt f.a f.b f.c)
  | 16 => checked [(f.fnAt 0x7E0, 0)] (.sltn f.a f.b f.c)
  | 17 => checked [(f.fnAt 0x7E0, 0)] (.min f.a f.b f.c)
  | 18 => checked [(f.fnAt 0x7E0, 0)] (.max f.a f.b f.c)
  | 19 => checked [(f.fnAt 0x7E0, 0)] (.minn f.a f.b f.c)
  | 20 => checked [(f.fnAt 0x7E0, 0)] (.maxn f.a f.b f.c)
  | 21 => checked [(nz f.c, 0), (f.fnAt 0x7E0, 0)] (.clz f.a f.b)
  | 22 => checked [(nz f.c, 0), (f.fnAt 0x7E0, 0)] (.popc f.a f.b)
  | 23 => checked [(f.fnAt 0x7E0, 0)] (.bext f.a f.b f.c)
  | 24 => checked [(f.fnAt 0x7E0, 0)] (.bins f.a f.b f.c)
  | _ => .error (.reservedOpcode 2)

/-- Major 0x02: BIX. -/
def decodeMajor02 (f : StemFields) : Except DecodeError Instr :=
  checked [(f.fnAt 0x7C0, 0)] (.bix f.a f.b f.c (f.fn.extractLsb' 0 6))

/-- Major 0x03: ADDI. -/
def decodeMajor03 (f : StemFields) : Except DecodeError Instr :=
  .ok (.addi f.a f.b f.imm16)

/-- Major 0x04: ANDI. -/
def decodeMajor04 (f : StemFields) : Except DecodeError Instr :=
  .ok (.andi f.a f.b f.imm16)

/-- Major 0x05: ORI. -/
def decodeMajor05 (f : StemFields) : Except DecodeError Instr :=
  .ok (.ori f.a f.b f.imm16)

/-- Major 0x06: XORI. -/
def decodeMajor06 (f : StemFields) : Except DecodeError Instr :=
  .ok (.xori f.a f.b f.imm16)

/-- Major 0x07: SHLI. -/
def decodeMajor07 (f : StemFields) : Except DecodeError Instr :=
  checked [(nz f.c, 0), (f.fnAt 0x7C0, 0)] (.shli f.a f.b (f.fn.extractLsb' 0 6))

/-- Major 0x08: SHRI. -/
def decodeMajor08 (f : StemFields) : Except DecodeError Instr :=
  checked [(nz f.c, 0), (f.fnAt 0x7C0, 0)] (.shri f.a f.b (f.fn.extractLsb' 0 6))

/-- Major 0x09: SRAI. -/
def decodeMajor09 (f : StemFields) : Except DecodeError Instr :=
  checked [(nz f.c, 0), (f.fnAt 0x7C0, 0)] (.srai f.a f.b (f.fn.extractLsb' 0 6))

/-- Major 0x0A: LI. -/
def decodeMajor0A (f : StemFields) : Except DecodeError Instr :=
  .ok (.li f.a f.imm21)

/-- Major 0x0B: LIH. -/
def decodeMajor0B (f : StemFields) : Except DecodeError Instr :=
  .ok (.lih f.a f.imm21)

/-- Major 0x0C: BEQ. -/
def decodeMajor0C (f : StemFields) : Except DecodeError Instr :=
  .ok (.beq f.a f.b f.imm16)

/-- Major 0x0D: BNE. -/
def decodeMajor0D (f : StemFields) : Except DecodeError Instr :=
  .ok (.bne f.a f.b f.imm16)

/-- Major 0x0E: BLT. -/
def decodeMajor0E (f : StemFields) : Except DecodeError Instr :=
  .ok (.blt f.a f.b f.imm16)

/-- Major 0x0F: BGE. -/
def decodeMajor0F (f : StemFields) : Except DecodeError Instr :=
  .ok (.bge f.a f.b f.imm16)

/-- Major 0x10: BLTN. -/
def decodeMajor10 (f : StemFields) : Except DecodeError Instr :=
  .ok (.bltn f.a f.b f.imm16)

/-- Major 0x11: BGEN. -/
def decodeMajor11 (f : StemFields) : Except DecodeError Instr :=
  .ok (.bgen f.a f.b f.imm16)

/-- Major 0x12: JMP. -/
def decodeMajor12 (f : StemFields) : Except DecodeError Instr :=
  .ok (.jmp f.off26)

/-- Major 0x13: JAL. -/
def decodeMajor13 (f : StemFields) : Except DecodeError Instr :=
  .ok (.jal f.off26)

/-- Major 0x14: JR. -/
def decodeMajor14 (f : StemFields) : Except DecodeError Instr :=
  checked [(nz f.b, 0), (nz f.c, 0), (f.fnAt 0x7FF, 0)] (.jr f.a)

/-- Major 0x15: LDS. -/
def decodeMajor15 (f : StemFields) : Except DecodeError Instr :=
  checked [((bitBool (f.fn.extractLsb' 1 1) && bitBool (f.fn.extractLsb' 0 1)), 0), (above (f.fn.extractLsb' 2 3) 4, 2)] (.lds f.a f.b f.index (f.fn.extractLsb' 5 6) (Scope.ofBits (f.fn.extractLsb' 2 3)))

/-- Major 0x16: LDZ. -/
def decodeMajor16 (f : StemFields) : Except DecodeError Instr :=
  checked [((bitBool (f.fn.extractLsb' 1 1) && bitBool (f.fn.extractLsb' 0 1)), 0), (above (f.fn.extractLsb' 2 3) 4, 2)] (.ldz f.a f.b f.index (f.fn.extractLsb' 5 6) (Scope.ofBits (f.fn.extractLsb' 2 3)))

/-- Major 0x17: ST. -/
def decodeMajor17 (f : StemFields) : Except DecodeError Instr :=
  checked [((bitBool (f.fn.extractLsb' 1 1) && bitBool (f.fn.extractLsb' 0 1)), 0), (above (f.fn.extractLsb' 2 3) 4, 2)] (.st f.a f.b f.index (f.fn.extractLsb' 5 6) (Scope.ofBits (f.fn.extractLsb' 2 3)))

/-- Major 0x18: LDA. -/
def decodeMajor18 (f : StemFields) : Except DecodeError Instr :=
  checked [((bitBool (f.fn.extractLsb' 1 1) && bitBool (f.fn.extractLsb' 0 1)), 0), (above (f.fn.extractLsb' 2 3) 4, 2)] (.lda f.a f.b f.index (f.fn.extractLsb' 5 6) (Scope.ofBits (f.fn.extractLsb' 2 3)))

/-- Major 0x19: STL. -/
def decodeMajor19 (f : StemFields) : Except DecodeError Instr :=
  checked [((bitBool (f.fn.extractLsb' 1 1) && bitBool (f.fn.extractLsb' 0 1)), 0), (above (f.fn.extractLsb' 2 3) 4, 2)] (.stl f.a f.b f.index (f.fn.extractLsb' 5 6) (Scope.ofBits (f.fn.extractLsb' 2 3)))

/-- Major 0x1A: AADD. -/
def decodeMajor1A (f : StemFields) : Except DecodeError Instr :=
  checked [(f.fnAt 0x3, 0), (above (f.fn.extractLsb' 2 3) 4, 2)] (.aadd f.a f.b f.c (f.fn.extractLsb' 5 6) (Scope.ofBits (f.fn.extractLsb' 2 3)))

/-- Major 0x1B: AAND. -/
def decodeMajor1B (f : StemFields) : Except DecodeError Instr :=
  checked [(f.fnAt 0x3, 0), (above (f.fn.extractLsb' 2 3) 4, 2)] (.aand f.a f.b f.c (f.fn.extractLsb' 5 6) (Scope.ofBits (f.fn.extractLsb' 2 3)))

/-- Major 0x1C: AOR. -/
def decodeMajor1C (f : StemFields) : Except DecodeError Instr :=
  checked [(f.fnAt 0x3, 0), (above (f.fn.extractLsb' 2 3) 4, 2)] (.aor f.a f.b f.c (f.fn.extractLsb' 5 6) (Scope.ofBits (f.fn.extractLsb' 2 3)))

/-- Major 0x1D: AXOR. -/
def decodeMajor1D (f : StemFields) : Except DecodeError Instr :=
  checked [(f.fnAt 0x3, 0), (above (f.fn.extractLsb' 2 3) 4, 2)] (.axor f.a f.b f.c (f.fn.extractLsb' 5 6) (Scope.ofBits (f.fn.extractLsb' 2 3)))

/-- Major 0x1E: AMIN. -/
def decodeMajor1E (f : StemFields) : Except DecodeError Instr :=
  checked [(f.fnAt 0x3, 0), (above (f.fn.extractLsb' 2 3) 4, 2)] (.amin f.a f.b f.c (f.fn.extractLsb' 5 6) (Scope.ofBits (f.fn.extractLsb' 2 3)))

/-- Major 0x1F: AMAX. -/
def decodeMajor1F (f : StemFields) : Except DecodeError Instr :=
  checked [(f.fnAt 0x3, 0), (above (f.fn.extractLsb' 2 3) 4, 2)] (.amax f.a f.b f.c (f.fn.extractLsb' 5 6) (Scope.ofBits (f.fn.extractLsb' 2 3)))

/-- Major 0x20: AMINN. -/
def decodeMajor20 (f : StemFields) : Except DecodeError Instr :=
  checked [(f.fnAt 0x3, 0), (above (f.fn.extractLsb' 2 3) 4, 2)] (.aminn f.a f.b f.c (f.fn.extractLsb' 5 6) (Scope.ofBits (f.fn.extractLsb' 2 3)))

/-- Major 0x21: AMAXN. -/
def decodeMajor21 (f : StemFields) : Except DecodeError Instr :=
  checked [(f.fnAt 0x3, 0), (above (f.fn.extractLsb' 2 3) 4, 2)] (.amaxn f.a f.b f.c (f.fn.extractLsb' 5 6) (Scope.ofBits (f.fn.extractLsb' 2 3)))

/-- Major 0x22: ASWAP. -/
def decodeMajor22 (f : StemFields) : Except DecodeError Instr :=
  checked [(f.fnAt 0x3, 0), (above (f.fn.extractLsb' 2 3) 4, 2)] (.aswap f.a f.b f.c (f.fn.extractLsb' 5 6) (Scope.ofBits (f.fn.extractLsb' 2 3)))

/-- Major 0x23: CAS. -/
def decodeMajor23 (f : StemFields) : Except DecodeError Instr :=
  checked [(f.fnAt 0x3, 0), (above (f.fn.extractLsb' 2 3) 4, 2)] (.cas f.a f.b f.c (f.fn.extractLsb' 5 6) (Scope.ofBits (f.fn.extractLsb' 2 3)))

/-- Major 0x24: CASQ. -/
def decodeMajor24 (f : StemFields) : Except DecodeError Instr :=
  checked [(f.fnAt 0x3, 0), (above (f.fn.extractLsb' 2 3) 4, 2), (((f.fn.extractLsb' 5 6) != 63), 5)] (.casq f.a f.b f.c (Scope.ofBits (f.fn.extractLsb' 2 3)))

/-- Major 0x25: FENCE. -/
def decodeMajor25 (f : StemFields) : Except DecodeError Instr :=
  checked [(nz f.a, 0), (nz f.b, 0), (nz f.c, 0), (f.fnAt 0x1F, 0), (above (f.fn.extractLsb' 5 3) 4, 2), (above (f.fn.extractLsb' 8 3) 4, 3)] (.fence (FenceKind.ofBits (f.fn.extractLsb' 8 3)) (Scope.ofBits (f.fn.extractLsb' 5 3)))

/-- Major 0x26: WAITM. -/
def decodeMajor26 (f : StemFields) : Except DecodeError Instr :=
  .ok (.waitm f.a f.b f.c (f.fn.extractLsb' 5 6) (f.fn.extractLsb' 0 5))

/-- Major 0x27, by FN[10:8] (R153). -/
def decodeMajor27 (f : StemFields) : Except DecodeError Instr :=
  match (f.fn.extractLsb' 8 3).toNat with
  | 0 => checked [(nz f.a, 0), (nz f.b, 0)] (.waitc f.c (f.fn.extractLsb' 5 3) (f.fn.extractLsb' 0 5))
  | 1 => checked [(nz f.c, 0), (f.fnAt 0x1F, 0), (above (f.fn.extractLsb' 5 3) 4, 2)] (.arrive f.a f.b (Scope.ofBits (f.fn.extractLsb' 5 3)))
  | 2 => checked [(above (f.fn.extractLsb' 5 3) 4, 2)] (.waitb f.a f.b f.c (Scope.ofBits (f.fn.extractLsb' 5 3)) (f.fn.extractLsb' 0 5))
  | 3 => checked [(nz f.c, 0), (f.fnAt 0xE0, 0)] (.lwait f.a f.b (f.fn.extractLsb' 0 5))
  | 4 => checked [(nz f.a, 0), (nz f.b, 0), (nz f.c, 0), (f.fnAt 0xFF, 0)] (.pause)
  | _ => .error (.reservedOpcode 3)

/-- Major 0x28: BOLT. -/
def decodeMajor28 (f : StemFields) : Except DecodeError Instr :=
  .ok (.bolt f.off26)

/-- Major 0x29, by FN[10:8] (R153). -/
def decodeMajor29 (f : StemFields) : Except DecodeError Instr :=
  match (f.fn.extractLsb' 8 3).toNat with
  | 0 => checked [(nz f.c, 0), (f.fnAt 0xFF, 0)] (.vcfg f.a f.b)
  | 1 => checked [(nz f.c, 0), (f.fnAt 0xFF, 0)] (.setvl f.a f.b)
  | 2 => checked [(nz f.c, 0), (f.fnAt 0xFF, 0)] (.farm f.a f.b)
  | 3 => checked [(nz f.b, 0), (nz f.c, 0), (f.fnAt 0xFF, 0)] (.strip f.a)
  | 4 => checked [(nz f.a, 0), (nz f.c, 0), (f.fnAt 0xFF, 0)] (.launch f.b)
  | 5 => checked [(nz f.a, 0), (nz f.b, 0), (nz f.c, 0), (f.fnAt 0xFF, 0)] (.hexit)
  | _ => .error (.reservedOpcode 4)

/-- Major 0x2A, by FN[10:8] (R153). -/
def decodeMajor2A (f : StemFields) : Except DecodeError Instr :=
  match (f.fn.extractLsb' 8 3).toNat with
  | 0 => checked [(nz f.c, 0), (f.fnAt 0x1, 0), (!claimCountOk (f.fn.extractLsb' 6 2) (f.fn.extractLsb' 2 4), 5)] (.claim f.a f.b (f.fn.extractLsb' 6 2) (f.fn.extractLsb' 2 4) (bitBool (f.fn.extractLsb' 1 1)))
  | 1 => checked [(nz f.b, 0), (nz f.c, 0), (f.fnAt 0x3F, 0)] (.release f.a (f.fn.extractLsb' 6 2))
  | 2 => checked [(nz f.a, 0), (nz f.b, 0), (nz f.c, 0), (f.fnAt 0xFF, 0)] (.sdone)
  | 3 => checked [(nz f.a, 0), (nz f.b, 0), (nz f.c, 0), (f.fnAt 0xFF, 0)] (.ssumm)
  | 4 => checked [(nz f.a, 0), (nz f.b, 0), (nz f.c, 0), (f.fnAt 0xFF, 0)] (.srefuse)
  | _ => .error (.reservedOpcode 5)

/-- Major 0x2B, by FN[10:8] (R153). -/
def decodeMajor2B (f : StemFields) : Except DecodeError Instr :=
  match (f.fn.extractLsb' 8 3).toNat with
  | 0 => checked [(nz (f.a.extractLsb' 4 1), 0), (f.fnAt 0xFC, 0), (((f.fn.extractLsb' 0 2) == 0), 5)] (.probe (f.a.extractLsb' 0 4) f.b f.c (f.fn.extractLsb' 0 2))
  | 1 => checked [(nz (f.a.extractLsb' 4 1), 0), (nz f.b, 0), (nz f.c, 0), (f.fnAt 0xFF, 0)] (.unprobe (f.a.extractLsb' 0 4))
  | 2 => checked [(nz f.a, 0), (nz f.c, 0), (f.fnAt 0xC0, 0)] (.bind f.b (f.fn.extractLsb' 0 6))
  | 3 => checked [(nz f.a, 0), (nz f.b, 0), (nz f.c, 0), (f.fnAt 0xC0, 0)] (.unbind (f.fn.extractLsb' 0 6))
  | _ => .error (.reservedOpcode 6)

/-- Major 0x2C, by FN[10:8] (R153). -/
def decodeMajor2C (f : StemFields) : Except DecodeError Instr :=
  match (f.fn.extractLsb' 8 3).toNat with
  | 0 => if bitBool (f.fn.extractLsb' 4 1) then .ok (.copyImmLen f.a f.b (f.c ++ f.fn.extractLsb' 0 4 : BitVec (5 + 4)) (f.fn.extractLsb' 5 3))
    else checked [(nz (f.fn.extractLsb' 0 4), 5)] (.copyRegLen f.a f.b f.c (f.fn.extractLsb' 5 3))
  | 1 => if bitBool (f.fn.extractLsb' 4 1) then .ok (.copymImmLen f.a f.b (f.c ++ f.fn.extractLsb' 0 4 : BitVec (5 + 4)) (f.fn.extractLsb' 5 3))
    else checked [(nz (f.fn.extractLsb' 0 4), 5)] (.copymRegLen f.a f.b f.c (f.fn.extractLsb' 5 3))
  | 2 => if bitBool (f.fn.extractLsb' 4 1) then .ok (.mcastImmLen f.a f.b (f.c ++ f.fn.extractLsb' 0 4 : BitVec (5 + 4)) (f.fn.extractLsb' 5 3))
    else checked [(nz (f.fn.extractLsb' 0 4), 5)] (.mcastRegLen f.a f.b f.c (f.fn.extractLsb' 5 3))
  | 3 => if bitBool (f.fn.extractLsb' 4 1) then .ok (.redstImmLen f.a f.b (f.c ++ f.fn.extractLsb' 0 4 : BitVec (5 + 4)) (f.fn.extractLsb' 5 3))
    else checked [(nz (f.fn.extractLsb' 0 4), 5)] (.redstRegLen f.a f.b f.c (f.fn.extractLsb' 5 3))
  | 4 => if bitBool (f.fn.extractLsb' 4 1) then .ok (.sldImmLen f.a f.b (f.c ++ f.fn.extractLsb' 0 4 : BitVec (5 + 4)) (f.fn.extractLsb' 5 3))
    else checked [(nz (f.fn.extractLsb' 0 4), 5)] (.sldRegLen f.a f.b f.c (f.fn.extractLsb' 5 3))
  | 5 => checked [(nz f.c, 0), (f.fnAt 0xFC, 0), (((f.fn.extractLsb' 0 2) == 3), 5)] (.dims f.a f.b (f.fn.extractLsb' 0 2))
  | _ => .error (.reservedOpcode 7)

/-- Major 0x2D, the system instructions, by SYS[15:12] (R155). -/
def decodeMajor2D (f : StemFields) : Except DecodeError Instr :=
  match (f.imm16.extractLsb' 12 4).toNat with
  | 0 => checked [(nz f.b, 0)] (.csrr f.a (f.imm16.extractLsb' 0 12))
  | 1 => checked [(nz f.a, 0)] (.csrw f.b (f.imm16.extractLsb' 0 12))
  | 2 => .ok (.csrx f.a f.b (f.imm16.extractLsb' 0 12))
  | 3 => checked [(nz f.a, 0), (nz f.b, 0), (nz (f.imm16.extractLsb' 6 6), 0)] (.trap (f.imm16.extractLsb' 0 6))
  | 4 => checked [(nz f.a, 0), (nz f.b, 0), (nz (f.imm16.extractLsb' 0 12), 0)] (.rett)
  | 5 => checked [(nz f.a, 0), (nz f.b, 0)] (.fwcall (f.imm16.extractLsb' 0 12))
  | 6 => checked [(nz f.a, 0), (nz f.b, 0)] (.bkpt (f.imm16.extractLsb' 0 12))
  | _ => .error (.reservedOpcode 7)

/-- A stem word, by its major opcode (R151): 0x00 and 0x2E-0x3F are unassigned. -/
def decodeStemFields (f : StemFields) : Except DecodeError Instr :=
  match f.major.toNat with
  | 0 => .error (.reservedOpcode 0)
  | 0x01 => decodeMajor01 f
  | 0x02 => decodeMajor02 f
  | 0x03 => decodeMajor03 f
  | 0x04 => decodeMajor04 f
  | 0x05 => decodeMajor05 f
  | 0x06 => decodeMajor06 f
  | 0x07 => decodeMajor07 f
  | 0x08 => decodeMajor08 f
  | 0x09 => decodeMajor09 f
  | 0x0A => decodeMajor0A f
  | 0x0B => decodeMajor0B f
  | 0x0C => decodeMajor0C f
  | 0x0D => decodeMajor0D f
  | 0x0E => decodeMajor0E f
  | 0x0F => decodeMajor0F f
  | 0x10 => decodeMajor10 f
  | 0x11 => decodeMajor11 f
  | 0x12 => decodeMajor12 f
  | 0x13 => decodeMajor13 f
  | 0x14 => decodeMajor14 f
  | 0x15 => decodeMajor15 f
  | 0x16 => decodeMajor16 f
  | 0x17 => decodeMajor17 f
  | 0x18 => decodeMajor18 f
  | 0x19 => decodeMajor19 f
  | 0x1A => decodeMajor1A f
  | 0x1B => decodeMajor1B f
  | 0x1C => decodeMajor1C f
  | 0x1D => decodeMajor1D f
  | 0x1E => decodeMajor1E f
  | 0x1F => decodeMajor1F f
  | 0x20 => decodeMajor20 f
  | 0x21 => decodeMajor21 f
  | 0x22 => decodeMajor22 f
  | 0x23 => decodeMajor23 f
  | 0x24 => decodeMajor24 f
  | 0x25 => decodeMajor25 f
  | 0x26 => decodeMajor26 f
  | 0x27 => decodeMajor27 f
  | 0x28 => decodeMajor28 f
  | 0x29 => decodeMajor29 f
  | 0x2A => decodeMajor2A f
  | 0x2B => decodeMajor2B f
  | 0x2C => decodeMajor2C f
  | 0x2D => decodeMajor2D f
  | _ => .error (.reservedOpcode 1)

/-- The instruction of a stem word, or its refusal by name. -/
def decodeStem (w : BitVec 32) : Except DecodeError Instr := decodeStemFields (StemFields.ofWord w)

/-! ### Bolt words -/

/-- The fields of a bolt word (R157), CB apart. -/
structure BoltFields where
  op : BitVec 7
  vd : BitVec 6
  va : BitVec 6
  vb : BitVec 6
  vc : BitVec 6
  msk : BitVec 3
  sns : BitVec 1
  fx : BitVec 4
  tok : BitVec 4
  fn : BitVec 20
  deriving DecidableEq, Repr

/-- The CB bit: the word starts a new convoy. -/
def boltCB (w : BitVec 64) : Bool := bitBool (w.extractLsb' 63 1)

/-- The fields of a bolt word. -/
def BoltFields.ofWord (w : BitVec 64) : BoltFields :=
  { op := w.extractLsb' 56 7, vd := w.extractLsb' 50 6, va := w.extractLsb' 44 6, vb := w.extractLsb' 38 6,
    vc := w.extractLsb' 32 6, msk := w.extractLsb' 29 3, sns := w.extractLsb' 28 1, fx := w.extractLsb' 24 4,
    tok := w.extractLsb' 20 4, fn := w.extractLsb' 0 20 }

/-- The bolt word of the fields, with a CB bit. -/
def BoltFields.word (cb : Bool) (f : BoltFields) : BitVec 64 :=
  (boolBit cb ++ f.op ++ f.vd ++ f.va ++ f.vb ++ f.vc ++ f.msk ++ f.sns ++ f.fx ++ f.tok ++ f.fn :
    BitVec (1 + 7 + 6 + 6 + 6 + 6 + 3 + 1 + 4 + 4 + 20))

/-- The mask operand of the fields (R61). -/
def BoltFields.mask (f : BoltFields) : MaskOp := ⟨f.msk, bitBool f.sns⟩
/-- MSK = 0 with SNS = 1. -/
def BoltFields.badMask (f : BoltFields) : Bool := !f.mask.ok
/-- A mask where the instruction takes none. -/
def BoltFields.anyMask (f : BoltFields) : Bool := nz f.msk || nz f.sns
/-- The bits of FN named by `mask`. -/
def BoltFields.fnAt (f : BoltFields) (mask : BitVec 20) : Bool := nz (f.fn &&& mask)
/-- A field of `k` low bits whose high bits are set is above its register kind's range (R158, R306 case 6). -/
def kindRange (x : BitVec 6) (k : Nat) : Bool := decide (2 ^ k ≤ x.toNat)

/-- STOP, opcode 0x00. -/
def decodeStop (f : BoltFields) : Except DecodeError Instr :=
  checked [(nz f.vd, 1), (nz f.va, 1), (nz f.vb, 1), (nz f.vc, 1), (f.fnAt 0xFFFFF, 1), (nz f.fx, 1), (nz f.tok, 1), (f.anyMask, 1)]
    (.stop)

/-- VBANY, opcode 0x01. -/
def decodeVbany (f : BoltFields) : Except DecodeError Instr :=
  checked [(nz f.vd, 1), (nz f.va, 1), (nz f.vb, 1), (nz f.vc, 1), (nz f.fx, 1), (nz f.tok, 1), (f.badMask, 7)]
    (.vbany f.fn f.mask)

/-- VBALL, opcode 0x02. -/
def decodeVball (f : BoltFields) : Except DecodeError Instr :=
  checked [(nz f.vd, 1), (nz f.va, 1), (nz f.vb, 1), (nz f.vc, 1), (nz f.fx, 1), (nz f.tok, 1), (f.badMask, 7)]
    (.vball f.fn f.mask)

/-- VBNONE, opcode 0x03. -/
def decodeVbnone (f : BoltFields) : Except DecodeError Instr :=
  checked [(nz f.vd, 1), (nz f.va, 1), (nz f.vb, 1), (nz f.vc, 1), (nz f.fx, 1), (nz f.tok, 1), (f.badMask, 7)]
    (.vbnone f.fn f.mask)

/-- VBDIV, opcode 0x04. -/
def decodeVbdiv (f : BoltFields) : Except DecodeError Instr :=
  checked [(nz f.vd, 1), (nz f.va, 1), (nz f.vb, 1), (nz f.vc, 1), (nz f.fx, 1), (nz f.tok, 1), (f.badMask, 7)]
    (.vbdiv f.fn f.mask)

/-- VJMP, opcode 0x05. -/
def decodeVjmp (f : BoltFields) : Except DecodeError Instr :=
  checked [(nz f.vd, 1), (nz f.va, 1), (nz f.vb, 1), (nz f.vc, 1), (nz f.fx, 1), (nz f.tok, 1), (f.anyMask, 1)]
    (.vjmp f.fn)

/-- VFENCE, opcode 0x06. -/
def decodeVfence (f : BoltFields) : Except DecodeError Instr :=
  checked [(nz f.vd, 1), (nz f.va, 1), (nz f.vb, 1), (nz f.vc, 1), (f.fnAt 0xE3FFF, 1), (nz f.fx, 1), (nz f.tok, 1), (f.anyMask, 1), (above (f.fn.extractLsb' 14 3) 4, 2)]
    (.vfence (Scope.ofBits (f.fn.extractLsb' 14 3)))

/-- VIDX, opcode 0x07. -/
def decodeVidx (f : BoltFields) : Except DecodeError Instr :=
  checked [(nz f.va, 1), (nz f.vb, 1), (nz f.vc, 1), (f.fnAt 0xFFFFF, 1), (nz f.fx, 1), (nz f.tok, 1), (f.badMask, 7)]
    (.vidx f.vd f.mask)

/-- VMVS, opcode 0x08. -/
def decodeVmvs (f : BoltFields) : Except DecodeError Instr :=
  checked [(nz f.vc, 1), (f.fnAt 0xFFFFF, 1), (nz f.fx, 1), (nz f.tok, 1), (kindRange f.va 5, 6), (kindRange f.vb 5, 6), (f.badMask, 7)]
    (.vmvs f.vd (f.va.extractLsb' 0 5) (f.vb.extractLsb' 0 5) f.mask)

/-- VTRAP, opcode 0x0A. -/
def decodeVtrap (f : BoltFields) : Except DecodeError Instr :=
  checked [(nz f.vd, 1), (nz f.va, 1), (nz f.vb, 1), (nz f.vc, 1), (f.fnAt 0xFFFC0, 1), (nz f.fx, 1), (nz f.tok, 1), (f.badMask, 7)]
    (.vtrap (f.fn.extractLsb' 0 6) f.mask)

/-- VRNG, opcode 0x0B. -/
def decodeVrng (f : BoltFields) : Except DecodeError Instr :=
  checked [(nz f.va, 1), (nz f.vb, 1), (nz f.vc, 1), (f.fnAt 0xFFFFF, 1), (nz f.fx, 1), (nz f.tok, 1), (f.badMask, 7)]
    (.vrng f.vd f.mask)

/-- VADD, opcode 0x0C. -/
def decodeVadd (f : BoltFields) : Except DecodeError Instr :=
  checked [(nz f.vc, 1), (f.fnAt 0x1FFFF, 1), (nz f.fx, 1), (nz f.tok, 1), (above (f.fn.extractLsb' 17 3) 4, 4), (f.badMask, 7)]
    (.vadd f.vd f.va f.vb (Rnd.ofBits (f.fn.extractLsb' 17 3)) f.mask)

/-- VSUB, opcode 0x0D. -/
def decodeVsub (f : BoltFields) : Except DecodeError Instr :=
  checked [(nz f.vc, 1), (f.fnAt 0x1FFFF, 1), (nz f.fx, 1), (nz f.tok, 1), (above (f.fn.extractLsb' 17 3) 4, 4), (f.badMask, 7)]
    (.vsub f.vd f.va f.vb (Rnd.ofBits (f.fn.extractLsb' 17 3)) f.mask)

/-- VMUL, opcode 0x0E. -/
def decodeVmul (f : BoltFields) : Except DecodeError Instr :=
  checked [(nz f.vc, 1), (f.fnAt 0x1FFFF, 1), (nz f.fx, 1), (nz f.tok, 1), (above (f.fn.extractLsb' 17 3) 4, 4), (f.badMask, 7)]
    (.vmul f.vd f.va f.vb (Rnd.ofBits (f.fn.extractLsb' 17 3)) f.mask)

/-- VMULH, opcode 0x0F; its RND stands in FN[19:17] as in the binary arithmetic beside it (log 121). -/
def decodeVmulh (f : BoltFields) : Except DecodeError Instr :=
  checked [(nz f.vc, 1), (f.fnAt 0x1FFFF, 1), (nz f.fx, 1), (nz f.tok, 1), (above (f.fn.extractLsb' 17 3) 4, 4), (f.badMask, 7)]
    (.vmulh f.vd f.va f.vb (Rnd.ofBits (f.fn.extractLsb' 17 3)) f.mask)

/-- VMULW, opcode 0x10. -/
def decodeVmulw (f : BoltFields) : Except DecodeError Instr :=
  checked [(nz f.vc, 1), (f.fnAt 0x1FFFF, 1), (nz f.tok, 1), (above (f.fn.extractLsb' 17 3) 4, 4), (f.badMask, 7)]
    (.vmulw f.vd f.va f.vb (Rnd.ofBits (f.fn.extractLsb' 17 3)) f.fx f.mask)

/-- VMACC, opcode 0x11. -/
def decodeVmacc (f : BoltFields) : Except DecodeError Instr :=
  checked [(nz f.vc, 1), (f.fnAt 0xFFFFF, 1), (nz f.fx, 1), (nz f.tok, 1), (f.badMask, 7)]
    (.vmacc f.vd f.va f.vb f.mask)

/-- VDIV, opcode 0x12. -/
def decodeVdiv (f : BoltFields) : Except DecodeError Instr :=
  checked [(nz f.vc, 1), (f.fnAt 0x1FFFF, 1), (nz f.fx, 1), (nz f.tok, 1), (above (f.fn.extractLsb' 17 3) 4, 4), (f.badMask, 7)]
    (.vdiv f.vd f.va f.vb (Rnd.ofBits (f.fn.extractLsb' 17 3)) f.mask)

/-- VREM, opcode 0x13. -/
def decodeVrem (f : BoltFields) : Except DecodeError Instr :=
  checked [(nz f.vc, 1), (f.fnAt 0x1FFFF, 1), (nz f.fx, 1), (nz f.tok, 1), (above (f.fn.extractLsb' 17 3) 4, 4), (f.badMask, 7)]
    (.vrem f.vd f.va f.vb (Rnd.ofBits (f.fn.extractLsb' 17 3)) f.mask)

/-- VMIN, opcode 0x14. -/
def decodeVmin (f : BoltFields) : Except DecodeError Instr :=
  checked [(nz f.vc, 1), (f.fnAt 0x1FFFF, 1), (nz f.fx, 1), (nz f.tok, 1), (above (f.fn.extractLsb' 17 3) 4, 4), (f.badMask, 7)]
    (.vmin f.vd f.va f.vb (Rnd.ofBits (f.fn.extractLsb' 17 3)) f.mask)

/-- VMAX, opcode 0x15. -/
def decodeVmax (f : BoltFields) : Except DecodeError Instr :=
  checked [(nz f.vc, 1), (f.fnAt 0x1FFFF, 1), (nz f.fx, 1), (nz f.tok, 1), (above (f.fn.extractLsb' 17 3) 4, 4), (f.badMask, 7)]
    (.vmax f.vd f.va f.vb (Rnd.ofBits (f.fn.extractLsb' 17 3)) f.mask)

/-- VABS, opcode 0x16. -/
def decodeVabs (f : BoltFields) : Except DecodeError Instr :=
  checked [(nz f.vb, 1), (nz f.vc, 1), (f.fnAt 0x1FFFF, 1), (nz f.fx, 1), (nz f.tok, 1), (above (f.fn.extractLsb' 17 3) 4, 4), (f.badMask, 7)]
    (.vabs f.vd f.va (Rnd.ofBits (f.fn.extractLsb' 17 3)) f.mask)

/-- VNEG, opcode 0x17. -/
def decodeVneg (f : BoltFields) : Except DecodeError Instr :=
  checked [(nz f.vb, 1), (nz f.vc, 1), (f.fnAt 0x1FFFF, 1), (nz f.fx, 1), (nz f.tok, 1), (above (f.fn.extractLsb' 17 3) 4, 4), (f.badMask, 7)]
    (.vneg f.vd f.va (Rnd.ofBits (f.fn.extractLsb' 17 3)) f.mask)

/-- VADDS, opcode 0x18. -/
def decodeVadds (f : BoltFields) : Except DecodeError Instr :=
  checked [(nz f.vc, 1), (f.fnAt 0x1FFFF, 1), (nz f.fx, 1), (nz f.tok, 1), (above (f.fn.extractLsb' 17 3) 4, 4), (f.badMask, 7)]
    (.vadds f.vd f.va f.vb (Rnd.ofBits (f.fn.extractLsb' 17 3)) f.mask)

/-- VSUBS, opcode 0x19. -/
def decodeVsubs (f : BoltFields) : Except DecodeError Instr :=
  checked [(nz f.vc, 1), (f.fnAt 0x1FFFF, 1), (nz f.fx, 1), (nz f.tok, 1), (above (f.fn.extractLsb' 17 3) 4, 4), (f.badMask, 7)]
    (.vsubs f.vd f.va f.vb (Rnd.ofBits (f.fn.extractLsb' 17 3)) f.mask)

/-- VAVG, opcode 0x1A. -/
def decodeVavg (f : BoltFields) : Except DecodeError Instr :=
  checked [(nz f.vc, 1), (f.fnAt 0x1FFFF, 1), (nz f.fx, 1), (nz f.tok, 1), (above (f.fn.extractLsb' 17 3) 4, 4), (f.badMask, 7)]
    (.vavg f.vd f.va f.vb (Rnd.ofBits (f.fn.extractLsb' 17 3)) f.mask)

/-- VAND, opcode 0x1B. -/
def decodeVand (f : BoltFields) : Except DecodeError Instr :=
  checked [(nz f.vc, 1), (f.fnAt 0x1FFFF, 1), (nz f.fx, 1), (nz f.tok, 1), (above (f.fn.extractLsb' 17 3) 4, 4), (f.badMask, 7)]
    (.vand f.vd f.va f.vb (Rnd.ofBits (f.fn.extractLsb' 17 3)) f.mask)

/-- VOR, opcode 0x1C. -/
def decodeVor (f : BoltFields) : Except DecodeError Instr :=
  checked [(nz f.vc, 1), (f.fnAt 0x1FFFF, 1), (nz f.fx, 1), (nz f.tok, 1), (above (f.fn.extractLsb' 17 3) 4, 4), (f.badMask, 7)]
    (.vor f.vd f.va f.vb (Rnd.ofBits (f.fn.extractLsb' 17 3)) f.mask)

/-- VXOR, opcode 0x1D. -/
def decodeVxor (f : BoltFields) : Except DecodeError Instr :=
  checked [(nz f.vc, 1), (f.fnAt 0x1FFFF, 1), (nz f.fx, 1), (nz f.tok, 1), (above (f.fn.extractLsb' 17 3) 4, 4), (f.badMask, 7)]
    (.vxor f.vd f.va f.vb (Rnd.ofBits (f.fn.extractLsb' 17 3)) f.mask)

/-- VSHL, opcode 0x1E. -/
def decodeVshl (f : BoltFields) : Except DecodeError Instr :=
  checked [(nz f.vc, 1), (f.fnAt 0x1FFFF, 1), (nz f.fx, 1), (nz f.tok, 1), (above (f.fn.extractLsb' 17 3) 4, 4), (f.badMask, 7)]
    (.vshl f.vd f.va f.vb (Rnd.ofBits (f.fn.extractLsb' 17 3)) f.mask)

/-- VSHR, opcode 0x1F. -/
def decodeVshr (f : BoltFields) : Except DecodeError Instr :=
  checked [(nz f.vc, 1), (f.fnAt 0x1FFFF, 1), (nz f.fx, 1), (nz f.tok, 1), (above (f.fn.extractLsb' 17 3) 4, 4), (f.badMask, 7)]
    (.vshr f.vd f.va f.vb (Rnd.ofBits (f.fn.extractLsb' 17 3)) f.mask)

/-- VSRA, opcode 0x20. -/
def decodeVsra (f : BoltFields) : Except DecodeError Instr :=
  checked [(nz f.vc, 1), (f.fnAt 0x1FFFF, 1), (nz f.fx, 1), (nz f.tok, 1), (above (f.fn.extractLsb' 17 3) 4, 4), (f.badMask, 7)]
    (.vsra f.vd f.va f.vb (Rnd.ofBits (f.fn.extractLsb' 17 3)) f.mask)

/-- VPOPC, opcode 0x21. -/
def decodeVpopc (f : BoltFields) : Except DecodeError Instr :=
  checked [(nz f.vb, 1), (nz f.vc, 1), (f.fnAt 0xFFFFF, 1), (nz f.fx, 1), (nz f.tok, 1), (f.badMask, 7)]
    (.vpopc f.vd f.va f.mask)

/-- VCLZ, opcode 0x22. -/
def decodeVclz (f : BoltFields) : Except DecodeError Instr :=
  checked [(nz f.vb, 1), (nz f.vc, 1), (f.fnAt 0xFFFFF, 1), (nz f.fx, 1), (nz f.tok, 1), (f.badMask, 7)]
    (.vclz f.vd f.va f.mask)

/-- VBEXT, opcode 0x23; its RND stands in FN[19:17] as in the binary arithmetic beside it (log 121). -/
def decodeVbext (f : BoltFields) : Except DecodeError Instr :=
  checked [(nz f.vc, 1), (f.fnAt 0x1FFFF, 1), (nz f.fx, 1), (nz f.tok, 1), (above (f.fn.extractLsb' 17 3) 4, 4), (f.badMask, 7)]
    (.vbext f.vd f.va f.vb (Rnd.ofBits (f.fn.extractLsb' 17 3)) f.mask)

/-- VFMA, opcode 0x24. -/
def decodeVfma (f : BoltFields) : Except DecodeError Instr :=
  checked [(f.fnAt 0x1FFFF, 1), (nz f.fx, 1), (nz f.tok, 1), (above (f.fn.extractLsb' 17 3) 4, 4), (f.badMask, 7)]
    (.vfma f.vd f.va f.vb f.vc (Rnd.ofBits (f.fn.extractLsb' 17 3)) f.mask)

/-- VFMS, opcode 0x25. -/
def decodeVfms (f : BoltFields) : Except DecodeError Instr :=
  checked [(f.fnAt 0x1FFFF, 1), (nz f.fx, 1), (nz f.tok, 1), (above (f.fn.extractLsb' 17 3) 4, 4), (f.badMask, 7)]
    (.vfms f.vd f.va f.vb f.vc (Rnd.ofBits (f.fn.extractLsb' 17 3)) f.mask)

/-- VFNMA, opcode 0x26. -/
def decodeVfnma (f : BoltFields) : Except DecodeError Instr :=
  checked [(f.fnAt 0x1FFFF, 1), (nz f.fx, 1), (nz f.tok, 1), (above (f.fn.extractLsb' 17 3) 4, 4), (f.badMask, 7)]
    (.vfnma f.vd f.va f.vb f.vc (Rnd.ofBits (f.fn.extractLsb' 17 3)) f.mask)

/-- VSQRT, opcode 0x27. -/
def decodeVsqrt (f : BoltFields) : Except DecodeError Instr :=
  checked [(nz f.vb, 1), (nz f.vc, 1), (f.fnAt 0x1FFFF, 1), (nz f.fx, 1), (nz f.tok, 1), (above (f.fn.extractLsb' 17 3) 4, 4), (f.badMask, 7)]
    (.vsqrt f.vd f.va (Rnd.ofBits (f.fn.extractLsb' 17 3)) f.mask)

/-- VRCP, opcode 0x28. -/
def decodeVrcp (f : BoltFields) : Except DecodeError Instr :=
  checked [(nz f.vb, 1), (nz f.vc, 1), (f.fnAt 0x1FFFF, 1), (nz f.fx, 1), (nz f.tok, 1), (above (f.fn.extractLsb' 17 3) 4, 4), (f.badMask, 7)]
    (.vrcp f.vd f.va (Rnd.ofBits (f.fn.extractLsb' 17 3)) f.mask)

/-- VRSQ, opcode 0x29. -/
def decodeVrsq (f : BoltFields) : Except DecodeError Instr :=
  checked [(nz f.vb, 1), (nz f.vc, 1), (f.fnAt 0x1FFFF, 1), (nz f.fx, 1), (nz f.tok, 1), (above (f.fn.extractLsb' 17 3) 4, 4), (f.badMask, 7)]
    (.vrsq f.vd f.va (Rnd.ofBits (f.fn.extractLsb' 17 3)) f.mask)

/-- VEXP, opcode 0x2A. -/
def decodeVexp (f : BoltFields) : Except DecodeError Instr :=
  checked [(nz f.vb, 1), (nz f.vc, 1), (f.fnAt 0x1FFFF, 1), (nz f.fx, 1), (nz f.tok, 1), (above (f.fn.extractLsb' 17 3) 4, 4), (f.badMask, 7)]
    (.vexp f.vd f.va (Rnd.ofBits (f.fn.extractLsb' 17 3)) f.mask)

/-- VLOG, opcode 0x2B. -/
def decodeVlog (f : BoltFields) : Except DecodeError Instr :=
  checked [(nz f.vb, 1), (nz f.vc, 1), (f.fnAt 0x1FFFF, 1), (nz f.fx, 1), (nz f.tok, 1), (above (f.fn.extractLsb' 17 3) 4, 4), (f.badMask, 7)]
    (.vlog f.vd f.va (Rnd.ofBits (f.fn.extractLsb' 17 3)) f.mask)

/-- VSIG, opcode 0x2C. -/
def decodeVsig (f : BoltFields) : Except DecodeError Instr :=
  checked [(nz f.vb, 1), (nz f.vc, 1), (f.fnAt 0x1FFFF, 1), (nz f.fx, 1), (nz f.tok, 1), (above (f.fn.extractLsb' 17 3) 4, 4), (f.badMask, 7)]
    (.vsig f.vd f.va (Rnd.ofBits (f.fn.extractLsb' 17 3)) f.mask)

/-- VTANH, opcode 0x2D. -/
def decodeVtanh (f : BoltFields) : Except DecodeError Instr :=
  checked [(nz f.vb, 1), (nz f.vc, 1), (f.fnAt 0x1FFFF, 1), (nz f.fx, 1), (nz f.tok, 1), (above (f.fn.extractLsb' 17 3) 4, 4), (f.badMask, 7)]
    (.vtanh f.vd f.va (Rnd.ofBits (f.fn.extractLsb' 17 3)) f.mask)

/-- VCVT, opcode 0x2E. -/
def decodeVcvt (f : BoltFields) : Except DecodeError Instr :=
  checked [(nz f.vb, 1), (nz f.vc, 1), (f.fnAt 0x1FFFF, 1), (nz f.tok, 1), (above (f.fn.extractLsb' 17 3) 4, 4), (f.badMask, 7)]
    (.vcvt f.vd f.va (Rnd.ofBits (f.fn.extractLsb' 17 3)) f.fx f.mask)

/-- VWIDEN, opcode 0x2F. -/
def decodeVwiden (f : BoltFields) : Except DecodeError Instr :=
  checked [(nz f.vb, 1), (nz f.vc, 1), (f.fnAt 0xFFFFF, 1), (nz f.fx, 1), (nz f.tok, 1), (f.badMask, 7)]
    (.vwiden f.vd f.va f.mask)

/-- VNARROW, opcode 0x30. -/
def decodeVnarrow (f : BoltFields) : Except DecodeError Instr :=
  checked [(nz f.vb, 1), (nz f.vc, 1), (f.fnAt 0x1FFFF, 1), (nz f.tok, 1), (above (f.fn.extractLsb' 17 3) 4, 4), (f.badMask, 7)]
    (.vnarrow f.vd f.va (Rnd.ofBits (f.fn.extractLsb' 17 3)) f.fx f.mask)

/-- VQNT, opcode 0x31. -/
def decodeVqnt (f : BoltFields) : Except DecodeError Instr :=
  checked [(nz f.vb, 1), (nz f.vc, 1), (f.fnAt 0x1FFFC, 1), (nz f.fx, 1), (nz f.tok, 1), (above (f.fn.extractLsb' 17 3) 4, 4), (f.badMask, 7)]
    (.vqnt f.vd f.va (Rnd.ofBits (f.fn.extractLsb' 17 3)) (bitBool (f.fn.extractLsb' 0 1)) (bitBool (f.fn.extractLsb' 1 1)) f.mask)

/-- VDQNT, opcode 0x32. -/
def decodeVdqnt (f : BoltFields) : Except DecodeError Instr :=
  checked [(nz f.vb, 1), (nz f.vc, 1), (f.fnAt 0x1FFFC, 1), (nz f.fx, 1), (nz f.tok, 1), (above (f.fn.extractLsb' 17 3) 4, 4), (f.badMask, 7)]
    (.vdqnt f.vd f.va (Rnd.ofBits (f.fn.extractLsb' 17 3)) (bitBool (f.fn.extractLsb' 0 1)) (bitBool (f.fn.extractLsb' 1 1)) f.mask)

/-- VRND, opcode 0x33. -/
def decodeVrnd (f : BoltFields) : Except DecodeError Instr :=
  checked [(nz f.vb, 1), (nz f.vc, 1), (f.fnAt 0x1FFFF, 1), (nz f.fx, 1), (nz f.tok, 1), (above (f.fn.extractLsb' 17 3) 4, 4), (f.badMask, 7)]
    (.vrnd f.vd f.va (Rnd.ofBits (f.fn.extractLsb' 17 3)) f.mask)

/-- VCLASS, opcode 0x34. -/
def decodeVclass (f : BoltFields) : Except DecodeError Instr :=
  checked [(nz f.vb, 1), (nz f.vc, 1), (f.fnAt 0xFFFFF, 1), (nz f.fx, 1), (nz f.tok, 1), (f.badMask, 7)]
    (.vclass f.vd f.va f.mask)

/-- VSCL, opcode 0x35. -/
def decodeVscl (f : BoltFields) : Except DecodeError Instr :=
  checked [(nz f.vc, 1), (f.fnAt 0x1FFFF, 1), (nz f.fx, 1), (nz f.tok, 1), (above (f.fn.extractLsb' 17 3) 4, 4), (f.badMask, 7)]
    (.vscl f.vd f.va f.vb (Rnd.ofBits (f.fn.extractLsb' 17 3)) f.mask)

/-- VSAT, opcode 0x36. -/
def decodeVsat (f : BoltFields) : Except DecodeError Instr :=
  checked [(f.fnAt 0x1FFFF, 1), (nz f.fx, 1), (nz f.tok, 1), (above (f.fn.extractLsb' 17 3) 4, 4), (f.badMask, 7)]
    (.vsat f.vd f.va f.vb f.vc (Rnd.ofBits (f.fn.extractLsb' 17 3)) f.mask)

/-- VCMP, opcode 0x37. -/
def decodeVcmp (f : BoltFields) : Except DecodeError Instr :=
  checked [(nz f.vc, 1), (f.fnAt 0xFFFF8, 1), (nz f.fx, 1), (nz f.tok, 1), (kindRange f.vd 3, 6), (above (f.fn.extractLsb' 0 3) 5, 6), (f.badMask, 7)]
    (.vcmp (f.vd.extractLsb' 0 3) f.va f.vb (Cond.ofBits (f.fn.extractLsb' 0 3)) f.mask)

/-- VCMPN, opcode 0x38. -/
def decodeVcmpn (f : BoltFields) : Except DecodeError Instr :=
  checked [(nz f.vc, 1), (f.fnAt 0xFFFF8, 1), (nz f.fx, 1), (nz f.tok, 1), (kindRange f.vd 3, 6), (above (f.fn.extractLsb' 0 3) 5, 6), (f.badMask, 7)]
    (.vcmpn (f.vd.extractLsb' 0 3) f.va f.vb (Cond.ofBits (f.fn.extractLsb' 0 3)) f.mask)

/-- MAND, opcode 0x39. -/
def decodeMand (f : BoltFields) : Except DecodeError Instr :=
  checked [(nz f.vc, 1), (f.fnAt 0xFFFFF, 1), (nz f.fx, 1), (nz f.tok, 1), (kindRange f.vd 3, 6), (kindRange f.va 3, 6), (kindRange f.vb 3, 6), (f.badMask, 7)]
    (.mand (f.vd.extractLsb' 0 3) (f.va.extractLsb' 0 3) (f.vb.extractLsb' 0 3) f.mask)

/-- MOR, opcode 0x3A. -/
def decodeMor (f : BoltFields) : Except DecodeError Instr :=
  checked [(nz f.vc, 1), (f.fnAt 0xFFFFF, 1), (nz f.fx, 1), (nz f.tok, 1), (kindRange f.vd 3, 6), (kindRange f.va 3, 6), (kindRange f.vb 3, 6), (f.badMask, 7)]
    (.mor (f.vd.extractLsb' 0 3) (f.va.extractLsb' 0 3) (f.vb.extractLsb' 0 3) f.mask)

/-- MXOR, opcode 0x3B. -/
def decodeMxor (f : BoltFields) : Except DecodeError Instr :=
  checked [(nz f.vc, 1), (f.fnAt 0xFFFFF, 1), (nz f.fx, 1), (nz f.tok, 1), (kindRange f.vd 3, 6), (kindRange f.va 3, 6), (kindRange f.vb 3, 6), (f.badMask, 7)]
    (.mxor (f.vd.extractLsb' 0 3) (f.va.extractLsb' 0 3) (f.vb.extractLsb' 0 3) f.mask)

/-- MNOT, opcode 0x3C. -/
def decodeMnot (f : BoltFields) : Except DecodeError Instr :=
  checked [(nz f.vb, 1), (nz f.vc, 1), (f.fnAt 0xFFFFF, 1), (nz f.fx, 1), (nz f.tok, 1), (kindRange f.vd 3, 6), (kindRange f.va 3, 6), (f.badMask, 7)]
    (.mnot (f.vd.extractLsb' 0 3) (f.va.extractLsb' 0 3) f.mask)

/-- MPOP, opcode 0x3D. -/
def decodeMpop (f : BoltFields) : Except DecodeError Instr :=
  checked [(nz f.vb, 1), (nz f.vc, 1), (f.fnAt 0xFFFFF, 1), (nz f.fx, 1), (nz f.tok, 1), (kindRange f.va 3, 6), (f.badMask, 7)]
    (.mpop f.vd (f.va.extractLsb' 0 3) f.mask)

/-- MFIRST, opcode 0x3E. -/
def decodeMfirst (f : BoltFields) : Except DecodeError Instr :=
  checked [(nz f.vb, 1), (nz f.vc, 1), (f.fnAt 0xFFFFF, 1), (nz f.fx, 1), (nz f.tok, 1), (kindRange f.va 3, 6), (f.badMask, 7)]
    (.mfirst f.vd (f.va.extractLsb' 0 3) f.mask)

/-- VSEL, opcode 0x3F. -/
def decodeVsel (f : BoltFields) : Except DecodeError Instr :=
  checked [(f.fnAt 0xFFFFF, 1), (nz f.fx, 1), (nz f.tok, 1), (kindRange f.vc 3, 6), (f.badMask, 7)]
    (.vsel f.vd f.va f.vb (f.vc.extractLsb' 0 3) f.mask)

/-- VRSUM, opcode 0x41. -/
def decodeVrsum (f : BoltFields) : Except DecodeError Instr :=
  checked [(nz f.vb, 1), (nz f.vc, 1), (f.fnAt 0x1FFFF, 1), (nz f.fx, 1), (nz f.tok, 1), (above (f.fn.extractLsb' 17 3) 4, 4), (f.badMask, 7)]
    (.vrsum f.vd f.va (Rnd.ofBits (f.fn.extractLsb' 17 3)) f.mask)

/-- VRMAX, opcode 0x42. -/
def decodeVrmax (f : BoltFields) : Except DecodeError Instr :=
  checked [(nz f.vb, 1), (nz f.vc, 1), (f.fnAt 0x1FFFF, 1), (nz f.fx, 1), (nz f.tok, 1), (above (f.fn.extractLsb' 17 3) 4, 4), (f.badMask, 7)]
    (.vrmax f.vd f.va (Rnd.ofBits (f.fn.extractLsb' 17 3)) f.mask)

/-- VRMIN, opcode 0x43. -/
def decodeVrmin (f : BoltFields) : Except DecodeError Instr :=
  checked [(nz f.vb, 1), (nz f.vc, 1), (f.fnAt 0x1FFFF, 1), (nz f.fx, 1), (nz f.tok, 1), (above (f.fn.extractLsb' 17 3) 4, 4), (f.badMask, 7)]
    (.vrmin f.vd f.va (Rnd.ofBits (f.fn.extractLsb' 17 3)) f.mask)

/-- VRAND, opcode 0x44. -/
def decodeVrand (f : BoltFields) : Except DecodeError Instr :=
  checked [(nz f.vb, 1), (nz f.vc, 1), (f.fnAt 0x1FFFF, 1), (nz f.fx, 1), (nz f.tok, 1), (above (f.fn.extractLsb' 17 3) 4, 4), (f.badMask, 7)]
    (.vrand f.vd f.va (Rnd.ofBits (f.fn.extractLsb' 17 3)) f.mask)

/-- VROR, opcode 0x45. -/
def decodeVror (f : BoltFields) : Except DecodeError Instr :=
  checked [(nz f.vb, 1), (nz f.vc, 1), (f.fnAt 0x1FFFF, 1), (nz f.fx, 1), (nz f.tok, 1), (above (f.fn.extractLsb' 17 3) 4, 4), (f.badMask, 7)]
    (.vror f.vd f.va (Rnd.ofBits (f.fn.extractLsb' 17 3)) f.mask)

/-- VSCAN, opcode 0x46. -/
def decodeVscan (f : BoltFields) : Except DecodeError Instr :=
  checked [(nz f.vb, 1), (nz f.vc, 1), (f.fnAt 0x1FFFF, 1), (nz f.fx, 1), (nz f.tok, 1), (above (f.fn.extractLsb' 17 3) 4, 4), (f.badMask, 7)]
    (.vscan f.vd f.va (Rnd.ofBits (f.fn.extractLsb' 17 3)) f.mask)

/-- VSCANMX, opcode 0x47. -/
def decodeVscanmx (f : BoltFields) : Except DecodeError Instr :=
  checked [(nz f.vb, 1), (nz f.vc, 1), (f.fnAt 0x1FFFF, 1), (nz f.fx, 1), (nz f.tok, 1), (above (f.fn.extractLsb' 17 3) 4, 4), (f.badMask, 7)]
    (.vscanmx f.vd f.va (Rnd.ofBits (f.fn.extractLsb' 17 3)) f.mask)

/-- VRDOT, opcode 0x48. -/
def decodeVrdot (f : BoltFields) : Except DecodeError Instr :=
  checked [(nz f.vc, 1), (f.fnAt 0x1FFFF, 1), (nz f.fx, 1), (nz f.tok, 1), (above (f.fn.extractLsb' 17 3) 4, 4), (f.badMask, 7)]
    (.vrdot f.vd f.va f.vb (Rnd.ofBits (f.fn.extractLsb' 17 3)) f.mask)

/-- VGTHR, opcode 0x4B. -/
def decodeVgthr (f : BoltFields) : Except DecodeError Instr :=
  checked [(nz f.vc, 1), (f.fnAt 0xFFFFF, 1), (nz f.fx, 1), (nz f.tok, 1), (f.badMask, 7)]
    (.vgthr f.vd f.va f.vb f.mask)

/-- VCOMP, opcode 0x4C. -/
def decodeVcomp (f : BoltFields) : Except DecodeError Instr :=
  checked [(nz f.vb, 1), (nz f.vc, 1), (f.fnAt 0xFFFFF, 1), (nz f.fx, 1), (nz f.tok, 1), (f.badMask, 7)]
    (.vcomp f.vd f.va f.mask)

/-- VEXPD, opcode 0x4D. -/
def decodeVexpd (f : BoltFields) : Except DecodeError Instr :=
  checked [(nz f.vb, 1), (nz f.vc, 1), (f.fnAt 0xFFFFF, 1), (nz f.fx, 1), (nz f.tok, 1), (f.badMask, 7)]
    (.vexpd f.vd f.va f.mask)

/-- VBCAST, opcode 0x4E. -/
def decodeVbcast (f : BoltFields) : Except DecodeError Instr :=
  checked [(nz f.vb, 1), (nz f.vc, 1), (f.fnAt 0xFFFFF, 1), (nz f.fx, 1), (nz f.tok, 1), (kindRange f.va 5, 6), (f.badMask, 7)]
    (.vbcast f.vd (f.va.extractLsb' 0 5) f.mask)

/-- VREV, opcode 0x4F. -/
def decodeVrev (f : BoltFields) : Except DecodeError Instr :=
  checked [(nz f.vb, 1), (nz f.vc, 1), (f.fnAt 0xFFFFF, 1), (nz f.fx, 1), (nz f.tok, 1), (f.badMask, 7)]
    (.vrev f.vd f.va f.mask)

/-- VZIP, opcode 0x50. -/
def decodeVzip (f : BoltFields) : Except DecodeError Instr :=
  checked [(nz f.vc, 1), (f.fnAt 0xFFFFE, 1), (nz f.fx, 1), (nz f.tok, 1), (f.badMask, 7)]
    (.vzip f.vd f.va f.vb (bitBool (f.fn.extractLsb' 0 1)) f.mask)

/-- VUNZIP, opcode 0x51. -/
def decodeVunzip (f : BoltFields) : Except DecodeError Instr :=
  checked [(nz f.vc, 1), (f.fnAt 0xFFFFE, 1), (nz f.fx, 1), (nz f.tok, 1), (f.badMask, 7)]
    (.vunzip f.vd f.va f.vb (bitBool (f.fn.extractLsb' 0 1)) f.mask)

/-- VLD, opcode 0x52. -/
def decodeVld (f : BoltFields) : Except DecodeError Instr :=
  checked [(nz f.vb, 1), (nz f.vc, 1), (above (f.fn.extractLsb' 17 3) 4, 4), (kindRange f.va 5, 6), (f.badMask, 7)]
    (.vld f.vd (f.va.extractLsb' 0 5) (Rnd.ofBits (f.fn.extractLsb' 17 3)) (f.fn.extractLsb' 0 17) f.fx f.tok f.mask)

/-- VST, opcode 0x53. -/
def decodeVst (f : BoltFields) : Except DecodeError Instr :=
  checked [(nz f.vb, 1), (nz f.vc, 1), (above (f.fn.extractLsb' 17 3) 4, 4), (kindRange f.va 5, 6), (f.badMask, 7)]
    (.vst f.vd (f.va.extractLsb' 0 5) (Rnd.ofBits (f.fn.extractLsb' 17 3)) (f.fn.extractLsb' 0 17) f.fx f.tok f.mask)

/-- VLDS, opcode 0x54. -/
def decodeVlds (f : BoltFields) : Except DecodeError Instr :=
  checked [(nz f.vc, 1), (above (f.fn.extractLsb' 17 3) 4, 4), (kindRange f.va 5, 6), (kindRange f.vb 5, 6), (f.badMask, 7)]
    (.vlds f.vd (f.va.extractLsb' 0 5) (f.vb.extractLsb' 0 5) (Rnd.ofBits (f.fn.extractLsb' 17 3)) (f.fn.extractLsb' 0 17) f.fx f.tok f.mask)

/-- VSTS, opcode 0x55. -/
def decodeVsts (f : BoltFields) : Except DecodeError Instr :=
  checked [(nz f.vc, 1), (above (f.fn.extractLsb' 17 3) 4, 4), (kindRange f.va 5, 6), (kindRange f.vb 5, 6), (f.badMask, 7)]
    (.vsts f.vd (f.va.extractLsb' 0 5) (f.vb.extractLsb' 0 5) (Rnd.ofBits (f.fn.extractLsb' 17 3)) (f.fn.extractLsb' 0 17) f.fx f.tok f.mask)

/-- VLDX, opcode 0x56. -/
def decodeVldx (f : BoltFields) : Except DecodeError Instr :=
  checked [(nz f.vc, 1), (above (f.fn.extractLsb' 17 3) 4, 4), (kindRange f.va 5, 6), (f.badMask, 7)]
    (.vldx f.vd (f.va.extractLsb' 0 5) f.vb (Rnd.ofBits (f.fn.extractLsb' 17 3)) (f.fn.extractLsb' 0 17) f.fx f.tok f.mask)

/-- VSTX, opcode 0x57. -/
def decodeVstx (f : BoltFields) : Except DecodeError Instr :=
  checked [(nz f.vc, 1), (above (f.fn.extractLsb' 17 3) 4, 4), (kindRange f.va 5, 6), (f.badMask, 7)]
    (.vstx f.vd (f.va.extractLsb' 0 5) f.vb (Rnd.ofBits (f.fn.extractLsb' 17 3)) (f.fn.extractLsb' 0 17) f.fx f.tok f.mask)

/-- VLDXO, opcode 0x58. -/
def decodeVldxo (f : BoltFields) : Except DecodeError Instr :=
  checked [(nz f.vc, 1), (above (f.fn.extractLsb' 17 3) 4, 4), (kindRange f.va 5, 6), (f.badMask, 7)]
    (.vldxo f.vd (f.va.extractLsb' 0 5) f.vb (Rnd.ofBits (f.fn.extractLsb' 17 3)) (f.fn.extractLsb' 0 17) f.fx f.tok f.mask)

/-- VSTXO, opcode 0x59. -/
def decodeVstxo (f : BoltFields) : Except DecodeError Instr :=
  checked [(nz f.vc, 1), (above (f.fn.extractLsb' 17 3) 4, 4), (kindRange f.va 5, 6), (f.badMask, 7)]
    (.vstxo f.vd (f.va.extractLsb' 0 5) f.vb (Rnd.ofBits (f.fn.extractLsb' 17 3)) (f.fn.extractLsb' 0 17) f.fx f.tok f.mask)

/-- VLDSEG, opcode 0x5A. -/
def decodeVldseg (f : BoltFields) : Except DecodeError Instr :=
  checked [(nz f.vc, 1), (above (f.fn.extractLsb' 17 3) 4, 4), (kindRange f.va 5, 6), (kindRange f.vb 5, 6), (f.badMask, 7)]
    (.vldseg f.vd (f.va.extractLsb' 0 5) (f.vb.extractLsb' 0 5) (Rnd.ofBits (f.fn.extractLsb' 17 3)) (f.fn.extractLsb' 3 14) (f.fn.extractLsb' 0 3) f.fx f.tok f.mask)

/-- VSTSEG, opcode 0x5B. -/
def decodeVstseg (f : BoltFields) : Except DecodeError Instr :=
  checked [(nz f.vc, 1), (above (f.fn.extractLsb' 17 3) 4, 4), (kindRange f.va 5, 6), (kindRange f.vb 5, 6), (f.badMask, 7)]
    (.vstseg f.vd (f.va.extractLsb' 0 5) (f.vb.extractLsb' 0 5) (Rnd.ofBits (f.fn.extractLsb' 17 3)) (f.fn.extractLsb' 3 14) (f.fn.extractLsb' 0 3) f.fx f.tok f.mask)

/-- VLDM, opcode 0x5C. -/
def decodeVldm (f : BoltFields) : Except DecodeError Instr :=
  checked [(nz f.vb, 1), (nz f.vc, 1), (above (f.fn.extractLsb' 17 3) 4, 4), (kindRange f.va 5, 6), (f.badMask, 7)]
    (.vldm f.vd (f.va.extractLsb' 0 5) (Rnd.ofBits (f.fn.extractLsb' 17 3)) (f.fn.extractLsb' 0 17) f.fx f.tok f.mask)

/-- VSTM, opcode 0x5D. -/
def decodeVstm (f : BoltFields) : Except DecodeError Instr :=
  checked [(nz f.vb, 1), (nz f.vc, 1), (above (f.fn.extractLsb' 17 3) 4, 4), (kindRange f.va 5, 6), (f.badMask, 7)]
    (.vstm f.vd (f.va.extractLsb' 0 5) (Rnd.ofBits (f.fn.extractLsb' 17 3)) (f.fn.extractLsb' 0 17) f.fx f.tok f.mask)

/-- VLDSP, opcode 0x5E. -/
def decodeVldsp (f : BoltFields) : Except DecodeError Instr :=
  checked [(nz f.vc, 1), (above (f.fn.extractLsb' 17 3) 4, 4), (kindRange f.va 5, 6), (kindRange f.vb 5, 6), (nz f.tok, 6), (f.badMask, 7)]
    (.vldsp f.vd (f.va.extractLsb' 0 5) (f.vb.extractLsb' 0 5) (Rnd.ofBits (f.fn.extractLsb' 17 3)) (f.fn.extractLsb' 0 17) f.fx f.mask)

/-- VSTSP, opcode 0x5F. -/
def decodeVstsp (f : BoltFields) : Except DecodeError Instr :=
  checked [(nz f.vc, 1), (above (f.fn.extractLsb' 17 3) 4, 4), (kindRange f.va 5, 6), (kindRange f.vb 5, 6), (nz f.tok, 6), (f.badMask, 7)]
    (.vstsp f.vd (f.va.extractLsb' 0 5) (f.vb.extractLsb' 0 5) (Rnd.ofBits (f.fn.extractLsb' 17 3)) (f.fn.extractLsb' 0 17) f.fx f.mask)

/-- VLDSPX, opcode 0x60. -/
def decodeVldspx (f : BoltFields) : Except DecodeError Instr :=
  checked [(nz f.vc, 1), (above (f.fn.extractLsb' 17 3) 4, 4), (kindRange f.va 5, 6), (nz f.tok, 6), (f.badMask, 7)]
    (.vldspx f.vd (f.va.extractLsb' 0 5) f.vb (Rnd.ofBits (f.fn.extractLsb' 17 3)) (f.fn.extractLsb' 0 17) f.fx f.mask)

/-- VSTSPX, opcode 0x61. -/
def decodeVstspx (f : BoltFields) : Except DecodeError Instr :=
  checked [(nz f.vc, 1), (above (f.fn.extractLsb' 17 3) 4, 4), (kindRange f.va 5, 6), (nz f.tok, 6), (f.badMask, 7)]
    (.vstspx f.vd (f.va.extractLsb' 0 5) f.vb (Rnd.ofBits (f.fn.extractLsb' 17 3)) (f.fn.extractLsb' 0 17) f.fx f.mask)

/-- VAADD, opcode 0x62. -/
def decodeVaadd (f : BoltFields) : Except DecodeError Instr :=
  checked [(f.fnAt 0xE0000, 1), ((bitBool (f.fn.extractLsb' 12 1) && nz f.vd), 1), (above (f.fn.extractLsb' 14 3) 4, 2), (kindRange f.va 5, 6), ((bitBool (f.fn.extractLsb' 13 1) && nz f.tok), 6), (f.badMask, 7)]
    (.vaadd f.vd (f.va.extractLsb' 0 5) f.vb f.vc (Scope.ofBits (f.fn.extractLsb' 14 3)) (bitBool (f.fn.extractLsb' 13 1)) (bitBool (f.fn.extractLsb' 12 1)) (f.fn.extractLsb' 0 12) f.fx f.tok f.mask)

/-- VAMIN, opcode 0x63. -/
def decodeVamin (f : BoltFields) : Except DecodeError Instr :=
  checked [(f.fnAt 0xE0000, 1), ((bitBool (f.fn.extractLsb' 12 1) && nz f.vd), 1), (above (f.fn.extractLsb' 14 3) 4, 2), (kindRange f.va 5, 6), ((bitBool (f.fn.extractLsb' 13 1) && nz f.tok), 6), (f.badMask, 7)]
    (.vamin f.vd (f.va.extractLsb' 0 5) f.vb f.vc (Scope.ofBits (f.fn.extractLsb' 14 3)) (bitBool (f.fn.extractLsb' 13 1)) (bitBool (f.fn.extractLsb' 12 1)) (f.fn.extractLsb' 0 12) f.fx f.tok f.mask)

/-- VAMAX, opcode 0x64. -/
def decodeVamax (f : BoltFields) : Except DecodeError Instr :=
  checked [(f.fnAt 0xE0000, 1), ((bitBool (f.fn.extractLsb' 12 1) && nz f.vd), 1), (above (f.fn.extractLsb' 14 3) 4, 2), (kindRange f.va 5, 6), ((bitBool (f.fn.extractLsb' 13 1) && nz f.tok), 6), (f.badMask, 7)]
    (.vamax f.vd (f.va.extractLsb' 0 5) f.vb f.vc (Scope.ofBits (f.fn.extractLsb' 14 3)) (bitBool (f.fn.extractLsb' 13 1)) (bitBool (f.fn.extractLsb' 12 1)) (f.fn.extractLsb' 0 12) f.fx f.tok f.mask)

/-- VAAND, opcode 0x65. -/
def decodeVaand (f : BoltFields) : Except DecodeError Instr :=
  checked [(f.fnAt 0xE0000, 1), ((bitBool (f.fn.extractLsb' 12 1) && nz f.vd), 1), (above (f.fn.extractLsb' 14 3) 4, 2), (kindRange f.va 5, 6), ((bitBool (f.fn.extractLsb' 13 1) && nz f.tok), 6), (f.badMask, 7)]
    (.vaand f.vd (f.va.extractLsb' 0 5) f.vb f.vc (Scope.ofBits (f.fn.extractLsb' 14 3)) (bitBool (f.fn.extractLsb' 13 1)) (bitBool (f.fn.extractLsb' 12 1)) (f.fn.extractLsb' 0 12) f.fx f.tok f.mask)

/-- VAOR, opcode 0x66. -/
def decodeVaor (f : BoltFields) : Except DecodeError Instr :=
  checked [(f.fnAt 0xE0000, 1), ((bitBool (f.fn.extractLsb' 12 1) && nz f.vd), 1), (above (f.fn.extractLsb' 14 3) 4, 2), (kindRange f.va 5, 6), ((bitBool (f.fn.extractLsb' 13 1) && nz f.tok), 6), (f.badMask, 7)]
    (.vaor f.vd (f.va.extractLsb' 0 5) f.vb f.vc (Scope.ofBits (f.fn.extractLsb' 14 3)) (bitBool (f.fn.extractLsb' 13 1)) (bitBool (f.fn.extractLsb' 12 1)) (f.fn.extractLsb' 0 12) f.fx f.tok f.mask)

/-- VAXOR, opcode 0x67. -/
def decodeVaxor (f : BoltFields) : Except DecodeError Instr :=
  checked [(f.fnAt 0xE0000, 1), ((bitBool (f.fn.extractLsb' 12 1) && nz f.vd), 1), (above (f.fn.extractLsb' 14 3) 4, 2), (kindRange f.va 5, 6), ((bitBool (f.fn.extractLsb' 13 1) && nz f.tok), 6), (f.badMask, 7)]
    (.vaxor f.vd (f.va.extractLsb' 0 5) f.vb f.vc (Scope.ofBits (f.fn.extractLsb' 14 3)) (bitBool (f.fn.extractLsb' 13 1)) (bitBool (f.fn.extractLsb' 12 1)) (f.fn.extractLsb' 0 12) f.fx f.tok f.mask)

/-- VASWAP, opcode 0x68. -/
def decodeVaswap (f : BoltFields) : Except DecodeError Instr :=
  checked [(f.fnAt 0xE0000, 1), ((bitBool (f.fn.extractLsb' 12 1) && nz f.vd), 1), (above (f.fn.extractLsb' 14 3) 4, 2), (kindRange f.va 5, 6), ((bitBool (f.fn.extractLsb' 13 1) && nz f.tok), 6), (f.badMask, 7)]
    (.vaswap f.vd (f.va.extractLsb' 0 5) f.vb f.vc (Scope.ofBits (f.fn.extractLsb' 14 3)) (bitBool (f.fn.extractLsb' 13 1)) (bitBool (f.fn.extractLsb' 12 1)) (f.fn.extractLsb' 0 12) f.fx f.tok f.mask)

/-- VACAS, opcode 0x69. -/
def decodeVacas (f : BoltFields) : Except DecodeError Instr :=
  checked [(f.fnAt 0xE0000, 1), ((bitBool (f.fn.extractLsb' 12 1) && nz f.vd), 1), (above (f.fn.extractLsb' 14 3) 4, 2), (kindRange f.va 5, 6), ((bitBool (f.fn.extractLsb' 13 1) && nz f.tok), 6), (f.badMask, 7)]
    (.vacas f.vd (f.va.extractLsb' 0 5) f.vb f.vc (Scope.ofBits (f.fn.extractLsb' 14 3)) (bitBool (f.fn.extractLsb' 13 1)) (bitBool (f.fn.extractLsb' 12 1)) (f.fn.extractLsb' 0 12) f.fx f.tok f.mask)

/-- TLD, opcode 0x6A. -/
def decodeTld (f : BoltFields) : Except DecodeError Instr :=
  checked [(nz f.vc, 1), (f.fnAt 0xE0000, 1), (f.anyMask, 1), (kindRange f.vd 1, 6), (kindRange f.va 5, 6), (kindRange f.vb 5, 6)]
    (.tld (f.vd.extractLsb' 0 1) (f.va.extractLsb' 0 5) (f.vb.extractLsb' 0 5) (f.fn.extractLsb' 0 17) f.fx f.tok)

/-- TLDF, opcode 0x6B. -/
def decodeTldf (f : BoltFields) : Except DecodeError Instr :=
  checked [(f.fnAt 0xE0000, 1), (nz f.tok, 1), (f.anyMask, 1), (kindRange f.vd 1, 6), (kindRange f.va 5, 6), (kindRange f.vb 5, 6), (kindRange f.vc 3, 6)]
    (.tldf (f.vd.extractLsb' 0 1) (f.va.extractLsb' 0 5) (f.vb.extractLsb' 0 5) (f.vc.extractLsb' 0 3) (f.fn.extractLsb' 0 17) f.fx)

/-- TSCL, opcode 0x6C. -/
def decodeTscl (f : BoltFields) : Except DecodeError Instr :=
  checked [(nz f.vb, 1), (nz f.vc, 1), (f.fnAt 0xE0000, 1), (nz f.fx, 1), (f.anyMask, 1), (kindRange f.vd 1, 6), (kindRange f.va 5, 6)]
    (.tscl (f.vd.extractLsb' 0 1) (f.va.extractLsb' 0 5) (f.fn.extractLsb' 0 17) f.tok)

/-- MROW, opcode 0x6D. -/
def decodeMrow (f : BoltFields) : Except DecodeError Instr :=
  checked [(nz f.vd, 1), (f.fnAt 0xFF800, 1), (nz f.fx, 1), (nz f.tok, 1), (kindRange f.vb 1, 6), (kindRange f.vc 5, 6), (f.badMask, 7)]
    (.mrow f.va (f.vb.extractLsb' 0 1) (f.vc.extractLsb' 0 5) (bitBool (f.fn.extractLsb' 10 1)) (f.fn.extractLsb' 0 10) f.mask)

/-- MROWZ, opcode 0x6E. -/
def decodeMrowz (f : BoltFields) : Except DecodeError Instr :=
  checked [(nz f.vd, 1), (f.fnAt 0xFF800, 1), (nz f.fx, 1), (nz f.tok, 1), (kindRange f.vb 1, 6), (kindRange f.vc 5, 6), (f.badMask, 7)]
    (.mrowz f.va (f.vb.extractLsb' 0 1) (f.vc.extractLsb' 0 5) (bitBool (f.fn.extractLsb' 10 1)) (f.fn.extractLsb' 0 10) f.mask)

/-- MSWEEP, opcode 0x6F. -/
def decodeMsweep (f : BoltFields) : Except DecodeError Instr :=
  checked [(nz f.vd, 1), (f.fnAt 0xFF800, 1), (f.anyMask, 1), (kindRange f.va 5, 6), (kindRange f.vb 1, 6), (kindRange f.vc 5, 6)]
    (.msweep (f.va.extractLsb' 0 5) (f.vb.extractLsb' 0 1) (f.vc.extractLsb' 0 5) (bitBool (f.fn.extractLsb' 10 1)) (f.fn.extractLsb' 0 10) f.fx f.tok)

/-- MDRAIN, opcode 0x70. -/
def decodeMdrain (f : BoltFields) : Except DecodeError Instr :=
  checked [(nz f.va, 1), (nz f.vb, 1), (nz f.vc, 1), (f.fnAt 0x1FC00, 1), (nz f.fx, 1), (nz f.tok, 1), (above (f.fn.extractLsb' 17 3) 4, 4), (f.badMask, 7)]
    (.mdrain f.vd (Rnd.ofBits (f.fn.extractLsb' 17 3)) (f.fn.extractLsb' 0 10) f.mask)

/-- MDRAINS, opcode 0x71. It has no token: a TOK that is not 0 is a reserved field, case 1, and not case 6 of a scratchpad access's
token (log 97). -/
def decodeMdrains (f : BoltFields) : Except DecodeError Instr :=
  checked [(nz f.vd, 1), (nz f.vc, 1), (nz f.tok, 1), (f.anyMask, 1), (above (f.fn.extractLsb' 17 3) 4, 4), (kindRange f.va 5, 6), (kindRange f.vb 5, 6)]
    (.mdrains (f.va.extractLsb' 0 5) (f.vb.extractLsb' 0 5) (Rnd.ofBits (f.fn.extractLsb' 17 3)) (f.fn.extractLsb' 10 7) (f.fn.extractLsb' 0 10) f.fx)

/-- MZERO, opcode 0x72. -/
def decodeMzero (f : BoltFields) : Except DecodeError Instr :=
  checked [(nz f.vd, 1), (nz f.va, 1), (nz f.vb, 1), (nz f.vc, 1), (f.fnAt 0xE0000, 1), (nz f.fx, 1), (nz f.tok, 1), (f.anyMask, 1)]
    (.mzero (f.fn.extractLsb' 10 7) (f.fn.extractLsb' 0 10))

/-- MLDACC, opcode 0x73. -/
def decodeMldacc (f : BoltFields) : Except DecodeError Instr :=
  checked [(nz f.vd, 1), (nz f.vb, 1), (nz f.vc, 1), (f.fnAt 0xFFC00, 1), (nz f.fx, 1), (nz f.tok, 1), (f.badMask, 7)]
    (.mldacc f.va (f.fn.extractLsb' 0 10) f.mask)

/-- QCMP, opcode 0x74. -/
def decodeQcmp (f : BoltFields) : Except DecodeError Instr :=
  checked [(nz f.vc, 1), (f.fnAt 0xF00F8, 1), (nz f.fx, 1), (nz f.tok, 1), (kindRange f.vd 3, 6), (above (f.fn.extractLsb' 0 3) 5, 6), (f.badMask, 7)]
    (.qcmp (f.vd.extractLsb' 0 3) f.va f.vb (f.fn.extractLsb' 8 8) (Cond.ofBits (f.fn.extractLsb' 0 3)) f.mask)

/-- QAND, opcode 0x75. -/
def decodeQand (f : BoltFields) : Except DecodeError Instr :=
  checked [(nz f.vc, 1), (f.fnAt 0xFFFFE, 1), (nz f.fx, 1), (nz f.tok, 1), (kindRange f.vd 3, 6), (kindRange f.va 3, 6), (kindRange f.vb 3, 6), (f.badMask, 7)]
    (.qand (f.vd.extractLsb' 0 3) (f.va.extractLsb' 0 3) (f.vb.extractLsb' 0 3) (bitBool (f.fn.extractLsb' 0 1)) f.mask)

/-- QOR, opcode 0x76. -/
def decodeQor (f : BoltFields) : Except DecodeError Instr :=
  checked [(nz f.vc, 1), (f.fnAt 0xFFFFE, 1), (nz f.fx, 1), (nz f.tok, 1), (kindRange f.vd 3, 6), (kindRange f.va 3, 6), (kindRange f.vb 3, 6), (f.badMask, 7)]
    (.qor (f.vd.extractLsb' 0 3) (f.va.extractLsb' 0 3) (f.vb.extractLsb' 0 3) (bitBool (f.fn.extractLsb' 0 1)) f.mask)

/-- QNOT, opcode 0x77. -/
def decodeQnot (f : BoltFields) : Except DecodeError Instr :=
  checked [(nz f.vb, 1), (nz f.vc, 1), (f.fnAt 0xFFFFF, 1), (nz f.fx, 1), (nz f.tok, 1), (kindRange f.vd 3, 6), (kindRange f.va 3, 6), (f.badMask, 7)]
    (.qnot (f.vd.extractLsb' 0 3) (f.va.extractLsb' 0 3) f.mask)

/-- QBLEND, opcode 0x78. -/
def decodeQblend (f : BoltFields) : Except DecodeError Instr :=
  checked [(f.fnAt 0x1FFFF, 1), (nz f.fx, 1), (nz f.tok, 1), (above (f.fn.extractLsb' 17 3) 4, 4), (kindRange f.vc 3, 6), (f.badMask, 7)]
    (.qblend f.vd f.va f.vb (f.vc.extractLsb' 0 3) (Rnd.ofBits (f.fn.extractLsb' 17 3)) f.mask)

/-- QSET, opcode 0x7C. -/
def decodeQset (f : BoltFields) : Except DecodeError Instr :=
  checked [(nz f.va, 1), (nz f.vb, 1), (nz f.vc, 1), (f.fnAt 0xF0000, 1), (nz f.fx, 1), (nz f.tok, 1), (kindRange f.vd 3, 6), (decide (0x8000 < (f.fn.extractLsb' 0 16).toNat), 6), (f.badMask, 7)]
    (.qset (f.vd.extractLsb' 0 3) (f.fn.extractLsb' 0 16) f.mask)

/-- QHARD, opcode 0x7D. -/
def decodeQhard (f : BoltFields) : Except DecodeError Instr :=
  checked [(nz f.vb, 1), (nz f.vc, 1), (f.fnAt 0xF0000, 1), (nz f.fx, 1), (nz f.tok, 1), (kindRange f.vd 3, 6), (kindRange f.va 3, 6), (f.badMask, 7)]
    (.qhard (f.vd.extractLsb' 0 3) (f.va.extractLsb' 0 3) (f.fn.extractLsb' 0 16) f.mask)

/-- QLIN, opcode 0x7F. -/
def decodeQlin (f : BoltFields) : Except DecodeError Instr :=
  checked [(nz f.va, 1), (nz f.vb, 1), (nz f.vc, 1), (f.fnAt 0xFFF00, 1), (nz f.fx, 1), (nz f.tok, 1), (f.anyMask, 1), (kindRange f.vd 3, 6)]
    (.qlin (f.vd.extractLsb' 0 3) (f.fn.extractLsb' 0 8))

/-- VEXT (R222): FN[0] chooses `all`. -/
def decodeVext (f : BoltFields) : Except DecodeError Instr :=
  if bitBool (f.fn.extractLsb' 0 1) then
    checked [(nz f.vd, 1), (nz f.vb, 1), (nz f.vc, 1), (f.fnAt 0xFFFFE, 1), (nz f.fx, 1), (nz f.tok, 1), (f.badMask, 7)]
      (.vext f.va .all f.mask)
  else
    checked [(nz f.vd, 1), (nz f.vc, 1), (f.fnAt 0xFFFFE, 1), (nz f.fx, 1), (nz f.tok, 1), (kindRange f.vb 5, 6),
        (f.badMask, 7)]
      (.vext f.va (.elem (f.vb.extractLsb' 0 5)) f.mask)

/-- MSET (R246): FN[1:0] is the mode, 3 reserved. -/
def decodeMset (f : BoltFields) : Except DecodeError Instr :=
  match (f.fn.extractLsb' 0 2).toNat with
  | 2 =>
    checked [(nz f.vb, 1), (nz f.vc, 1), (f.fnAt 0xFFFFC, 1), (nz f.fx, 1), (nz f.tok, 1), (kindRange f.vd 3, 6),
        (kindRange f.va 5, 6), (f.badMask, 7)]
      (.mset (f.vd.extractLsb' 0 3) (.below (f.va.extractLsb' 0 5)) f.mask)
  | n =>
    checked [(nz f.va, 1), (nz f.vb, 1), (nz f.vc, 1), (f.fnAt 0xFFFFC, 1), (nz f.fx, 1), (nz f.tok, 1),
        (n == 3, 6), (kindRange f.vd 3, 6), (f.badMask, 7)]
      (.mset (f.vd.extractLsb' 0 3) (if n == 0 then .zero else .one) f.mask)

/-- VSLUP and VSLDN (R250): FN[19] chooses the immediate. -/
def decodeSlide (mk : VReg → VReg → SlideAmt → MaskOp → Instr) (f : BoltFields) : Except DecodeError Instr :=
  if bitBool (f.fn.extractLsb' 19 1) then
    checked [(nz f.vb, 1), (nz f.vc, 1), (f.fnAt 0x70000, 1), (nz f.fx, 1), (nz f.tok, 1), (f.badMask, 7)]
      (mk f.vd f.va (.imm (f.fn.extractLsb' 0 16)) f.mask)
  else
    checked [(nz f.vc, 1), (f.fnAt 0x7FFFF, 1), (nz f.fx, 1), (nz f.tok, 1), (kindRange f.vb 5, 6), (f.badMask, 7)]
      (mk f.vd f.va (.frame (f.vb.extractLsb' 0 5)) f.mask)

/-- QCOLL (R289): FN[0] is KEY. -/
def decodeQcoll (f : BoltFields) : Except DecodeError Instr :=
  if bitBool (f.fn.extractLsb' 0 1) then
    checked [(nz f.vc, 1), (f.fnAt 0xFFFFE, 1), (nz f.fx, 1), (nz f.tok, 1), (kindRange f.vd 3, 6),
        (kindRange f.va 3, 6), (f.badMask, 7)]
      (.qcoll (f.vd.extractLsb' 0 3) (f.va.extractLsb' 0 3) (some f.vb) f.mask)
  else
    checked [(nz f.vb, 1), (nz f.vc, 1), (f.fnAt 0xFFFFE, 1), (nz f.fx, 1), (nz f.tok, 1), (kindRange f.vd 3, 6),
        (kindRange f.va 3, 6), (f.badMask, 7)]
      (.qcoll (f.vd.extractLsb' 0 3) (f.va.extractLsb' 0 3) none f.mask)

/-- QGRAD (R292): FN[0] is FORM. -/
def decodeQgrad (f : BoltFields) : Except DecodeError Instr :=
  if bitBool (f.fn.extractLsb' 0 1) then
    checked [(nz f.vc, 1), (f.fnAt 0x1FFFE, 1), (nz f.fx, 1), (nz f.tok, 1), (above (f.fn.extractLsb' 17 3) 4, 4),
        (f.badMask, 7)]
      (.qgrad f.vd (.blend f.va f.vb) (Rnd.ofBits (f.fn.extractLsb' 17 3)) f.mask)
  else
    checked [(nz f.vb, 1), (nz f.vc, 1), (f.fnAt 0x1FFFE, 1), (nz f.fx, 1), (nz f.tok, 1),
        (above (f.fn.extractLsb' 17 3) 4, 4), (kindRange f.va 3, 6), (f.badMask, 7)]
      (.qgrad f.vd (.soft (f.va.extractLsb' 0 3)) (Rnd.ofBits (f.fn.extractLsb' 17 3)) f.mask)

/-- QMOV (R285): FN[9:8] is DIR, 3 reserved; LIN belongs to DIR = 1 alone (R282). -/
def decodeQmov (f : BoltFields) : Except DecodeError Instr :=
  let common : List (Bool × Nat) :=
    [(nz f.vb, 1), (nz f.vc, 1), (f.fnAt 0x1FC00, 1), (nz f.fx, 1), (nz f.tok, 1), (above (f.fn.extractLsb' 17 3) 4, 4)]
  let r := Rnd.ofBits (f.fn.extractLsb' 17 3)
  match (f.fn.extractLsb' 8 2).toNat with
  | 0 =>
    checked (common ++ [(f.fnAt 0xFF, 6), (kindRange f.vd 3, 6), (kindRange f.va 3, 6), (f.badMask, 7)])
      (.qmov (.qq (f.vd.extractLsb' 0 3) (f.va.extractLsb' 0 3)) r f.mask)
  | 1 =>
    checked (common ++ [(kindRange f.vd 3, 6), (f.badMask, 7)])
      (.qmov (.toQ (f.vd.extractLsb' 0 3) f.va (f.fn.extractLsb' 0 8)) r f.mask)
  | 2 =>
    checked (common ++ [(f.fnAt 0xFF, 6), (kindRange f.va 3, 6), (f.badMask, 7)])
      (.qmov (.fromQ f.vd (f.va.extractLsb' 0 3)) r f.mask)
  | _ =>
    checked (common ++ [(true, 6)]) (.qmov (.fromQ f.vd (f.va.extractLsb' 0 3)) r f.mask)

/-- QSEED (R291): FN[0] is FORM. -/
def decodeQseed (f : BoltFields) : Except DecodeError Instr :=
  if bitBool (f.fn.extractLsb' 0 1) then
    checked [(nz f.vd, 1), (nz f.vb, 1), (nz f.vc, 1), (f.fnAt 0xFFFFE, 1), (nz f.fx, 1), (nz f.tok, 1),
        (kindRange f.va 5, 6), (f.badMask, 7)]
      (.qseed (.frame (f.va.extractLsb' 0 5)) f.mask)
  else
    checked [(nz f.vd, 1), (nz f.vb, 1), (nz f.vc, 1), (f.fnAt 0xFFFFE, 1), (nz f.fx, 1), (nz f.tok, 1), (f.badMask, 7)]
      (.qseed (.vec f.va) f.mask)

/-- A bolt word's fields, by the opcode (R161): the 128 majors are all assigned. -/
def decodeBoltFields (f : BoltFields) : Except DecodeError Instr :=
  match f.op.toNat with
  | 0x00 => decodeStop f
  | 0x01 => decodeVbany f
  | 0x02 => decodeVball f
  | 0x03 => decodeVbnone f
  | 0x04 => decodeVbdiv f
  | 0x05 => decodeVjmp f
  | 0x06 => decodeVfence f
  | 0x07 => decodeVidx f
  | 0x08 => decodeVmvs f
  | 0x09 => decodeVext f
  | 0x0A => decodeVtrap f
  | 0x0B => decodeVrng f
  | 0x0C => decodeVadd f
  | 0x0D => decodeVsub f
  | 0x0E => decodeVmul f
  | 0x0F => decodeVmulh f
  | 0x10 => decodeVmulw f
  | 0x11 => decodeVmacc f
  | 0x12 => decodeVdiv f
  | 0x13 => decodeVrem f
  | 0x14 => decodeVmin f
  | 0x15 => decodeVmax f
  | 0x16 => decodeVabs f
  | 0x17 => decodeVneg f
  | 0x18 => decodeVadds f
  | 0x19 => decodeVsubs f
  | 0x1A => decodeVavg f
  | 0x1B => decodeVand f
  | 0x1C => decodeVor f
  | 0x1D => decodeVxor f
  | 0x1E => decodeVshl f
  | 0x1F => decodeVshr f
  | 0x20 => decodeVsra f
  | 0x21 => decodeVpopc f
  | 0x22 => decodeVclz f
  | 0x23 => decodeVbext f
  | 0x24 => decodeVfma f
  | 0x25 => decodeVfms f
  | 0x26 => decodeVfnma f
  | 0x27 => decodeVsqrt f
  | 0x28 => decodeVrcp f
  | 0x29 => decodeVrsq f
  | 0x2A => decodeVexp f
  | 0x2B => decodeVlog f
  | 0x2C => decodeVsig f
  | 0x2D => decodeVtanh f
  | 0x2E => decodeVcvt f
  | 0x2F => decodeVwiden f
  | 0x30 => decodeVnarrow f
  | 0x31 => decodeVqnt f
  | 0x32 => decodeVdqnt f
  | 0x33 => decodeVrnd f
  | 0x34 => decodeVclass f
  | 0x35 => decodeVscl f
  | 0x36 => decodeVsat f
  | 0x37 => decodeVcmp f
  | 0x38 => decodeVcmpn f
  | 0x39 => decodeMand f
  | 0x3A => decodeMor f
  | 0x3B => decodeMxor f
  | 0x3C => decodeMnot f
  | 0x3D => decodeMpop f
  | 0x3E => decodeMfirst f
  | 0x3F => decodeVsel f
  | 0x40 => decodeMset f
  | 0x41 => decodeVrsum f
  | 0x42 => decodeVrmax f
  | 0x43 => decodeVrmin f
  | 0x44 => decodeVrand f
  | 0x45 => decodeVror f
  | 0x46 => decodeVscan f
  | 0x47 => decodeVscanmx f
  | 0x48 => decodeVrdot f
  | 0x49 => decodeSlide .vslup f
  | 0x4A => decodeSlide .vsldn f
  | 0x4B => decodeVgthr f
  | 0x4C => decodeVcomp f
  | 0x4D => decodeVexpd f
  | 0x4E => decodeVbcast f
  | 0x4F => decodeVrev f
  | 0x50 => decodeVzip f
  | 0x51 => decodeVunzip f
  | 0x52 => decodeVld f
  | 0x53 => decodeVst f
  | 0x54 => decodeVlds f
  | 0x55 => decodeVsts f
  | 0x56 => decodeVldx f
  | 0x57 => decodeVstx f
  | 0x58 => decodeVldxo f
  | 0x59 => decodeVstxo f
  | 0x5A => decodeVldseg f
  | 0x5B => decodeVstseg f
  | 0x5C => decodeVldm f
  | 0x5D => decodeVstm f
  | 0x5E => decodeVldsp f
  | 0x5F => decodeVstsp f
  | 0x60 => decodeVldspx f
  | 0x61 => decodeVstspx f
  | 0x62 => decodeVaadd f
  | 0x63 => decodeVamin f
  | 0x64 => decodeVamax f
  | 0x65 => decodeVaand f
  | 0x66 => decodeVaor f
  | 0x67 => decodeVaxor f
  | 0x68 => decodeVaswap f
  | 0x69 => decodeVacas f
  | 0x6A => decodeTld f
  | 0x6B => decodeTldf f
  | 0x6C => decodeTscl f
  | 0x6D => decodeMrow f
  | 0x6E => decodeMrowz f
  | 0x6F => decodeMsweep f
  | 0x70 => decodeMdrain f
  | 0x71 => decodeMdrains f
  | 0x72 => decodeMzero f
  | 0x73 => decodeMldacc f
  | 0x74 => decodeQcmp f
  | 0x75 => decodeQand f
  | 0x76 => decodeQor f
  | 0x77 => decodeQnot f
  | 0x78 => decodeQblend f
  | 0x79 => decodeQcoll f
  | 0x7A => decodeQgrad f
  | 0x7B => decodeQmov f
  | 0x7C => decodeQset f
  | 0x7D => decodeQhard f
  | 0x7E => decodeQseed f
  | _ => decodeQlin f

/-- The instruction of a bolt word, or its refusal by name. -/
def decodeBolt (w : BitVec 64) : Except DecodeError Instr := decodeBoltFields (BoltFields.ofWord w)

/-! ### Bytes -/

/-- A little-endian number of bytes (R102). -/
def natOfBytes : List Byte → Nat
  | [] => 0
  | b :: bs => b.toNat + 256 * natOfBytes bs

/-- The `n` bytes of a number, lowest address first (R102). -/
def bytesOfNat : Nat → Nat → List Byte
  | 0, _ => []
  | n + 1, w => BitVec.ofNat 8 w :: bytesOfNat n (w / 256)

/-- Decode the instruction that starts a list of bytes: four bytes of a stem word, eight of a bolt word. -/
def decodeBytes (bolt : Bool) (bs : List Byte) : Except DecodeError Instr :=
  if bolt then decodeBolt (BitVec.ofNat 64 (natOfBytes (bs.take 8)))
  else decodeStem (BitVec.ofNat 32 (natOfBytes (bs.take 4)))

/-- The instruction the decoder reads from a table row's bits: a stem word up to 32 bits, a bolt word above. -/
def decodeTableWord (nbits w : Nat) : Option Instr :=
  if nbits ≤ 32 then (decodeBytes false (bytesOfNat 4 w)).toOption
  else (decodeBytes true (bytesOfNat 8 w)).toOption

/-! ### The encoder -/

/-- The word of an instruction: a stem word, or a bolt word without its CB bit. -/
inductive Code where
  | stem (w : BitVec 32)
  | bolt (w : BitVec 64)
  deriving DecidableEq, Repr

/-- The instruction of a word of either region. -/
def decode : Code → Except DecodeError Instr
  | .stem w => decodeStem w
  | .bolt w => decodeBolt w

/-- The C field of an address part. -/
def Index.cField : Index → BitVec 5
  | .disp d => d.extractLsb' 0 5
  | .reg c => c
/-- FN[1:0] of an address part: IX and D5 (R148). -/
def Index.low : Index → BitVec 2
  | .disp d => (0#1 ++ d.extractLsb' 5 1 : BitVec (1 + 1))
  | .reg _ => 2

/-- A word of SX format (R145). -/
def StemFields.sys (major : BitVec 6) (a b : BitVec 5) (s : BitVec 16) : BitVec 32 :=
  StemFields.word ⟨major, a, b, s.extractLsb' 11 5, s.extractLsb' 0 11⟩

/-- The word of an instruction, from the encoding tables; none for the steps that no word encodes. -/
def encode (i : Instr) : Option Code :=
  match i with
  | .add d a b => some (.stem (StemFields.word ⟨0x1, d, a, b, (0#6 ++ 0#5 : BitVec (6 + 5))⟩))
  | .sub d a b => some (.stem (StemFields.word ⟨0x1, d, a, b, (0#6 ++ 1#5 : BitVec (6 + 5))⟩))
  | .mul d a b => some (.stem (StemFields.word ⟨0x1, d, a, b, (0#6 ++ 2#5 : BitVec (6 + 5))⟩))
  | .mulh d a b => some (.stem (StemFields.word ⟨0x1, d, a, b, (0#6 ++ 3#5 : BitVec (6 + 5))⟩))
  | .mulhn d a b => some (.stem (StemFields.word ⟨0x1, d, a, b, (0#6 ++ 4#5 : BitVec (6 + 5))⟩))
  | .div d a b => some (.stem (StemFields.word ⟨0x1, d, a, b, (0#6 ++ 5#5 : BitVec (6 + 5))⟩))
  | .divn d a b => some (.stem (StemFields.word ⟨0x1, d, a, b, (0#6 ++ 6#5 : BitVec (6 + 5))⟩))
  | .rem d a b => some (.stem (StemFields.word ⟨0x1, d, a, b, (0#6 ++ 7#5 : BitVec (6 + 5))⟩))
  | .remn d a b => some (.stem (StemFields.word ⟨0x1, d, a, b, (0#6 ++ 8#5 : BitVec (6 + 5))⟩))
  | .and d a b => some (.stem (StemFields.word ⟨0x1, d, a, b, (0#6 ++ 9#5 : BitVec (6 + 5))⟩))
  | .or d a b => some (.stem (StemFields.word ⟨0x1, d, a, b, (0#6 ++ 10#5 : BitVec (6 + 5))⟩))
  | .xor d a b => some (.stem (StemFields.word ⟨0x1, d, a, b, (0#6 ++ 11#5 : BitVec (6 + 5))⟩))
  | .shl d a b => some (.stem (StemFields.word ⟨0x1, d, a, b, (0#6 ++ 12#5 : BitVec (6 + 5))⟩))
  | .shr d a b => some (.stem (StemFields.word ⟨0x1, d, a, b, (0#6 ++ 13#5 : BitVec (6 + 5))⟩))
  | .sra d a b => some (.stem (StemFields.word ⟨0x1, d, a, b, (0#6 ++ 14#5 : BitVec (6 + 5))⟩))
  | .slt d a b => some (.stem (StemFields.word ⟨0x1, d, a, b, (0#6 ++ 15#5 : BitVec (6 + 5))⟩))
  | .sltn d a b => some (.stem (StemFields.word ⟨0x1, d, a, b, (0#6 ++ 16#5 : BitVec (6 + 5))⟩))
  | .min d a b => some (.stem (StemFields.word ⟨0x1, d, a, b, (0#6 ++ 17#5 : BitVec (6 + 5))⟩))
  | .max d a b => some (.stem (StemFields.word ⟨0x1, d, a, b, (0#6 ++ 18#5 : BitVec (6 + 5))⟩))
  | .minn d a b => some (.stem (StemFields.word ⟨0x1, d, a, b, (0#6 ++ 19#5 : BitVec (6 + 5))⟩))
  | .maxn d a b => some (.stem (StemFields.word ⟨0x1, d, a, b, (0#6 ++ 20#5 : BitVec (6 + 5))⟩))
  | .clz d a => some (.stem (StemFields.word ⟨0x1, d, a, 0, (0#6 ++ 21#5 : BitVec (6 + 5))⟩))
  | .popc d a => some (.stem (StemFields.word ⟨0x1, d, a, 0, (0#6 ++ 22#5 : BitVec (6 + 5))⟩))
  | .bext d a b => some (.stem (StemFields.word ⟨0x1, d, a, b, (0#6 ++ 23#5 : BitVec (6 + 5))⟩))
  | .bins d a b => some (.stem (StemFields.word ⟨0x1, d, a, b, (0#6 ++ 24#5 : BitVec (6 + 5))⟩))
  | .bix d a b w => some (.stem (StemFields.word ⟨0x2, d, a, b, (0#5 ++ w : BitVec (5 + 6))⟩))
  | .addi d a imm => some (.stem (StemFields.word ⟨0x3, d, a, (imm.extractLsb' 11 5), (imm.extractLsb' 0 11)⟩))
  | .andi d a imm => some (.stem (StemFields.word ⟨0x4, d, a, (imm.extractLsb' 11 5), (imm.extractLsb' 0 11)⟩))
  | .ori d a imm => some (.stem (StemFields.word ⟨0x5, d, a, (imm.extractLsb' 11 5), (imm.extractLsb' 0 11)⟩))
  | .xori d a imm => some (.stem (StemFields.word ⟨0x6, d, a, (imm.extractLsb' 11 5), (imm.extractLsb' 0 11)⟩))
  | .shli d a sh => some (.stem (StemFields.word ⟨0x7, d, a, 0, (0#5 ++ sh : BitVec (5 + 6))⟩))
  | .shri d a sh => some (.stem (StemFields.word ⟨0x8, d, a, 0, (0#5 ++ sh : BitVec (5 + 6))⟩))
  | .srai d a sh => some (.stem (StemFields.word ⟨0x9, d, a, 0, (0#5 ++ sh : BitVec (5 + 6))⟩))
  | .li d imm => some (.stem (StemFields.word ⟨0xA, d, (imm.extractLsb' 16 5), (imm.extractLsb' 11 5), (imm.extractLsb' 0 11)⟩))
  | .lih d imm => some (.stem (StemFields.word ⟨0xB, d, (imm.extractLsb' 16 5), (imm.extractLsb' 11 5), (imm.extractLsb' 0 11)⟩))
  | .beq a b off => some (.stem (StemFields.word ⟨0xC, a, b, (off.extractLsb' 11 5), (off.extractLsb' 0 11)⟩))
  | .bne a b off => some (.stem (StemFields.word ⟨0xD, a, b, (off.extractLsb' 11 5), (off.extractLsb' 0 11)⟩))
  | .blt a b off => some (.stem (StemFields.word ⟨0xE, a, b, (off.extractLsb' 11 5), (off.extractLsb' 0 11)⟩))
  | .bge a b off => some (.stem (StemFields.word ⟨0xF, a, b, (off.extractLsb' 11 5), (off.extractLsb' 0 11)⟩))
  | .bltn a b off => some (.stem (StemFields.word ⟨0x10, a, b, (off.extractLsb' 11 5), (off.extractLsb' 0 11)⟩))
  | .bgen a b off => some (.stem (StemFields.word ⟨0x11, a, b, (off.extractLsb' 11 5), (off.extractLsb' 0 11)⟩))
  | .jmp off => some (.stem (StemFields.word ⟨0x12, (off.extractLsb' 21 5), (off.extractLsb' 16 5), (off.extractLsb' 11 5), (off.extractLsb' 0 11)⟩))
  | .jal off => some (.stem (StemFields.word ⟨0x13, (off.extractLsb' 21 5), (off.extractLsb' 16 5), (off.extractLsb' 11 5), (off.extractLsb' 0 11)⟩))
  | .jr a => some (.stem (StemFields.word ⟨0x14, a, 0, 0, 0#11⟩))
  | .lds d b ad w sc => some (.stem (StemFields.word ⟨0x15, d, b, ad.cField, (w ++ (Scope.bits sc) ++ ad.low : BitVec (6 + 3 + 2))⟩))
  | .ldz d b ad w sc => some (.stem (StemFields.word ⟨0x16, d, b, ad.cField, (w ++ (Scope.bits sc) ++ ad.low : BitVec (6 + 3 + 2))⟩))
  | .st d b ad w sc => some (.stem (StemFields.word ⟨0x17, d, b, ad.cField, (w ++ (Scope.bits sc) ++ ad.low : BitVec (6 + 3 + 2))⟩))
  | .lda d b ad w sc => some (.stem (StemFields.word ⟨0x18, d, b, ad.cField, (w ++ (Scope.bits sc) ++ ad.low : BitVec (6 + 3 + 2))⟩))
  | .stl d b ad w sc => some (.stem (StemFields.word ⟨0x19, d, b, ad.cField, (w ++ (Scope.bits sc) ++ ad.low : BitVec (6 + 3 + 2))⟩))
  | .aadd d b c w sc => some (.stem (StemFields.word ⟨0x1A, d, b, c, (w ++ (Scope.bits sc) ++ 0#2 : BitVec (6 + 3 + 2))⟩))
  | .aand d b c w sc => some (.stem (StemFields.word ⟨0x1B, d, b, c, (w ++ (Scope.bits sc) ++ 0#2 : BitVec (6 + 3 + 2))⟩))
  | .aor d b c w sc => some (.stem (StemFields.word ⟨0x1C, d, b, c, (w ++ (Scope.bits sc) ++ 0#2 : BitVec (6 + 3 + 2))⟩))
  | .axor d b c w sc => some (.stem (StemFields.word ⟨0x1D, d, b, c, (w ++ (Scope.bits sc) ++ 0#2 : BitVec (6 + 3 + 2))⟩))
  | .amin d b c w sc => some (.stem (StemFields.word ⟨0x1E, d, b, c, (w ++ (Scope.bits sc) ++ 0#2 : BitVec (6 + 3 + 2))⟩))
  | .amax d b c w sc => some (.stem (StemFields.word ⟨0x1F, d, b, c, (w ++ (Scope.bits sc) ++ 0#2 : BitVec (6 + 3 + 2))⟩))
  | .aminn d b c w sc => some (.stem (StemFields.word ⟨0x20, d, b, c, (w ++ (Scope.bits sc) ++ 0#2 : BitVec (6 + 3 + 2))⟩))
  | .amaxn d b c w sc => some (.stem (StemFields.word ⟨0x21, d, b, c, (w ++ (Scope.bits sc) ++ 0#2 : BitVec (6 + 3 + 2))⟩))
  | .aswap d b c w sc => some (.stem (StemFields.word ⟨0x22, d, b, c, (w ++ (Scope.bits sc) ++ 0#2 : BitVec (6 + 3 + 2))⟩))
  | .cas d b c w sc => some (.stem (StemFields.word ⟨0x23, d, b, c, (w ++ (Scope.bits sc) ++ 0#2 : BitVec (6 + 3 + 2))⟩))
  | .casq d b c sc => some (.stem (StemFields.word ⟨0x24, d, b, c, (63#6 ++ (Scope.bits sc) ++ 0#2 : BitVec (6 + 3 + 2))⟩))
  | .fence k sc => some (.stem (StemFields.word ⟨0x25, 0, 0, 0, ((FenceKind.bits k) ++ (Scope.bits sc) ++ 0#5 : BitVec (3 + 3 + 5))⟩))
  | .waitm d b c w tmo => some (.stem (StemFields.word ⟨0x26, d, b, c, (w ++ tmo : BitVec (6 + 5))⟩))
  | .waitc n cn tmo => some (.stem (StemFields.word ⟨0x27, 0, 0, n, (0#3 ++ cn ++ tmo : BitVec (3 + 3 + 5))⟩))
  | .arrive a b sc => some (.stem (StemFields.word ⟨0x27, a, b, 0, (1#3 ++ (Scope.bits sc) ++ 0#5 : BitVec (3 + 3 + 5))⟩))
  | .waitb d b a sc tmo => some (.stem (StemFields.word ⟨0x27, d, b, a, (2#3 ++ (Scope.bits sc) ++ tmo : BitVec (3 + 3 + 5))⟩))
  | .lwait d a tmo => some (.stem (StemFields.word ⟨0x27, d, a, 0, (3#3 ++ 0#3 ++ tmo : BitVec (3 + 3 + 5))⟩))
  | .pause => some (.stem (StemFields.word ⟨0x27, 0, 0, 0, (4#3 ++ 0#8 : BitVec (3 + 8))⟩))
  | .bolt off => some (.stem (StemFields.word ⟨0x28, (off.extractLsb' 21 5), (off.extractLsb' 16 5), (off.extractLsb' 11 5), (off.extractLsb' 0 11)⟩))
  | .vcfg d b => some (.stem (StemFields.word ⟨0x29, d, b, 0, (0#3 ++ 0#8 : BitVec (3 + 8))⟩))
  | .setvl d a => some (.stem (StemFields.word ⟨0x29, d, a, 0, (1#3 ++ 0#8 : BitVec (3 + 8))⟩))
  | .farm a b => some (.stem (StemFields.word ⟨0x29, a, b, 0, (2#3 ++ 0#8 : BitVec (3 + 8))⟩))
  | .strip d => some (.stem (StemFields.word ⟨0x29, d, 0, 0, (3#3 ++ 0#8 : BitVec (3 + 8))⟩))
  | .launch b => some (.stem (StemFields.word ⟨0x29, 0, b, 0, (4#3 ++ 0#8 : BitVec (3 + 8))⟩))
  | .hexit => some (.stem (StemFields.word ⟨0x29, 0, 0, 0, (5#3 ++ 0#8 : BitVec (3 + 8))⟩))
  | .claim d a k n status => some (.stem (StemFields.word ⟨0x2A, d, a, 0, (0#3 ++ k ++ n ++ (boolBit status) ++ 0#1 : BitVec (3 + 2 + 4 + 1 + 1))⟩))
  | .release a k => some (.stem (StemFields.word ⟨0x2A, a, 0, 0, (1#3 ++ k ++ 0#6 : BitVec (3 + 2 + 6))⟩))
  | .sdone => some (.stem (StemFields.word ⟨0x2A, 0, 0, 0, (2#3 ++ 0#8 : BitVec (3 + 8))⟩))
  | .ssumm => some (.stem (StemFields.word ⟨0x2A, 0, 0, 0, (3#3 ++ 0#8 : BitVec (3 + 8))⟩))
  | .srefuse => some (.stem (StemFields.word ⟨0x2A, 0, 0, 0, (4#3 ++ 0#8 : BitVec (3 + 8))⟩))
  | .probe k a b kd => some (.stem (StemFields.word ⟨0x2B, (0#1 ++ k : BitVec (1 + 4)), a, b, (0#3 ++ 0#6 ++ kd : BitVec (3 + 6 + 2))⟩))
  | .unprobe k => some (.stem (StemFields.word ⟨0x2B, (0#1 ++ k : BitVec (1 + 4)), 0, 0, (1#3 ++ 0#8 : BitVec (3 + 8))⟩))
  | .bind b v => some (.stem (StemFields.word ⟨0x2B, 0, b, 0, (2#3 ++ 0#2 ++ v : BitVec (3 + 2 + 6))⟩))
  | .unbind v => some (.stem (StemFields.word ⟨0x2B, 0, 0, 0, (3#3 ++ 0#2 ++ v : BitVec (3 + 2 + 6))⟩))
  | .copyRegLen a b l cn => some (.stem (StemFields.word ⟨0x2C, a, b, l, (0#3 ++ cn ++ 0#1 ++ 0#4 : BitVec (3 + 3 + 1 + 4))⟩))
  | .copyImmLen a b len cn => some (.stem (StemFields.word ⟨0x2C, a, b, (len.extractLsb' 4 5), (0#3 ++ cn ++ 1#1 ++ (len.extractLsb' 0 4) : BitVec (3 + 3 + 1 + 4))⟩))
  | .copymRegLen a b l cn => some (.stem (StemFields.word ⟨0x2C, a, b, l, (1#3 ++ cn ++ 0#1 ++ 0#4 : BitVec (3 + 3 + 1 + 4))⟩))
  | .copymImmLen a b len cn => some (.stem (StemFields.word ⟨0x2C, a, b, (len.extractLsb' 4 5), (1#3 ++ cn ++ 1#1 ++ (len.extractLsb' 0 4) : BitVec (3 + 3 + 1 + 4))⟩))
  | .mcastRegLen a b l cn => some (.stem (StemFields.word ⟨0x2C, a, b, l, (2#3 ++ cn ++ 0#1 ++ 0#4 : BitVec (3 + 3 + 1 + 4))⟩))
  | .mcastImmLen a b len cn => some (.stem (StemFields.word ⟨0x2C, a, b, (len.extractLsb' 4 5), (2#3 ++ cn ++ 1#1 ++ (len.extractLsb' 0 4) : BitVec (3 + 3 + 1 + 4))⟩))
  | .redstRegLen a b l cn => some (.stem (StemFields.word ⟨0x2C, a, b, l, (3#3 ++ cn ++ 0#1 ++ 0#4 : BitVec (3 + 3 + 1 + 4))⟩))
  | .redstImmLen a b len cn => some (.stem (StemFields.word ⟨0x2C, a, b, (len.extractLsb' 4 5), (3#3 ++ cn ++ 1#1 ++ (len.extractLsb' 0 4) : BitVec (3 + 3 + 1 + 4))⟩))
  | .sldRegLen a b l cn => some (.stem (StemFields.word ⟨0x2C, a, b, l, (4#3 ++ cn ++ 0#1 ++ 0#4 : BitVec (3 + 3 + 1 + 4))⟩))
  | .sldImmLen a b len cn => some (.stem (StemFields.word ⟨0x2C, a, b, (len.extractLsb' 4 5), (4#3 ++ cn ++ 1#1 ++ (len.extractLsb' 0 4) : BitVec (3 + 3 + 1 + 4))⟩))
  | .dims a b n => some (.stem (StemFields.word ⟨0x2C, a, b, 0, (5#3 ++ 0#6 ++ n : BitVec (3 + 6 + 2))⟩))
  | .csrr d csr => some (.stem (StemFields.sys 0x2D d 0 (0#4 ++ csr : BitVec (4 + 12))))
  | .csrw a csr => some (.stem (StemFields.sys 0x2D 0 a (1#4 ++ csr : BitVec (4 + 12))))
  | .csrx d a csr => some (.stem (StemFields.sys 0x2D d a (2#4 ++ csr : BitVec (4 + 12))))
  | .trap n => some (.stem (StemFields.sys 0x2D 0 0 (3#4 ++ (0#6 ++ n) : BitVec (4 + (6 + 6)))))
  | .rett => some (.stem (StemFields.sys 0x2D 0 0 (4#4 ++ 0#12 : BitVec (4 + 12))))
  | .fwcall n => some (.stem (StemFields.sys 0x2D 0 0 (5#4 ++ n : BitVec (4 + 12))))
  | .bkpt n => some (.stem (StemFields.sys 0x2D 0 0 (6#4 ++ n : BitVec (4 + 12))))
  | .stop => some (.bolt (BoltFields.word false ⟨0x0, 0, 0, 0, 0, 0, 0, 0, 0, 0⟩))
  | .vbany off k => some (.bolt (BoltFields.word false ⟨0x1, 0, 0, 0, 0, k.m, (boolBit k.sns), 0, 0, off⟩))
  | .vball off k => some (.bolt (BoltFields.word false ⟨0x2, 0, 0, 0, 0, k.m, (boolBit k.sns), 0, 0, off⟩))
  | .vbnone off k => some (.bolt (BoltFields.word false ⟨0x3, 0, 0, 0, 0, k.m, (boolBit k.sns), 0, 0, off⟩))
  | .vbdiv off k => some (.bolt (BoltFields.word false ⟨0x4, 0, 0, 0, 0, k.m, (boolBit k.sns), 0, 0, off⟩))
  | .vjmp off => some (.bolt (BoltFields.word false ⟨0x5, 0, 0, 0, 0, 0, 0, 0, 0, off⟩))
  | .vfence sc => some (.bolt (BoltFields.word false ⟨0x6, 0, 0, 0, 0, 0, 0, 0, 0, (0#3 ++ (Scope.bits sc) ++ 0#14 : BitVec (3 + 3 + 14))⟩))
  | .vidx vd k => some (.bolt (BoltFields.word false ⟨0x7, vd, 0, 0, 0, k.m, (boolBit k.sns), 0, 0, 0⟩))
  | .vmvs vd sa sb k => some (.bolt (BoltFields.word false ⟨0x8, vd, (0#1 ++ sa : BitVec (1 + 5)), (0#1 ++ sb : BitVec (1 + 5)), 0, k.m, (boolBit k.sns), 0, 0, 0⟩))
  | .vext va (.elem sb) k => some (.bolt (BoltFields.word false ⟨0x9, 0, va, (0#1 ++ sb : BitVec (1 + 5)), 0, k.m, (boolBit k.sns), 0, 0, 0⟩))
  | .vext va .all k => some (.bolt (BoltFields.word false ⟨0x9, 0, va, 0, 0, k.m, (boolBit k.sns), 0, 0, 1⟩))
  | .vtrap n k => some (.bolt (BoltFields.word false ⟨0xA, 0, 0, 0, 0, k.m, (boolBit k.sns), 0, 0, (0#14 ++ n : BitVec (14 + 6))⟩))
  | .vrng vd k => some (.bolt (BoltFields.word false ⟨0xB, vd, 0, 0, 0, k.m, (boolBit k.sns), 0, 0, 0⟩))
  | .vadd vd va vb r k => some (.bolt (BoltFields.word false ⟨0xC, vd, va, vb, 0, k.m, (boolBit k.sns), 0, 0, ((Rnd.bits r) ++ 0#17 : BitVec (3 + 17))⟩))
  | .vsub vd va vb r k => some (.bolt (BoltFields.word false ⟨0xD, vd, va, vb, 0, k.m, (boolBit k.sns), 0, 0, ((Rnd.bits r) ++ 0#17 : BitVec (3 + 17))⟩))
  | .vmul vd va vb r k => some (.bolt (BoltFields.word false ⟨0xE, vd, va, vb, 0, k.m, (boolBit k.sns), 0, 0, ((Rnd.bits r) ++ 0#17 : BitVec (3 + 17))⟩))
  | .vmulh vd va vb r k => some (.bolt (BoltFields.word false ⟨0xF, vd, va, vb, 0, k.m, (boolBit k.sns), 0, 0, ((Rnd.bits r) ++ 0#17 : BitVec (3 + 17))⟩))
  | .vmulw vd va vb r fx k => some (.bolt (BoltFields.word false ⟨0x10, vd, va, vb, 0, k.m, (boolBit k.sns), fx, 0, ((Rnd.bits r) ++ 0#17 : BitVec (3 + 17))⟩))
  | .vmacc vd va vb k => some (.bolt (BoltFields.word false ⟨0x11, vd, va, vb, 0, k.m, (boolBit k.sns), 0, 0, 0⟩))
  | .vdiv vd va vb r k => some (.bolt (BoltFields.word false ⟨0x12, vd, va, vb, 0, k.m, (boolBit k.sns), 0, 0, ((Rnd.bits r) ++ 0#17 : BitVec (3 + 17))⟩))
  | .vrem vd va vb r k => some (.bolt (BoltFields.word false ⟨0x13, vd, va, vb, 0, k.m, (boolBit k.sns), 0, 0, ((Rnd.bits r) ++ 0#17 : BitVec (3 + 17))⟩))
  | .vmin vd va vb r k => some (.bolt (BoltFields.word false ⟨0x14, vd, va, vb, 0, k.m, (boolBit k.sns), 0, 0, ((Rnd.bits r) ++ 0#17 : BitVec (3 + 17))⟩))
  | .vmax vd va vb r k => some (.bolt (BoltFields.word false ⟨0x15, vd, va, vb, 0, k.m, (boolBit k.sns), 0, 0, ((Rnd.bits r) ++ 0#17 : BitVec (3 + 17))⟩))
  | .vabs vd va r k => some (.bolt (BoltFields.word false ⟨0x16, vd, va, 0, 0, k.m, (boolBit k.sns), 0, 0, ((Rnd.bits r) ++ 0#17 : BitVec (3 + 17))⟩))
  | .vneg vd va r k => some (.bolt (BoltFields.word false ⟨0x17, vd, va, 0, 0, k.m, (boolBit k.sns), 0, 0, ((Rnd.bits r) ++ 0#17 : BitVec (3 + 17))⟩))
  | .vadds vd va vb r k => some (.bolt (BoltFields.word false ⟨0x18, vd, va, vb, 0, k.m, (boolBit k.sns), 0, 0, ((Rnd.bits r) ++ 0#17 : BitVec (3 + 17))⟩))
  | .vsubs vd va vb r k => some (.bolt (BoltFields.word false ⟨0x19, vd, va, vb, 0, k.m, (boolBit k.sns), 0, 0, ((Rnd.bits r) ++ 0#17 : BitVec (3 + 17))⟩))
  | .vavg vd va vb r k => some (.bolt (BoltFields.word false ⟨0x1A, vd, va, vb, 0, k.m, (boolBit k.sns), 0, 0, ((Rnd.bits r) ++ 0#17 : BitVec (3 + 17))⟩))
  | .vand vd va vb r k => some (.bolt (BoltFields.word false ⟨0x1B, vd, va, vb, 0, k.m, (boolBit k.sns), 0, 0, ((Rnd.bits r) ++ 0#17 : BitVec (3 + 17))⟩))
  | .vor vd va vb r k => some (.bolt (BoltFields.word false ⟨0x1C, vd, va, vb, 0, k.m, (boolBit k.sns), 0, 0, ((Rnd.bits r) ++ 0#17 : BitVec (3 + 17))⟩))
  | .vxor vd va vb r k => some (.bolt (BoltFields.word false ⟨0x1D, vd, va, vb, 0, k.m, (boolBit k.sns), 0, 0, ((Rnd.bits r) ++ 0#17 : BitVec (3 + 17))⟩))
  | .vshl vd va vb r k => some (.bolt (BoltFields.word false ⟨0x1E, vd, va, vb, 0, k.m, (boolBit k.sns), 0, 0, ((Rnd.bits r) ++ 0#17 : BitVec (3 + 17))⟩))
  | .vshr vd va vb r k => some (.bolt (BoltFields.word false ⟨0x1F, vd, va, vb, 0, k.m, (boolBit k.sns), 0, 0, ((Rnd.bits r) ++ 0#17 : BitVec (3 + 17))⟩))
  | .vsra vd va vb r k => some (.bolt (BoltFields.word false ⟨0x20, vd, va, vb, 0, k.m, (boolBit k.sns), 0, 0, ((Rnd.bits r) ++ 0#17 : BitVec (3 + 17))⟩))
  | .vpopc vd va k => some (.bolt (BoltFields.word false ⟨0x21, vd, va, 0, 0, k.m, (boolBit k.sns), 0, 0, 0⟩))
  | .vclz vd va k => some (.bolt (BoltFields.word false ⟨0x22, vd, va, 0, 0, k.m, (boolBit k.sns), 0, 0, 0⟩))
  | .vbext vd va vb r k => some (.bolt (BoltFields.word false ⟨0x23, vd, va, vb, 0, k.m, (boolBit k.sns), 0, 0, ((Rnd.bits r) ++ 0#17 : BitVec (3 + 17))⟩))
  | .vfma vd va vb vc r k => some (.bolt (BoltFields.word false ⟨0x24, vd, va, vb, vc, k.m, (boolBit k.sns), 0, 0, ((Rnd.bits r) ++ 0#17 : BitVec (3 + 17))⟩))
  | .vfms vd va vb vc r k => some (.bolt (BoltFields.word false ⟨0x25, vd, va, vb, vc, k.m, (boolBit k.sns), 0, 0, ((Rnd.bits r) ++ 0#17 : BitVec (3 + 17))⟩))
  | .vfnma vd va vb vc r k => some (.bolt (BoltFields.word false ⟨0x26, vd, va, vb, vc, k.m, (boolBit k.sns), 0, 0, ((Rnd.bits r) ++ 0#17 : BitVec (3 + 17))⟩))
  | .vsqrt vd va r k => some (.bolt (BoltFields.word false ⟨0x27, vd, va, 0, 0, k.m, (boolBit k.sns), 0, 0, ((Rnd.bits r) ++ 0#17 : BitVec (3 + 17))⟩))
  | .vrcp vd va r k => some (.bolt (BoltFields.word false ⟨0x28, vd, va, 0, 0, k.m, (boolBit k.sns), 0, 0, ((Rnd.bits r) ++ 0#17 : BitVec (3 + 17))⟩))
  | .vrsq vd va r k => some (.bolt (BoltFields.word false ⟨0x29, vd, va, 0, 0, k.m, (boolBit k.sns), 0, 0, ((Rnd.bits r) ++ 0#17 : BitVec (3 + 17))⟩))
  | .vexp vd va r k => some (.bolt (BoltFields.word false ⟨0x2A, vd, va, 0, 0, k.m, (boolBit k.sns), 0, 0, ((Rnd.bits r) ++ 0#17 : BitVec (3 + 17))⟩))
  | .vlog vd va r k => some (.bolt (BoltFields.word false ⟨0x2B, vd, va, 0, 0, k.m, (boolBit k.sns), 0, 0, ((Rnd.bits r) ++ 0#17 : BitVec (3 + 17))⟩))
  | .vsig vd va r k => some (.bolt (BoltFields.word false ⟨0x2C, vd, va, 0, 0, k.m, (boolBit k.sns), 0, 0, ((Rnd.bits r) ++ 0#17 : BitVec (3 + 17))⟩))
  | .vtanh vd va r k => some (.bolt (BoltFields.word false ⟨0x2D, vd, va, 0, 0, k.m, (boolBit k.sns), 0, 0, ((Rnd.bits r) ++ 0#17 : BitVec (3 + 17))⟩))
  | .vcvt vd va r fx k => some (.bolt (BoltFields.word false ⟨0x2E, vd, va, 0, 0, k.m, (boolBit k.sns), fx, 0, ((Rnd.bits r) ++ 0#17 : BitVec (3 + 17))⟩))
  | .vwiden vd va k => some (.bolt (BoltFields.word false ⟨0x2F, vd, va, 0, 0, k.m, (boolBit k.sns), 0, 0, 0⟩))
  | .vnarrow vd va r fx k => some (.bolt (BoltFields.word false ⟨0x30, vd, va, 0, 0, k.m, (boolBit k.sns), fx, 0, ((Rnd.bits r) ++ 0#17 : BitVec (3 + 17))⟩))
  | .vqnt vd va r sc zp k => some (.bolt (BoltFields.word false ⟨0x31, vd, va, 0, 0, k.m, (boolBit k.sns), 0, 0, ((Rnd.bits r) ++ 0#15 ++ (boolBit zp) ++ (boolBit sc) : BitVec (3 + 15 + 1 + 1))⟩))
  | .vdqnt vd va r sc zp k => some (.bolt (BoltFields.word false ⟨0x32, vd, va, 0, 0, k.m, (boolBit k.sns), 0, 0, ((Rnd.bits r) ++ 0#15 ++ (boolBit zp) ++ (boolBit sc) : BitVec (3 + 15 + 1 + 1))⟩))
  | .vrnd vd va r k => some (.bolt (BoltFields.word false ⟨0x33, vd, va, 0, 0, k.m, (boolBit k.sns), 0, 0, ((Rnd.bits r) ++ 0#17 : BitVec (3 + 17))⟩))
  | .vclass vd va k => some (.bolt (BoltFields.word false ⟨0x34, vd, va, 0, 0, k.m, (boolBit k.sns), 0, 0, 0⟩))
  | .vscl vd va vb r k => some (.bolt (BoltFields.word false ⟨0x35, vd, va, vb, 0, k.m, (boolBit k.sns), 0, 0, ((Rnd.bits r) ++ 0#17 : BitVec (3 + 17))⟩))
  | .vsat vd va vb vc r k => some (.bolt (BoltFields.word false ⟨0x36, vd, va, vb, vc, k.m, (boolBit k.sns), 0, 0, ((Rnd.bits r) ++ 0#17 : BitVec (3 + 17))⟩))
  | .vcmp md va vb c k => some (.bolt (BoltFields.word false ⟨0x37, (0#3 ++ md : BitVec (3 + 3)), va, vb, 0, k.m, (boolBit k.sns), 0, 0, (0#17 ++ (Cond.bits c) : BitVec (17 + 3))⟩))
  | .vcmpn md va vb c k => some (.bolt (BoltFields.word false ⟨0x38, (0#3 ++ md : BitVec (3 + 3)), va, vb, 0, k.m, (boolBit k.sns), 0, 0, (0#17 ++ (Cond.bits c) : BitVec (17 + 3))⟩))
  | .mand md ma mb k => some (.bolt (BoltFields.word false ⟨0x39, (0#3 ++ md : BitVec (3 + 3)), (0#3 ++ ma : BitVec (3 + 3)), (0#3 ++ mb : BitVec (3 + 3)), 0, k.m, (boolBit k.sns), 0, 0, 0⟩))
  | .mor md ma mb k => some (.bolt (BoltFields.word false ⟨0x3A, (0#3 ++ md : BitVec (3 + 3)), (0#3 ++ ma : BitVec (3 + 3)), (0#3 ++ mb : BitVec (3 + 3)), 0, k.m, (boolBit k.sns), 0, 0, 0⟩))
  | .mxor md ma mb k => some (.bolt (BoltFields.word false ⟨0x3B, (0#3 ++ md : BitVec (3 + 3)), (0#3 ++ ma : BitVec (3 + 3)), (0#3 ++ mb : BitVec (3 + 3)), 0, k.m, (boolBit k.sns), 0, 0, 0⟩))
  | .mnot md ma k => some (.bolt (BoltFields.word false ⟨0x3C, (0#3 ++ md : BitVec (3 + 3)), (0#3 ++ ma : BitVec (3 + 3)), 0, 0, k.m, (boolBit k.sns), 0, 0, 0⟩))
  | .mpop vd ma k => some (.bolt (BoltFields.word false ⟨0x3D, vd, (0#3 ++ ma : BitVec (3 + 3)), 0, 0, k.m, (boolBit k.sns), 0, 0, 0⟩))
  | .mfirst vd ma k => some (.bolt (BoltFields.word false ⟨0x3E, vd, (0#3 ++ ma : BitVec (3 + 3)), 0, 0, k.m, (boolBit k.sns), 0, 0, 0⟩))
  | .vsel vd va vb mc k => some (.bolt (BoltFields.word false ⟨0x3F, vd, va, vb, (0#3 ++ mc : BitVec (3 + 3)), k.m, (boolBit k.sns), 0, 0, 0⟩))
  | .mset md .zero k => some (.bolt (BoltFields.word false ⟨0x40, (0#3 ++ md : BitVec (3 + 3)), 0, 0, 0, k.m, (boolBit k.sns), 0, 0, 0⟩))
  | .mset md .one k => some (.bolt (BoltFields.word false ⟨0x40, (0#3 ++ md : BitVec (3 + 3)), 0, 0, 0, k.m, (boolBit k.sns), 0, 0, 1⟩))
  | .mset md (.below sa) k => some (.bolt (BoltFields.word false ⟨0x40, (0#3 ++ md : BitVec (3 + 3)), (0#1 ++ sa : BitVec (1 + 5)), 0, 0, k.m, (boolBit k.sns), 0, 0, 2⟩))
  | .vrsum vd va r k => some (.bolt (BoltFields.word false ⟨0x41, vd, va, 0, 0, k.m, (boolBit k.sns), 0, 0, ((Rnd.bits r) ++ 0#17 : BitVec (3 + 17))⟩))
  | .vrmax vd va r k => some (.bolt (BoltFields.word false ⟨0x42, vd, va, 0, 0, k.m, (boolBit k.sns), 0, 0, ((Rnd.bits r) ++ 0#17 : BitVec (3 + 17))⟩))
  | .vrmin vd va r k => some (.bolt (BoltFields.word false ⟨0x43, vd, va, 0, 0, k.m, (boolBit k.sns), 0, 0, ((Rnd.bits r) ++ 0#17 : BitVec (3 + 17))⟩))
  | .vrand vd va r k => some (.bolt (BoltFields.word false ⟨0x44, vd, va, 0, 0, k.m, (boolBit k.sns), 0, 0, ((Rnd.bits r) ++ 0#17 : BitVec (3 + 17))⟩))
  | .vror vd va r k => some (.bolt (BoltFields.word false ⟨0x45, vd, va, 0, 0, k.m, (boolBit k.sns), 0, 0, ((Rnd.bits r) ++ 0#17 : BitVec (3 + 17))⟩))
  | .vscan vd va r k => some (.bolt (BoltFields.word false ⟨0x46, vd, va, 0, 0, k.m, (boolBit k.sns), 0, 0, ((Rnd.bits r) ++ 0#17 : BitVec (3 + 17))⟩))
  | .vscanmx vd va r k => some (.bolt (BoltFields.word false ⟨0x47, vd, va, 0, 0, k.m, (boolBit k.sns), 0, 0, ((Rnd.bits r) ++ 0#17 : BitVec (3 + 17))⟩))
  | .vrdot vd va vb r k => some (.bolt (BoltFields.word false ⟨0x48, vd, va, vb, 0, k.m, (boolBit k.sns), 0, 0, ((Rnd.bits r) ++ 0#17 : BitVec (3 + 17))⟩))
  | .vslup vd va (.frame sb) k => some (.bolt (BoltFields.word false ⟨0x49, vd, va, (0#1 ++ sb : BitVec (1 + 5)), 0, k.m, (boolBit k.sns), 0, 0, 0⟩))
  | .vslup vd va (.imm x) k => some (.bolt (BoltFields.word false ⟨0x49, vd, va, 0, 0, k.m, (boolBit k.sns), 0, 0, (1#1 ++ 0#3 ++ x : BitVec (1 + 3 + 16))⟩))
  | .vsldn vd va (.frame sb) k => some (.bolt (BoltFields.word false ⟨0x4A, vd, va, (0#1 ++ sb : BitVec (1 + 5)), 0, k.m, (boolBit k.sns), 0, 0, 0⟩))
  | .vsldn vd va (.imm x) k => some (.bolt (BoltFields.word false ⟨0x4A, vd, va, 0, 0, k.m, (boolBit k.sns), 0, 0, (1#1 ++ 0#3 ++ x : BitVec (1 + 3 + 16))⟩))
  | .vgthr vd va vb k => some (.bolt (BoltFields.word false ⟨0x4B, vd, va, vb, 0, k.m, (boolBit k.sns), 0, 0, 0⟩))
  | .vcomp vd va k => some (.bolt (BoltFields.word false ⟨0x4C, vd, va, 0, 0, k.m, (boolBit k.sns), 0, 0, 0⟩))
  | .vexpd vd va k => some (.bolt (BoltFields.word false ⟨0x4D, vd, va, 0, 0, k.m, (boolBit k.sns), 0, 0, 0⟩))
  | .vbcast vd sa k => some (.bolt (BoltFields.word false ⟨0x4E, vd, (0#1 ++ sa : BitVec (1 + 5)), 0, 0, k.m, (boolBit k.sns), 0, 0, 0⟩))
  | .vrev vd va k => some (.bolt (BoltFields.word false ⟨0x4F, vd, va, 0, 0, k.m, (boolBit k.sns), 0, 0, 0⟩))
  | .vzip vd va vb n k => some (.bolt (BoltFields.word false ⟨0x50, vd, va, vb, 0, k.m, (boolBit k.sns), 0, 0, (0#19 ++ (boolBit n) : BitVec (19 + 1))⟩))
  | .vunzip vd va vb n k => some (.bolt (BoltFields.word false ⟨0x51, vd, va, vb, 0, k.m, (boolBit k.sns), 0, 0, (0#19 ++ (boolBit n) : BitVec (19 + 1))⟩))
  | .vld vd sa r disp fx tok k => some (.bolt (BoltFields.word false ⟨0x52, vd, (0#1 ++ sa : BitVec (1 + 5)), 0, 0, k.m, (boolBit k.sns), fx, tok, ((Rnd.bits r) ++ disp : BitVec (3 + 17))⟩))
  | .vst vd sa r disp fx tok k => some (.bolt (BoltFields.word false ⟨0x53, vd, (0#1 ++ sa : BitVec (1 + 5)), 0, 0, k.m, (boolBit k.sns), fx, tok, ((Rnd.bits r) ++ disp : BitVec (3 + 17))⟩))
  | .vlds vd sa sb r disp fx tok k => some (.bolt (BoltFields.word false ⟨0x54, vd, (0#1 ++ sa : BitVec (1 + 5)), (0#1 ++ sb : BitVec (1 + 5)), 0, k.m, (boolBit k.sns), fx, tok, ((Rnd.bits r) ++ disp : BitVec (3 + 17))⟩))
  | .vsts vd sa sb r disp fx tok k => some (.bolt (BoltFields.word false ⟨0x55, vd, (0#1 ++ sa : BitVec (1 + 5)), (0#1 ++ sb : BitVec (1 + 5)), 0, k.m, (boolBit k.sns), fx, tok, ((Rnd.bits r) ++ disp : BitVec (3 + 17))⟩))
  | .vldx vd sa vb r disp fx tok k => some (.bolt (BoltFields.word false ⟨0x56, vd, (0#1 ++ sa : BitVec (1 + 5)), vb, 0, k.m, (boolBit k.sns), fx, tok, ((Rnd.bits r) ++ disp : BitVec (3 + 17))⟩))
  | .vstx vd sa vb r disp fx tok k => some (.bolt (BoltFields.word false ⟨0x57, vd, (0#1 ++ sa : BitVec (1 + 5)), vb, 0, k.m, (boolBit k.sns), fx, tok, ((Rnd.bits r) ++ disp : BitVec (3 + 17))⟩))
  | .vldxo vd sa vb r disp fx tok k => some (.bolt (BoltFields.word false ⟨0x58, vd, (0#1 ++ sa : BitVec (1 + 5)), vb, 0, k.m, (boolBit k.sns), fx, tok, ((Rnd.bits r) ++ disp : BitVec (3 + 17))⟩))
  | .vstxo vd sa vb r disp fx tok k => some (.bolt (BoltFields.word false ⟨0x59, vd, (0#1 ++ sa : BitVec (1 + 5)), vb, 0, k.m, (boolBit k.sns), fx, tok, ((Rnd.bits r) ++ disp : BitVec (3 + 17))⟩))
  | .vldseg vd sa sb r disp nf fx tok k => some (.bolt (BoltFields.word false ⟨0x5A, vd, (0#1 ++ sa : BitVec (1 + 5)), (0#1 ++ sb : BitVec (1 + 5)), 0, k.m, (boolBit k.sns), fx, tok, ((Rnd.bits r) ++ disp ++ nf : BitVec (3 + 14 + 3))⟩))
  | .vstseg vd sa sb r disp nf fx tok k => some (.bolt (BoltFields.word false ⟨0x5B, vd, (0#1 ++ sa : BitVec (1 + 5)), (0#1 ++ sb : BitVec (1 + 5)), 0, k.m, (boolBit k.sns), fx, tok, ((Rnd.bits r) ++ disp ++ nf : BitVec (3 + 14 + 3))⟩))
  | .vldm vd sa r disp fx tok k => some (.bolt (BoltFields.word false ⟨0x5C, vd, (0#1 ++ sa : BitVec (1 + 5)), 0, 0, k.m, (boolBit k.sns), fx, tok, ((Rnd.bits r) ++ disp : BitVec (3 + 17))⟩))
  | .vstm vd sa r disp fx tok k => some (.bolt (BoltFields.word false ⟨0x5D, vd, (0#1 ++ sa : BitVec (1 + 5)), 0, 0, k.m, (boolBit k.sns), fx, tok, ((Rnd.bits r) ++ disp : BitVec (3 + 17))⟩))
  | .vldsp vd sa sb r disp fx k => some (.bolt (BoltFields.word false ⟨0x5E, vd, (0#1 ++ sa : BitVec (1 + 5)), (0#1 ++ sb : BitVec (1 + 5)), 0, k.m, (boolBit k.sns), fx, 0, ((Rnd.bits r) ++ disp : BitVec (3 + 17))⟩))
  | .vstsp vd sa sb r disp fx k => some (.bolt (BoltFields.word false ⟨0x5F, vd, (0#1 ++ sa : BitVec (1 + 5)), (0#1 ++ sb : BitVec (1 + 5)), 0, k.m, (boolBit k.sns), fx, 0, ((Rnd.bits r) ++ disp : BitVec (3 + 17))⟩))
  | .vldspx vd sa vb r disp fx k => some (.bolt (BoltFields.word false ⟨0x60, vd, (0#1 ++ sa : BitVec (1 + 5)), vb, 0, k.m, (boolBit k.sns), fx, 0, ((Rnd.bits r) ++ disp : BitVec (3 + 17))⟩))
  | .vstspx vd sa vb r disp fx k => some (.bolt (BoltFields.word false ⟨0x61, vd, (0#1 ++ sa : BitVec (1 + 5)), vb, 0, k.m, (boolBit k.sns), fx, 0, ((Rnd.bits r) ++ disp : BitVec (3 + 17))⟩))
  | .vaadd vd sa vb vc sc sp nr disp fx tok k => some (.bolt (BoltFields.word false ⟨0x62, vd, (0#1 ++ sa : BitVec (1 + 5)), vb, vc, k.m, (boolBit k.sns), fx, tok, (0#3 ++ (Scope.bits sc) ++ (boolBit sp) ++ (boolBit nr) ++ disp : BitVec (3 + 3 + 1 + 1 + 12))⟩))
  | .vamin vd sa vb vc sc sp nr disp fx tok k => some (.bolt (BoltFields.word false ⟨0x63, vd, (0#1 ++ sa : BitVec (1 + 5)), vb, vc, k.m, (boolBit k.sns), fx, tok, (0#3 ++ (Scope.bits sc) ++ (boolBit sp) ++ (boolBit nr) ++ disp : BitVec (3 + 3 + 1 + 1 + 12))⟩))
  | .vamax vd sa vb vc sc sp nr disp fx tok k => some (.bolt (BoltFields.word false ⟨0x64, vd, (0#1 ++ sa : BitVec (1 + 5)), vb, vc, k.m, (boolBit k.sns), fx, tok, (0#3 ++ (Scope.bits sc) ++ (boolBit sp) ++ (boolBit nr) ++ disp : BitVec (3 + 3 + 1 + 1 + 12))⟩))
  | .vaand vd sa vb vc sc sp nr disp fx tok k => some (.bolt (BoltFields.word false ⟨0x65, vd, (0#1 ++ sa : BitVec (1 + 5)), vb, vc, k.m, (boolBit k.sns), fx, tok, (0#3 ++ (Scope.bits sc) ++ (boolBit sp) ++ (boolBit nr) ++ disp : BitVec (3 + 3 + 1 + 1 + 12))⟩))
  | .vaor vd sa vb vc sc sp nr disp fx tok k => some (.bolt (BoltFields.word false ⟨0x66, vd, (0#1 ++ sa : BitVec (1 + 5)), vb, vc, k.m, (boolBit k.sns), fx, tok, (0#3 ++ (Scope.bits sc) ++ (boolBit sp) ++ (boolBit nr) ++ disp : BitVec (3 + 3 + 1 + 1 + 12))⟩))
  | .vaxor vd sa vb vc sc sp nr disp fx tok k => some (.bolt (BoltFields.word false ⟨0x67, vd, (0#1 ++ sa : BitVec (1 + 5)), vb, vc, k.m, (boolBit k.sns), fx, tok, (0#3 ++ (Scope.bits sc) ++ (boolBit sp) ++ (boolBit nr) ++ disp : BitVec (3 + 3 + 1 + 1 + 12))⟩))
  | .vaswap vd sa vb vc sc sp nr disp fx tok k => some (.bolt (BoltFields.word false ⟨0x68, vd, (0#1 ++ sa : BitVec (1 + 5)), vb, vc, k.m, (boolBit k.sns), fx, tok, (0#3 ++ (Scope.bits sc) ++ (boolBit sp) ++ (boolBit nr) ++ disp : BitVec (3 + 3 + 1 + 1 + 12))⟩))
  | .vacas vd sa vb vc sc sp nr disp fx tok k => some (.bolt (BoltFields.word false ⟨0x69, vd, (0#1 ++ sa : BitVec (1 + 5)), vb, vc, k.m, (boolBit k.sns), fx, tok, (0#3 ++ (Scope.bits sc) ++ (boolBit sp) ++ (boolBit nr) ++ disp : BitVec (3 + 3 + 1 + 1 + 12))⟩))
  | .tld td sa sb disp fx tok => some (.bolt (BoltFields.word false ⟨0x6A, (0#5 ++ td : BitVec (5 + 1)), (0#1 ++ sa : BitVec (1 + 5)), (0#1 ++ sb : BitVec (1 + 5)), 0, 0, 0, fx, tok, (0#3 ++ disp : BitVec (3 + 17))⟩))
  | .tldf td sa sb cc disp fx => some (.bolt (BoltFields.word false ⟨0x6B, (0#5 ++ td : BitVec (5 + 1)), (0#1 ++ sa : BitVec (1 + 5)), (0#1 ++ sb : BitVec (1 + 5)), (0#3 ++ cc : BitVec (3 + 3)), 0, 0, fx, 0, (0#3 ++ disp : BitVec (3 + 17))⟩))
  | .tscl td sa disp tok => some (.bolt (BoltFields.word false ⟨0x6C, (0#5 ++ td : BitVec (5 + 1)), (0#1 ++ sa : BitVec (1 + 5)), 0, 0, 0, 0, 0, tok, (0#3 ++ disp : BitVec (3 + 17))⟩))
  | .mrow va tb sc useScale n k => some (.bolt (BoltFields.word false ⟨0x6D, 0, va, (0#5 ++ tb : BitVec (5 + 1)), (0#1 ++ sc : BitVec (1 + 5)), k.m, (boolBit k.sns), 0, 0, (0#9 ++ (boolBit useScale) ++ n : BitVec (9 + 1 + 10))⟩))
  | .mrowz va tb sc useScale n k => some (.bolt (BoltFields.word false ⟨0x6E, 0, va, (0#5 ++ tb : BitVec (5 + 1)), (0#1 ++ sc : BitVec (1 + 5)), k.m, (boolBit k.sns), 0, 0, (0#9 ++ (boolBit useScale) ++ n : BitVec (9 + 1 + 10))⟩))
  | .msweep sa tb sc useScale n fx tok => some (.bolt (BoltFields.word false ⟨0x6F, 0, (0#1 ++ sa : BitVec (1 + 5)), (0#5 ++ tb : BitVec (5 + 1)), (0#1 ++ sc : BitVec (1 + 5)), 0, 0, fx, tok, (0#9 ++ (boolBit useScale) ++ n : BitVec (9 + 1 + 10))⟩))
  | .mdrain vd r n k => some (.bolt (BoltFields.word false ⟨0x70, vd, 0, 0, 0, k.m, (boolBit k.sns), 0, 0, ((Rnd.bits r) ++ 0#7 ++ n : BitVec (3 + 7 + 10))⟩))
  | .mdrains sa sb r rows n fx => some (.bolt (BoltFields.word false ⟨0x71, 0, (0#1 ++ sa : BitVec (1 + 5)), (0#1 ++ sb : BitVec (1 + 5)), 0, 0, 0, fx, 0, ((Rnd.bits r) ++ rows ++ n : BitVec (3 + 7 + 10))⟩))
  | .mzero rows n => some (.bolt (BoltFields.word false ⟨0x72, 0, 0, 0, 0, 0, 0, 0, 0, (0#3 ++ rows ++ n : BitVec (3 + 7 + 10))⟩))
  | .mldacc va n k => some (.bolt (BoltFields.word false ⟨0x73, 0, va, 0, 0, k.m, (boolBit k.sns), 0, 0, (0#10 ++ n : BitVec (10 + 10))⟩))
  | .qcmp qd va vb lin c k => some (.bolt (BoltFields.word false ⟨0x74, (0#3 ++ qd : BitVec (3 + 3)), va, vb, 0, k.m, (boolBit k.sns), 0, 0, (0#4 ++ lin ++ 0#5 ++ (Cond.bits c) : BitVec (4 + 8 + 5 + 3))⟩))
  | .qand qd qa qb form k => some (.bolt (BoltFields.word false ⟨0x75, (0#3 ++ qd : BitVec (3 + 3)), (0#3 ++ qa : BitVec (3 + 3)), (0#3 ++ qb : BitVec (3 + 3)), 0, k.m, (boolBit k.sns), 0, 0, (0#19 ++ (boolBit form) : BitVec (19 + 1))⟩))
  | .qor qd qa qb form k => some (.bolt (BoltFields.word false ⟨0x76, (0#3 ++ qd : BitVec (3 + 3)), (0#3 ++ qa : BitVec (3 + 3)), (0#3 ++ qb : BitVec (3 + 3)), 0, k.m, (boolBit k.sns), 0, 0, (0#19 ++ (boolBit form) : BitVec (19 + 1))⟩))
  | .qnot qd qa k => some (.bolt (BoltFields.word false ⟨0x77, (0#3 ++ qd : BitVec (3 + 3)), (0#3 ++ qa : BitVec (3 + 3)), 0, 0, k.m, (boolBit k.sns), 0, 0, 0⟩))
  | .qblend vd va vb qc r k => some (.bolt (BoltFields.word false ⟨0x78, vd, va, vb, (0#3 ++ qc : BitVec (3 + 3)), k.m, (boolBit k.sns), 0, 0, ((Rnd.bits r) ++ 0#17 : BitVec (3 + 17))⟩))
  | .qcoll md qa none k => some (.bolt (BoltFields.word false ⟨0x79, (0#3 ++ md : BitVec (3 + 3)), (0#3 ++ qa : BitVec (3 + 3)), 0, 0, k.m, (boolBit k.sns), 0, 0, 0⟩))
  | .qcoll md qa (some vb) k => some (.bolt (BoltFields.word false ⟨0x79, (0#3 ++ md : BitVec (3 + 3)), (0#3 ++ qa : BitVec (3 + 3)), vb, 0, k.m, (boolBit k.sns), 0, 0, 1⟩))
  | .qgrad vd (.soft qa) r k => some (.bolt (BoltFields.word false ⟨0x7A, vd, (0#3 ++ qa : BitVec (3 + 3)), 0, 0, k.m, (boolBit k.sns), 0, 0, ((Rnd.bits r) ++ 0#17 : BitVec (3 + 17))⟩))
  | .qgrad vd (.blend va vb) r k => some (.bolt (BoltFields.word false ⟨0x7A, vd, va, vb, 0, k.m, (boolBit k.sns), 0, 0, ((Rnd.bits r) ++ 1#17 : BitVec (3 + 17))⟩))
  | .qmov (.qq qd qa) r k => some (.bolt (BoltFields.word false ⟨0x7B, (0#3 ++ qd : BitVec (3 + 3)), (0#3 ++ qa : BitVec (3 + 3)), 0, 0, k.m, (boolBit k.sns), 0, 0, ((Rnd.bits r) ++ 0#17 : BitVec (3 + 17))⟩))
  | .qmov (.toQ qd va lin) r k => some (.bolt (BoltFields.word false ⟨0x7B, (0#3 ++ qd : BitVec (3 + 3)), va, 0, 0, k.m, (boolBit k.sns), 0, 0, ((Rnd.bits r) ++ 0#7 ++ 1#2 ++ lin : BitVec (3 + 7 + 2 + 8))⟩))
  | .qmov (.fromQ vd qa) r k => some (.bolt (BoltFields.word false ⟨0x7B, vd, (0#3 ++ qa : BitVec (3 + 3)), 0, 0, k.m, (boolBit k.sns), 0, 0, ((Rnd.bits r) ++ 0#7 ++ 2#2 ++ 0#8 : BitVec (3 + 7 + 2 + 8))⟩))
  | .qset qd code k => some (.bolt (BoltFields.word false ⟨0x7C, (0#3 ++ qd : BitVec (3 + 3)), 0, 0, 0, k.m, (boolBit k.sns), 0, 0, (0#4 ++ code : BitVec (4 + 16))⟩))
  | .qhard md qa thr k => some (.bolt (BoltFields.word false ⟨0x7D, (0#3 ++ md : BitVec (3 + 3)), (0#3 ++ qa : BitVec (3 + 3)), 0, 0, k.m, (boolBit k.sns), 0, 0, (0#4 ++ thr : BitVec (4 + 16))⟩))
  | .qseed (.vec va) k => some (.bolt (BoltFields.word false ⟨0x7E, 0, va, 0, 0, k.m, (boolBit k.sns), 0, 0, 0⟩))
  | .qseed (.frame sa) k => some (.bolt (BoltFields.word false ⟨0x7E, 0, (0#1 ++ sa : BitVec (1 + 5)), 0, 0, k.m, (boolBit k.sns), 0, 0, 1⟩))
  | .qlin qd lin => some (.bolt (BoltFields.word false ⟨0x7F, (0#3 ++ qd : BitVec (3 + 3)), 0, 0, 0, 0, 0, 0, 0, (0#12 ++ lin : BitVec (12 + 8))⟩))
  | .hostBar0Write _ _ _ _ => none
  | .hostBar2Read _ _ => none
  | .hostBar2Write _ _ _ => none
  | .hostAtomicop _ _ _ _ _ => none
  | .hostManagedDeviceMemoryAccess _ _ _ _ _ => none
  | .configurationRequest _ _ => none
  | .peerWrite _ _ _ _ _ => none
  | .peerRead _ _ _ => none
  | .linkDown _ _ => none
  | .softError _ _ _ _ => none
  | .scanReadout _ _ => none
  | .throttle _ => none
  | .swapFailed _ _ _ => none
  | .backinvTimeout _ _ => none
  | .hbmRefresh _ => none
  | .scrubWord _ _ _ => none
  | .vretqRead _ => none
  | .boltQueueRoom _ => none
  | .boltsCompletedWaitEnd _ => none
  | .waitcWake _ => none
  | .waitTimeout _ => none
  | .waitmWake _ => none
  | .waitmTimeout _ => none
  | .waitbWake _ => none
  | .waitbTimeout _ => none
  | .lwaitWake _ => none
  | .swapTimeout _ => none
  | .launchQueueRoom _ => none
  | .engineIssueRoom _ => none
  | .engineTransferComplete _ _ => none
  | .tldfFillComplete _ _ => none
  | .recallDelivery _ => none
  | .surrenderBudget _ => none
  | .claimRetry _ => none
  | .claimRecallRepost _ => none
  | .packetRelease _ _ => none
  | .leadPlacement _ => none
  | .followerPlacement _ => none
  | .effectivePriorityAging _ => none
  | .preemption _ => none
  | .convoyCut _ => none
  | .contextRestore _ => none
  | .pendingEventTaken _ => none
  | .fwNotify _ _ => none
  | .layerArrival _ _ => none
  | .evictionComplete _ _ => none
  | .swapVictimTimeout _ _ => none
  | .pageBlocked _ => none
  | .hostTimeout _ _ _ => none
  | .l2Eviction _ _ => none
  | .l2StaleSweep _ => none
  | .foremanQueueService _ => none
  | .ident => none
  | .openq => none
  | .closeq => none
  | .closeqComplete _ => none
  | .qresetDropHead => none
  | .qresetDropAll => none
  | .qresetRetryHead => none
  | .setevt => none
  | .setvec => none
  | .peerwin => none
  | .resync => none
  | .attest => none
  | .warm => none
  | .cold => none
  | .endhart => none
  | .imgload => none
  | .ctxload => none
  | .ctxunload => none
  | .lreq => none
  | .levict => none
  | .lpin => none
  | .lunpin => none
  | .ctxset => none
  | .migrate => none
  | .migrateComplete _ => none
  | .unmap => none
  | .unmapComplete _ => none
  | .swapcancel => none
  | .fwcallPartNumber => none
  | .fwcallPostEvent => none
  | .fwcallTime => none
  | .fwcallLayerRequest => none
  | .fwcallResidentPages => none
  | .powerGood => none
  | .perstAssert => none
  | .powerLoss => none
  | .start _ => none
  | .freeze => none
  | .periodicReport => none
  | .retentionEntry _ => none
  | .groveWake _ => none
  | .throttleRecover => none
  | .thermalTrip => none
  | .reservedOpcode _ => none
  | .reservedField _ => none
  | .instructionFetchFault _ _ => none
  | .perstDeassert => none
  | .freezeDeassert => none
  | .mailboxUnknownOpcode => none

/-- The bolt word of an instruction with a CB bit. -/
def withCB (cb : Bool) (w : BitVec 64) : BitVec 64 :=
  if cb then w ||| 0x8000000000000000#64 else w

end Sys2Proof
end

