-- ==== Sys2Proof/Machine/Fetch.lean ====
section
/-!
DEFINITION. Fetching stem words and convoys, the fates of what is no legal instruction, and the checks of a convoy (R14, R16,
R161-R165, R306, R307, R386).
-/
namespace Sys2Proof.Machine

open Sys2Proof

/-! ### Stem fetch -/

/-- Why a stem word cannot be fetched for hart `h`: a memory cause of class 0 and its address (R307). -/
def State.stemFault (s : State) (h a : Nat) : Option (Nat × Nat) :=
  let asid := (s.hart h).asid
  match s.checkAccess asid a 32 .rd true with
  | some (kind, b) => some (memCause kind 0, b)
  | none => s.hostFail h asid a 32 0
/-- Hart `h` fetches the stem word at `a` ahead (R386), where a fetch would be performed now; else nothing happens. -/
def State.prefetch (s : State) (h a : Nat) : State :=
  let asid := (s.hart h).asid
  if !(s.hart h).placed || a % 32 != 0 || (s.stemFault h a).isSome || (s.blocked asid a 32).isSome ||
      (s.memUpset (groveOf h) .grove (s.phys asid a 32)).isSome then s
  else
    let (v, s1) := s.vread asid (groveOf h) .grove a 32
    s1.setHart h { s1.hart h with fetched := Tab.put (s1.hart h).fetched a (BitVec.ofNat 32 v) }

/-- The stem word at the PC: ADDR_WRAP where the PC has advanced past the last slot, MISALIGNED_PC, and the memory causes of
class 0; a fetch of a migrating page waits. A word that has been fetched ahead is the one that was then there. -/
def fetchStem : Act (BitVec 32) := do
  let s ← get
  let x := s.me
  let pc := x.pc.toNat
  match x.wrapFrom with
  | some w => raise (memCause 1 0) w.toNat
  | none =>
    raiseIf (decide (pc % 32 ≠ 0)) 40 pc
    match x.fetched.find? (fun p => decide (p.1 = pc)) with
    | some p => do
      modMe (fun x => { x with fetched := Tab.del x.fetched pc })
      pure p.2
    | none =>
      match s.stemFault s.cur pc with
      | some (c, a) => raise c a
      | none =>
        match s.blocked x.asid pc 32 with
        | some va => stall (.page va 0) (some (2 ^ 24))
        | none => do
          let g := groveOf s.cur
          consumeUpsets (s.memUpsets g .grove (s.phys x.asid pc 32)) (s.stemTrap 0 0)
          let s ← get
          let (v, s') := s.vread x.asid g .grove pc 32
          set s'
          pure (BitVec.ofNat 32 v)

/-- RESERVED_OPCODE of a stem word, with its case (R165, R306). -/
def execReservedOpcode (case : Nat) (s : State) : Host.Outcome State Fault Refusal :=
  .next (s.takeTrap (s.stemTrap (case % 8) 0))
/-- RESERVED_FIELD of a stem word, with its case (R165, R306). -/
def execReservedField (case : Nat) (s : State) : Host.Outcome State Fault Refusal :=
  .next (s.takeTrap (s.stemTrap (8 + case % 8) 0))
/-- INSTRUCTION_FETCH_FAULT (R307, R386): a cause of class 0 is a stem cause, and one of class 1 the running bolt's. -/
def execInstructionFetchFault (cause va : Nat) (s : State) : Host.Outcome State Fault Refusal :=
  if cause % 8 = 1 then
    .next (match s.me.bolts with
      | [] => s
      | _ => s.takeTrap (s.vecTrap cause va))
  else .next (s.takeTrap (s.stemTrap cause va))

/-! ### Convoys (R161-R164) -/

/-- A word that ends a convoy. -/
def endsConvoy (op : Nat) : Bool := decide (op ≤ 6)
/-- A word whose successor needs CB (R162). -/
def needsCB (op : Nat) : Bool := (decide (1 ≤ op) && decide (op ≤ 4)) || decide (op = 6)

/-- Pipe slots of the classes A, S, L, W, P and X. -/
structure Pipes where
  a : Nat := 0
  s : Nat := 0
  l : Nat := 0
  w : Nat := 0
  p : Nat := 0
  x : Nat := 0
  deriving DecidableEq, Repr

/-- An opcode lies in a range. -/
def opIn (op lo hi : Nat) : Bool := decide (lo ≤ op) && decide (op ≤ hi)
/-- The pipes an opcode takes (R161). -/
def pipesOf (op : Nat) : Pipes :=
  if opIn op 0x62 0x69 then { l := 1, w := 1 }
  else if opIn op 0x52 0x61 then (if op % 2 = 0 then { l := 1 } else { w := 1 })
  else if opIn op 0x6A 0x73 then { x := 1 }
  else if op = 0x12 ∨ op = 0x13 ∨ opIn op 0x27 0x2D ∨ op = 0x74 ∨ op = 0x7A then { s := 1 }
  else if op = 9 ∨ opIn op 0x41 0x51 then { p := 1 }
  else if op ≤ 6 ∨ op = 0x0A then {}
  else { a := 1 }
/-- Pipes taken together. -/
def Pipes.add (u v : Pipes) : Pipes := ⟨u.a + v.a, u.s + v.s, u.l + v.l, u.w + v.w, u.p + v.p, u.x + v.x⟩
/-- Within the limits of R163. -/
def Pipes.ok (u : Pipes) : Bool :=
  decide (u.a ≤ 2) && decide (u.s ≤ 1) && decide (u.l ≤ 2) && decide (u.w ≤ 1) && decide (u.p ≤ 1) && decide (u.x ≤ 1)

/-- What the single-writer rule counts: kind (0 vector register, 1 mask, 2 soft predicate, 3 tile, 4 accumulator row) and the
first and last index. -/
abbrev Written := Nat × Nat × Nat
/-- A mask other than m0. -/
def maskWritten (m : MReg) : List Written := if m = 0 then [] else [(1, m.toNat, m.toNat)]
/-- What an instruction of bolt `b` writes, vector registers apart. -/
def writtenBeside (i : Instr) (b : Bolt) : List Written :=
  let dim (n : Nat) : Nat := (Tab.get Dim.initial b.dims n).len
  match i with
  | .vcmp md _ _ _ _ | .vcmpn md _ _ _ _ | .mand md _ _ _ | .mor md _ _ _ | .mxor md _ _ _ | .mnot md _ _ | .mset md _ _
  | .qcoll md _ _ _ | .qhard md _ _ _ => maskWritten md
  | .qcmp qd _ _ _ _ _ | .qand qd _ _ _ _ | .qor qd _ _ _ _ | .qnot qd _ _ | .qset qd _ _ | .qlin qd _ =>
    [(2, qd.toNat, qd.toNat)]
  | .qmov (.qq qd _) _ _ | .qmov (.toQ qd _ _) _ _ => [(2, qd.toNat, qd.toNat)]
  | .tld td _ _ _ _ _ | .tldf td _ _ _ _ _ | .tscl td _ _ _ => [(3, td.toNat, td.toNat)]
  | .mrow _ _ _ _ n _ | .mrowz _ _ _ _ n _ | .mldacc _ n _ => [(4, n.toNat, n.toNat)]
  | .msweep _ _ _ _ n _ _ =>
    let rows := dim 0 * dim 1 * dim 2
    if rows = 0 then [] else [(4, n.toNat, n.toNat + rows - 1)]
  | .mzero rows n => [(4, n.toNat, n.toNat + rows.toNat)]
  | _ => []
/-- What an instruction writes (R163). -/
def writtenBy (i : Instr) (x : Hart) (b : Bolt) : List Written :=
  (needOf i x).writes.map (fun v => (0, v.toNat, v.toNat)) ++ writtenBeside i b
/-- Two writers of one thing. -/
def sameWritten (u v : Written) : Bool := decide (u.1 = v.1) && decide (u.2.1 ≤ v.2.2) && decide (v.2.1 ≤ u.2.2)

/-- A word of a convoy: its address, the word, and whether the word after it is known to lack CB. -/
structure ConvoyWord where
  pc : Nat
  word : BitVec 64
  afterBad : Bool

/-- A fetch of the bolt word at `a` is held at a migrating page (R129), where the bolt has not fetched it ahead. -/
def State.wordHeld (s : State) (h : Nat) (ahead : Tab (BitVec 64)) (a : Nat) : Bool :=
  !(ahead.any (fun p => decide (p.1 = a))) && (s.blocked (s.hart h).asid a 64).isSome
/-- The bolt word at `a`, if it can be fetched now. -/
def State.wordNow (s : State) (h : Nat) (ahead : Tab (BitVec 64)) (a : Nat) : Option (BitVec 64) :=
  if s.wordHeld h ahead a then none
  else match s.boltWord h ahead a with
    | .ok w => some w
    | .error _ => none

/-- The words of the convoy from address `a` (R162): up to a word that ends it, or to the next CB; at most nine are looked at. They
end too before a word that cannot be fetched, whose fault is taken when a fragment reaches it (R12): the words before it are
checked and run by themselves, what follows is a convoy in which no CB is required, and where it follows a word of
`needsCB` it is not found to lack CB (log 88). -/
def State.gather (s : State) (h : Nat) (ahead : Tab (BitVec 64)) : Nat → Nat → List ConvoyWord
  | _, 0 => []
  | a, n + 1 =>
    match s.wordNow h ahead a with
    | none => []
    | some w =>
      let bad := match s.wordNow h ahead (a + 64) with
        | some v => !(hasCB v)
        | none => false
      if endsConvoy (majorOf w) then [⟨a, w, bad⟩]
      else if bad then ⟨a, w, bad⟩ :: State.gather s h ahead (a + 64) n
      else [⟨a, w, bad⟩]

/-- The ILLEGAL_CONVOY case of word `n` of a convoy (R162, R163, R306), the words before it with their pipes and writes. -/
def convoyCase (first : Bool) (n : Nat) (c : ConvoyWord) (pipes : Pipes) (before : List Written) (mine : List Written) : Option Nat :=
  let op := majorOf c.word
  if first && !(hasCB c.word) then some 32
  else if needsCB op && c.afterBad then some 34
  else if 8 ≤ n then some 35
  else if !((pipes.add (pipesOf op)).ok) then some 36
  else if mine.any (fun u => before.any (sameWritten u)) then some 37
  else if op = 6 ∧ !(hasCB c.word) then some 39
  else none

/-- The first fault of a convoy (R164): its word's address and cause. -/
def checkWords (x : Hart) (b : Bolt) (first : Bool) : Nat → Pipes → List Written → List ConvoyWord → Option (Nat × Nat)
  | _, _, _, [] => none
  | n, pipes, before, c :: t =>
    match decodeBolt c.word with
    | .error e => some (c.pc, e.code)
    | .ok i =>
      let mine := writtenBy i x b
      match operandCause i x with
      | some k => some (c.pc, k)
      | none =>
        match convoyCase (first && decide (n = 0)) n c pipes before mine with
        | some k => some (c.pc, k)
        | none => checkWords x b first (n + 1) (pipes.add (pipesOf (majorOf c.word))) (before ++ mine) t

/-- The word after a convoy's last that has to be known for its check, where a migrating page holds it. -/
def State.heldAfter (s : State) (h : Nat) (ahead : Tab (BitVec 64)) (ws : List ConvoyWord) : Option Nat :=
  match ws.getLast? with
  | none => none
  | some c =>
    let op := majorOf c.word
    if (needsCB op || !(endsConvoy op)) && s.wordHeld h ahead (c.pc + 64) then some (c.pc + 64) else none
/-- The words of a convoy are fetched as it begins, where no structure holds an error: they stand among the words its bolt has fetched
ahead until they execute (R12, R386). -/
def fetchConvoy (ws : List ConvoyWord) : Act Unit := fun s =>
  match s.me.bolts with
  | [] => .ok ((), s)
  | b :: _ =>
    if s.rel.upsets ≠ [] then .ok ((), s)
    else
      let fresh := ws.filter (fun c => !(b.ahead.any (fun p => decide (p.1 = c.pc))))
      let s1 := fresh.foldl (fun s c => (s.vread s.me.asid (groveOf s.cur) .grove c.pc 64).2) s
      .ok ((), s1.modMe (fun x => x.modBolt (fun b => { b with ahead := fresh.foldl (fun t c => Tab.put t c.pc c.word) b.ahead })))
/-- The word at `pc`, if it is yet to be fetched as it executes, with the corrected errors it meets (R312, R386). -/
def meetWord (b : Bolt) (pc : Nat) : Act Unit := do
  let s ← get
  if s.rel.upsets = [] || b.ahead.any (fun p => decide (p.1 = pc)) then pure ()
  else do
    let g := groveOf s.cur
    consumeUpsets (s.memUpsets g .grove (s.phys s.me.asid pc 64)) (s.vecTrap 0 0)
    let s ← get
    set (s.vread s.me.asid g .grove pc 64).2

/-- The running bolt of the running hart begins its next convoy: the words are fetched through the grove L2 and checked, and
none executes yet (R164, R386). A word that a migrating page holds is waited for, for 2^24 cycles. -/
def beginConvoy : Act Unit := do
  modMe (fun x => x.modBolt Bolt.choose)
  let s ← get
  let x := s.me
  match x.bolts with
  | [] => pure ()
  | b :: _ => do
    let _ ← fetchWord b b.pc
    let ws := s.gather s.cur b.ahead b.pc 9
    match s.heldAfter s.cur b.ahead ws with
    | some a => if x.vwait.any (fun w => w.expired s.cycle) then pure () else stall (.page a 1) (some (2 ^ 24))
    | none => pure ()
    fetchConvoy ws
    match checkWords x b (!b.begun) 0 {} [] ws with
    | some (pc, k) => fun s => .error (.trap { s.vecTrap k 0 with pc := nword pc })
    | none =>
      modMe (fun x => { x.modBolt (fun b =>
        { b with convoy := ws.map (fun c => (c.pc, c.word)), begun := true, cut := false,
                 vstep := x.vstepBit && decide (x.depth = 0) }) with vwait := none })

end Sys2Proof.Machine
end

