-- ==== Sys2Proof/Machine/Dispatch.lean ====
section
/-!
DEFINITION. The dispatch: one arm for each row of spec/opcode_table.json.
-/
namespace Sys2Proof.Machine

open Sys2Proof

/-- The meaning of an instruction or a whole step of the device. -/
def exec (i : Instr) (s : State) : Host.Outcome State Fault Refusal :=
  match i with
  | .add d a b => Sys2Proof.Machine.execAdd d a b s
  | .sub d a b => Sys2Proof.Machine.execSub d a b s
  | .mul d a b => Sys2Proof.Machine.execMul d a b s
  | .mulh d a b => Sys2Proof.Machine.execMulh d a b s
  | .mulhn d a b => Sys2Proof.Machine.execMulhn d a b s
  | .div d a b => Sys2Proof.Machine.execDiv d a b s
  | .divn d a b => Sys2Proof.Machine.execDivn d a b s
  | .rem d a b => Sys2Proof.Machine.execRem d a b s
  | .remn d a b => Sys2Proof.Machine.execRemn d a b s
  | .and d a b => Sys2Proof.Machine.execAnd d a b s
  | .or d a b => Sys2Proof.Machine.execOr d a b s
  | .xor d a b => Sys2Proof.Machine.execXor d a b s
  | .shl d a b => Sys2Proof.Machine.execShl d a b s
  | .shr d a b => Sys2Proof.Machine.execShr d a b s
  | .sra d a b => Sys2Proof.Machine.execSra d a b s
  | .slt d a b => Sys2Proof.Machine.execSlt d a b s
  | .sltn d a b => Sys2Proof.Machine.execSltn d a b s
  | .min d a b => Sys2Proof.Machine.execMin d a b s
  | .max d a b => Sys2Proof.Machine.execMax d a b s
  | .minn d a b => Sys2Proof.Machine.execMinn d a b s
  | .maxn d a b => Sys2Proof.Machine.execMaxn d a b s
  | .clz d a => Sys2Proof.Machine.execClz d a s
  | .popc d a => Sys2Proof.Machine.execPopc d a s
  | .bext d a b => Sys2Proof.Machine.execBext d a b s
  | .bins d a b => Sys2Proof.Machine.execBins d a b s
  | .bix d a b w => Sys2Proof.Machine.execBix d a b w s
  | .addi d a imm => Sys2Proof.Machine.execAddi d a imm s
  | .andi d a imm => Sys2Proof.Machine.execAndi d a imm s
  | .ori d a imm => Sys2Proof.Machine.execOri d a imm s
  | .xori d a imm => Sys2Proof.Machine.execXori d a imm s
  | .shli d a sh => Sys2Proof.Machine.execShli d a sh s
  | .shri d a sh => Sys2Proof.Machine.execShri d a sh s
  | .srai d a sh => Sys2Proof.Machine.execSrai d a sh s
  | .li d imm => Sys2Proof.Machine.execLi d imm s
  | .lih d imm => Sys2Proof.Machine.execLih d imm s
  | .beq a b off => Sys2Proof.Machine.execBeq a b off s
  | .bne a b off => Sys2Proof.Machine.execBne a b off s
  | .blt a b off => Sys2Proof.Machine.execBlt a b off s
  | .bge a b off => Sys2Proof.Machine.execBge a b off s
  | .bltn a b off => Sys2Proof.Machine.execBltn a b off s
  | .bgen a b off => Sys2Proof.Machine.execBgen a b off s
  | .jmp off => Sys2Proof.Machine.execJmp off s
  | .jal off => Sys2Proof.Machine.execJal off s
  | .jr a => Sys2Proof.Machine.execJr a s
  | .lds d b ad w sc => Sys2Proof.Machine.execLds d b ad w sc s
  | .ldz d b ad w sc => Sys2Proof.Machine.execLdz d b ad w sc s
  | .st d b ad w sc => Sys2Proof.Machine.execSt d b ad w sc s
  | .lda d b ad w sc => Sys2Proof.Machine.execLda d b ad w sc s
  | .stl d b ad w sc => Sys2Proof.Machine.execStl d b ad w sc s
  | .aadd d b c w sc => Sys2Proof.Machine.execAadd d b c w sc s
  | .aand d b c w sc => Sys2Proof.Machine.execAand d b c w sc s
  | .aor d b c w sc => Sys2Proof.Machine.execAor d b c w sc s
  | .axor d b c w sc => Sys2Proof.Machine.execAxor d b c w sc s
  | .amin d b c w sc => Sys2Proof.Machine.execAmin d b c w sc s
  | .amax d b c w sc => Sys2Proof.Machine.execAmax d b c w sc s
  | .aminn d b c w sc => Sys2Proof.Machine.execAminn d b c w sc s
  | .amaxn d b c w sc => Sys2Proof.Machine.execAmaxn d b c w sc s
  | .aswap d b c w sc => Sys2Proof.Machine.execAswap d b c w sc s
  | .cas d b c w sc => Sys2Proof.Machine.execCas d b c w sc s
  | .casq d b c sc => Sys2Proof.Machine.execCasq d b c sc s
  | .fence k sc => Sys2Proof.Machine.execFence k sc s
  | .waitm d b c w tmo => Sys2Proof.Machine.execWaitm d b c w tmo s
  | .waitc n cn tmo => Sys2Proof.Machine.execWaitc n cn tmo s
  | .arrive a b sc => Sys2Proof.Machine.execArrive a b sc s
  | .waitb d b a sc tmo => Sys2Proof.Machine.execWaitb d b a sc tmo s
  | .lwait d a tmo => Sys2Proof.Machine.execLwait d a tmo s
  | .pause => Sys2Proof.Machine.execPause s
  | .bolt off => Sys2Proof.Machine.execBolt off s
  | .vcfg d b => Sys2Proof.Machine.execVcfg d b s
  | .setvl d a => Sys2Proof.Machine.execSetvl d a s
  | .farm a b => Sys2Proof.Machine.execFarm a b s
  | .strip d => Sys2Proof.Machine.execStrip d s
  | .launch b => Sys2Proof.Machine.execLaunch b s
  | .hexit => Sys2Proof.Machine.execHexit s
  | .claim d a k n status => Sys2Proof.Machine.execClaim d a k n status s
  | .release a k => Sys2Proof.Machine.execRelease a k s
  | .sdone => Sys2Proof.Machine.execSdone s
  | .ssumm => Sys2Proof.Machine.execSsumm s
  | .srefuse => Sys2Proof.Machine.execSrefuse s
  | .probe k a b kd => Sys2Proof.Machine.execProbe k a b kd s
  | .unprobe k => Sys2Proof.Machine.execUnprobe k s
  | .bind b v => Sys2Proof.Machine.execBind b v s
  | .unbind v => Sys2Proof.Machine.execUnbind v s
  | .copyRegLen a b l cn => Sys2Proof.Machine.execCopyRegLen a b l cn s
  | .copyImmLen a b len cn => Sys2Proof.Machine.execCopyImmLen a b len cn s
  | .copymRegLen a b l cn => Sys2Proof.Machine.execCopymRegLen a b l cn s
  | .copymImmLen a b len cn => Sys2Proof.Machine.execCopymImmLen a b len cn s
  | .mcastRegLen a b l cn => Sys2Proof.Machine.execMcastRegLen a b l cn s
  | .mcastImmLen a b len cn => Sys2Proof.Machine.execMcastImmLen a b len cn s
  | .redstRegLen a b l cn => Sys2Proof.Machine.execRedstRegLen a b l cn s
  | .redstImmLen a b len cn => Sys2Proof.Machine.execRedstImmLen a b len cn s
  | .sldRegLen a b l cn => Sys2Proof.Machine.execSldRegLen a b l cn s
  | .sldImmLen a b len cn => Sys2Proof.Machine.execSldImmLen a b len cn s
  | .dims a b n => Sys2Proof.Machine.execDims a b n s
  | .csrr d csr => Sys2Proof.Machine.execCsrr d csr s
  | .csrw a csr => Sys2Proof.Machine.execCsrw a csr s
  | .csrx d a csr => Sys2Proof.Machine.execCsrx d a csr s
  | .trap n => Sys2Proof.Machine.execTrap n s
  | .rett => Sys2Proof.Machine.execRett s
  | .fwcall n => Sys2Proof.Machine.execFwcall n s
  | .bkpt n => Sys2Proof.Machine.execBkpt n s
  | .stop => Sys2Proof.Machine.execStop s
  | .vbany off k => Sys2Proof.Machine.execVbany off k s
  | .vball off k => Sys2Proof.Machine.execVball off k s
  | .vbnone off k => Sys2Proof.Machine.execVbnone off k s
  | .vbdiv off k => Sys2Proof.Machine.execVbdiv off k s
  | .vjmp off => Sys2Proof.Machine.execVjmp off s
  | .vfence sc => Sys2Proof.Machine.execVfence sc s
  | .vidx vd k => Sys2Proof.Machine.execVidx vd k s
  | .vmvs vd sa sb k => Sys2Proof.Machine.execVmvs vd sa sb k s
  | .vext va sel k => Sys2Proof.Machine.execVext va sel k s
  | .vtrap n k => Sys2Proof.Machine.execVtrap n k s
  | .vrng vd k => Sys2Proof.Machine.execVrng vd k s
  | .vadd vd va vb r k => Sys2Proof.Machine.execVadd vd va vb r k s
  | .vsub vd va vb r k => Sys2Proof.Machine.execVsub vd va vb r k s
  | .vmul vd va vb r k => Sys2Proof.Machine.execVmul vd va vb r k s
  | .vmulh vd va vb r k => Sys2Proof.Machine.execVmulh vd va vb r k s
  | .vmulw vd va vb r fx k => Sys2Proof.Machine.execVmulw vd va vb r fx k s
  | .vmacc vd va vb k => Sys2Proof.Machine.execVmacc vd va vb k s
  | .vdiv vd va vb r k => Sys2Proof.Machine.execVdiv vd va vb r k s
  | .vrem vd va vb r k => Sys2Proof.Machine.execVrem vd va vb r k s
  | .vmin vd va vb r k => Sys2Proof.Machine.execVmin vd va vb r k s
  | .vmax vd va vb r k => Sys2Proof.Machine.execVmax vd va vb r k s
  | .vabs vd va r k => Sys2Proof.Machine.execVabs vd va r k s
  | .vneg vd va r k => Sys2Proof.Machine.execVneg vd va r k s
  | .vadds vd va vb r k => Sys2Proof.Machine.execVadds vd va vb r k s
  | .vsubs vd va vb r k => Sys2Proof.Machine.execVsubs vd va vb r k s
  | .vavg vd va vb r k => Sys2Proof.Machine.execVavg vd va vb r k s
  | .vand vd va vb r k => Sys2Proof.Machine.execVand vd va vb r k s
  | .vor vd va vb r k => Sys2Proof.Machine.execVor vd va vb r k s
  | .vxor vd va vb r k => Sys2Proof.Machine.execVxor vd va vb r k s
  | .vshl vd va vb r k => Sys2Proof.Machine.execVshl vd va vb r k s
  | .vshr vd va vb r k => Sys2Proof.Machine.execVshr vd va vb r k s
  | .vsra vd va vb r k => Sys2Proof.Machine.execVsra vd va vb r k s
  | .vpopc vd va k => Sys2Proof.Machine.execVpopc vd va k s
  | .vclz vd va k => Sys2Proof.Machine.execVclz vd va k s
  | .vbext vd va vb r k => Sys2Proof.Machine.execVbext vd va vb r k s
  | .vfma vd va vb vc r k => Sys2Proof.Machine.execVfma vd va vb vc r k s
  | .vfms vd va vb vc r k => Sys2Proof.Machine.execVfms vd va vb vc r k s
  | .vfnma vd va vb vc r k => Sys2Proof.Machine.execVfnma vd va vb vc r k s
  | .vsqrt vd va r k => Sys2Proof.Machine.execVsqrt vd va r k s
  | .vrcp vd va r k => Sys2Proof.Machine.execVrcp vd va r k s
  | .vrsq vd va r k => Sys2Proof.Machine.execVrsq vd va r k s
  | .vexp vd va r k => Sys2Proof.Machine.execVexp vd va r k s
  | .vlog vd va r k => Sys2Proof.Machine.execVlog vd va r k s
  | .vsig vd va r k => Sys2Proof.Machine.execVsig vd va r k s
  | .vtanh vd va r k => Sys2Proof.Machine.execVtanh vd va r k s
  | .vcvt vd va r fx k => Sys2Proof.Machine.execVcvt vd va r fx k s
  | .vwiden vd va k => Sys2Proof.Machine.execVwiden vd va k s
  | .vnarrow vd va r fx k => Sys2Proof.Machine.execVnarrow vd va r fx k s
  | .vqnt vd va r sc zp k => Sys2Proof.Machine.execVqnt vd va r sc zp k s
  | .vdqnt vd va r sc zp k => Sys2Proof.Machine.execVdqnt vd va r sc zp k s
  | .vrnd vd va r k => Sys2Proof.Machine.execVrnd vd va r k s
  | .vclass vd va k => Sys2Proof.Machine.execVclass vd va k s
  | .vscl vd va vb r k => Sys2Proof.Machine.execVscl vd va vb r k s
  | .vsat vd va vb vc r k => Sys2Proof.Machine.execVsat vd va vb vc r k s
  | .vcmp md va vb c k => Sys2Proof.Machine.execVcmp md va vb c k s
  | .vcmpn md va vb c k => Sys2Proof.Machine.execVcmpn md va vb c k s
  | .mand md ma mb k => Sys2Proof.Machine.execMand md ma mb k s
  | .mor md ma mb k => Sys2Proof.Machine.execMor md ma mb k s
  | .mxor md ma mb k => Sys2Proof.Machine.execMxor md ma mb k s
  | .mnot md ma k => Sys2Proof.Machine.execMnot md ma k s
  | .mpop vd ma k => Sys2Proof.Machine.execMpop vd ma k s
  | .mfirst vd ma k => Sys2Proof.Machine.execMfirst vd ma k s
  | .vsel vd va vb mc k => Sys2Proof.Machine.execVsel vd va vb mc k s
  | .mset md mode k => Sys2Proof.Machine.execMset md mode k s
  | .vrsum vd va r k => Sys2Proof.Machine.execVrsum vd va r k s
  | .vrmax vd va r k => Sys2Proof.Machine.execVrmax vd va r k s
  | .vrmin vd va r k => Sys2Proof.Machine.execVrmin vd va r k s
  | .vrand vd va r k => Sys2Proof.Machine.execVrand vd va r k s
  | .vror vd va r k => Sys2Proof.Machine.execVror vd va r k s
  | .vscan vd va r k => Sys2Proof.Machine.execVscan vd va r k s
  | .vscanmx vd va r k => Sys2Proof.Machine.execVscanmx vd va r k s
  | .vrdot vd va vb r k => Sys2Proof.Machine.execVrdot vd va vb r k s
  | .vslup vd va amt k => Sys2Proof.Machine.execVslup vd va amt k s
  | .vsldn vd va amt k => Sys2Proof.Machine.execVsldn vd va amt k s
  | .vgthr vd va vb k => Sys2Proof.Machine.execVgthr vd va vb k s
  | .vcomp vd va k => Sys2Proof.Machine.execVcomp vd va k s
  | .vexpd vd va k => Sys2Proof.Machine.execVexpd vd va k s
  | .vbcast vd sa k => Sys2Proof.Machine.execVbcast vd sa k s
  | .vrev vd va k => Sys2Proof.Machine.execVrev vd va k s
  | .vzip vd va vb n k => Sys2Proof.Machine.execVzip vd va vb n k s
  | .vunzip vd va vb n k => Sys2Proof.Machine.execVunzip vd va vb n k s
  | .vld vd sa r disp fx tok k => Sys2Proof.Machine.execVld vd sa r disp fx tok k s
  | .vst vd sa r disp fx tok k => Sys2Proof.Machine.execVst vd sa r disp fx tok k s
  | .vlds vd sa sb r disp fx tok k => Sys2Proof.Machine.execVlds vd sa sb r disp fx tok k s
  | .vsts vd sa sb r disp fx tok k => Sys2Proof.Machine.execVsts vd sa sb r disp fx tok k s
  | .vldx vd sa vb r disp fx tok k => Sys2Proof.Machine.execVldx vd sa vb r disp fx tok k s
  | .vstx vd sa vb r disp fx tok k => Sys2Proof.Machine.execVstx vd sa vb r disp fx tok k s
  | .vldxo vd sa vb r disp fx tok k => Sys2Proof.Machine.execVldxo vd sa vb r disp fx tok k s
  | .vstxo vd sa vb r disp fx tok k => Sys2Proof.Machine.execVstxo vd sa vb r disp fx tok k s
  | .vldseg vd sa sb r disp nf fx tok k => Sys2Proof.Machine.execVldseg vd sa sb r disp nf fx tok k s
  | .vstseg vd sa sb r disp nf fx tok k => Sys2Proof.Machine.execVstseg vd sa sb r disp nf fx tok k s
  | .vldm vd sa r disp fx tok k => Sys2Proof.Machine.execVldm vd sa r disp fx tok k s
  | .vstm vd sa r disp fx tok k => Sys2Proof.Machine.execVstm vd sa r disp fx tok k s
  | .vldsp vd sa sb r disp fx k => Sys2Proof.Machine.execVldsp vd sa sb r disp fx k s
  | .vstsp vd sa sb r disp fx k => Sys2Proof.Machine.execVstsp vd sa sb r disp fx k s
  | .vldspx vd sa vb r disp fx k => Sys2Proof.Machine.execVldspx vd sa vb r disp fx k s
  | .vstspx vd sa vb r disp fx k => Sys2Proof.Machine.execVstspx vd sa vb r disp fx k s
  | .vaadd vd sa vb vc sc sp nr disp fx tok k => Sys2Proof.Machine.execVaadd vd sa vb vc sc sp nr disp fx tok k s
  | .vamin vd sa vb vc sc sp nr disp fx tok k => Sys2Proof.Machine.execVamin vd sa vb vc sc sp nr disp fx tok k s
  | .vamax vd sa vb vc sc sp nr disp fx tok k => Sys2Proof.Machine.execVamax vd sa vb vc sc sp nr disp fx tok k s
  | .vaand vd sa vb vc sc sp nr disp fx tok k => Sys2Proof.Machine.execVaand vd sa vb vc sc sp nr disp fx tok k s
  | .vaor vd sa vb vc sc sp nr disp fx tok k => Sys2Proof.Machine.execVaor vd sa vb vc sc sp nr disp fx tok k s
  | .vaxor vd sa vb vc sc sp nr disp fx tok k => Sys2Proof.Machine.execVaxor vd sa vb vc sc sp nr disp fx tok k s
  | .vaswap vd sa vb vc sc sp nr disp fx tok k => Sys2Proof.Machine.execVaswap vd sa vb vc sc sp nr disp fx tok k s
  | .vacas vd sa vb vc sc sp nr disp fx tok k => Sys2Proof.Machine.execVacas vd sa vb vc sc sp nr disp fx tok k s
  | .tld td sa sb disp fx tok => Sys2Proof.Machine.execTld td sa sb disp fx tok s
  | .tldf td sa sb cc disp fx => Sys2Proof.Machine.execTldf td sa sb cc disp fx s
  | .tscl td sa disp tok => Sys2Proof.Machine.execTscl td sa disp tok s
  | .mrow va tb sc useScale n k => Sys2Proof.Machine.execMrow va tb sc useScale n k s
  | .mrowz va tb sc useScale n k => Sys2Proof.Machine.execMrowz va tb sc useScale n k s
  | .msweep sa tb sc useScale n fx tok => Sys2Proof.Machine.execMsweep sa tb sc useScale n fx tok s
  | .mdrain vd r n k => Sys2Proof.Machine.execMdrain vd r n k s
  | .mdrains sa sb r rows n fx => Sys2Proof.Machine.execMdrains sa sb r rows n fx s
  | .mzero rows n => Sys2Proof.Machine.execMzero rows n s
  | .mldacc va n k => Sys2Proof.Machine.execMldacc va n k s
  | .qcmp qd va vb lin c k => Sys2Proof.Machine.execQcmp qd va vb lin c k s
  | .qand qd qa qb form k => Sys2Proof.Machine.execQand qd qa qb form k s
  | .qor qd qa qb form k => Sys2Proof.Machine.execQor qd qa qb form k s
  | .qnot qd qa k => Sys2Proof.Machine.execQnot qd qa k s
  | .qblend vd va vb qc r k => Sys2Proof.Machine.execQblend vd va vb qc r k s
  | .qcoll md qa key k => Sys2Proof.Machine.execQcoll md qa key k s
  | .qgrad vd src r k => Sys2Proof.Machine.execQgrad vd src r k s
  | .qmov mv r k => Sys2Proof.Machine.execQmov mv r k s
  | .qset qd code k => Sys2Proof.Machine.execQset qd code k s
  | .qhard md qa thr k => Sys2Proof.Machine.execQhard md qa thr k s
  | .qseed src k => Sys2Proof.Machine.execQseed src k s
  | .qlin qd lin => Sys2Proof.Machine.execQlin qd lin s
  | .hostBar0Write port off size val => Sys2Proof.Machine.execHostBar0Write port off size val s
  | .hostBar2Read byte size => Sys2Proof.Machine.execHostBar2Read byte size s
  | .hostBar2Write byte size val => Sys2Proof.Machine.execHostBar2Write byte size val s
  | .hostAtomicop kind byte size cmp val => Sys2Proof.Machine.execHostAtomicop kind byte size cmp val s
  | .hostManagedDeviceMemoryAccess op byte size cmp val => Sys2Proof.Machine.execHostManagedDeviceMemoryAccess op byte size cmp val s
  | .configurationRequest port enable => Sys2Proof.Machine.execConfigurationRequest port enable s
  | .peerWrite link off size val red => Sys2Proof.Machine.execPeerWrite link off size val red s
  | .peerRead link off size => Sys2Proof.Machine.execPeerRead link off size s
  | .linkDown kind link => Sys2Proof.Machine.execLinkDown kind link s
  | .softError st place word unc => Sys2Proof.Machine.execSoftError st place word unc s
  | .scanReadout what key => Sys2Proof.Machine.execScanReadout what key s
  | .throttle reason => Sys2Proof.Machine.execThrottle reason s
  | .swapFailed mctx layer reason => Sys2Proof.Machine.execSwapFailed mctx layer reason s
  | .backinvTimeout h va => Sys2Proof.Machine.execBackinvTimeout h va s
  | .hbmRefresh bank => Sys2Proof.Machine.execHbmRefresh bank s
  | .scrubWord level place word => Sys2Proof.Machine.execScrubWord level place word s
  | .vretqRead d => Sys2Proof.Machine.execVretqRead d s
  | .boltQueueRoom h => Sys2Proof.Machine.execBoltQueueRoom h s
  | .boltsCompletedWaitEnd h => Sys2Proof.Machine.execBoltsCompletedWaitEnd h s
  | .waitcWake h => Sys2Proof.Machine.execWaitcWake h s
  | .waitTimeout h => Sys2Proof.Machine.execWaitTimeout h s
  | .waitmWake h => Sys2Proof.Machine.execWaitmWake h s
  | .waitmTimeout h => Sys2Proof.Machine.execWaitmTimeout h s
  | .waitbWake h => Sys2Proof.Machine.execWaitbWake h s
  | .waitbTimeout h => Sys2Proof.Machine.execWaitbTimeout h s
  | .lwaitWake h => Sys2Proof.Machine.execLwaitWake h s
  | .swapTimeout h => Sys2Proof.Machine.execSwapTimeout h s
  | .launchQueueRoom h => Sys2Proof.Machine.execLaunchQueueRoom h s
  | .engineIssueRoom h => Sys2Proof.Machine.execEngineIssueRoom h s
  | .engineTransferComplete x ext => Sys2Proof.Machine.execEngineTransferComplete x ext s
  | .tldfFillComplete x ext => Sys2Proof.Machine.execTldfFillComplete x ext s
  | .recallDelivery h => Sys2Proof.Machine.execRecallDelivery h s
  | .surrenderBudget h => Sys2Proof.Machine.execSurrenderBudget h s
  | .claimRetry h => Sys2Proof.Machine.execClaimRetry h s
  | .claimRecallRepost h => Sys2Proof.Machine.execClaimRecallRepost h s
  | .packetRelease die q => Sys2Proof.Machine.execPacketRelease die q s
  | .leadPlacement f => Sys2Proof.Machine.execLeadPlacement f s
  | .followerPlacement f => Sys2Proof.Machine.execFollowerPlacement f s
  | .effectivePriorityAging f => Sys2Proof.Machine.execEffectivePriorityAging f s
  | .preemption h => Sys2Proof.Machine.execPreemption h s
  | .convoyCut h => Sys2Proof.Machine.execConvoyCut h s
  | .contextRestore x => Sys2Proof.Machine.execContextRestore x s
  | .pendingEventTaken h => Sys2Proof.Machine.execPendingEventTaken h s
  | .fwNotify h n => Sys2Proof.Machine.execFwNotify h n s
  | .layerArrival mctx layer => Sys2Proof.Machine.execLayerArrival mctx layer s
  | .evictionComplete mctx layer => Sys2Proof.Machine.execEvictionComplete mctx layer s
  | .swapVictimTimeout mctx layer => Sys2Proof.Machine.execSwapVictimTimeout mctx layer s
  | .pageBlocked h => Sys2Proof.Machine.execPageBlocked h s
  | .hostTimeout h cls va => Sys2Proof.Machine.execHostTimeout h cls va s
  | .l2Eviction g line => Sys2Proof.Machine.execL2Eviction g line s
  | .l2StaleSweep g => Sys2Proof.Machine.execL2StaleSweep g s
  | .foremanQueueService hq => Sys2Proof.Machine.execForemanQueueService hq s
  | .ident => Sys2Proof.Machine.execIdent s
  | .openq => Sys2Proof.Machine.execOpenq s
  | .closeq => Sys2Proof.Machine.execCloseq s
  | .closeqComplete hq => Sys2Proof.Machine.execCloseqComplete hq s
  | .qresetDropHead => Sys2Proof.Machine.execQresetDropHead s
  | .qresetDropAll => Sys2Proof.Machine.execQresetDropAll s
  | .qresetRetryHead => Sys2Proof.Machine.execQresetRetryHead s
  | .setevt => Sys2Proof.Machine.execSetevt s
  | .setvec => Sys2Proof.Machine.execSetvec s
  | .peerwin => Sys2Proof.Machine.execPeerwin s
  | .resync => Sys2Proof.Machine.execResync s
  | .attest => Sys2Proof.Machine.execAttest s
  | .warm => Sys2Proof.Machine.execWarm s
  | .cold => Sys2Proof.Machine.execCold s
  | .endhart => Sys2Proof.Machine.execEndhart s
  | .imgload => Sys2Proof.Machine.execImgload s
  | .ctxload => Sys2Proof.Machine.execCtxload s
  | .ctxunload => Sys2Proof.Machine.execCtxunload s
  | .lreq => Sys2Proof.Machine.execLreq s
  | .levict => Sys2Proof.Machine.execLevict s
  | .lpin => Sys2Proof.Machine.execLpin s
  | .lunpin => Sys2Proof.Machine.execLunpin s
  | .ctxset => Sys2Proof.Machine.execCtxset s
  | .migrate => Sys2Proof.Machine.execMigrate s
  | .migrateComplete pa => Sys2Proof.Machine.execMigrateComplete pa s
  | .unmap => Sys2Proof.Machine.execUnmap s
  | .unmapComplete x => Sys2Proof.Machine.execUnmapComplete x s
  | .swapcancel => Sys2Proof.Machine.execSwapcancel s
  | .fwcallPartNumber => Sys2Proof.Machine.execFwcallPartNumber s
  | .fwcallPostEvent => Sys2Proof.Machine.execFwcallPostEvent s
  | .fwcallTime => Sys2Proof.Machine.execFwcallTime s
  | .fwcallLayerRequest => Sys2Proof.Machine.execFwcallLayerRequest s
  | .fwcallResidentPages => Sys2Proof.Machine.execFwcallResidentPages s
  | .powerGood => Sys2Proof.Machine.execPowerGood s
  | .perstAssert => Sys2Proof.Machine.execPerstAssert s
  | .powerLoss => Sys2Proof.Machine.execPowerLoss s
  | .start fail => Sys2Proof.Machine.execStart fail s
  | .freeze => Sys2Proof.Machine.execFreeze s
  | .periodicReport => Sys2Proof.Machine.execPeriodicReport s
  | .retentionEntry g => Sys2Proof.Machine.execRetentionEntry g s
  | .groveWake g => Sys2Proof.Machine.execGroveWake g s
  | .throttleRecover => Sys2Proof.Machine.execThrottleRecover s
  | .thermalTrip => Sys2Proof.Machine.execThermalTrip s
  | .reservedOpcode case => Sys2Proof.Machine.execReservedOpcode case s
  | .reservedField case => Sys2Proof.Machine.execReservedField case s
  | .instructionFetchFault cause va => Sys2Proof.Machine.execInstructionFetchFault cause va s
  | .perstDeassert => Sys2Proof.Machine.execPerstDeassert s
  | .freezeDeassert => Sys2Proof.Machine.execFreezeDeassert s
  | .mailboxUnknownOpcode => Sys2Proof.Machine.execMailboxUnknownOpcode s

end Sys2Proof.Machine
end

