-- ==== Sys2Proof/Machine/Run.lean ====
section
/-!
DEFINITION. What happens around an instruction: which of its parts the device runs next, the stem and the vector side of a hart,
and the default trap handler (R14, R43, R150, R164, R297, R298, R304, R317, R318, R387).
-/
namespace Sys2Proof.Machine

open Sys2Proof

/-- The outcome of a stem or vector side. -/
abbrev Ran := Host.Outcome State Fault Refusal

/-- A next state changed. -/
def thenNext (o : Ran) (f : State → Ran) : Ran :=
  match o with
  | .next s => f s
  | .fault e => .fault e
  | .refused e => .refused e

/-! ### The stem side -/

/-- A wait whose spans of 256 cycles count against a surrender budget (R43). -/
def WaitKind.counts : WaitKind → Bool
  | .waitc _ _ | .waitm _ _ _ _ | .waitb _ _ _ _ _ | .lwait _ _ => true
  | _ => false
/-- A wait at whose end its instruction completes; after another it executes again. -/
def WaitKind.finishes : WaitKind → Bool
  | .vretq _ => true
  | k => k.counts

/-- A budget charged (R43). -/
def Hart.charge (x : Hart) (n : Nat) : Hart :=
  match x.routine with
  | some r => { x with routine := some { r with budget := r.budget.map (· - n) } }
  | none => x
/-- The spans of 256 cycles a wait has lasted, charged once each (R43). -/
def State.billWait (s : State) (h : Nat) : State :=
  let x := s.hart h
  match x.wait with
  | some w =>
    let due := (s.cycle - w.since) / 256
    if w.kind.counts && decide (w.billed < due) then
      s.setHart h { x.charge (due - w.billed) with wait := some { w with billed := due } }
    else s
  | none => s

/-- The row that ends or continues a stem wait. -/
def runWake (h : Nat) (k : WaitKind) (s : State) : Ran :=
  match k with
  | .bolts | .transfers => execBoltsCompletedWaitEnd h s
  | .boltRoom => execBoltQueueRoom h s
  | .vretq d => execVretqRead d s
  | .waitc _ _ => execWaitcWake h s
  | .waitm _ _ _ _ => execWaitmWake h s
  | .waitb _ _ _ _ _ => execWaitbWake h s
  | .lwait _ _ => execLwaitWake h s
  | .launchRoom _ _ => execLaunchQueueRoom h s
  | .engineRoom _ => execEngineIssueRoom h s
  | .claim id =>
    match (s.core (coreOf h)).claimOf id with
    | some y => if y.refused ≠ [] then execClaimRecallRepost h s else execClaimRetry h s
    | none => execClaimRetry h s
  | .page _ _ | .interlock => .next s
/-- The row of a wait whose timeout has passed. -/
def runTimeout (h : Nat) (k : WaitKind) (s : State) : Ran :=
  match k with
  | .waitc _ _ => execWaitTimeout h s
  | .waitm _ _ _ _ => execWaitmTimeout h s
  | .waitb _ _ _ _ _ => execWaitbTimeout h s
  | .lwait _ _ => execSwapTimeout h s
  | .page _ _ => execPageBlocked h s
  | _ => .next s

/-- A waiting hart: its wake row, and where it still waits past its timeout, its timeout row. -/
def runWait (h : Nat) (w : WaitRec) (s : State) : Ran :=
  thenNext (runWake h w.kind s) (fun s1 =>
    if w.expired s1.cycle && (s1.hart h).wait.isSome then runTimeout h w.kind s1 else .next s1)

/-- A stem instruction that began in hart `x` completed: it does not wait, and it raised no cause of its own. -/
def completed (x y : Hart) (trapInstr : Bool) : Bool :=
  y.placed && decide (y.uid = x.uid) && y.wait.isNone && !y.halted && (decide (y.depth ≤ x.depth) || trapInstr)
/-- The charge and the STEP trap after a stem instruction that completed (R43, R298, R304). -/
def State.afterStem (s : State) (h : Nat) (x : Hart) (trapInstr : Bool) : State :=
  let y := s.hart h
  if completed x y trapInstr then
    let z := if x.inRoutine then y.charge 1 else y
    let t : TrapInfo := { cause := 61, detail := 0, pc := z.pc, addr := 0, idx := 0, tok := 0, vec := false }
    let z' := if x.stepBit && decide (x.depth = 0) then z.keep 3 t else z
    if z' = y then s else s.setHart h z'
  else s

/-- TRAP n, whose trap is taken after it has completed. -/
def isTrapInstr : Instr → Bool
  | .trap _ => true
  | _ => false

/-- An error of structure `st` that the running hart's stem meets in a cache or TLB, which it obtains again cleanly (R321, R374). -/
def meetCache (st : Nat) : Act Unit := fun s =>
  match s.upsetAt st s.cur (fun _ => true) with
  | none => .ok ((), s)
  | some u =>
    let s1 := (s.clearUpset u).logError 0 (320 + 2 * st) 0 s.cur
    .ok ((), if s1.me.cen then s1.modMe (fun x => x.keep 2 (s.stemTrap (320 + 2 * st) 0)) else s1)
/-- The errors that a stem instruction meets: of the caches and the TLB it goes through, and of the registers it reads
(R312, R321, R374). -/
def meetStem (i : Instr) : Act Unit := do
  let s ← get
  if s.rel.upsets = [] then pure ()
  else
    meetCache 10
    meetCache 20
    if i.loads then meetCache 11
    i.regsRead.forM (fun r => fun s =>
      consumeUpset (s.upsetAt 8 s.cur (fun w => decide (w = r.toNat) && decide (w ≠ 0))) (s.stemTrap 0 0) s)
    i.csrsRead.forM (fun n => fun s => consumeUpset (s.upsetAt 9 s.cur (fun w => decide (w = n))) (s.stemTrap 0 0) s)
/-- The registers that an instruction which raised no cause and does not wait writes whole hold no error. -/
def State.wroteStem (s : State) (h : Nat) (x : Hart) (i : Instr) : State :=
  let y := s.hart h
  if decide (y.uid = x.uid) && decide (y.depth ≤ x.depth) && y.wait.isNone then
    (s.clearUpsets 8 h (fun w => i.regsWritten.any (fun r => decide (w = r.toNat)))).clearUpsets 9 h (fun w => i.csrsWritten.contains w)
  else s
/-- The register that the instruction of a wait writes when the wait ends holds no error. -/
def State.wroteWaited (s : State) (h : Nat) (x : Hart) (k : WaitKind) : State :=
  let y := s.hart h
  if decide (y.uid = x.uid) && decide (y.depth ≤ x.depth) && y.wait.isNone then
    match k with
    | .vretq d | .waitm d _ _ _ | .waitb d _ _ _ _ | .lwait d _ => s.clearUpsets 8 h (fun w => decide (w = d.toNat))
    | _ => s
  else s

/-- BOLT, which copies the registers that are yet to be written with their values to come (R11, R142). -/
def isBolt : Instr → Bool
  | .bolt _ => true
  | _ => false
/-- What hart `h` is yet to write to the registers of a stem instruction is written before it executes. -/
def State.forStem (s : State) (h : Nat) (i : Instr) : State := if isBolt i then s else s.drainRegs h (i.regsRead ++ i.regsWritten)

/-- A stem instruction with the errors it meets. One that has to wait and executes again meets them when it does (R331). -/
def execStem (h : Nat) (i : Instr) (s0 : State) : Ran :=
  let s := s0.forStem h i
  match meetStem i s with
  | .error (.trap t) => .next (s.takeTrap t)
  | .error (.stall k l) => .next (s.beginWait k l)
  | .ok (_, s1) => thenNext (exec i s1) (fun s2 =>
      match (s2.hart h).wait with
      | some w => if w.kind.finishes then .next s2 else exec i s
      | none => .next (s2.wroteStem h (s.hart h) i))

/-- A JR whose target is misaligned: MISALIGNED_PC comes before the check of its fields (R165). -/
def strayJr (x : Hart) (w : BitVec 32) : Bool :=
  decide (w.extractLsb' 26 6 = 0x14) && decide ((x.reg (w.extractLsb' 21 5)).extractLsb' 0 5 ≠ 0)

/-- The instruction at the PC is fetched, decoded and executed; a word that is no instruction takes its cause (R165). -/
def fetchExec (h : Nat) (s : State) : Ran :=
  let x := s.hart h
  match fetchStem s with
  | .error (.trap t) => .next (s.takeTrap t)
  | .error (.stall k l) => .next (s.beginWait k l)
  | .ok (w, s1) =>
    match decodeStem w with
    | .error (.reservedOpcode c) => execReservedOpcode c s1
    | .error (.reservedField c) =>
      let s2 := if decide (w.extractLsb' 26 6 = 0x14) then s1.drainRegs h [w.extractLsb' 21 5] else s1
      if strayJr (s2.hart h) w then execJr (w.extractLsb' 21 5) s2 else execReservedField c s2
    | .ok i => thenNext (execStem h i s1) (fun s2 => .next (s2.afterStem h x (isTrapInstr i)))

/-- The firmware default handler (R297, R352): it records the trap for the host, once, and executes HEXIT. -/
def defaultHandler (h : Nat) (s0 : State) : Ran :=
  let s := s0.drain h
  let x := s.hart h
  if x.wait.isSome && !(x.drained && (s.xfersOf h).isEmpty) then .next s
  else if x.told then hexit s
  else
    let e := s.hartEvent h 2 (x.tcause.extractLsb' 0 9).toNat x.tcause x.tpc [x.taddr, x.tidx, x.ttoken, x.reg 8]
    hexit ((s.setHart h { x with told := true }).posted e)

/-- A pre-emption at a convoy boundary, or its cut (R317, R318). -/
def preemptOrCut (h : Nat) (s : State) : Ran :=
  if (s.hart h).vectorStopped then execPreemption h s else execConvoyCut h s
/-- An event due at a stem boundary, in the order of R318; the budget of a surrender routine comes first, as a cause of the
instruction not executed (R43). -/
def dueEvent (h : Nat) (s : State) : Option Ran :=
  let x := s.hart h
  if (x.routine.bind (·.budget)) = some 0 then some (execSurrenderBudget h s)
  else if x.duePend.isSome then some (execPendingEventTaken h s)
  else if x.preempt.isSome then some (preemptOrCut h s)
  else if x.recallDue then some (execRecallDelivery h s)
  else if x.mayNotify && decide (x.notes ≠ []) then some (execPendingEventTaken h s)
  else none

/-- The stem side of hart `h` takes its next step. -/
def stemStep (h : Nat) (s : State) : Ran :=
  let s := (s.on h).billWait h
  let x := s.hart h
  if !x.placed then .next s
  else if x.halted then (if x.preempt.isSome then preemptOrCut h s else .next s)
  else
    match dueEvent h s with
    | some r => r
    | none =>
      if x.pc = s.handler then defaultHandler h s
      else
        match x.wait with
        | some w =>
          thenNext (runWait h w s) (fun s1 =>
            .next (if w.kind.finishes then (s1.wroteWaited h x w.kind).afterStem h x false else s1))
        | none => fetchExec h s
/-- A step of the stem side, with the place of its access among those that a migrating page holds (R129). -/
def stemSide (h : Nat) (s : State) : Ran := thenNext (stemStep h s) (fun s1 => .next (s1.noteHeld (.stem h) (s1.hart h).wait))

/-! ### The vector side -/

/-- The bolt with a number, wherever the hart keeps it. -/
def Hart.boltOf (x : Hart) (seq : Nat) : Option Bolt :=
  (x.bolts ++ x.frames.flatMap (·.bolts)).find? (fun b => decide (b.seq = seq))
/-- The VSTEP trap after a convoy that began under VSTEP and leaves its bolt another (R304). -/
def State.afterVector (s : State) (h seq : Nat) : State :=
  let x := s.hart h
  match x.boltOf seq with
  | none => s
  | some b =>
    if b.vstep && b.convoy.isEmpty && x.placed then
      let t : TrapInfo := { cause := 62, detail := 0, pc := nword b.pc, addr := 0, idx := 0, tok := 0, vec := true }
      let off (c : Bolt) : Bolt := if c.seq = seq then { c with vstep := false } else c
      s.setHart h ((x.mapBolts off).keep 3 t)
    else s

/-- An instruction of hart `h` has completed in idle mode: it enters its core's recheck queue, whose oldest entry retires
unchecked and is counted when there are 64 (R322). -/
def State.enqueueRecheck (s : State) (h : Nat) : State :=
  let k := coreOf h
  let c := s.core k
  match c.rechecks with
  | [] => s.setCore k { c with rechecks := [h] }
  | o :: t =>
    if c.rechecks.length < 64 then s.setCore k { c with rechecks := c.rechecks ++ [h] }
    else (s.setCore k { c with rechecks := t ++ [h] }).countUnchecked (s.hart o).mctx.toNat 1
/-- RECHECK (R322): the oldest entry of a core's recheck queue agrees and retires. -/
def State.recheckOne (s : State) (k : Nat) : State :=
  let c := s.core k
  if c.rechecks = [] then s else s.setCore k { c with rechecks := c.rechecks.tail }
/-- After an instruction of bolt `b`: its word is no more among those fetched ahead (R12), and one that has completed in idle mode
awaits its recheck (R322, R372). -/
def State.afterBolt (s : State) (h : Nat) (b : Bolt) (i : Instr) : State :=
  let done : Bool := match (s.hart h).boltOf b.seq with
    | some c => decide (c.pc ≠ b.pc)
    | none => true
  let used (c : Bolt) : Bolt := if c.seq = b.seq then { c with ahead := Tab.del c.ahead b.pc } else c
  let s := if done && b.ahead.any (fun p => decide (p.1 = b.pc)) then s.setHart h ((s.hart h).mapBolts used) else s
  if b.recheck = 1 ∧ !i.isMatrix ∧ !i.isControl ∧ (s.hart h).placed ∧ done then s.enqueueRecheck h else s

/-- What hart `h` is yet to write to the frame registers that an instruction of bolt `b` reads is written before it executes (R11,
R142). -/
def State.forBolt (s : State) (h : Nat) (b : Bolt) (i : Instr) : State :=
  s.drainBy h (fun p => p.bolts.contains b.seq && p.dests.any i.frameRead.contains)
/-- The first instruction of the running bolt's convoy, with the errors it meets in its word and in the pipes and queues; one that has
to wait meets them when it executes again. -/
def runConvoy (h : Nat) (s0 : State) : Ran :=
  match (s0.hart h).bolts with
  | [] => .next s0
  | b :: _ =>
    match b.convoy with
    | [] => .next s0
    | (pc, w) :: _ =>
      match decodeBolt w with
      | .error e => .next (s0.takeTrap (s0.vecTrap e.code 0))
      | .ok i =>
        let s := s0.forBolt h b i
        match meetWord b pc s with
        | .error (.trap t) => .next (s.takeTrap t)
        | .error (.stall k l) => .next (s.vwaitFor k l)
        | .ok (_, s1) =>
          match meetPipes i b s1 with
          | .error (.trap t) => .next ((s1.squashed i).takeTrap t)
          | .error (.stall k l) => .next (s1.vwaitFor k l)
          | .ok (_, s2) => thenNext (exec i s2) (fun s3 =>
              if (s3.hart h).vwait.isSome then exec i s else .next ((s3.afterBolt h b i).afterVector h b.seq))

/-- What keeps the vector side from its next convoy: an event that the stem side takes at the boundary. -/
def Hart.held (x : Hart) : Bool := x.preempt.isSome || x.recallDue || x.vecDue

/-- The address of a bolt word whose fetch a migrating page has held for its 2^24 cycles (R307). -/
def State.heldWord (s : State) (w : Option WaitRec) : Option Nat :=
  match w with
  | some ⟨.page va cls, b, e, n⟩ => if cls = 1 ∧ WaitRec.expired ⟨.page va cls, b, e, n⟩ s.cycle then some va else none
  | _ => none
/-- PAGE_BLOCKED of a bolt word: of the running fragment's, or of a branch's target. A word further on in a convoy that is yet to
begin is not fetched (R12). -/
def State.blockedWord (s : State) (b : Bolt) (w : Option WaitRec) : Option Nat :=
  (s.heldWord w).filter (fun va => decide (va = b.pc) || decide (b.convoy ≠ []))

/-- The vector side of hart `h` takes its next step: at a convoy boundary the next convoy is checked (R164), and its first
instruction executes. A kept vector trap that is due is taken before the next instruction (R296). -/
def vecStep (h : Nat) (s : State) : Ran :=
  let s := s.on h
  let x := s.hart h
  if !x.placed || x.halted then .next s
  else
    match x.bolts, x.vwait with
    | [], _ => .next s
    | b :: _, w =>
      match s.blockedWord b w with
      | some va => .next (s.takeTrap (s.vecTrap (memCause 7 1) va))
      | none =>
        if b.convoy ≠ [] then
          (if x.vecDue || (x.preempt.isSome && b.mpos.isSome) then .next s else runConvoy h s)
        else if x.held then .next s
        else thenNext (runVec (fun _ => beginConvoy) s) (runConvoy h)
/-- A step of the vector side, with the place of its access among those that a migrating page holds (R129). -/
def vecSide (h : Nat) (s : State) : Ran := thenNext (vecStep h s) (fun s1 => .next (s1.noteHeld (.vec h) (s1.hart h).vwait))

/-! ### What runs next -/

/-- Events that a frozen package takes (R357). -/
def actsFrozen : Instr → Bool
  | .perstAssert | .perstDeassert | .powerLoss | .powerGood | .freeze | .freezeDeassert | .scanReadout _ _ => true
  | _ => false
/-- Events that come from outside, or from the Hunik controller, in every start state. -/
def actsAlways : Instr → Bool
  | .perstAssert | .perstDeassert | .powerLoss | .powerGood | .freeze | .freezeDeassert | .scanReadout _ _ | .start _
  | .hostBar0Write _ _ _ _ | .hostBar2Read _ _ | .hostBar2Write _ _ _ | .hostAtomicop _ _ _ _ _
  | .hostManagedDeviceMemoryAccess _ _ _ _ _ | .configurationRequest _ _ | .peerWrite _ _ _ _ _ | .peerRead _ _ _
  | .linkDown _ _ | .thermalTrip | .throttle _ | .throttleRecover | .hbmRefresh _ | .softError _ _ _ _
  | .ident | .openq | .closeq | .qresetDropHead | .qresetDropAll | .qresetRetryHead | .setevt | .setvec | .peerwin | .resync
  | .attest | .warm | .cold | .endhart | .imgload | .ctxload | .ctxunload | .lreq | .levict | .lpin | .lunpin | .ctxset
  | .migrate | .unmap | .swapcancel | .mailboxUnknownOpcode => true
  | _ => false
/-- What a step may run in the state the package is in: nothing but power and scan when it is frozen, and no hart or unit of the
dies outside READY. -/
def State.mayRun (s : State) (x : Sel) : Bool :=
  match x with
  | .event i =>
    if s.boot.frozen then actsFrozen i else decide (s.boot.st = .ready) || (actsAlways i && (decide (s.boot.st ≠ .off) || outside i))
  | .bar0Read _ _ _ | .bar2Size _ => !s.boot.frozen && decide (s.boot.st ≠ .off)
  | .hostStore _ _ _ => true
  | _ => !s.boot.frozen && decide (s.boot.st = .ready)
where
  /-- Events of the pins, which a device without power sees too. -/
  outside : Instr → Bool
    | .perstAssert | .perstDeassert | .powerLoss | .powerGood | .freeze | .freezeDeassert | .scanReadout _ _
    | .configurationRequest _ _ | .hostBar2Read _ _ | .hostBar2Write _ _ _ | .hostAtomicop _ _ _ _ _
    | .hostManagedDeviceMemoryAccess _ _ _ _ _ => true
    | _ => false

/-- The row of a submitted mailbox command. -/
def mailboxRow (op mode : Nat) : Instr :=
  match op with
  | 0x01 => .ident | 0x02 => .openq | 0x03 => .closeq
  | 0x04 => if mode = 0 then .qresetDropHead else if mode = 1 then .qresetDropAll else .qresetRetryHead
  | 0x05 => .setevt | 0x06 => .setvec | 0x07 => .peerwin | 0x08 => .resync | 0x09 => .attest | 0x0A => .warm | 0x0B => .cold
  | 0x0C => .endhart | 0x0D => .imgload | 0x20 => .ctxload | 0x21 => .ctxunload | 0x22 => .lreq | 0x23 => .levict
  | 0x24 => .lpin | 0x25 => .lunpin | 0x26 => .ctxset | 0x27 => .migrate | 0x28 => .unmap | 0x29 => .swapcancel
  | _ => .mailboxUnknownOpcode

/-- What the device's own units have to do. -/
def State.internal (s : State) : List (State → Ran) :=
  (if s.host.own then [exec (mailboxRow s.host.op (s.host.param 2))] else []) ++
  s.migs.map (fun m => if m.unmap then execUnmapComplete m.id else execMigrateComplete m.pa) ++
  s.host.queues.map (fun q =>
    if q.closing = some q.head then execCloseqComplete q.hqid else execForemanQueueService q.hqid) ++
  s.yardQs.map (fun p => execPacketRelease (p.1 / 16) (p.1 % 16)) ++
  s.farms.flatMap (fun f => execEffectivePriorityAging f.id :: (if !f.leadPlaced then [execLeadPlacement f.id]
    else if f.opened && decide (f.wanted ≠ 0) then [execFollowerPlacement f.id] else [])) ++
  s.swaps.map (fun w => if w.phase = .evicting then execEvictionComplete w.mctx w.layer
    else if w.phase = .needPages ∧ w.since + 2 ^ 30 ≤ s.cycle then execSwapVictimTimeout w.mctx w.layer
    else execLayerArrival w.mctx w.layer) ++
  s.xfers.map (fun t => if t.kind = .tldf then execTldfFillComplete t.id 0 else execEngineTransferComplete t.id 0) ++
  s.saved.map (fun v => execContextRestore v.hart.uid) ++
  s.cores.flatMap (fun p => if p.2.rechecks = [] then [] else [fun s => .next (s.recheckOne p.1)]) ++
  s.groves.map (fun p => execL2StaleSweep p.1) ++ (upTo 24).map execRetentionEntry ++ [execPeriodicReport]
/-- The sides of the placed harts, and their stores that are not yet performed. -/
def State.sides (s : State) : List (State → Ran) :=
  s.harts.flatMap (fun p =>
    if p.2.placed then
      stemSide p.1 :: ((if p.2.bolts = [] then [] else [vecSide p.1]) ++
        (if p.2.stores = [] then [] else [fun s => .next (s.drainOne p.1 0)]))
    else [])
/-- What could run next where no order is laid down: the units and the sides of the harts, in rotation. -/
def State.ready (s : State) : List (State → Ran) :=
  if s.boot.frozen then []
  else if s.boot.st = .ready then s.internal ++ s.sides
  else if s.boot.st.starting then [execStart 0]
  else if s.host.own then [exec (mailboxRow s.host.op (s.host.param 2))]
  else []

/-- The hart whose wait a wake or timeout event ends with its instruction, where it waits for that: the event is then a step of its
stem side, which charges the wait and the instruction (R43). -/
def wakeOf (i : Instr) (s : State) : Option Nat :=
  let on (h : Nat) (is : WaitKind → Bool) : Option Nat := if (s.waitOf h).any (fun w => is w.kind) then some h else none
  match i with
  | .waitcWake h | .waitTimeout h => on h (fun k => match k with
    | .waitc _ _ => true
    | _ => false)
  | .waitmWake h | .waitmTimeout h => on h (fun k => match k with
    | .waitm _ _ _ _ => true
    | _ => false)
  | .waitbWake h | .waitbTimeout h => on h (fun k => match k with
    | .waitb _ _ _ _ _ => true
    | _ => false)
  | .lwaitWake h | .swapTimeout h => on h (fun k => match k with
    | .lwait _ _ => true
    | _ => false)
  | .vretqRead _ => on s.cur (fun k => match k with
    | .vretq _ => true
    | _ => false)
  | _ => none

/-- One choice of the agenda run; one that the package's state does not allow has no effect. -/
def runSel (x : Sel) (s : State) : Ran :=
  if !(s.mayRun x) then .next s
  else
    match x with
    | .stem h => stemSide h s
    | .stemLate h => thenNext (stemSide h { s with late := true }) (fun s1 => .next { s1 with late := false })
    | .vecLate h => thenNext (vecSide h { s with late := true }) (fun s1 => .next { s1 with late := false })
    | .vec h => vecSide h s
    | .event i => if (wakeOf i s).isSome then stemSide ((wakeOf i s).getD 0) s else exec i s
    | .drain h i => .next (s.drainOne h i)
    | .prefetch h a => .next (s.prefetch h a)
    | .prefetchBolt h seq a => .next (s.prefetchBolt h seq a)
    | .flumeAhead h v n => .next (s.flumeAhead h v n)
    | .moveXfer id k => .next (s.moveNext id k)
    | .recheck k => .next (s.recheckOne k)
    | .preempt h => .next (s.askSave h)
    | .hostAbort h pa => .next (s.willFail h 5 pa)
    | .bar0Read port off size => .next (s.bar0Read port off size)
    | .bar2Size lg => .next (s.bar2Size lg)
    | .pageTable maps => .next (s.pageTable maps)
    | .elogSelect v => .next (s.elogSelect v)
    | .hostStore off size v => .next { s with hostMem := Memory.write s.hostMem off size v }
    | .debugHold h on => .next (s.debugHold h on)
    | .mscEvict l => .next { s with hbm := s.hbm.evict l }
/-- What runs next: the head of the agenda, else the next in rotation (log 2). -/
def runNext (s : State) : Ran :=
  match s.agenda with
  | x :: t => runSel x { s with agenda := t }
  | [] =>
    let l := s.ready
    let s1 : State := { s with rotor := s.rotor + 1 }
    match l[s.rotor % (max 1 l.length)]? with
    | some f => f s1
    | none => .next s1

/-- A cycle passes, and the time it takes at the present clock (R384; log 3); a frozen device has no clock (R357). -/
def State.tick (s : State) : State :=
  if s.boot.frozen then s else { s with cycle := s.cycle + 1, time := s.time + s.period }

/-! ### Placing one instruction (the host's probe) -/

/-- The tags tried for the registers of a placed bolt word. -/
def probeTags : List (BitVec 8) := [0x1F, 0x80, 0x81, 0x0F, 0xC2, 0xC0]
/-- A hart that runs at `pc` and waits for nothing. -/
def Hart.idleAt (x : Hart) (pc : Word) : Hart :=
  { x with placed := true, halted := false, pc := pc, wrapFrom := none, wait := none, vwait := none, pend := [],
           preempt := none, recalls := [], notes := [], routine := none, stores := [], fetched := [] }
/-- Where an instruction is placed. -/
def probePc : Nat := 0x1000
/-- The device READY with `n` bits of code at `probePc` in a page of the running hart's address space that it may fetch, and
nothing in the way of the fetch. -/
def State.withCode (s : State) (n code : Nat) : State :=
  let s1 : State := { s with
    boot := { s.boot with st := .ready, frozen := false, powerGood := true, perst := false }
    maps := ⟨s.me.asid, 0, 19, 0, true, true, true, false⟩ :: s.maps
    migs := []
    dev := Memory.write s.dev probePc n code
    rel := { s.rel with upsets := [] } }
  s1.setLine (groveOf s.cur) (probePc / 512) Line.none
/-- A stem word placed. -/
def State.placeStem (s : State) (w : Nat) : State :=
  { (s.withCode 32 w).setHart s.cur (s.me.idleAt (nword probePc)) with agenda := [.stem s.cur] }
/-- A bolt at `pc` that has executed nothing. -/
def probeBolt (pc : Nat) : Bolt :=
  { seq := 1, entry := nword pc, frame := [], dims := [], vl := 1, mvl := 1, lanes := 8, frags := [⟨pc, 1, none⟩], convoy := [],
    begun := false, words := 0, mpos := none, vstep := false, recheck := 0, ext := 0, ahead := [], cut := false, rowsTold := [], chain := [] }
/-- A hart whose 64 vector registers hold elements of the first tag that the operands of a bolt word allow. -/
def Hart.probeFor (x : Hart) (w : BitVec 64) : Hart :=
  let cfg (t : BitVec 8) : VCfg := ⟨64, 64, 0, List.replicate 64 t⟩
  let fits (t : BitVec 8) : Bool := match decodeBolt w with
    | .ok i => decide (operandCause i { x with cfg := cfg t } = none)
    | .error _ => false
  { x with cfg := cfg ((probeTags.find? fits).getD 0x1F), binds := [], bolts := [probeBolt probePc], frames := [] }
/-- A bolt word placed, with the CB bit that the first word of a bolt has, and a STOP after it (R162). -/
def State.placeBolt (s : State) (w : Nat) : State :=
  let word := BitVec.ofNat 64 w ||| 0x8000000000000000
  let x := ({ s.me with binds := [] }.idleAt s.me.pc).probeFor word
  { (s.withCode 128 (word.toNat + 0x8000000000000000 * 2 ^ 64)).setHart s.cur x with agenda := [.vec s.cur] }

end Sys2Proof.Machine
end

