-- ==== Sys2Proof/Machine/Step.lean ====
section
/-!
DEFINITION. One step of the device, and the placing of one instruction where the next step fetches it.
-/
namespace Sys2Proof.Machine

open Sys2Proof

/-- One step: what comes next runs, and a cycle passes (log 2, 3). -/
def step (s : State) : Host.Outcome State Fault Refusal := thenNext (runNext s) (fun s1 => .next s1.tick)

/-- The state with an instruction placed: a stem word at the PC of the running hart, or the first word of a new bolt, a STOP
after it. The host launches programs in the device (log 33); this stands for a launch. -/
def State.withFetchWord (s : State) (nbits w : Nat) : State :=
  if nbits ≤ 32 then s.placeStem (w % 2 ^ 32) else s.placeBolt (w % 2 ^ 64)

end Sys2Proof.Machine
end

