-- ==== Sys2Proof/Safety.lean ====
section
/-!
DEFINITION. The terms the claims are stated in: the invariant of the memories, when an access or an issue meets nothing in its
way, and, for the bolt instructions of one shape, the destination and the function of the spec that each of them names.
-/
namespace Sys2Proof.Machine

open Sys2Proof

/-- Both memories are in canonical form: equal memories are equal data. -/
abbrev State.memOk (s : State) : Prop := Memory.wf s.dev = true ∧ Memory.wf s.hostMem = true
/-- Every dirty bit of a line of a grove L2 is a bit the line holds (R117). -/
abbrev State.linesOk (s : State) : Prop :=
  s.groves.all (fun p => p.2.lines.all (fun l => decide (l.2.dirty &&& ~~~l.2.valid = 0))) = true
/-- The invariant of the memories: canonical form, and lines that hold what they have dirty. -/
abbrev State.inv (s : State) : Prop := s.memOk ∧ s.linesOk
/-- No structure holds an error (R312, R324). -/
abbrev State.clean (s : State) : Prop := s.rel.upsets = []

/-! ### Scalar accesses -/

/-- No store of the running hart waits to be performed, and the step leaves none to be performed later (R142; log 15). -/
abbrev State.settled (s : State) : Prop := s.me.stores = [] ∧ s.late = false

/-- The host answers an access of the running hart: the ports it lies behind are up, and none of its bits waits to answer
without data (R307). -/
abbrev State.answers (s : State) (asid a n : Nat) : Bool :=
  (s.parts asid a n).all (fun p => !(isHost p.pa) || (!(s.host.portDown.testBit (hostPort p.pa)) &&
    !(s.noReply.any (fun q => decide (q.1 = s.cur) && decide (p.pa ≤ q.2.2) && decide (q.2.2 < p.pa + p.len)))))
/-- A range that a scalar access of the running hart reaches at once: check_access passes it (R173), no page of it migrates
(R129), no transfer of the hart in flight meets it (R135), and the host answers it (R307). -/
abbrev State.reaches (s : State) (a n : Nat) (k : AccKind) : Prop :=
  s.checkAccess s.me.asid a n k = none ∧ s.blocked s.me.asid a n = none ∧ s.interlocked s.cur a n k.writes = false ∧
    s.answers s.me.asid a n = true
/-- A scalar atomic's range, in one line, in no memory of port 1 (R112, R122). -/
abbrev State.atomicAt (s : State) (f : PortForm) (a n : Nat) : Prop :=
  s.reaches a n .rmw ∧ oneLine a n = true ∧ s.portCause f (s.physOf a) n = none
/-- Every earlier bolt and transfer of the running hart is complete (R387). -/
abbrev State.idle (s : State) : Prop := s.me.bolts = [] ∧ s.xfersOf s.cur = []

/-- Two physical bit addresses name one bit: device addresses that are equal, or host addresses of one offset (log 6). -/
def sameBit (p q : Nat) : Bool :=
  if isDev p then decide (p = q) else isHost p && !(isDev q) && isHost q && decide (hostOff p = hostOff q)
/-- A physical bit lies in one of some physical ranges. -/
def bitIn (ps : List (Nat × Nat)) (q : Nat) : Bool := ps.any (fun p => (upFrom p.1 p.2).any (fun a => sameBit a q))

/-! ### Bolt instructions -/

/-- The running hart's vector unit holds bolt `b`, no structure holds an error, and the operand checks of `i` pass (R164). -/
abbrev State.boltAt (s : State) (i : Instr) (b : Bolt) : Prop :=
  s.me.bolts.head? = some b ∧ s.clean ∧ operandCause i s.me = none
/-- The sources of a bolt instruction are read (R214): `y` is the hart as they show, each bound one its next strip, and `t` the
state after. Without a bound register they are the hart and the state themselves (Obligations.Sources). -/
abbrev State.seen (s : State) (b : Bolt) (k : MaskOp) (vs : List VReg) (y : Hart) (t : State) : Prop :=
  sources b k vs s = .ok (y, t)
/-- The sources of a matrix instruction are read, which sets no flag by them (R82). -/
abbrev State.mxSeen (s : State) (b : Bolt) (k : MaskOp) (vs : List VReg) (y : Hart) (t : State) : Prop :=
  mxSources b k vs s = .ok (y, t)

/-- The hart after codes and flags of elements of `vd` are written and the vector unit is past its word (R211, R213). -/
def Hart.wrote (x : Hart) (vd : VReg) (rs : List (Nat × Nat × Fl)) : Hart :=
  ((x.putCodes vd (rs.map (fun r => (r.1, r.2.1)))).addFlags (rs.foldl (fun fl r => fl ||| r.2.2) 0)).vnext

/-- A value narrowed modular to the tag of `vd` in a rounding mode, after an operation's own flags (R83, R213). -/
abbrev Hart.rounded (y : Hart) (vd : VReg) (r : Rnd) (real : Bool) (v : Val × Fl) : Nat × Fl :=
  y.narrowTo vd (y.mode r) false real (v.1.res, v.2)
/-- An integer narrowed to the tag of `vd`, saturating with `sat`. -/
abbrev Hart.whole (y : Hart) (vd : VReg) (r : Rnd) (sat : Bool) (n : Int) : Nat × Fl :=
  y.narrowTo vd (y.mode r) sat false (Res.ofInt n, 0)
/-- The shift amount of an element: its integer modulo 2^64. -/
abbrev Hart.amount (y : Hart) (v : VReg) (e : Nat) : Nat := ((y.val v e).toInt.emod (2 ^ 64)).toNat

/-- The element-wise instructions (R221, R225-R241, R244, R245, R253): destination, mask operand, sources, and the code and flags
of an element. -/
def elementOf : Instr → Option (VReg × MaskOp × List VReg × (Hart → Bolt → Nat → Nat × Fl))
  | .vidx vd k => some (vd, k, [], fun y _ e => y.whole vd .fmode false e)
  | .vadd vd va vb r k => some (vd, k, [va, vb], fun y _ e => y.rounded vd r (y.isReal [va, vb]) ((y.val va e).add (y.mode r) (y.val vb e)))
  | .vsub vd va vb r k => some (vd, k, [va, vb], fun y _ e => y.rounded vd r (y.isReal [va, vb]) ((y.val va e).sub (y.mode r) (y.val vb e)))
  | .vmul vd va vb r k => some (vd, k, [va, vb], fun y _ e => y.rounded vd r (y.isReal [va, vb]) ((y.val va e).mul (y.val vb e)))
  | .vmulh vd va vb r k => some (vd, k, [va, vb], fun y _ e =>
      y.whole vd r false ((y.val va e).toInt * (y.val vb e).toInt / 2 ^ (y.tag vd).width))
  | .vmulw vd va vb r fx k => some (vd, k, [va, vb], fun y _ e =>
      y.rounded vd r (y.isReal [va] || !(Tag.ofFX fx).isInt)
        ((y.val va e).mul ((Tag.ofFX fx).value ((Tab.get 0 y.vregs (elKey vb.toNat e)).toNat % 2 ^ (Tag.ofFX fx).width))))
  | .vmacc vd va vb k => some (vd, k, [vd, va, vb], fun y _ e =>
      y.whole vd .fmode false ((y.val vd e).toInt + (y.val va e).toInt * (y.val vb e).toInt))
  | .vdiv vd va vb r k => some (vd, k, [va, vb], fun y _ e =>
      if y.isReal [va, vb] then
        y.narrowTo vd (y.mode r) false true ((y.val va e).div (y.val vb e))
      else y.whole vd r false
        (if (y.val vb e).toInt = 0 then -1 else (y.val va e).toInt.tdiv (y.val vb e).toInt))
  | .vrem vd va vb r k => some (vd, k, [va, vb], fun y _ e => y.whole vd r false ((y.val va e).toInt.tmod (y.val vb e).toInt))
  | .vmin vd va vb r k => some (vd, k, [va, vb], fun y _ e => pickop false vd va vb r y e)
  | .vmax vd va vb r k => some (vd, k, [va, vb], fun y _ e => pickop true vd va vb r y e)
  | .vabs vd va r k => some (vd, k, [va], fun y _ e => signop false vd va r y e)
  | .vneg vd va r k => some (vd, k, [va], fun y _ e => signop true vd va r y e)
  | .vadds vd va vb r k => some (vd, k, [va, vb], fun y _ e => y.whole vd r true ((y.val va e).toInt + (y.val vb e).toInt))
  | .vsubs vd va vb r k => some (vd, k, [va, vb], fun y _ e => y.whole vd r true ((y.val va e).toInt - (y.val vb e).toInt))
  | .vavg vd va vb r k => some (vd, k, [va, vb], fun y _ e => y.whole vd r true (((y.val va e).toInt + (y.val vb e).toInt + 1) / 2))
  | .vand vd va vb _ k => some (vd, k, [va, vb], fun y _ e => (y.code va e &&& y.code vb e, 0))
  | .vor vd va vb _ k => some (vd, k, [va, vb], fun y _ e => (y.code va e ||| y.code vb e, 0))
  | .vxor vd va vb _ k => some (vd, k, [va, vb], fun y _ e => (y.code va e ^^^ y.code vb e, 0))
  | .vshl vd va vb r k => some (vd, k, [va, vb], fun y _ e => y.rounded vd r false
      ((y.tag va).value (y.code va e * 2 ^ (y.amount vb e % 64) % 2 ^ (y.tag va).width), 0))
  | .vshr vd va vb r k => some (vd, k, [va, vb], fun y _ e => y.rounded vd r false
      ((y.tag va).value (y.code va e / 2 ^ (y.amount vb e % 64)), 0))
  | .vsra vd va vb r k => some (vd, k, [va, vb], fun y _ e => y.rounded vd r false
      ((y.tag va).value (wrap (signed (y.code va e) (y.tag va).width / 2 ^ (y.amount vb e % 64)) (y.tag va).width), 0))
  | .vpopc vd va k => some (vd, k, [va], fun y _ e => y.whole vd .fmode false (Bits.count (y.code va e) (y.tag va).width))
  | .vclz vd va k => some (vd, k, [va], fun y _ e => y.whole vd .fmode false (leadingZeros (y.code va e) (y.tag va).width))
  | .vbext vd va vb r k => some (vd, k, [va, vb], fun y _ e =>
      y.whole vd r false (bextCode (y.tag va).width (y.code va e) (y.amount vb e)))
  | .vfma vd va vb vc r k => some (vd, k, [va, vb, vc], fun y _ e =>
      let p := (y.val va e).mul (y.val vb e)
      let t := p.1.add (y.mode r) (y.val vc e)
      y.rounded vd r true (t.1, p.2 ||| t.2))
  | .vfms vd va vb vc r k => some (vd, k, [va, vb, vc], fun y _ e =>
      let p := (y.val va e).mul (y.val vb e)
      let t := p.1.add (y.mode r) (y.val vc e).neg
      y.rounded vd r true (t.1, p.2 ||| t.2))
  | .vfnma vd va vb vc r k => some (vd, k, [va, vb, vc], fun y _ e =>
      let p := (y.val va e).mul (y.val vb e)
      let t := p.1.neg.add (y.mode r) (y.val vc e)
      y.rounded vd r true (t.1, p.2 ||| t.2))
  | .vcvt vd va r fx k => some (vd, k, [va], fun y _ e => convop false vd va r fx y e)
  | .vwiden vd va k => some (vd, k, [va], fun y _ e => y.narrowTo vd .rne false (!(y.tag va).isInt) ((y.val va e).res, 0))
  | .vnarrow vd va r fx k => some (vd, k, [va], fun y _ e => convop true vd va r fx y e)
  | .vrnd vd va r k => some (vd, k, [va], fun y _ e =>
      let p := y.rounded vd r true ((y.val va e).integral (y.mode r), 0)
      (p.1, p.2 &&& ~~~flNX))
  | .vclass vd va k => some (vd, k, [va], fun y _ e => y.whole vd .fmode false (2 ^ classBit (y.tag va) (y.code va e) : Nat))
  | .vscl vd va vb r k => some (vd, k, [va, vb], fun y _ e => y.rounded vd r true ((y.val va e).scale (y.val vb e).toInt, 0))
  | .vsat vd va vb vc r k => some (vd, k, [va, vb, vc], fun y _ e =>
      y.narrowTo vd (y.mode r) true (y.isReal [va, vb, vc])
        ((Val.pick false (Val.pick true (y.val va e) (y.val vb e)) (y.val vc e)).res, 0))
  | .mpop vd ma k => some (vd, k, [], fun y b _ =>
      y.whole vd .fmode false ((b.actives y k).filter (fun e => Bits.has (y.mask ma b.vl) e)).length)
  | .mfirst vd ma k => some (vd, k, [], fun y b _ =>
      y.whole vd .fmode false ((((b.actives y k).filter (fun e => Bits.has (y.mask ma b.vl) e)).head?).getD b.vl : Nat))
  | .vsel vd va vb mc k => some (vd, k, [va, vb], fun y b e =>
      y.moved vd (if Bits.has (y.mask mc b.vl) e then va else vb) (y.mode .fmode) e)
  | .vbcast vd sa k => some (vd, k, [], fun _ b _ => ((b.f sa).toNat, 0))
  | _ => none

/-- The special functions with their operands (R233). -/
def specialOf : Instr → Option (Special × VReg × VReg × Rnd × MaskOp)
  | .vsqrt vd va r k => some (.sqrt, vd, va, r, k)
  | .vrcp vd va r k => some (.rcp, vd, va, r, k)
  | .vrsq vd va r k => some (.rsq, vd, va, r, k)
  | .vexp vd va r k => some (.exp, vd, va, r, k)
  | .vlog vd va r k => some (.log, vd, va, r, k)
  | .vsig vd va r k => some (.sig, vd, va, r, k)
  | .vtanh vd va r k => some (.tanh, vd, va, r, k)
  | _ => none

/-- A condition between integers (R242). -/
def condInt (c : Cond) (x y : Int) : Bool :=
  match c with
  | .eq => decide (x = y)
  | .ne => decide (x ≠ y)
  | .lt => decide (x < y)
  | .le => decide (x ≤ y)
  | .gt => decide (x > y)
  | .ge => decide (x ≥ y)

/-- The instructions that write a mask (R242, R243, R246, R290): destination, mask operand, sources, and the bit of an element. -/
def maskOf : Instr → Option (MReg × MaskOp × List VReg × (Hart → Bolt → Nat → Bool))
  | .vcmp md va vb c k => some (md, k, [va, vb], fun y _ e => Val.compare c (y.val va e) (y.val vb e))
  | .vcmpn md va vb c k => some (md, k, [va, vb], fun y _ e => condInt c (y.code va e) (y.code vb e))
  | .mand md ma mb k => some (md, k, [], fun y b e => Bits.has (y.mask ma b.vl) e && Bits.has (y.mask mb b.vl) e)
  | .mor md ma mb k => some (md, k, [], fun y b e => Bits.has (y.mask ma b.vl) e || Bits.has (y.mask mb b.vl) e)
  | .mxor md ma mb k => some (md, k, [], fun y b e => xor (Bits.has (y.mask ma b.vl) e) (Bits.has (y.mask mb b.vl) e))
  | .mnot md ma k => some (md, k, [], fun y b e => !(Bits.has (y.mask ma b.vl) e))
  | .mset md .zero k => some (md, k, [], fun _ _ _ => false)
  | .mset md .one k => some (md, k, [], fun _ _ _ => true)
  | .mset md (.below sa) k => some (md, k, [], fun _ b e => decide (e < (b.f sa).toNat))
  | _ => none

/-- The reductions (R247, R249): destination, mask operand, sources, and the code and flags of element 0. -/
def reduceOf : Instr → Option (VReg × MaskOp × List VReg × (Hart → Bolt → Nat × Fl))
  | .vrsum vd va r k => some (vd, k, [va], sumOf vd va r k)
  | .vrmax vd va r k => some (vd, k, [va], extremeOf true vd va r k)
  | .vrmin vd va r k => some (vd, k, [va], extremeOf false vd va r k)
  | .vrand vd va _ k => some (vd, k, [va], fun y b =>
      ((b.actives y k).foldl (fun c e => c &&& y.code va e) (2 ^ (y.tag va).width - 1), 0))
  | .vror vd va _ k => some (vd, k, [va], fun y b => ((b.actives y k).foldl (fun c e => c ||| y.code va e) 0, 0))
  | .vrdot vd va vb r k => some (vd, k, [va, vb], dotOf vd va vb r k)
  | _ => none

/-- The fixed tree of R93 over the entries at the 2^n indices from 0: two halves, each by its own tree, then the operation. -/
def treeOf {α : Type} (op : α → α → α × Fl) : Nat → (Nat → α) → α × Fl
  | 0, f => (f 0, 0)
  | n + 1, f =>
    let p := treeOf op n f
    let q := treeOf op n (fun i => f (i + 2 ^ n))
    let z := op p.1 q.1
    (z.1, z.2 ||| p.2 ||| q.2)
/-- A value rounded to the tag of `vd`, which it then holds, with its code and flags (R93, R247). -/
def Hart.entryOf (y : Hart) (vd : VReg) (md : Mode) (real : Bool) (v : Val × Fl) : Entry × Fl :=
  let c := y.narrowTo vd md false real (v.1.res, v.2)
  (((y.tag vd).value c.1, some c.1), c.2)
/-- The code and flags of the root of a tree: as its node wrote it, or its only entry rounded. -/
def Hart.rootOf (y : Hart) (vd : VReg) (md : Mode) (real : Bool) (p : Entry × Fl) : Nat × Fl :=
  match p.1.2 with
  | some c => (c, p.2)
  | none => ((y.entryOf vd md real (p.1.1, 0)).1.2.getD 0, p.2 ||| (y.entryOf vd md real (p.1.1, 0)).2)
/-- `n` is the height of the tree over `vl` elements: 2^n is the least power of two of at least `vl` entries, and of at least one. -/
abbrev treeHeight (vl n : Nat) : Prop := vl ≤ 2 ^ n ∧ (∀ m < n, 2 ^ m < vl) ∧ n < 32

/-- The permutations (R250-R254): destination, mask operand, sources, and the elements written, each with the element it takes, or none for zero. -/
def movesOf : Instr → Option (VReg × MaskOp × List VReg × (Hart → Bolt → Moves))
  | .vslup vd va amt k => some (vd, k, [va], fun y b =>
      ((b.actives y k).filter (fun e => decide (SlideAmt.dist b amt ≤ e))).map (fun e => (e, some (va, e - SlideAmt.dist b amt))))
  | .vsldn vd va amt k => some (vd, k, [va], fun y b =>
      (b.actives y k).map (fun e =>
        (e, if e + SlideAmt.dist b amt < b.vl then some (va, e + SlideAmt.dist b amt) else none)))
  | .vgthr vd va vb k => some (vd, k, [va, vb], fun y b =>
      (b.actives y k).map (fun e =>
        (e, if 0 ≤ (y.val vb e).toInt ∧ (y.val vb e).toInt < b.vl then some (va, (y.val vb e).toInt.toNat) else none)))
  | .vcomp vd va k => some (vd, k, [va], fun y b =>
      (upTo b.vl).map (fun j => (j, ((b.actives y k)[j]?).map (fun e => (va, e)))))
  | .vexpd vd va k => some (vd, k, [va], fun y b =>
      ((b.actives y k).zip (upTo (b.actives y k).length)).map (fun p => (p.1, some (va, p.2))))
  | .vrev vd va k => some (vd, k, [va], fun y b => (b.actives y k).map (fun e => (e, some (va, b.vl - 1 - e))))
  | .vzip vd va vb n k => some (vd, k, [va, vb], fun y b =>
      (b.actives y k).map (fun e =>
        let i := e / 2 + if n then b.vl / 2 else 0
        (e, if i < b.vl then some (if e % 2 = 0 then va else vb, i) else none)))
  | .vunzip vd va vb n k => some (vd, k, [va, vb], fun y b =>
      (b.actives y k).map (fun e =>
        let j := 2 * e + if n then 1 else 0
        (e, if j < b.vl then some (va, j) else some (vb, j - b.vl))))
  | _ => none
/-- The cause of a bolt word that names the vector registers `rs`, has the checks `cs` of R306 in their order, each a code and what
must hold, and writes the registers `ws` (R164): ILLEGAL_OPERAND 17 for a register the configuration does not have, the first
check that fails, FLUME_WRITE for a bound register. -/
def Hart.faultOf (x : Hart) (rs : List VReg) (cs : List (Nat × Bool)) (ws : List VReg) : Option Nat :=
  if rs.any (fun v => decide (x.cfg.nreg ≤ v.toNat)) then some 17
  else match cs.find? (fun c => !c.2) with
    | some c => some c.1
    | none => if ws.any (fun v => (x.bindOf v.toNat).isSome) then some 56 else none

/-! ### Fragments -/

/-- The running bolt `b`, with the bolts `bs` behind it, ends its convoy with the fragments `fs`. -/
def State.goesOn (s : State) (b : Bolt) (bs : List Bolt) (fs : List Frag) : State :=
  s.modMe (fun x => { x with bolts := Bolt.choose { b with convoy := [], frags := fs } :: bs, vwait := none })
/-- The parked fragments of the running hart's other bolts, those set aside among them (R17, R387). -/
def State.parkedElsewhere (s : State) : List Frag :=
  (s.me.bolts.tail ++ s.me.frames.flatMap (·.bolts)).flatMap (fun b => b.frags.tail)
/-- PFSPILL's capacity (R17). -/
def Hart.spillCap (x : Hart) : Nat := (x.pfspill.extractLsb' 24 16).toNat
/-- The place of spill slot `i` (R17). -/
def Hart.spillAt (x : Hart) (b : Bolt) (i : Nat) : Nat := (x.pfspill.extractLsb' 9 15).toNat * 512 + i * spillSize b.mvl
/-- Slot `i` is the lowest of the spill area that no parked fragment has. -/
abbrev Hart.lowestFree (x : Hart) (parked : List Frag) (i : Nat) : Prop :=
  i < x.spillCap ∧ (∀ j < i, ∃ g ∈ parked, g.slot = some j) ∧ ∀ g ∈ parked, g.slot ≠ some i
/-- Fragment `g` of bolt `b` parked beside others as `g'` (R17): in the buffer while fewer than 8 are, else in the lowest free spill
slot, in scratchpad the hart holds. -/
def State.parks (s : State) (parked : List Frag) (b : Bolt) (g g' : Frag) (u : State) : Prop :=
  let n := (parked.filter (fun g => g.slot.isNone)).length
  (n < 8 ∧ g' = g ∧ u = s) ∨
    (8 ≤ n ∧ ∃ i, s.me.lowestFree parked i ∧ s.me.spillAt b i + spillSize b.mvl ≤ 2 ^ 24 ∧
      s.holdsRange (s.me.spillAt b i) (spillSize b.mvl) = true ∧ g' = { g with slot := some i } ∧
      u = s.modMyCore (fun c => { c with
        scratch := Memory.write (Memory.write c.scratch (s.me.spillAt b i) 64 g.pc) (s.me.spillAt b i + 64) b.mvl g.mask }))
/-- A fragment of bolt `b` that cannot be parked beside others (R17): FRAG_OVERFLOW, SP_RANGE or LOT_NOT_HELD, with TADDR. -/
def State.parkCause (s : State) (parked : List Frag) (b : Bolt) (c a : Nat) : Prop :=
  8 ≤ (parked.filter (fun g => g.slot.isNone)).length ∧
    ((c = 55 ∧ a = 0 ∧ ∀ i < s.me.spillCap, ∃ g ∈ parked, g.slot = some i) ∨
      ∃ i, s.me.lowestFree parked i ∧
        ((c = 60 ∧ 2 ^ 24 < s.me.spillAt b i + spillSize b.mvl ∧ a = max (s.me.spillAt b i) (2 ^ 24)) ∨
          (c = 199 ∧ a = 0 ∧ s.me.spillAt b i + spillSize b.mvl ≤ 2 ^ 24 ∧
            s.holdsRange (s.me.spillAt b i) (spillSize b.mvl) = false)))
/-- The running fragment `f` of bolt `b`, beside its others `fs`, moves to `t` with outcome `v` (R14, R17): it runs on while no other
is lower, and else is parked while the lowest of the others returns. -/
def State.movesTo (s : State) (b : Bolt) (bs : List Bolt) (f : Frag) (fs : List Frag) (t : Nat)
    (v : Host.Outcome State Fault Refusal) : Prop :=
  ((∀ g ∈ fs, t ≤ g.pc) → v = .next (s.goesOn b bs (⟨t, f.mask, none⟩ :: fs))) ∧
  (∀ low < t, (∃ g ∈ fs, g.pc = low) → (∀ g ∈ fs, low ≤ g.pc) →
    let parked := fs.filter (fun g => !(decide (g.pc = low))) ++ s.parkedElsewhere
    (∀ g' u, s.parks parked b ⟨t, f.mask, none⟩ g' u → v = .next (u.goesOn b bs (g' :: fs))) ∧
    (∀ c a, s.parkCause parked b c a → v = .next (s.takeTrap (s.vecTrap c a))))
/-- A branch of bolt `b` to the word at `t` with outcome `v` (R219): a word that cannot be fetched gives its cause, one of a migrating
page is waited for, one without CB takes 33, and with CB `good` holds. -/
def State.branchesTo (s : State) (b : Bolt) (t : Nat) (v : Host.Outcome State Fault Refusal) (good : Prop) : Prop :=
  (∀ q, s.boltWord s.cur b.ahead t = .error q → v = .next (s.takeTrap { s.vecTrap q.1 q.2.1 with
    detail := if q.2.2 = 0 then (s.vecTrap q.1 q.2.1).detail else q.2.2 })) ∧
  (∀ w, s.boltWord s.cur b.ahead t = .ok w →
    (∀ va, b.ahead.all (fun p => decide (p.1 ≠ t)) = true → s.blocked s.me.asid t 64 = some va →
      v = .next (s.vwaitFor (.page va 1) (some (2 ^ 24)))) ∧
    ((∃ p ∈ b.ahead, p.1 = t) ∨ s.blocked s.me.asid t 64 = none →
      (hasCB w = false → v = .next (s.takeTrap (s.vecTrap 33 0))) ∧ (hasCB w = true → good)))

/-- What a permutation writes of one element (R255). -/
def Hart.movedTo (y : Hart) (vd : VReg) (p : Nat × Option (VReg × Nat)) : Nat × Nat × Fl :=
  match p.2 with
  | none => (p.1, (y.tag vd).zeroCode, 0)
  | some (v, j) => (p.1, y.moved vd v (y.mode .fmode) j)

/-! ### Vector memory -/

/-- A footprint that the running bolt's access finds free: its token covers it (R126), no page of it migrates (R129), no earlier
transfer and no access of the vector stream not yet performed meets it (R135, R142), and the host answers it (R307). -/
abbrev State.vecFree (s : State) (b : Bolt) (tok : Nat) (kind : AccKind) (cls consumer : Nat) (fp : List Foot) : Prop :=
  s.probeCause tok kind cls consumer fp = none ∧ fp.all (fun p => (s.blocked (s.spaceOf s.cur tok) p.a p.w).isNone) = true ∧
    fp.all (fun p => !(s.vecInterlocked b.seq p.a p.w kind.writes)) = true ∧
    fp.all (fun p => !(s.lateMeets (s.spaceOf s.cur tok) kind p)) = true ∧
    fp.all (fun p => s.answers (s.spaceOf s.cur tok) p.a p.w) = true
/-- A footprint that it reaches at once: what it stores is not left to be performed later (R142). -/
abbrev State.vecReaches (s : State) (b : Bolt) (tok : Nat) (kind : AccKind) (cls consumer : Nat) (fp : List Foot) : Prop :=
  s.vecFree b tok kind cls consumer fp ∧ (kind = .wr → s.late = false)
/-- A scratchpad footprint that is reached at once: it lies below 2^24 (R105), in quarters the hart holds (R259), and no earlier
transfer meets it (R262), but for a copy whose bits an access that chains reads have arrived, of which it has read none yet (R136). -/
abbrev State.scratchReaches (s : State) (b : Bolt) (chain write : Bool) (fp : List Foot) : Prop :=
  fp.all (fun p => (p.outside 0 scratchBits).isNone) = true ∧
    fp.all (fun p => s.holdsRange p.a p.w) = true ∧ (chain = true → b.chain = []) ∧
    ∀ p ∈ fp, ∀ t ∈ s.xfers, t.hart = s.cur → t.uid = s.me.uid → t.behind.contains b.seq = false →
      t.meets (aperture + p.a) p.w write = true → chain = true ∧ t.arrived (aperture + p.a) p.w = true
/-- A footprint reached at once where an instruction has it. -/
abbrev State.footReaches (s : State) (b : Bolt) (w : Where) (kind : AccKind) (consumer : Nat) (fp : List Foot) : Prop :=
  match w with
  | .mem k => s.vecReaches b k.toNat kind (match kind with
      | .rd => 5
      | .wr => 6
      | .rmw => 7) consumer fp
  | .scratch chain => s.scratchReaches b chain kind.writes fp

/-- The bits of a footprint part read where it stands, at a scope. -/
def State.footRead (s : State) (w : Where) (sc : Scope) (p : Foot) : Nat × State :=
  match w with
  | .mem k => s.vread (s.spaceOf s.cur k.toNat) (groveOf s.cur) sc p.a p.w
  | .scratch _ => (Memory.read s.myCore.scratch p.a p.w, s)
/-- The parts of a footprint read in turn. -/
def State.feetRead (w : Where) : State → List Foot → List Nat × State
  | s, [] => ([], s)
  | s, p :: t =>
    let m := s.footRead w .grove p
    let r := State.feetRead w m.2 t
    (m.1 :: r.1, r.2)
/-- Bits written where a footprint part stands. -/
def State.footWrite (s : State) (w : Where) (sc : Scope) (p : Foot) (v : Nat) : State :=
  match w with
  | .mem k => s.vwrite (s.spaceOf s.cur k.toNat) (groveOf s.cur) sc p.a p.w v
  | .scratch _ => s.modMyCore (fun c => { c with scratch := Memory.write c.scratch p.a p.w v })
/-- Writes performed in turn. -/
def State.feetWrite (w : Where) : State → List Put → State
  | s, [] => s
  | s, p :: t => State.feetWrite w (s.footWrite w .grove p.foot p.v) t

/-- An access of one element a part: register, sources, conversion, place, mask and addresses. -/
structure VAccess where
  vd : VReg
  srcs : List VReg
  r : Rnd
  fx : BitVec 4
  w : Where
  k : MaskOp
  addr : Hart → Bolt → Nat → Nat
  inside : Bolt → Nat → Bool

/-- The vector loads of R258: `inside` is the box of VLDM. -/
def loadOf : Instr → Option VAccess
  | .vld vd sa r disp fx tok k => some ⟨vd, [], r, fx, .mem tok, k,
      fun y b e => addrPlus (b.base sa disp) (e * (memTag (y.tag vd) fx).width : Nat), fun _ _ => true⟩
  | .vlds vd sa sb r disp fx tok k => some ⟨vd, [], r, fx, .mem tok, k,
      fun _ b e => addrPlus (b.base sa disp) (e * (b.f sb).toInt), fun _ _ => true⟩
  | .vldx vd sa vb r disp fx tok k | .vldxo vd sa vb r disp fx tok k => some ⟨vd, [vb], r, fx, .mem tok, k,
      fun y b e => addrPlus (b.base sa disp) (y.val vb e).toInt, fun _ _ => true⟩
  | .vldm vd sa r disp fx tok k => some ⟨vd, [], r, fx, .mem tok, k,
      fun _ b e => addrPlus (b.base sa disp) (b.boxAt e), fun b e => decide (e < b.len 0 * b.len 1 * b.len 2)⟩
  | .vldsp vd sa sb r disp fx k => some ⟨vd, [], r, fx, .scratch true, k,
      fun y b e => addrPlus (b.base sa disp)
        (if sb = 0 then (e * (memTag (y.tag vd) fx).width : Nat) else e * (b.f sb).toInt), fun _ _ => true⟩
  | .vldspx vd sa vb r disp fx k => some ⟨vd, [vb], r, fx, .scratch false, k,
      fun y b e => addrPlus (b.base sa disp) (y.val vb e).toInt, fun _ _ => true⟩
  | _ => none
/-- The vector stores of R258, with whether overlapping elements are written in ascending order (R260). -/
def storeOf : Instr → Option (VAccess × Bool)
  | .vst vd sa r disp fx tok k => some (⟨vd, [vd], r, fx, .mem tok, k,
      fun y b e => addrPlus (b.base sa disp) (e * (memTag (y.tag vd) fx).width : Nat), fun _ _ => true⟩, false)
  | .vsts vd sa sb r disp fx tok k => some (⟨vd, [vd], r, fx, .mem tok, k,
      fun _ b e => addrPlus (b.base sa disp) (e * (b.f sb).toInt), fun _ _ => true⟩, false)
  | .vstx vd sa vb r disp fx tok k => some (⟨vd, [vd, vb], r, fx, .mem tok, k,
      fun y b e => addrPlus (b.base sa disp) (y.val vb e).toInt, fun _ _ => true⟩, false)
  | .vstxo vd sa vb r disp fx tok k => some (⟨vd, [vd, vb], r, fx, .mem tok, k,
      fun y b e => addrPlus (b.base sa disp) (y.val vb e).toInt, fun _ _ => true⟩, true)
  | .vstm vd sa r disp fx tok k => some (⟨vd, [vd], r, fx, .mem tok, k,
      fun _ b e => addrPlus (b.base sa disp) (b.boxAt e), fun b e => decide (e < b.len 0 * b.len 1 * b.len 2)⟩, false)
  | .vstsp vd sa sb r disp fx k => some (⟨vd, [vd], r, fx, .scratch false, k,
      fun y b e => addrPlus (b.base sa disp)
        (if sb = 0 then (e * (memTag (y.tag vd) fx).width : Nat) else e * (b.f sb).toInt), fun _ _ => true⟩, false)
  | .vstspx vd sa vb r disp fx k => some (⟨vd, [vd, vb], r, fx, .scratch false, k,
      fun y b e => addrPlus (b.base sa disp) (y.val vb e).toInt, fun _ _ => true⟩, false)
  | _ => none
/-- The active elements of an access that lie inside its box. -/
def VAccess.elems (v : VAccess) (x : Hart) (b : Bolt) : List Nat := (b.actives x v.k).filter (v.inside b)
/-- Its footprint. -/
def VAccess.feet (v : VAccess) (x : Hart) (b : Bolt) : List Foot :=
  (v.elems x b).map (fun e => ⟨e, v.addr x b e, (memTag (x.tag v.vd) v.fx).width⟩)

/-- The vector atomics (R263): operation, port form, whether vd is the comparand, registers, scope, place, no-return,
displacement, memory tag and mask. -/
structure VAtomic where
  op : AtomicOp
  form : PortForm
  cmp : Bool
  vd : VReg
  sa : Reg
  vb : VReg
  vc : VReg
  sc : Scope
  w : Where
  nr : Bool
  disp : BitVec 12
  fx : BitVec 4
  k : MaskOp
/-- Where a vector atomic works. -/
def atomWhere (sp : Bool) (tok : Tok) : Where := if sp then .scratch false else .mem tok
/-- The vector atomics of R263 for a hart. -/
def vatomOf (x : Hart) : Instr → Option VAtomic
  | .vaadd vd sa vb vc sc sp nr disp fx tok k => some ⟨atomicSum,
      if (memTag (x.tag vc) fx).isInt then .fetchAdd else .none, false, vd, sa, vb, vc, sc, atomWhere sp tok, nr, disp, fx, k⟩
  | .vamin vd sa vb vc sc sp nr disp fx tok k =>
    some ⟨atomicPick false, .none, false, vd, sa, vb, vc, sc, atomWhere sp tok, nr, disp, fx, k⟩
  | .vamax vd sa vb vc sc sp nr disp fx tok k =>
    some ⟨atomicPick true, .none, false, vd, sa, vb, vc, sc, atomWhere sp tok, nr, disp, fx, k⟩
  | .vaand vd sa vb vc sc sp nr disp fx tok k =>
    some ⟨fun _ o v _ => some (o &&& v), .none, false, vd, sa, vb, vc, sc, atomWhere sp tok, nr, disp, fx, k⟩
  | .vaor vd sa vb vc sc sp nr disp fx tok k =>
    some ⟨fun _ o v _ => some (o ||| v), .none, false, vd, sa, vb, vc, sc, atomWhere sp tok, nr, disp, fx, k⟩
  | .vaxor vd sa vb vc sc sp nr disp fx tok k =>
    some ⟨fun _ o v _ => some (o ^^^ v), .none, false, vd, sa, vb, vc, sc, atomWhere sp tok, nr, disp, fx, k⟩
  | .vaswap vd sa vb vc sc sp nr disp fx tok k =>
    some ⟨fun _ _ v _ => some v, .swap, false, vd, sa, vb, vc, sc, atomWhere sp tok, nr, disp, fx, k⟩
  | .vacas vd sa vb vc sc sp nr disp fx tok k =>
    some ⟨fun _ o v c => if o = c then some v else none, .cas, true, vd, sa, vb, vc, sc, atomWhere sp tok, nr, disp, fx, k⟩
  | _ => none
/-- Its sources. -/
def VAtomic.srcs (v : VAtomic) : List VReg := [v.vc, v.vb] ++ if v.cmp then [v.vd] else []
/-- Its elements: footprint part, operand code and comparand code in the memory tag. -/
def VAtomic.parts (v : VAtomic) (x : Hart) (b : Bolt) : List (Foot × Nat × Nat) :=
  let mt := memTag (x.tag v.vc) v.fx
  let code (r : VReg) (e : Nat) : Nat := (conv (x.tag r) mt .rne x.satfin (x.code r e)).1
  (b.actives x v.k).map (fun e => (⟨e, addrPlus (b.base v.sa v.disp) (x.val v.vb e).toInt, mt.width⟩, code v.vc e,
    if v.cmp then code v.vd e else 0))
/-- Its elements performed in turn: the old codes by element. -/
def State.atomicsRun (v : VAtomic) (mt : Tag) : State → List (Foot × Nat × Nat) → List (Nat × Nat) × State
  | s, [] => ([], s)
  | s, p :: t =>
    let m := s.footRead v.w v.sc p.1
    let s1 := match v.op mt m.1 p.2.1 p.2.2 with
      | some c => m.2.footWrite v.w v.sc p.1 c
      | none => m.2
    let r := State.atomicsRun v mt s1 t
    ((p.1.e, m.1) :: r.1, r.2)

/-! ### The matrix engine -/

/-- The running hart's bolt `b` is whole and clean, its operand checks pass, and the hart holds the engine and the slabs of rows
`n` to `n + rows - 1` (R20, R267). -/
abbrev State.mxAt (s : State) (i : Instr) (b : Bolt) (n rows : Nat) : Prop :=
  s.boltAt i b ∧ b.frags.length ≤ 1 ∧ s.holds 3 0 = true ∧ n + rows ≤ 1024 ∧
    (upFrom n rows).all (fun r => s.holds 1 (r / 128)) = true

/-- A matrix instruction begins or goes on at its position (R274): the bolt and the state as it sees them. -/
def Bolt.mx (b : Bolt) : Bolt := { b with mpos := some (b.mpos.getD .start) }
/-- The state as a matrix instruction sees it. -/
def State.mx (s : State) : State := s.modMe (fun x => x.modBolt Bolt.mx)
/-- Token `k` lets a tile be used: it is not revoked (R268). -/
abbrev Hart.tokenStands (x : Hart) (k : Nat) : Prop := (x.tok k).st = .live ∨ (x.tok k).st = .free
/-- Tile `t` of the running hart's core is VALID, and what it is attached to stands (R268). -/
abbrev State.tileStands (s : State) (t : Nat) (x : Tile) : Prop :=
  s.myCore.tile t = x ∧ x.st = .valid ∧ ∀ k, x.tok = some k → s.me.tokenStands k
/-- Scales of the k below K stand in the scale file, and none is being loaded (R88, R272). -/
abbrev State.scalesStand (s : State) (b : Bolt) (n : Nat) : Prop :=
  ∀ k < n, s.me.scaleIndex k ≤ 2047 ∧ s.scaleFilling b.seq (s.me.scaleIndex k) = false
/-- The products of one group added into row `r` (R92, R266, R272, R275): every column gains the exact sum over the supplied k,
CHK the sum of the checksum columns, and the row records its arrival word; every other row, the tiles, the scratchpad, the
generators and the lots are as before. -/
def Core.groupAdded (c c' : Core) (x : Tile) (f32 zero : Bool) (g r : Nat) (acts : List (Nat × Val)) (arr : Option Word) : Prop :=
  (∀ j < 256, Tab.get 0 c'.acc (256 * r + j) = BitVec.ofNat 32 (addGroup f32 (if zero then 0 else c.accAt r j)
    (acts.map (fun p => if f32 then mulVal (mulVal p.2 (x.weight p.1 j)) (x.scale g j)
      else mulVal p.2 (x.weight p.1 j))))) ∧
  (c'.row r).chk = BitVec.ofNat 32 (addGroup f32 (if zero then 0 else (c.row r).chk.toNat)
    (acts.map (fun p => mulVal p.2 (if f32 then x.c p.1 else Val.ofInt (x.u p.1))))) ∧
  (c'.row r).arr = arr ∧
  (∀ q j, q ≠ r → j < 256 → Tab.get 0 c'.acc (256 * q + j) = Tab.get 0 c.acc (256 * q + j)) ∧ (∀ q, q ≠ r → c'.row q = c.row q) ∧
  c'.tiles = c.tiles ∧ c'.scratch = c.scratch ∧ c'.gens = c.gens ∧ c'.lots = c.lots ∧ c'.claims = c.claims
/-- The rows `rs` written, and nothing else of a core's (R279). -/
def Core.rowsSet (c c' : Core) (rs : List Nat) (f : Nat → Nat → Nat) (chk : Nat) : Prop :=
  (∀ r ∈ rs, ∀ j < 256, Tab.get 0 c'.acc (256 * r + j) = BitVec.ofNat 32 (f r j)) ∧
  (∀ r ∈ rs, c'.row r = ⟨BitVec.ofNat 32 chk, none⟩) ∧
  (∀ q j, q ∉ rs → j < 256 → Tab.get 0 c'.acc (256 * q + j) = Tab.get 0 c.acc (256 * q + j)) ∧
  (∀ q, q ∉ rs → c'.row q = c.row q) ∧
  c'.tiles = c.tiles ∧ c'.scratch = c.scratch ∧ c'.gens = c.gens ∧ c'.lots = c.lots ∧ c'.claims = c.claims
/-- The state after a matrix instruction completes from `u`: at once without an arrival word, and after an arrival on its word at
dev scope with release, behind the hart's vector accesses, otherwise (R138, R273). -/
def State.mxDone (u : State) (b : Bolt) (sc : Reg) (v : State) : Prop :=
  (sc = 0 ∧ v = u.modMe Hart.mxNext) ∨
    (sc ≠ 0 ∧ u.blocked u.me.asid (b.f sc).toNat 64 = none ∧ u.vecInterlocked b.seq (b.f sc).toNat 64 true = false ∧
      ∃ w, (u.drainBy u.cur (·.vec)).arriveOn u.cur u.me.asid (b.f sc).toNat 1 none = .ok w ∧ v = w.modMe Hart.mxNext)
/-- An arrival word a matrix instruction names may be named (R138). -/
abbrev State.arrivalStands (s : State) (b : Bolt) (sc : Reg) : Prop :=
  sc = 0 ∨ ((b.f sc).toNat % 64 = 0 ∧ s.checkAccess s.me.asid (b.f sc).toNat 64 .rmw = none ∧
    (isHost (s.physOf (b.f sc).toNat) && hostPort (s.physOf (b.f sc).toNat) == 1) = false)

/-! ### Engine operations -/

/-- A range of an engine's operand that R197 lets issue: empty, or in the scratchpad aperture within quarters the hart holds, or
canonical memory below the aperture. -/
abbrev State.engRange (s : State) (a n : Nat) : Prop :=
  n = 0 ∨ (aperture ≤ a ∧ a + n ≤ 2 ^ 64 ∧ s.holdsRange (a - aperture) n = true) ∨
    (a + n ≤ aperture ∧ nonCanonical a n = none)
/-- A transfer issued by the running hart (R197): its counter rises by one, it is entered behind the others, and the PC
advances. -/
def State.issued (s : State) (t : Xfer) : State :=
  let s1 := s.modMe (fun x => { x with ctrs := Tab.set 0 x.ctrs t.cn (Tab.get 0 x.ctrs t.cn + 1) })
  { s1 with xfers := s1.xfers ++ [{ t with id := s1.nextUid }], nextUid := s1.nextUid + 1 }.modMe Hart.advance

/-- A transfer's access of a range in one page that meets nothing: the scratchpad through the aperture, or memory its engine may
reach (R131). -/
abbrev Xfer.canAt (t : Xfer) (s : State) (a n : Nat) (k : AccKind) (cls : Nat) : Prop :=
  (aperture ≤ a ∧ a + n ≤ 2 ^ 64) ∨ (a + n ≤ aperture ∧ s.engCheck t.hart t.asid a n k cls = none)
/-- What a transfer reads there: the scratchpad of its hart's core, or memory at dev scope. -/
def Xfer.readAt (t : Xfer) (s : State) (a n : Nat) : Nat × State :=
  if aperture ≤ a then (Memory.read (s.core (coreOf t.hart)).scratch (a - aperture) n, s)
  else s.vread t.asid (groveOf t.hart) .dev a n
/-- What it writes there. -/
def Xfer.writeAt (t : Xfer) (s : State) (a n v : Nat) : State :=
  if aperture ≤ a then
    s.setCore (coreOf t.hart) { s.core (coreOf t.hart) with
      scratch := Memory.write (s.core (coreOf t.hart)).scratch (a - aperture) n v }
  else s.vwrite t.asid (groveOf t.hart) .dev a n v

/-! ### The device's own steps -/

/-- A command of the mailbox stands submitted, not yet accepted and without a reserved bit, and the controller takes it (R345). -/
abbrev State.called (s : State) (op : Nat) : Prop :=
  s.host.own = true ∧ s.host.accepted = false ∧ s.host.op = op ∧ s.boot.hunikHalted = false ∧ s.host.badHeader = false
/-- A command is submitted in READY (R346). -/
abbrev State.submitted (s : State) (op : Nat) : Prop := s.called op ∧ s.boot.st = .ready
/-- The state as an accepted command begins: MBOVR is clear (R345). -/
def State.accepted (s : State) : State := { s with host := { s.host with mbovr := false, accepted := true } }
/-- Hart `x` is placed in slot `h`, the first free one of core `k`, with the fixed lots of a packet, by ascending index (R27,
R38); no other hart, no other lot and no byte of memory changes. -/
def State.placedAt (s t : State) (k h p : Nat) (x : Hart) : Prop :=
  (s.freeSlots k).head? = some (h % 8) ∧ h / 8 = k ∧ t.hart h = x ∧ (∀ g, g ≠ h → t.hart g = s.hart g) ∧
  (∀ kind i, kind < 4 → i < lotCount kind → (t.core k).lot kind i =
    if i ∈ ((s.core k).freeLots kind).take (pktLots p kind) then ⟨1, BitVec.ofNat 3 (h % 8), 0, none, x.uid⟩
    else (s.core k).lot kind i) ∧
  (∀ j, j ≠ k → t.core j = s.core j) ∧ t.dev = s.dev ∧ t.hostMem = s.hostMem
/-- Nothing has been written to the save area of `v` since it was saved (R373): every item is as the save wrote it. -/
def State.areaStands (s : State) (v : Saved) : Prop :=
  ∀ i < v.items.length,
    v.image i (v.fields i) = Memory.window s.dev ((v.area + v.offset i) / 8) (up512 (v.items.getD i 0) / 8)

/-- A response word of a mailbox command. -/
abbrev HostSide.mbStatus (x : HostSide) : Nat := (x.mbHdr.extractLsb' 48 8).toNat

/-- Hart `h` waits for `k`. -/
abbrev State.waitsFor (s : State) (h : Nat) (k : WaitKind) : Prop := (s.waitOf h).map (·.kind) = some k
/-- Hart `h` waits for `k`, and its timeout has passed. -/
abbrev State.timedOut (s : State) (h : Nat) (k : WaitKind) : Prop :=
  s.waitsFor h k ∧ ((s.waitOf h).map (fun w => w.expired s.cycle)) = some true

end Sys2Proof.Machine
end

