-- ==== Sys2Proof/Certificates/Slice0/Obligations.lean ====
section
/-!
DEFINITION. The statements about this model: encoding, the invariant of the memories, the effect of every instruction and of
every other step of the device, the traps it takes, and what it leaves as it was.
-/
open Sys2Proof Sys2Proof.Machine

/-! ### Encoding, decoding and the step -/

/-- Stem words of the tables of R170 and R208, stem words written out from the encodings of R157 and R176-R183, and the bolt
words of the worked encodings decode to the instructions they stand for. -/
def Obligations.WorkedWordsDecode : Prop :=
  decodeStem 0x28BFFFFF = .ok (.li 5 0x1FFFFF) ∧
  decodeStem 0x28A048D1 = .ok (.li 5 0x48D1) ∧
  decodeStem 0x2CAB3C4D = .ok (.lih 5 0xB3C4D) ∧
  decodeStem 0x909437F0 = .ok (.casq 4 20 6 .sys) ∧
  decodeStem 0x94000140 = .ok (.fence .sv .grove) ∧
  decodeStem 0x9CB6326A = .ok (.waitb 5 22 6 .dev 10) ∧
  decodeStem 0xA8AC000A = .ok (.claim 5 12 0 2 true) ∧
  decodeStem 0xB4003005 = .ok (.trap 5) ∧
  decodeBolt 0xCE0D800000000000 = .ok (.vbcast 3 24 ⟨0, false⟩) ∧
  decodeBolt 0x5209100000100000 = .ok (.vld 2 17 .fmode 0 0 1 ⟨0, false⟩) ∧
  decodeBolt 0xA408304200000000 = .ok (.vfma 2 3 1 2 .fmode ⟨0, false⟩) ∧
  decodeTableWord 32 0xB4003005 = some (.trap 5)

/-- Decoding an encoded well-formed instruction gives it back, whatever its operands. -/
def Obligations.DecodeOfEncode : Prop :=  ∀ (i : Instr) (c : Code), i.wellFormed = true → encode i = some c → decode c = .ok i

/-- The stem side of a hart runs the instruction its PC names: a placed hart that executes, waits for nothing, has no event
due and does not stand at the default handler, and whose fetch answers a word (R386), no structure holding an error,
executes the decoded instruction; what the hart is yet to write to registers that the instruction names is written before it
(R142), registers it writes whole hold no error (R324), after it come the charge and the STEP trap of R43 and R304, and its
access takes its place among those that a migrating page holds (R129). The step of the device, with that hart's stem first
in its agenda (log 2), is this one and the cycle that passes. -/
def Obligations.StepRunsTheStemWord : Prop :=
  ∀ (s : State) (h : Nat) (rest : List Sel) (w : BitVec 32) (s1 : State) (i : Instr),
    s.agenda = .stem h :: rest → s.boot.frozen = false → s.boot.st = .ready →
    (s.hart h).placed = true → (s.hart h).halted = false → (s.hart h).wait = none →
    let s0 : State := { s with agenda := rest, cur := h }
    dueEvent h s0 = none → (s.hart h).pc ≠ s.handler →
    fetchStem s0 = .ok (w, s1) → decodeStem w = .ok i → s1.clean →
    let f := s1.forStem h i
    step s = thenNext (exec i f) (fun t =>
      let u := (t.wroteStem h (f.hart h) i).afterStem h (s.hart h) (isTrapInstr i)
      .next (u.noteHeld (.stem h) (u.hart h).wait).tick)

/-- The vector side of a hart runs the next word of its convoy: with a bolt whose convoy is begun, no vector trap due, no
wait and no error held, the step is the decoded instruction's, before which what the hart is yet to write to the frame
registers that the instruction reads is written (R11, R142); after it come its place in the recheck queue in idle mode
(R322), the VSTEP trap of R304, and the place of its access among those that a migrating page holds (R129). An instruction
that has to wait executes again. -/
def Obligations.StepRunsTheBoltWord : Prop :=
  ∀ (s : State) (h : Nat) (rest : List Sel) (b : Bolt) (bs : List Bolt) (pc : Nat) (w : BitVec 64) (ws : List (Nat × BitVec 64))
    (i : Instr),
    s.agenda = .vec h :: rest → s.boot.frozen = false → s.boot.st = .ready →
    (s.hart h).placed = true → (s.hart h).halted = false → (s.hart h).bolts = b :: bs → b.convoy = (pc, w) :: ws →
    (s.hart h).vwait = none → (s.hart h).preempt = none → (s.hart h).vecDue = false → s.clean →
    decodeBolt w = .ok i →
    step s = thenNext (exec i (({ s with agenda := rest, cur := h } : State).forBolt h b i)) (fun t =>
      let u := if (t.hart h).vwait.isSome then t else (t.afterBolt h b i).afterVector h b.seq
      .next (u.noteHeld (.vec h) (u.hart h).vwait).tick)

/-! ### Reset and the invariant -/

/-- Right after reset (R343, R354): STATE is OFF, HSTAT reads zero, and no hart is placed. In a slot where no hart has been
placed the model has its own choice: every scalar register reads zero, SBUDGET is 4,096, the depth is 0, the scale file
holds 0x7F, the masks are empty and no token is held (log 14); and no byte of a memory is listed (log 6). -/
def Obligations.ResetState : Prop :=
  State.reset.boot.st = .off ∧ State.reset.hstat = 0 ∧ State.reset.dev = [] ∧ State.reset.hostMem = [] ∧
    ∀ h : Nat, (State.reset.hart h).placed = false ∧ (∀ r, (State.reset.hart h).reg r = 0) ∧
      (State.reset.hart h).sbudget = 4096 ∧ (State.reset.hart h).depth = 0 ∧ (∀ i, (State.reset.hart h).sfCode i = 0x7F) ∧
      (∀ m vl, (State.reset.hart h).mask m vl = if m = 0 then 2 ^ vl - 1 else 0) ∧ (∀ k, (State.reset.hart h).tok k = Token.none)

/-- The invariant of the memories holds after reset. -/
def Obligations.ResetHasTheInvariant : Prop := State.reset.inv

/-- Every step of the device keeps the canonical form of both memories, and lines of the grove L2s that hold every bit they
have dirty, whatever runs. -/
def Obligations.StepKeepsTheInvariant : Prop := ∀ s t : State, s.inv → step s = .next t → t.inv

/-! ### The stem -/

/-- Major 0x01 (R167): every operation writes its modular result to sd, advances the PC and changes nothing else; none
raises a cause. A write to s0 is discarded, s0 reads zero, and a write to another register changes that register alone (R10,
R166). -/
def Obligations.RegisterArithmetic : Prop :=
  ((∀ p ∈ ([(Instr.add, fun x y => x + y), (Instr.sub, fun x y => x - y), (Instr.mul, fun x y => x * y),
        (Instr.mulh, fun x y => BitVec.ofInt 64 (x.toInt * y.toInt / 2 ^ 64)),
        (Instr.mulhn, fun x y => BitVec.ofNat 64 (x.toNat * y.toNat / 2 ^ 64)),
        (Instr.div, fun x y => if y = 0 then BitVec.allOnes 64 else BitVec.ofInt 64 (x.toInt.tdiv y.toInt)),
        (Instr.divn, fun x y => if y = 0 then BitVec.allOnes 64 else BitVec.ofNat 64 (x.toNat / y.toNat)),
        (Instr.rem, fun x y => BitVec.ofInt 64 (x.toInt.tmod y.toInt)),
        (Instr.remn, fun x y => BitVec.ofNat 64 (x.toNat % y.toNat)),
        (Instr.and, fun x y => x &&& y), (Instr.or, fun x y => x ||| y), (Instr.xor, fun x y => x ^^^ y),
        (Instr.shl, fun x y => x <<< (y.toNat % 64)), (Instr.shr, fun x y => x >>> (y.toNat % 64)),
        (Instr.sra, fun x y => x.sshiftRight (y.toNat % 64)),
        (Instr.slt, fun x y => if x.toInt < y.toInt then 1 else 0), (Instr.sltn, fun x y => if x.toNat < y.toNat then 1 else 0),
        (Instr.min, fun x y => if x.toInt ≤ y.toInt then x else y), (Instr.max, fun x y => if x.toInt ≤ y.toInt then y else x),
        (Instr.minn, fun x y => if x.toNat ≤ y.toNat then x else y),
        (Instr.maxn, fun x y => if x.toNat ≤ y.toNat then y else x)] : List ((Reg → Reg → Reg → Instr) × (Word → Word → Word))),
      ∀ (d a b : Reg) (s : State),
        exec (p.1 d a b) s = .next (s.modMe (fun x => (x.setReg d (p.2 (x.reg a) (x.reg b))).advance))) ∧
    (∀ (d a : Reg) (s : State),
      exec (.clz d a) s = .next (s.modMe (fun x => (x.setReg d
        (BitVec.ofNat 64 ((List.range 64).reverse.takeWhile (fun i => !(x.reg a).getLsbD i)).length)).advance)) ∧
      exec (.popc d a) s = .next (s.modMe (fun x => (x.setReg d
        (BitVec.ofNat 64 ((List.range 64).filter (fun i => (x.reg a).getLsbD i)).length)).advance))) ∧
    (∀ (d a b : Reg) (s : State), ∃ u v : Word,
      let x := s.me.reg a
      let p := (s.me.reg b).toNat % 64
      let n := (s.me.reg b).toNat / 256 % 64 + 1
      exec (.bext d a b) s = .next (s.modMe (fun z => (z.setReg d u).advance)) ∧
      exec (.bins d a b) s = .next (s.modMe (fun z => (z.setReg d v).advance)) ∧
      ∀ i < 64, u.getLsbD i = (decide (i < n) && decide (p + i < 64) && x.getLsbD (p + i)) ∧
        v.getLsbD i = if p ≤ i ∧ i < p + n then x.getLsbD (i - p) else (s.me.reg d).getLsbD i)) ∧
  (∀ (x : Hart) (r q : Reg) (v : Word), x.reg 0 = 0 ∧ x.setReg 0 v = x ∧
      (r ≠ 0 → (x.setReg r v).reg r = v) ∧ (q ≠ r → (x.setReg r v).reg q = x.reg q))

/-- BIX, the SI instructions, LI and LIH (R168-R170). -/
def Obligations.ImmediateArithmetic : Prop :=
  (∀ (d a b : Reg) (w : BitVec 6) (s : State),
    exec (.bix d a b w) s = .next (s.modMe (fun x => (x.setReg d
      (BitVec.ofInt 64 ((x.reg a).toInt + (x.reg b).toInt * (w.toNat + 1)))).advance))) ∧
  (∀ p ∈ ([(Instr.addi, fun x i => BitVec.ofInt 64 (x.toInt + i.toInt)), (Instr.andi, fun x i => x &&& BitVec.ofNat 64 i.toNat),
      (Instr.ori, fun x i => x ||| BitVec.ofNat 64 i.toNat), (Instr.xori, fun x i => x ^^^ BitVec.ofNat 64 i.toNat)] :
      List ((Reg → Reg → BitVec 16 → Instr) × (Word → BitVec 16 → Word))),
    ∀ (d a : Reg) (i : BitVec 16) (s : State),
      exec (p.1 d a i) s = .next (s.modMe (fun x => (x.setReg d (p.2 (x.reg a) i)).advance))) ∧
  (∀ p ∈ ([(Instr.shli, fun x n => x <<< n), (Instr.shri, fun x n => x >>> n), (Instr.srai, fun x n => x.sshiftRight n)] :
      List ((Reg → Reg → BitVec 6 → Instr) × (Word → Nat → Word))),
    ∀ (d a : Reg) (n : BitVec 6) (s : State),
      exec (p.1 d a n) s = .next (s.modMe (fun x => (x.setReg d (p.2 (x.reg a) n.toNat)).advance))) ∧
  (∀ (d : Reg) (i : BitVec 21) (s : State),
    exec (.li d i) s = .next (s.modMe (fun x => (x.setReg d (BitVec.ofInt 64 i.toInt)).advance)) ∧
    exec (.lih d i) s = .next (s.modMe (fun x => (x.setReg d
      (BitVec.ofNat 64 ((x.reg d).toNat * 2 ^ 21 + i.toNat))).advance)))

/-- The branches and jumps (R171, R172): a branch whose condition holds goes to PC + sext(OFF, 16) x 32 bits, and another
goes on; JAL writes PC + 32 to s31; JR to an address that is not 32-bit aligned takes MISALIGNED_PC, code 41, with the
target in TADDR (R147, R301). Nothing else of the hart changes. -/
def Obligations.BranchesAndJumps : Prop :=
  (∀ p ∈ ([(Instr.beq, fun x y => decide (x = y)), (Instr.bne, fun x y => !decide (x = y)),
      (Instr.blt, fun x y => decide (x.toInt < y.toInt)), (Instr.bge, fun x y => decide (x.toInt ≥ y.toInt)),
      (Instr.bltn, fun x y => decide (x.toNat < y.toNat)), (Instr.bgen, fun x y => decide (x.toNat ≥ y.toNat))] :
      List ((Reg → Reg → BitVec 16 → Instr) × (Word → Word → Bool))),
    ∀ (a b : Reg) (off : BitVec 16) (s : State),
      exec (p.1 a b off) s = .next (s.modMe (fun x =>
        if p.2 (x.reg a) (x.reg b) then x.jump (x.pc + BitVec.ofInt 64 (off.toInt * 32)) else x.advance))) ∧
  (∀ (off : BitVec 26) (s : State),
    exec (.jmp off) s = .next (s.modMe (fun x => x.jump (x.pc + BitVec.ofInt 64 (off.toInt * 32)))) ∧
    exec (.jal off) s = .next (s.modMe (fun x =>
      (x.setReg 31 (x.pc + 32)).jump (x.pc + BitVec.ofInt 64 (off.toInt * 32))))) ∧
  (∀ (a : Reg) (s : State),
    exec (.jr a) s = .next (if (s.me.reg a).toNat % 32 = 0 then s.modMe (fun x => x.jump (x.reg a))
      else s.takeTrap { cause := 41, detail := 0, pc := s.me.pc, addr := s.me.reg a, idx := 0, tok := 0, vec := false }))

/-- LDS, LDZ and LDA (R174): with the range reached and no error held, the bits at the address at the scope go to sd,
sign-extended or zero-extended, and LDA acquires; nothing else changes but what the read itself brings into the grove L2 and
the core's L1 and the acquire sweeps from it. ST and STL (R174): with the range reached and no error held, the low bits of
S[sd] are written at the address at the scope, after a release for STL; no register changes, and the PC advances. No access
of the hart is left to be performed. Where the step leaves accesses (R142; log 15), all but LDA only enter behind the
others, each once what R142 has before it can be, and a load that comes over a store yet to be performed reads its bits. -/
def Obligations.ScalarLoadsAndStores : Prop :=
  (∀ (s : State) (d b : Reg) (ad : Index) (w : BitVec 6) (sc : Scope),
      let n := w.toNat + 1
      let a := s.me.address b ad
      let m := s.sread s.me.asid sc a n
      let late (op : LateOp) : State := s.modMe (fun x =>
        ({ x with stores := x.stores ++ [⟨s.phys s.me.asid a n, op, sc, false, []⟩] } : Hart).advance)
      (s.clean → s.settled → s.reaches a n .rd →
        exec (.lds d b ad w sc) s = .next (m.2.modMe (fun x => (x.setReg d (BitVec.ofInt 64 (signed m.1 n))).advance)) ∧
        exec (.ldz d b ad w sc) s = .next (m.2.modMe (fun x => (x.setReg d (BitVec.ofNat 64 m.1)).advance)) ∧
        exec (.lda d b ad w sc) s =
          .next ((m.2.acquire (groveOf s.cur) sc).modMe (fun x => (x.setReg d (BitVec.ofNat 64 m.1)).advance))) ∧
      (s.clean → s.late = true → s.reaches a n .rd →
        exec (.lds d b ad w sc) s = .next (late (.load d true)) ∧ exec (.ldz d b ad w sc) s = .next (late (.load d false))) ∧
      (s.clean → s.late = true → s.reaches a n .wr →
        exec (.st d b ad w sc) s = .next (late (.store (s.me.reg d).toNat)) ∧
        exec (.stl d b ad w sc) s = .next (late (.release (s.me.reg d).toNat))) ∧
      (s.clean → s.late = false → s.reaches a n .rd → ∀ pa v, isDev pa = true → s.phys s.me.asid a n = [(pa, n)] →
        s.me.stores = [⟨[(pa, n)], .store v, sc, false, []⟩] →
        exec (.ldz d b ad w sc) s = .next (m.2.modMe (fun x => (x.setReg d (BitVec.ofNat 64 (v % 2 ^ n))).advance)))) ∧
  (∀ (s : State) (d b : Reg) (ad : Index) (w : BitVec 6) (sc : Scope),
      let n := w.toNat + 1
      let a := s.me.address b ad
      let g := groveOf s.cur
      (s.clean → s.settled → s.reaches a n .wr →
        exec (.st d b ad w sc) s = .next ((s.vwrite s.me.asid g sc a n (s.me.reg d).toNat).modMe Hart.advance) ∧
        exec (.stl d b ad w sc) s =
          .next (((s.release g sc).vwrite s.me.asid g sc a n (s.me.reg d).toNat).modMe Hart.advance)))

/-- A write of a memory changes exactly the bits it names, and a read gives them back (R101, R102, R123). What a store
writes (R111, R112, R119): a write of a grove at any scope changes, of what that grove reads at any scope, and of what
stands at the home, no bit outside the bits it names; and the grove reads back the value at the scope it wrote at. No
structure holds an error; the invariant of StepKeepsTheInvariant holds. -/
def Obligations.WritesChangeOnlyTheirBits : Prop :=
  (∀ (m : Memory) (a w v : Nat),
      Memory.read (Memory.write m a w v) a w = v % 2 ^ w ∧
      ∀ b, (b < a ∨ a + w ≤ b) → Memory.read (Memory.write m a w v) b 1 = Memory.read m b 1) ∧
  (∀ (s : State) (g : Nat) (sc : Scope) (pa n v : Nat), s.clean → s.inv → 0 < n → pa % 512 + n ≤ 512 →
      (isDev (pa + n - 1) = true ∨ isHost pa = true) →
      let t := s.writePart g sc pa n v
      (t.readPart g sc pa n).1 = v % 2 ^ n ∧
      ∀ (q : Nat) (sc' : Scope), bitIn [(pa, n)] q = false →
        (t.readPart g sc' q 1).1 = (s.readPart g sc' q 1).1 ∧ t.homeRead q 1 = s.homeRead q 1)

/-- The scalar atomics (R175, R176): with the range reached in one line and no error held, the old value goes to sd
zero-extended, and the result of the operation on it is written at the scope; a CAS whose compare fails writes nothing. CASQ
(R176): with even sd and sc, 128 bits are compared with sd and sd + 1, replaced by sc and sc + 1 where they are equal, and
the old 128 bits go to sd and sd + 1; an odd register takes ILLEGAL_OPERAND, code 16 (R148). No store of the hart is left to
be performed. -/
def Obligations.ScalarAtomics : Prop :=
  (∀ p ∈ ([(Instr.aadd, .fetchAdd, fun n o x _ => some ((o + x) % 2 ^ n)), (Instr.aand, .none, fun _ o x _ => some (o &&& x)),
        (Instr.aor, .none, fun _ o x _ => some (o ||| x)), (Instr.axor, .none, fun _ o x _ => some (o ^^^ x)),
        (Instr.amin, .none, fun n o x _ => some (if signed o n ≤ signed x n then o else x)),
        (Instr.amax, .none, fun n o x _ => some (if signed o n ≤ signed x n then x else o)),
        (Instr.aminn, .none, fun _ o x _ => some (min o x)), (Instr.amaxn, .none, fun _ o x _ => some (max o x)),
        (Instr.aswap, .swap, fun _ _ x _ => some x), (Instr.cas, .cas, fun _ o x c => if o = c then some x else none)] :
        List ((Reg → Reg → Reg → BitVec 6 → Scope → Instr) × PortForm × (Nat → Nat → Nat → Nat → Option Nat))),
      ∀ (s : State) (d b c : Reg) (w : BitVec 6) (sc : Scope),
        let n := w.toNat + 1
        let a := (s.me.reg b).toNat
        let g := groveOf s.cur
        let m := s.sread s.me.asid sc a n
        s.clean → s.settled → s.atomicAt p.2.1 a n →
          exec (p.1 d b c w sc) s = .next ((match p.2.2 n m.1 ((s.me.reg c).toNat % 2 ^ n) ((s.me.reg d).toNat % 2 ^ n) with
            | some v => m.2.vwrite s.me.asid g sc a n v
            | none => m.2).modMe (fun x => (x.setReg d (BitVec.ofNat 64 m.1)).advance))) ∧
  (∀ (s : State) (d b c : Reg) (sc : Scope),
      let a := (s.me.reg b).toNat
      let g := groveOf s.cur
      let m := s.sread s.me.asid sc a 128
      (d.getLsbD 0 = false → c.getLsbD 0 = false → s.clean → s.settled → s.atomicAt .cas a 128 →
        exec (.casq d b c sc) s = .next ((if m.1 = (s.me.reg d).toNat + 2 ^ 64 * (s.me.reg (d + 1)).toNat then
            m.2.vwrite s.me.asid g sc a 128 ((s.me.reg c).toNat + 2 ^ 64 * (s.me.reg (c + 1)).toNat) else m.2).modMe
          (fun x => ((x.setReg d (BitVec.ofNat 64 m.1)).setReg (d + 1) (BitVec.ofNat 64 (m.1 / 2 ^ 64))).advance))) ∧
      ((d.getLsbD 0 = true ∨ c.getLsbD 0 = true) → exec (.casq d b c sc) s = .next (s.takeTrap (s.stemTrap 16 0))))

/-- A scalar access whose range check_access refuses takes the memory cause of its kind and class (R173, R307) with the bit
in TADDR, and changes no register and no memory before it (R166). An atomic in no single line takes ATOMIC_SPAN, 52 (R122,
R175), and one of port-1 memory that is not performed 432 or 433 with the host bit address (R112, R177, R313); CASQ, its
registers even, does so on 128 bits. A checked access whose page does not migrate and which no transfer meets, but which the
host does not answer, takes the cause of R307, HOST_ABORT for a port that is down. -/
def Obligations.ScalarAccessCauses : Prop :=
  ∀ (s : State) (d b c : Reg) (ad : Index) (w : BitVec 6) (sc : Scope) (kind bit : Nat),
    let n := w.toNat + 1
    (s.checkAccess s.me.asid (s.me.address b ad) n .rd = some (kind, bit) →
      ∀ i ∈ [Instr.lds d b ad w sc, .ldz d b ad w sc, .lda d b ad w sc],
        exec i s = .next (s.takeTrap (s.stemTrap (64 + 8 * kind + 2) bit))) ∧
    (s.checkAccess s.me.asid (s.me.address b ad) n .wr = some (kind, bit) →
      ∀ i ∈ [Instr.st d b ad w sc, .stl d b ad w sc],
        exec i s = .next (s.takeTrap (s.stemTrap (64 + 8 * kind + 3) bit))) ∧
    (s.checkAccess s.me.asid (s.me.reg b).toNat n .rmw = some (kind, bit) →
      ∀ i ∈ [Instr.aadd d b c w sc, .aand d b c w sc, .aor d b c w sc, .axor d b c w sc, .amin d b c w sc, .amax d b c w sc,
          .aminn d b c w sc, .amaxn d b c w sc, .aswap d b c w sc, .cas d b c w sc],
        exec i s = .next (s.takeTrap (s.stemTrap (64 + 8 * kind + 4) bit))) ∧
    (d.getLsbD 0 = false → c.getLsbD 0 = false → s.checkAccess s.me.asid (s.me.reg b).toNat 128 .rmw = some (kind, bit) →
      exec (.casq d b c sc) s = .next (s.takeTrap (s.stemTrap (64 + 8 * kind + 4) bit))) ∧
    (∀ p ∈ [(Instr.aadd d b c w sc, PortForm.fetchAdd, n), (.aand d b c w sc, .none, n), (.aor d b c w sc, .none, n),
        (.axor d b c w sc, .none, n), (.amin d b c w sc, .none, n), (.amax d b c w sc, .none, n), (.aminn d b c w sc, .none, n),
        (.amaxn d b c w sc, .none, n), (.aswap d b c w sc, .swap, n), (.cas d b c w sc, .cas, n), (.casq d b c sc, .cas, 128)],
      let a := (s.me.reg b).toNat
      (p.2.2 = 128 → d.getLsbD 0 = false ∧ c.getLsbD 0 = false) → s.checkAccess s.me.asid a p.2.2 .rmw = none →
        (oneLine a p.2.2 = false → exec p.1 s = .next (s.takeTrap (s.stemTrap 52 a))) ∧
        (∀ cause, oneLine a p.2.2 = true → s.portCause p.2.1 (s.physOf a) p.2.2 = some cause →
          exec p.1 s = .next (s.takeTrap (s.stemTrap cause (hostOff (s.physOf a)))))) ∧
    (∀ k ∈ [(AccKind.rd, 2, [Instr.lds d b ad w sc, .ldz d b ad w sc, .lda d b ad w sc]),
        (.wr, 3, [.st d b ad w sc, .stl d b ad w sc])], ∀ i ∈ k.2.2,
      let a := s.me.address b ad
      s.checkAccess s.me.asid a n k.1 = none → s.blocked s.me.asid a n = none → s.interlocked s.cur a n k.1.writes = false →
        (s.hostFail s.cur s.me.asid a n k.2.1 = some (kind, bit) → exec i s = .next (s.takeTrap (s.stemTrap kind bit))) ∧
        (∀ p, s.parts s.me.asid a n = [p] → isHost p.pa = true → s.host.portDown.testBit (hostPort p.pa) = true →
          exec i s = .next (s.takeTrap (s.stemTrap (104 + k.2.1) p.va))))

/-- FENCE and PAUSE (R142, R179, R185): a kind that orders vector accesses completes when every earlier bolt and transfer is
complete, and another at once; what the hart has not performed of the streams that the kind orders before it is performed,
with what it has written through port 1 at sys scope (R338), and kind all forgets words fetched ahead (R386); at dev and sys
scope the dirty bits of the grove L2 are written back and its generation advances (R117, R118), after the sweep of the lines
255 generations behind (the model's choice of time, log 84), and at hart, core and grove scope nothing but the PC changes
further. PAUSE only advances the PC. The waits that end with their instruction executing again (R12, R32, R197, R387): the
hart's wait is over once its bolts or transfers are complete, its BOLT's words fit behind the bolts that wait, its queue has
room, or its counter and interlock entries have room. A transfer that stands behind a bolt set aside is not waited for (log
91). -/
def Obligations.FencesPauseAndWaitEnds : Prop :=
  ((∀ (s : State) (k : FenceKind) (sc : Scope), (k = .ss ∨ k = .sv ∨ s.idle) →
      let u := s.drainBy s.cur (fun p => (decide (k ∈ [FenceKind.ss, .sv, .all]) && !p.vec) ||
        (decide (k ∈ [FenceKind.vs, .vv, .all]) && p.vec) || (decide (sc = .sys) && portOne p.parts))
      let g := groveOf u.cur
      exec (.fence k sc) s = .next ((if sc = .dev ∨ sc = .sys then
          (let t := (u.writeBackAll g).sweepFrom g 255
           (t.setGrove g { t.grove g with gen := (t.grove g).gen + 1 }).countScoped)
        else u).modMe (fun x => ({ x with fetched := if k = FenceKind.all then [] else x.fetched } : Hart).advance))) ∧
    (∀ s : State, exec .pause s = .next (s.modMe Hart.advance))) ∧
  (∀ (s : State) (h : Nat),
      (s.waitsFor h .bolts → (s.hart h).bolts = [] → exec (.boltsCompletedWaitEnd h) s = .next (s.endWait h)) ∧
      (s.waitsFor h .transfers → s.dueXfers h = [] → exec (.boltsCompletedWaitEnd h) s = .next (s.endWait h)) ∧
      (s.waitsFor h .boltRoom → (s.hart h).bolts = [] → exec (.boltQueueRoom h) s = .next (s.endWait h)) ∧
      (∀ off, s.waitsFor h .boltRoom → s.checkAccess (s.hart h).asid (s.hart h).pc.toNat 32 .rd true = none →
        decodeStem (BitVec.ofNat 32 (s.vread (s.hart h).asid (groveOf h) .grove (s.hart h).pc.toNat 32).1) = .ok (.bolt off) →
        (s.hart h).queued + s.countWords h ((s.hart h).pc + off.signExtend 64 * 32).toNat 32 ≤ 32 →
        exec (.boltQueueRoom h) s = .next (s.endWait h)) ∧
      (∀ die q, s.waitsFor h (.launchRoom die q) → (s.yardQ die q).packets.length < 64 →
        exec (.launchQueueRoom h) s = .next (s.endWait h)) ∧
      (∀ cn, s.waitsFor h (.engineRoom cn) → s.engRoom h cn = true → exec (.engineIssueRoom h) s = .next (s.endWait h)))

/-- WAITC (R180): with the counter at most n it completes when no failure stands on the counter (R198), and otherwise waits;
the wake of a hart that waits does the same for it, and a wait whose timeout passes above n takes WAIT_TIMEOUT, 176 and the
counter. WAITM (R181): bits that differ from the comparand are returned zero-extended; the wake does the same once they
differ, and the timeout returns what stands there. No store of the hart is left to be performed. -/
def Obligations.CounterAndMemoryWaits : Prop :=
  (∀ (s : State) (h : Nat) (n : BitVec 5) (cn : BitVec 3) (tmo : BitVec 5),
      (Tab.get 0 s.me.ctrs cn.toNat ≤ n.toNat → s.me.engFails.all (fun f => decide (f.cn ≠ cn.toNat)) = true →
        exec (.waitc n cn tmo) s = .next (s.modMe Hart.advance)) ∧
      (n.toNat < Tab.get 0 s.me.ctrs cn.toNat →
        exec (.waitc n cn tmo) s = .next (s.beginWait (.waitc cn n.toNat) (if tmo = 0 then none else some (2 ^ (tmo.toNat + 9))))) ∧
      (s.waitsFor h (.waitc cn n.toNat) → Tab.get 0 (s.hart h).ctrs cn.toNat ≤ n.toNat →
        (s.hart h).engFails.all (fun f => decide (f.cn ≠ cn.toNat)) = true →
        exec (.waitcWake h) s = .next ((s.on h).modMe Hart.advance)) ∧
      (s.timedOut h (.waitc cn n.toNat) → n.toNat < Tab.get 0 (s.hart h).ctrs cn.toNat →
        exec (.waitTimeout h) s = .next ((s.on h).takeTrap ((s.on h).stemTrap (176 + cn.toNat) 0)))) ∧
  ((∀ (s : State) (d b c : Reg) (w : BitVec 6) (tmo : BitVec 5),
      let n := w.toNat + 1
      let a := (s.me.reg b).toNat
      let m := s.sread s.me.asid .sys a n
      s.clean → s.settled → s.reaches a n .rd → oneLine a n = true → m.1 ≠ (s.me.reg c).toNat % 2 ^ n →
        exec (.waitm d b c w tmo) s = .next (m.2.modMe (fun x => (x.setReg d (BitVec.ofNat 64 m.1)).advance))) ∧
    (∀ (s : State) (h : Nat) (d : Reg) (a n cmp : Nat),
      let u := s.on h
      let m := u.sread u.me.asid .sys a n
      s.clean → u.settled → u.reaches a n .rd → oneLine a n = true →
        (s.waitsFor h (.waitm d a n cmp) → m.1 ≠ cmp →
          exec (.waitmWake h) s = .next (m.2.modMe (fun x => (x.setReg d (BitVec.ofNat 64 m.1)).advance))) ∧
        (s.timedOut h (.waitm d a n cmp) →
          exec (.waitmTimeout h) s = .next (m.2.modMe (fun x => (x.setReg d (BitVec.ofNat 64 m.1)).advance)))))

/-- ARRIVE (R182): at a scope of an arrival word, on an aligned word of no port-1 memory with no reserved bit set, once
every earlier bolt and transfer is complete, it performs what the hart has not performed, releases and adds the count,
modulo 2^32, to COUNT alone. WAITB (R183): a word whose COUNT has reached the target, whose ERR is set or whose phase is
another opens the barrier; it is acquired at the scope and returned whole. The wake does the same for a hart that waits, and
the timeout returns the word as it stands. No access of a hart that waits is left to be performed. -/
def Obligations.Barriers : Prop :=
  (∀ (s : State) (a b : Reg) (sc : Scope),
      let va := (s.me.reg b).toNat
      let g := groveOf s.cur
      let u := (s.drain s.cur).release g sc
      let m := u.sread s.me.asid sc va 64
      sc ≠ .hart → sc ≠ .core → va % 64 = 0 → s.clean → s.idle → s.reaches va 64 .rmw →
      (isHost (s.physOf va) && hostPort (s.physOf va) == 1) = false → m.1 < 2 ^ 50 →
        exec (.arrive a b sc) s =
          .next ((m.2.vwrite s.me.asid g sc va 64 (m.1 / 2 ^ 32 * 2 ^ 32 + (m.1 + (s.me.reg a).toNat) % 2 ^ 32)).modMe Hart.advance)) ∧
  ((∀ (s : State) (d b a : Reg) (sc : Scope) (tmo : BitVec 5),
      let va := (s.me.reg b).toNat
      let y := (s.me.reg a).toNat
      let m := s.sread s.me.asid sc va 64
      sc ≠ .hart → sc ≠ .core → va % 64 = 0 → s.clean → s.settled → s.reaches va 64 .rd → m.1 < 2 ^ 50 →
      (y % 2 ^ 32 ≤ m.1 % 2 ^ 32 ∨ m.1.testBit 32 = true ∨ m.1 / 2 ^ 42 % 2 ^ 8 ≠ y / 2 ^ 32 % 2 ^ 8) →
        exec (.waitb d b a sc tmo) s =
          .next ((m.2.acquire (groveOf s.cur) sc).modMe (fun x => (x.setReg d (BitVec.ofNat 64 m.1)).advance))) ∧
    (∀ (s : State) (h : Nat) (d : Reg) (va t ph : Nat) (sc : Scope),
      let u := s.on h
      let m := u.sread u.me.asid sc va 64
      sc ≠ .hart → sc ≠ .core → va % 64 = 0 → s.clean → u.settled → u.reaches va 64 .rd → m.1 < 2 ^ 50 →
        (s.waitsFor h (.waitb d va t ph sc) → (t ≤ m.1 % 2 ^ 32 ∨ m.1.testBit 32 = true ∨ m.1 / 2 ^ 42 % 2 ^ 8 ≠ ph) →
          exec (.waitbWake h) s =
            .next ((m.2.acquire (groveOf h) sc).modMe (fun x => (x.setReg d (BitVec.ofNat 64 m.1)).advance))) ∧
        (s.timedOut h (.waitb d va t ph sc) →
          exec (.waitbTimeout h) s =
            .next ((m.2.acquire (groveOf h) sc).modMe (fun x => (x.setReg d (BitVec.ofNat 64 m.1)).advance)))))

/-- CSRR, CSRW and CSRX (R156, R204, R205): a listed register is read; a writable one takes the bits of its fields, and a
CSRX returns its old value; the vector-side registers wait for earlier bolts. CSRR of VRETQ, and the read a wait for VRETQ
makes, remove the oldest entry (R13); an empty VRETQ takes VRETQ_EMPTY, 50, or waits while the hart has bolts. A number that
is not listed takes ILLEGAL_CSR, 44, a write of a register that is read-only 45, a management number 46 and a CSRX of VRETQ
47 (R156, R306). What a status register holds after a CSRW (R43, R44, R82, R88-R91, R96, R281, R297-R299): the bits of its
fields, which a CSRR returns; every other register keeps its value. Of a write of SBUDGET the bits above 12 are ignored
before the clamp at 4,096: the model's choice, log 92. -/
def Obligations.StatusRegisters : Prop :=
  ((∀ (s : State) (d : Reg) (n : BitVec 12) (v : Word), s.csrValue n.toNat = some v → (csrWaits n.toNat = true → s.me.bolts = []) →
      exec (.csrr d n) s = .next (s.modMe (fun x => (x.setReg d v).advance))) ∧
    (∀ (s : State) (a d : Reg) (n : BitVec 12) (v : Word) (y : Hart), s.csrValue n.toNat = some v →
      s.me.csrWrite n.toNat (s.me.reg a) = some y → (csrWaits n.toNat = true → s.me.bolts = []) →
        exec (.csrw a n) s = .next (s.modMe (fun _ => y.advance)) ∧
        exec (.csrx d a n) s = .next (s.modMe (fun _ => (y.setReg d v).advance))) ∧
    (∀ (s : State) (d : Reg) (v : Word) (t : List Word), s.me.vretq = v :: t →
      exec (.csrr d 0x012) s = .next (s.modMe (fun x => ({ x with vretq := t }.setReg d v).advance)) ∧
      exec (.vretqRead d) s = .next (s.modMe (fun x => ({ x with vretq := t }.setReg d v).advance))) ∧
    (∀ (s : State) (d a : Reg) (n : BitVec 12),
      (s.me.vretq = [] → ∀ i ∈ [Instr.csrr d 0x012, .vretqRead d], exec i s =
        .next (if s.me.bolts = [] then s.takeTrap (s.stemTrap 50 0) else s.beginWait (.vretq d) none)) ∧
      exec (.csrx d a 0x012) s = .next (s.takeTrap (s.stemTrap 47 0)) ∧ exec (.csrw a 0x012) s = .next (s.takeTrap (s.stemTrap 45 0)) ∧
      (0x800 ≤ n.toNat → ∀ i ∈ [Instr.csrr d n, .csrw a n, .csrx d a n], exec i s = .next (s.takeTrap (s.stemTrap 46 0))) ∧
      (n.toNat < 0x800 → n ≠ 0x012 → s.csrValue n.toNat = none →
        ∀ i ∈ [Instr.csrr d n, .csrw a n, .csrx d a n], exec i s = .next (s.takeTrap (s.stemTrap 44 0))) ∧
      (n.toNat < 0x800 → n ≠ 0x012 → s.csrValue n.toNat ≠ none → s.me.csrWrite n.toNat 0 = none →
        ∀ i ∈ [Instr.csrw a n, .csrx d a n], exec i s = .next (s.takeTrap (s.stemTrap 45 0))))) ∧
  (∀ p ∈ ([(0x000, fun v => v &&& 0xFF00), (0x004, fun v => v &&& 0xF7), (0x005, fun v => v &&& 0xFFFFFFFF),
        (0x006, fun v => v &&& 3), (0x007, fun v => v &&& 0xFF), (0x008, fun v => v &&& 0x7FF), (0x009, id), (0x00A, id), (0x00B, id),
        (0x00C, fun v => v &&& 0x3FFFF),
        (0x00D, fun v => if v &&& 0x1FFF = 0 then 1 else if 4096 < v &&& 0x1FFF then 4096 else v &&& 0x1FFF),
        (0x00E, fun v => v &&& 15), (0x00F, fun v => if 16 < v &&& 0x1F then 16 else v &&& 0x1F),
        (0x011, fun v => v &&& 0xFFFFFFFE00),
        (0x013, fun v => ((v.extractLsb' 0 57).signExtend 64) &&& 0xFFFFFFFFFFFFFFE0), (0x014, fun v => v &&& 0x3FFFF), (0x015, id),
        (0x016, id), (0x017, fun v => v &&& 0x7FFFFFFFFFFFFFFF), (0x018, fun v => v &&& 15)] : List (Nat × (Word → Word))),
      ∀ (s : State) (v : Word), ∃ y, s.me.csrWrite p.1 v = some y ∧
        (s.modMe (fun _ => y)).csrValue p.1 = some (p.2 v) ∧ y.regs = s.me.regs ∧
        ∀ q, q ≠ p.1 → (s.modMe (fun _ => y)).csrValue q = s.csrValue q)

/-! ### Traps and the firmware -/

/-- take_trap below depth 3 (R300, R301, R387): the trap registers, VT and the depth are written, the PC goes to TVEC, the
bolts of a vector-origin trap are set aside with the interrupted stem address, their instruction to restart from its first
element (R259, R315), and no scalar register, no vector register and no byte of memory changes. A trap at depth 3 halts the
hart with TRAP_DEPTH, 63, and the cause in DETAIL (R300); it writes no other register. -/
def Obligations.TakingATrap : Prop :=
  (∀ (s : State) (t : TrapInfo), s.me.depth < 3 →
      let y := (s.takeTrap t).me
      y.tcause = BitVec.ofNat 64 (t.detail % 512 * 512 + t.cause % 512) ∧ y.tpc = t.pc ∧ y.taddr = t.addr ∧
        y.tidx = t.idx &&& 0x7FFFFFFFFFFFFFFF ∧ y.ttoken = t.tok &&& 15 ∧ y.depth = s.me.depth + 1 ∧ y.vt = t.vec ∧
        y.pc = s.me.tvec ∧ y.regs = s.me.regs ∧ y.vregs = s.me.vregs ∧ y.masks = s.me.masks ∧
        (∀ i, (i < 13 ∨ 16 ≤ i) → y.pstat.getLsbD i = s.me.pstat.getLsbD i) ∧
        (t.vec = false → y.bolts = s.me.bolts ∧ y.frames = s.me.frames) ∧
        (t.vec = true → y.bolts = [] ∧
          y.frames = ⟨false, s.me.pc, s.me.wrapFrom, s.me.bolts.map Bolt.restart⟩ :: s.me.frames) ∧
        (t.cause < 320 ∨ 416 ≤ t.cause → (s.takeTrap t).dev = s.dev ∧ (s.takeTrap t).hostMem = s.hostMem)) ∧
  (∀ (s : State) (t : TrapInfo), s.me.depth = 3 →
      let y := (s.takeTrap t).me
      y.halted = true ∧ y.tcause = BitVec.ofNat 64 (t.cause % 512 * 512 + 63) ∧ y.pc = s.me.pc ∧ y.pstat = s.me.pstat ∧
        y.tpc = s.me.tpc ∧ y.regs = s.me.regs ∧ y.bolts = s.me.bolts)

/-- The instructions and words whose effect is an exception (R165, R206, R208, R301, R306, R307, R386): TRAP n takes 448 + n
with TPC at the next instruction; BKPT takes BREAKPOINT, 48, and halts a hart that a debug session holds; a reserved opcode
or field takes its code; and a failed fetch takes its memory cause, of class 1 on the running bolt. -/
def Obligations.ExceptionsByInstruction : Prop :=
  ∀ (s : State),
    (∀ n : BitVec 6, exec (.trap n) s = .next ((s.modMe Hart.advance).takeTrap
      { cause := 448 + n.toNat, detail := 0, pc := (s.modMe Hart.advance).me.pc, addr := 0, idx := 0, tok := 0, vec := false })) ∧
    (∀ n : BitVec 12, s.rel.dbgHarts.contains s.cur = false → exec (.bkpt n) s = .next (s.takeTrap
      { cause := 48, detail := 0, pc := s.me.pc, addr := 0, idx := 0, tok := 0, vec := false })) ∧
    (∀ n : BitVec 12, s.rel.dbgHarts.contains s.cur = true → exec (.bkpt n) s = .next (({ s with rel :=
      { s.rel with dbgHalted := s.me.uid :: s.rel.dbgHalted } } : State).modMe (fun x => { x with halted := true }))) ∧
    (∀ c < 8, exec (.reservedOpcode c) s = .next (s.takeTrap
      { cause := c, detail := 0, pc := s.me.pc, addr := 0, idx := 0, tok := 0, vec := false })) ∧
    (∀ c < 8, exec (.reservedField c) s = .next (s.takeTrap
      { cause := 8 + c, detail := 0, pc := s.me.pc, addr := 0, idx := 0, tok := 0, vec := false })) ∧
    (∀ kind va : Nat, exec (.instructionFetchFault (64 + 8 * kind) va) s = .next (s.takeTrap
      { cause := 64 + 8 * kind, detail := 0, pc := s.me.pc, addr := BitVec.ofNat 64 va, idx := 0, tok := 0, vec := false })) ∧
    (∀ kind va : Nat, s.me.bolts ≠ [] →
      exec (.instructionFetchFault (64 + 8 * kind + 1) va) s = .next (s.takeTrap (s.vecTrap (64 + 8 * kind + 1) va)))

/-- RETT (R302): at depth 0, and where a vector trap has no bolt set aside, it takes RETT_OUTSIDE, 49; a return from a stem
trap goes to TPC, which must be aligned (43); a return from a vector trap resumes the stem where it was interrupted, with
the bolts that were set aside behind the handler's own, and, where the stem had advanced past the last slot, with that; the
depth falls by one and VT clears. A vector trap whose bolt had ended with the word that trapped counts as paused past it:
the model's choice, log 111. A trap handler that executes RETT at once returns to the trapping instruction with the depth as
it was (R300, R302). -/
def Obligations.ReturnFromTrap : Prop :=
  (∀ (s : State),
      (s.me.depth = 0 → exec .rett s = .next (s.takeTrap (s.stemTrap 49 0))) ∧
      (s.me.depth ≠ 0 → s.me.vt = true → popTrapFrame s.me.frames = none → exec .rett s = .next (s.takeTrap (s.stemTrap 49 0))) ∧
      (s.me.depth ≠ 0 → s.me.vt = false → s.me.tpc.toNat % 32 ≠ 0 →
        exec .rett s = .next (s.takeTrap (s.stemTrap 43 s.me.tpc.toNat))) ∧
      (s.me.depth ≠ 0 → s.me.vt = false → s.me.tpc.toNat % 32 = 0 →
        exec .rett s = .next (s.modMe (fun x => { x with pstat := pstatWith x.pstat (x.depth - 1) false }.jump x.tpc))) ∧
      (∀ f rest, s.me.depth ≠ 0 → s.me.vt = true → popTrapFrame s.me.frames = some (f, rest) →
        exec .rett s = .next (s.modMe (fun x =>
          { { x with pstat := pstatWith x.pstat (x.depth - 1) false, frames := rest,
                     bolts := x.bolts ++ movePosition x f.bolts }.jump f.pc with wrapFrom := f.wrap })))) ∧
  (∀ (s : State) (t : TrapInfo), s.me.depth < 3 → t.vec = false → t.pc.toNat % 32 = 0 →
      ∃ u, exec .rett (s.takeTrap t) = .next u ∧ u.me.pc = t.pc ∧ u.me.depth = s.me.depth ∧ u.me.regs = s.me.regs ∧
        u.me.bolts = s.me.bolts)

/-- FWCALL (R207, R353, R365): once every earlier bolt and transfer is complete, the hart's stores are performed, and the
service runs between two fences of sys scope and the PC advances; the rows that name one service are that call. A time is
returned in s10; a service that is not assigned returns all ones. -/
def Obligations.FirmwareCalls : Prop :=
  ∀ s : State, s.idle →
    let u := (s.drain s.cur).modMe (fun x => { x with fetched := [] })
    (∀ n : BitVec 12, exec (.fwcall n) s = .next ((((u.fence .sys).service n.toNat).fence .sys).modMe Hart.advance)) ∧
    (∀ p ∈ [(Instr.fwcallPartNumber, 0), (.fwcallPostEvent, 1), (.fwcallTime, 2), (.fwcallLayerRequest, 0x100),
        (.fwcallResidentPages, 0x101)],
      exec p.1 s = .next ((((u.fence .sys).service p.2).fence .sys).modMe Hart.advance)) ∧
    (s.service 2).me.reg 10 = BitVec.ofNat 64 s.nanos ∧
    (∀ n, n ∉ [0, 1, 2, 0x100, 0x101] → (s.service n).me.reg 10 = BitVec.allOnes 64)

/-! ### Vector configuration, farms, launches and lots -/

/-- VCFG (R22, R186): outside a routine, with no earlier bolt, an aligned record reached and no error held, a record that
R22 accepts becomes the configuration, VL becomes 0, the bindings are removed, the vector state reads zero, and MVL goes to
sd; a record it refuses takes CFG_INVALID, 51, as a misaligned one does; a routine takes 224. What a record of R21
configures, and MVL (R22): 1 to 64 registers with tags no wider than the slot width, reserved bits zero; MVL is G x
floor(65,536 / (NREG x SW)), at most 2^19. SETVL (R24, R186): VL and sd become the lesser of the request and MVL; where a
lane change is pending, once the earlier bolts are complete, the lanes LANEPART names count, MVL is recomputed for them, the
vector state reads zero and PSTAT.LREP is set. A routine takes 225. -/
def Obligations.VectorConfigurationAndLength : Prop :=
  (∀ (s : State) (d b : Reg),
      let a := (s.me.reg b).toNat
      let m := s.sread s.me.asid .grove a 576
      (s.me.inRoutine = true → exec (.vcfg d b) s = .next (s.takeTrap (s.stemTrap 224 0))) ∧
      (s.me.inRoutine = false → s.me.bolts = [] → a % 64 ≠ 0 → exec (.vcfg d b) s = .next (s.takeTrap (s.stemTrap 51 0))) ∧
      (s.me.inRoutine = false → s.me.bolts = [] → a % 64 = 0 → s.clean → s.settled → s.reaches a 576 .rd →
        (∀ c, readConfig m.1 = some c → exec (.vcfg d b) s = .next (m.2.modMe (fun x =>
          ({ x with cfg := c, mvl := mvlOf c x.lc, vl := 0, vtype := vtypeOf c x.lc, binds := [], vregs := [], masks := [],
                    qcodes := [], qlin := [] }.setReg d (BitVec.ofNat 64 (mvlOf c x.lc))).advance))) ∧
        (readConfig m.1 = none → exec (.vcfg d b) s = .next (s.takeTrap (s.stemTrap 51 0))))) ∧
  ((∀ (r : Nat) (c : VCfg), readConfig r = some c ↔
      (1 ≤ r % 128 ∧ r % 128 ≤ 64 ∧ r / 2 ^ 7 % 2 ^ 7 = 0 ∧ r / 2 ^ 20 % 2 ^ 44 = 0 ∧
        (∀ i < r % 128, ∃ t, Tag.ofCode (BitVec.ofNat 8 (r / 2 ^ (64 + 8 * i))) = some t ∧ t.width ≤ 8 * 2 ^ (r / 2 ^ 14 % 4)) ∧
        c = ⟨r % 128, 8 * 2 ^ (r / 2 ^ 14 % 4), r / 2 ^ 16 % 16, (List.range (r % 128)).map (fun i =>
          BitVec.ofNat 8 (r / 2 ^ (64 + 8 * i)))⟩)) ∧
    (∀ (r lc : Nat) (c : VCfg), readConfig r = some c →
      mvlOf c lc = 8 * Bits.count lc 8 * (65536 / (c.nreg * c.sw)) ∧ mvlOf c lc ≤ 2 ^ 19)) ∧
  (∀ (s : State) (d a : Reg),
      let n := (s.me.reg a).toNat
      (s.me.inRoutine = true → exec (.setvl d a) s = .next (s.takeTrap (s.stemTrap 225 0))) ∧
      (s.me.inRoutine = false → s.lanesPending = false → exec (.setvl d a) s = .next (s.modMe (fun x =>
        let m := mvlOf x.cfg x.lc
        ({ x with vtype := vtypeOf x.cfg x.lc, mvl := m, vl := min n m }.setReg d (BitVec.ofNat 64 (min n m))).advance))) ∧
      (s.me.inRoutine = false → s.lanesPending = true → s.me.bolts = [] → s.myCore.lanesOf (slotOf s.cur) ≠ s.me.lc →
        exec (.setvl d a) s = .next ((s.modMyCore (fun c => c.passLeaving (slotOf s.cur))).modMe (fun x =>
          let lc := s.myCore.lanesOf (slotOf s.cur)
          let m := mvlOf x.cfg lc
          ({ x with vtype := vtypeOf x.cfg lc, mvl := m, vl := min n m, pstat := x.pstat ||| 0x100, vregs := [], masks := [],
                    qcodes := [], qlin := [] }.setReg d (BitVec.ofNat 64 (min n m))).advance))))

/-- FARM and STRIP (R28, R29): FARM opens the placement of the followers of its farm at an aligned entry and copies the
lead's registers and live tokens; a second one takes 232 and a misaligned entry 233. STRIP takes the lesser of VL and what
is left of the farm counter: sd gets the counter as it was, VL what was taken. In a routine they take 226 and 227. The
model's own choices: the tokens that the followers come to share, with the old pages that they keep (R370), are those live
at the FARM (log 87), a FARM with 0 wants 2^64 followers (log 86), and a hart of no farm, which no placement makes, takes
nothing. LAUNCH (R32, R188): a valid aligned packet, read where it is reached with no error held and no bolt or transfer of
the hart outstanding, enters the queue it names behind what stands there, after a release at dev scope; nothing else changes
and the PC advances. A misaligned address takes 234, and an invalid packet the first of 235 to 239, with the packet's
address. -/
def Obligations.FarmsAndLaunches : Prop :=
  ((∀ (s : State) (a b d : Reg), s.me.inRoutine = true → exec (.farm a b) s = .next (s.takeTrap (s.stemTrap 226 0)) ∧
      exec (.strip d) s = .next (s.takeTrap (s.stemTrap 227 0))) ∧
    (∀ (s : State) (d : Reg), s.farmOf s.me.farm = none → s.me.inRoutine = false →
      exec (.strip d) s = .next (s.modMe (fun x => ({ x with vl := 0 }.setReg d 0).advance))) ∧
    (∀ (s : State) (a b d : Reg) (f : Farm), s.farmOf s.me.farm = some f → s.me.inRoutine = false →
      (f.opened = false → (s.me.reg b).toNat % 32 = 0 →
        let live := s.me.toks.filter (fun p => decide (p.2.st = .live))
        exec (.farm a b) s = .next (((s.copySpaces (tokenSpace s.cur) (farmSpace f.id) live).setFarm { f with
          opened := true, wanted := if s.me.reg a = 0 then 2 ^ 64 else (s.me.reg a).toNat, entry := s.me.reg b,
          leadRegs := s.me.regs, leadToks := live, since := s.time, full := false }).modMe Hart.advance)) ∧
      (f.opened = true → exec (.farm a b) s = .next (s.takeTrap (s.stemTrap 232 0))) ∧
      (f.opened = false → (s.me.reg b).toNat % 32 ≠ 0 → exec (.farm a b) s = .next (s.takeTrap (s.stemTrap 233 0))) ∧
      exec (.strip d) s = .next ((s.setFarm { f with counter := f.counter + min s.me.vl (f.total - f.counter) }).modMe (fun x =>
        ({ x with vl := min x.vl (f.total - f.counter) }.setReg d (BitVec.ofNat 64 f.counter)).advance)))) ∧
  (∀ (s : State) (b : Reg),
      let a := (s.me.reg b).toNat
      let m := s.sread s.me.asid .grove a 1024
      let die := dieOf s.cur
      (a % 64 ≠ 0 → exec (.launch b) s = .next (s.takeTrap (s.stemTrap 234 a))) ∧
      (a % 64 = 0 → s.clean → s.settled → s.reaches a 1024 .rd →
        (s.packetCause m.1 = none → s.idle → (s.yardQ die (pktQueue m.1)).packets.length < 64 →
          exec (.launch b) s = .next
            (let t := m.2.release (groveOf s.cur) .dev
             let q := t.yardQ die (pktQueue m.1)
             (t.setYardQ die (pktQueue m.1) { q with packets := q.packets ++ [⟨BitVec.ofNat 1024 m.1, a, s.me.asid⟩] }).modMe
               Hart.advance)) ∧
        (∀ c, s.packetCause m.1 = some c → exec (.launch b) s = .next (s.takeTrap (s.stemTrap c a)))))

/-- HEXIT (R30, R189, R198, R387): outside a routine, with every bolt and transfer complete, every access performed and no
failure unreported, the hart ends: its slot is vacant, no lot of its core is left with it, its farm has one hart fewer, what
it has used being charged (R36), and no byte of memory changes. A lot that an unfinished claim of another hart has selected
passes to that claim, which completes with its last lot (R40, R46), and another becomes free. The failure of the lowest
counter is taken first, the bolts that vector traps have set aside being discarded before it; a routine takes 228. -/
def Obligations.EndOfAHart : Prop :=
  ∀ (s : State),
    (s.me.inRoutine = true → exec .hexit s = .next (s.takeTrap (s.stemTrap 228 0))) ∧
    (s.me.inRoutine = false → s.idle → s.me.engFails = [] → s.me.stores = [] → ∃ t, exec .hexit s = .next t ∧ t.hart s.cur = Hart.vacant ∧
      t.dev = s.dev ∧ t.hostMem = s.hostMem ∧
      (∀ f, s.farmOf s.me.farm = some f → f.alive ≤ 1 → t.farmOf f.id = none) ∧
      (∀ f, s.farmOf s.me.farm = some f → 1 < f.alive → t.farmOf f.id = some { s.runsLess f with alive := f.alive - 1 }) ∧
      (∀ kind i, kind < 4 → i < lotCount kind → (s.myCore.lot kind i).claim = none → s.holds kind i = true →
        t.myCore.lot kind i = { Lot.free with lastUid := (s.myCore.lot kind i).lastUid }) ∧
      (s.myCore.claims.any (fun y => decide (y.slot = slotOf s.cur) && decide (y.uid = s.me.uid)) = false →
        { t.myCore with rechecks := s.myCore.rechecks } = ((List.range 4).flatMap (fun kind =>
          ((List.range (lotCount kind)).filter (s.holds kind)).map (fun i => (kind, i)))).foldl
            (fun c p => c.passLot p.1 p.2) s.myCore)) ∧
    (∀ f rest, s.me.inRoutine = false → s.idle → lowestFailure s.me.engFails = some (f, rest) →
      exec .hexit s = .next ((s.modMe (fun x =>
        { x with frames := x.frames.filter (·.routine), engFails := rest })).takeTrap (s.engineFault f)))

/-- CLAIM of lots that are free (R38, R40, R190): a claim at a canonical, aligned routine, outside a routine, with as many
free lots of its kind as it asks for, answers 0 at once; the lowest of them are negotiated and the hart's with its routine,
and no other lot, hart or byte of memory changes. A claim in status mode that finds too few lots answers 3 and takes none;
one in the other mode waits. A routine address that is not aligned and canonical takes 220 + k, and a CLAIM in a routine 216
+ k. The arbiter's window rotates by one slot with each claim that is taken up: the model's choice, log 108. RELEASE (R191,
R46): lots all of which the hart holds, none of them leaving, leave it: lane clusters enter state 11 until the next SETVL
(one that is leaving already counts as not held, log 48); once the hart's bolts are complete, a lot of another kind that no
claim has selected becomes free, and one that a claim has selected passes to it, negotiated, with its routine, the lots in
turn. Every other lot without a claim stays as it is. A lot not held takes 192 + k. -/
def Obligations.ClaimsAndReleases : Prop :=
  (∀ (s : State) (d a : Reg) (k : BitVec 2) (n : BitVec 4) (status : Bool),
      let rt := s.me.reg a
      let c := coreOf s.cur
      let free := (List.range (lotCount k.toNat)).filter (fun i => decide (((s.core c).lot k.toNat i).st = 0))
      let y : Claim := { id := (s.core c).nextClaim, slot := slotOf s.cur, uid := s.me.uid, pc := s.me.pc, kind := k.toNat,
                         n := n.toNat, status := status, routine := rt, lots := 0, got := 0, outcome := none, refused := [],
                         seen := 0 }
      ((canonical rt.toNat = false ∨ rt.toNat % 32 ≠ 0) →
        exec (.claim d a k n status) s = .next (s.takeTrap (s.stemTrap (220 + k.toNat) rt.toNat))) ∧
      (canonical rt.toNat = true → rt.toNat % 32 = 0 → s.me.inRoutine = true →
        exec (.claim d a k n status) s = .next (s.takeTrap (s.stemTrap (216 + k.toNat) 0))) ∧
      (canonical rt.toNat = true → rt.toNat % 32 = 0 → s.me.inRoutine = false → 0 < n.toNat →
        (∀ y ∈ (s.core c).claims, ¬(y.slot = slotOf s.cur ∧ y.uid = s.me.uid ∧ y.pc = s.me.pc) ∧ y.id ≠ (s.core c).nextClaim) →
        (n.toNat ≤ free.length → (∀ i ∈ free, ((s.core c).lot k.toNat i).claim = none) →
          ∃ t, exec (.claim d a k n status) s = .next t ∧ t.me = (s.me.setReg d 0).advance ∧
            (t.core c).window = ((s.core c).window + 1) % 8 ∧ (∀ h, h ≠ s.cur → t.hart h = s.hart h) ∧ t.dev = s.dev ∧ t.hostMem = s.hostMem ∧
            ∀ kind i, kind < 4 → i < lotCount kind → (t.core c).lot kind i =
              if kind = k.toNat ∧ i ∈ free.take n.toNat then ⟨2, BitVec.ofNat 3 (slotOf s.cur), rt, none, s.me.uid⟩
              else (s.core c).lot kind i) ∧
        ((s.candidates c y).length < n.toNat → (∀ h, ∀ r ∈ (s.hart h).recalls, r.claim ≠ (s.core c).nextClaim) → ∃ t, exec (.claim d a k n status) s = .next t ∧
          (status = true → t.me = (s.me.setReg d 3).advance) ∧
          (status = false → t.waitsFor s.cur (.claim y.id) ∧ t.me.pc = s.me.pc) ∧
          ∀ kind i, kind < 4 → i < lotCount kind → (t.core c).lot kind i = (s.core c).lot kind i))) ∧
  (∀ (s : State) (a : Reg) (k : BitVec 2),
      let m := (s.me.reg a).toNat
      let held (i : Nat) : Bool := s.holds k.toNat i && decide ((s.myCore.lot k.toNat i).st ≠ 3)
      ((∃ i < 64, m.testBit i = true ∧ held i = false) →
        exec (.release a k) s = .next (s.takeTrap (s.stemTrap (192 + k.toNat) 0))) ∧
      ((∀ i < 64, m.testBit i = true → held i = true) → (k = 0 ∨ m = 0 ∨ s.me.bolts = []) →
        ∃ t, exec (.release a k) s = .next t ∧ t.me = (s.me.withdraw k.toNat m).advance ∧ t.dev = s.dev ∧ t.hostMem = s.hostMem ∧
          (∀ i < lotCount k.toNat, (s.myCore.lot k.toNat i).claim = none → t.myCore.lot k.toNat i =
            if m.testBit i then
              (if k = 0 then { s.myCore.lot 0 i with st := 3 } else { Lot.free with lastUid := (s.myCore.lot k.toNat i).lastUid })
            else s.myCore.lot k.toNat i) ∧
          (k ≠ 0 → t.myCore = ((List.range 8).filter (fun i => m.testBit i)).foldl (fun c i => c.passLot k.toNat i) s.myCore)) ∧
      (∀ (c : Core) (kind i id : Nat) (x : Claim), kind < 4 → i < lotCount kind → (c.lot kind i).claim = some id →
        c.claimOf id = some x →
        ∃ l, (c.passLot kind i).lot kind i = ⟨2, BitVec.ofNat 3 x.slot, x.routine, l, x.uid⟩))

/-- The delivery of a recall (R41): at depth 0, outside a routine, at a convoy boundary, the oldest recall interrupts the
stem and sets the bolts aside, RECALL shows it, the budget is SBUDGET, and the PC goes to the routine of its lowest lot. No
register changes. The device's side of recalls (R40, R43): a budget that has reached zero strips the lots and takes 208 +
the lowest of them; a wait for a claim with a known outcome ends, and the claims without lots are served again when their
core's lots have changed, together, by ascending slot from the window's on, which moves on with each (log 108, the model's
choice); and 4,096 cycles after a refusal, the lots of that recall still to pass are recalled again from their holder, once
its queue has room. SDONE, SSUMM and SREFUSE (R42-R44, R192): outside a routine they take 229, 230 and 231. SDONE gives up
the lots of the recall the hart still holds, clears SREFN and goes back to the interrupted stem with the paused bolts; SSUMM
does so after a release at dev scope, once the hart's bolts and transfers are complete. SREFUSE counts in SREFN up to 16;
within SRLIMIT the claim ends with 1 in status mode and is posted again later in the other mode; beyond it the lots are
stripped and LOT_STRIPPED, 200 + the lowest lot, is taken. Once the lots are stripped, SREFUSE is a plain return. A
surrender gives up lots (R42, R46): the lots of the routine that the hart holds as negotiated leave it, lane clusters
through state 11 and the others to the claim that selected them or, without one, to none; no other lot changes. A strip that
takes lane clusters in force leaves VL 0, the vectors zero, and MVL and the lanes of every bolt of the hart those that
remain (R25, R43). -/
def Obligations.RecallsAndVerdicts : Prop :=
  (∀ (s : State) (h : Nat) (r : Recall) (rest : List Recall),
      (s.hart h).recalls = r :: rest → (s.hart h).recallDue = true →
      ∃ t, exec (.recallDelivery h) s = .next t ∧
        let x := s.hart h
        let y := t.hart h
        y.pc = ((s.core (coreOf h)).lot r.kind ((Bits.lowest r.lots 8).getD 0)).routine ∧
        y.recalls = rest ∧ y.routine = some ⟨some x.sbudget.toNat, r.kind, r.lots, r.claim⟩ ∧
        y.recallW = BitVec.ofNat 64 (r.lots * 2 ^ 16 + r.kind * 2 ^ 14 + r.req * 2 ^ 11 + min 3 rest.length * 2 ^ 8 + 1) ∧
        y.bolts = [] ∧ y.frames = ⟨true, x.pc, x.wrapFrom, x.bolts⟩ :: x.frames ∧ y.regs = x.regs ∧ y.vregs = x.vregs ∧
        y.masks = x.masks ∧ y.pstat = x.pstat ∧ t.dev = s.dev ∧ t.hostMem = s.hostMem) ∧
  (∀ (s : State) (h : Nat),
      (∀ r : Routine, (s.hart h).routine = some r → r.budget = some 0 →
        let u := (s.on h).strip r
        exec (.surrenderBudget h) s = .next (u.takeTrap (u.stemTrap (208 + (s.hart h).lowestRecalled) 0))) ∧
      (∀ (id : Nat) (x : Claim), s.waitsFor h (.claim id) → (s.core (coreOf h)).claimOf id = some x →
        (x.outcome ≠ none → exec (.claimRetry h) s = .next (s.endWait h)) ∧
        (x.outcome = none →
          let k := coreOf h
          let due := (List.range 8).flatMap (fun i => (s.core k).claims.filter (fun y => decide (y.outcome = none) &&
            decide (y.lots = 0) && decide (y.seen ≠ (s.core k).version) && decide (y.slot = ((s.core k).window + i) % 8)))
          exec (.claimRetry h) s = .next (due.foldl (fun u y =>
            let v := u.serveClaim k y
            v.setCore k { v.core k with window := ((v.core k).window + 1) % 8 }) s)) ∧
        (∀ m t0 : Nat, x.refused = [(m, t0)] →
          let left := (List.range 8).filter (fun i =>
            let l := (s.core (coreOf h)).lot x.kind i
            m.testBit i && !(x.got.testBit i) && decide (l.st = 2) && decide (l.claim = some id))
          let holder := 8 * coreOf h + ((s.core (coreOf h)).lot x.kind (left.headD 0)).owner.toNat
          ∃ t, exec (.claimRecallRepost h) s = .next t ∧
            ∀ g, t.hart g =
              if t0 + 4096 ≤ s.cycle ∧ left ≠ [] ∧ g = holder ∧ (s.hart g).recallsFull = false then
                { s.hart g with recalls := (s.hart g).recalls ++ [⟨x.kind, Bits.ofList left, x.slot, id⟩] }
              else s.hart g))) ∧
  ((∀ s : State, s.me.routine = none → exec .sdone s = .next (s.takeTrap (s.stemTrap 229 0)) ∧
      exec .ssumm s = .next (s.takeTrap (s.stemTrap 230 0)) ∧ exec .srefuse s = .next (s.takeTrap (s.stemTrap 231 0))) ∧
    (∀ (s : State) (r : Routine) (f : Frame) (rest : List Frame), s.me.routine = some r →
      popRoutineFrame s.me.frames = some (f, rest) →
      let back (n : Word) (x : Hart) : Hart := { ({ x with srefn := n, routine := none, recallW := x.recallW &&& ~~~1, frames := rest,
                                                           bolts := x.bolts ++ f.bolts }).jump f.pc with wrapFrom := f.wrap }
      let n : Word := if s.me.srefn.toNat < 16 then s.me.srefn + 1 else 16
      exec .sdone s = .next ((s.surrender r).modMe (back 0)) ∧
      (s.idle → exec .ssumm s = .next ((((s.drain s.cur).release (groveOf s.cur) .dev).surrender r).modMe (back 0))) ∧
      (r.budget = none → exec .srefuse s = .next (s.modMe (back 0))) ∧
      (r.budget ≠ none → n.toNat ≤ s.me.srlimit.toNat → ∃ t, exec .srefuse s = .next t ∧ t.me.pc = f.pc ∧ t.me.srefn = n ∧
        t.me.routine = none ∧ t.me.bolts = s.me.bolts ++ f.bolts ∧ t.me.regs = s.me.regs ∧
        (∀ x, s.myCore.claimOf r.claim = some x → x.outcome = none → t.myCore.claimOf r.claim =
          some (if s.surrendering r = [] then x
            else if x.status then { x with outcome := some 1, lots := 0, got := 0, refused := [] }
            else { x with refused := x.refused ++ [(Bits.ofList (s.surrendering r), s.cycle)] }))) ∧
      (r.budget ≠ none → s.me.srlimit.toNat < n.toNat →
        let u := (s.modMe (fun x => { x with srefn := n })).strip r
        exec .srefuse s = .next (u.takeTrap (u.stemTrap (200 + s.me.lowestRecalled) 0))))) ∧
  (∀ (s : State) (r : Routine) (i : Nat), r.kind < 4 → i < lotCount r.kind →
      let l := s.myCore.lot r.kind i
      let goes : Bool := r.lots.testBit i && s.holds r.kind i && decide (l.st = 2)
      (goes = false → l.claim = none → (s.surrender r).myCore.lot r.kind i = l) ∧
      (goes = true → r.kind = 0 → (s.surrender r).myCore.lot 0 i = { l with st := 3 }) ∧
      (goes = true → r.kind ≠ 0 → l.claim = none →
        (s.surrender r).myCore.lot r.kind i = { Lot.free with lastUid := l.lastUid }) ∧
      (r.kind ≠ 0 → (s.surrender r).myCore = ((List.range 8).filter (fun i => r.lots.testBit i && s.holds r.kind i &&
        decide ((s.myCore.lot r.kind i).st = 2))).foldl (fun c i => c.passLot r.kind i) s.myCore) ∧
      (∀ kind j, kind < 4 → kind ≠ r.kind → j < lotCount kind → (s.myCore.lot kind j).claim = none →
        (s.surrender r).myCore.lot kind j = s.myCore.lot kind j)) ∧
  (∀ (s : State) (r : Routine), r.kind = 0 →
      let lost := Bits.ofList (s.surrendering r)
      let lc := Bits.diff s.me.lc lost
      let y := (s.strip r).me
      lost &&& s.me.lc ≠ 0 → y.vl = 0 ∧ y.mvl = mvlOf s.me.cfg lc ∧ y.vtype = vtypeOf s.me.cfg lc ∧ y.vregs = [] ∧ y.masks = [] ∧
        y.regs = s.me.regs ∧ ∀ b ∈ y.bolts ++ y.frames.flatMap (·.bolts), b.lanes = lc)

/-! ### Tokens, bindings and engines -/

/-- PROBE and UNPROBE (R193, R194, R268): an extent above 2^40 takes 53, a range that cannot be accessed its memory cause at
the first bit that fails, and pins beyond 65,536 pages 53; otherwise the token is live over the range for its kind. UNPROBE
frees a token once the earlier bolts are complete. A tile attached to a token that is freed or probed anew follows R268, and
old pages the token kept (R370) are let go; nothing else changes; a page counts for each token that pins it (log 112, the
model's choice). BIND and UNBIND (R195, R132, R311), once the earlier bolts are complete: a register outside the
configuration takes 57, a misaligned or invalid record 58, and a ninth binding 59; otherwise the record, read at grove
scope, binds the register in the least free slot in place of its earlier binding, and a record of a layer moves the hart's
position on to it. UNBIND removes the binding. Nothing else changes. DIMS (R196): a length below 2^21 and a stride are
written to the dimension register; a greater length takes 54. -/
def Obligations.ProbesBindingsAndDimensions : Prop :=
  (∀ (s : State) (k : Tok) (a b : Reg) (kd : BitVec 2),
      let base := (s.me.reg a).toNat
      let ext := (s.me.reg b).toNat
      let kind := probeKind kd
      let pages := (s.parts s.me.asid base ext).length
      (2 ^ 40 < ext → exec (.probe k a b kd) s = .next (s.takeTrap (s.stemTrap 53 base))) ∧
      (ext ≤ 2 ^ 40 → ∀ e, s.checkAccess s.me.asid base ext kind = some e → exec (.probe k a b kd) s =
        .next (s.takeTrap (s.stemTrap (64 + 8 * e.1 + (match kind with
          | .rd => 2
          | .wr => 3
          | .rmw => 4)) e.2))) ∧
      (ext ≤ 2 ^ 40 → s.checkAccess s.me.asid base ext kind = none → 65536 < pages + s.me.pinnedBut k.toNat →
        exec (.probe k a b kd) s = .next (s.takeTrap (s.stemTrap 53 base))) ∧
      (ext ≤ 2 ^ 40 → s.checkAccess s.me.asid base ext kind = none → pages + s.me.pinnedBut k.toNat ≤ 65536 →
        exec (.probe k a b kd) s = .next (((match (s.me.tok k.toNat).st with
            | .free => s
            | .live => s.tilesTokenGone k.toNat false
            | _ => s.tilesTokenGone k.toNat true).dropSpace s.cur k.toNat).modMe
          (fun x => (x.setTok k.toNat ⟨.live, base, ext, decide (kind ≠ AccKind.wr), decide (kind ≠ AccKind.rd), pages, false⟩).advance))) ∧
      (s.me.bolts = [] → exec (.unprobe k) s = .next ((if (s.me.tok k.toNat).st = .free then s
        else (s.tilesTokenGone k.toNat false).dropSpace s.cur k.toNat).modMe
          (fun x => (x.setTok k.toNat Token.none).advance)))) ∧
  (∀ (s : State) (b : Reg) (v : VReg), s.me.bolts = [] →
      let a := (s.me.reg b).toNat
      let m := s.sread s.me.asid .grove a 256
      let r := BitVec.ofNat 256 m.1
      let bad := r.getLsbD 0 || (Tag.ofCode (r.extractLsb' 24 8)).isNone ||
        (r.getLsbD 3 && (decide (s.me.mctx = 0) || decide (s.layers s.me.mctx.toNat ≤ (r.extractLsb' 4 12).toNat)))
      let others := s.me.binds.filter (fun b => !(decide (b.reg = v.toNat)))
      (s.me.cfg.nreg ≤ v.toNat → exec (.bind b v) s = .next (s.takeTrap (s.stemTrap 57 0))) ∧
      (v.toNat < s.me.cfg.nreg → a % 64 ≠ 0 → exec (.bind b v) s = .next (s.takeTrap (s.stemTrap 58 0))) ∧
      (v.toNat < s.me.cfg.nreg → a % 64 = 0 → s.clean → s.me.stores = [] → s.reaches a 256 .rd →
        (bad = true → exec (.bind b v) s = .next (s.takeTrap (s.stemTrap 58 0))) ∧
        (bad = false → others = s.me.binds → 8 ≤ s.me.binds.length →
          exec (.bind b v) s = .next (s.takeTrap (s.stemTrap 59 0))) ∧
        (bad = false → (others ≠ s.me.binds ∨ s.me.binds.length < 8) →
          exec (.bind b v) s = .next (m.2.modMe (fun x => Hart.advance { x with
            binds := others ++ [Binding.mk (freeSlot others) v.toNat r 0 []],
            position := if r.getLsbD 3 then max x.position (r.extractLsb' 4 12).toNat else x.position })))) ∧
      exec (.unbind v) s = .next (s.modMe (fun x => Hart.advance { x with binds := others }))) ∧
  (∀ (s : State) (a b : Reg) (n : BitVec 2),
      ((s.me.reg a).toNat < 2 ^ 21 → exec (.dims a b n) s = .next (s.modMe (fun x =>
        { x with dims := Tab.set Dim.initial x.dims n.toNat ⟨(x.reg a).toNat, x.reg b⟩ }.advance))) ∧
      (2 ^ 21 ≤ (s.me.reg a).toNat → exec (.dims a b n) s = .next (s.takeTrap (s.stemTrap 54 0))))

/-- COPY, COPYM and SLD in both forms (R197, R199, R203): with operands that pass the checks, ranges that may issue, and
room, the counter rises by one and the transfer is entered with its operands as read; nothing else of the hart changes but
its PC. SLD waits for the hart's earlier bolts, and takes SCALE_RANGE, 132, where it would fill an entry past the last: that
it takes it before the causes of its ranges is the model's choice, log 98. A length 0 only advances the PC, a full counter
or interlock table waits, for a length 0 too (log 53), a length above 2^40 bits takes 168, ranges that meet 169 and a COPYM
total above 2^40 bits 175, TADDR at the first bit in question (log 102). MCAST and REDST in both forms (R197, R200-R202):
with an aligned descriptor that is reached and valid, destinations that do not meet the source or each other, and for REDST
elements of an atomic tag that lie in one line each, the transfer is entered with the descriptor as read, at grove scope
(log 51), and its arrival word where AEN names one; its counter rises by one. A misaligned descriptor takes 170, and a
length above 2^40 bits 168. -/
def Obligations.EngineIssues : Prop :=
  ((∀ (s : State) (a b l : Reg) (n : BitVec 9) (cn : BitVec 3) (i : Instr) (len : Nat),
      ((i = .copyRegLen a b l cn ∧ len = (s.me.reg l).toNat) ∨ (i = .copyImmLen a b n cn ∧ len = n.toNat + 1)) →
      let dst := (s.me.reg a).toNat
      let src := (s.me.reg b).toNat
      (2 ^ 40 < len → exec i s = .next (s.takeTrap (s.stemTrap 168 ((src + 2 ^ 40) % 2 ^ 64)))) ∧
      (len ≤ 2 ^ 40 → rangesMeet (src, len) (dst, len) = true → exec i s = .next (s.takeTrap (s.stemTrap 169 (max src dst)))) ∧
      (len ≤ 2 ^ 40 → rangesMeet (src, len) (dst, len) = false → s.engRange src len → s.engRange dst len →
        (s.engRoom s.cur cn = true → len ≠ 0 → exec i s = .next (s.issued (s.newXfer .copy cn.toNat dst src len))) ∧
        (s.engRoom s.cur cn = true → len = 0 → exec i s = .next (s.modMe Hart.advance)) ∧
        (s.engRoom s.cur cn = false → exec i s = .next (s.beginWait (.engineRoom cn) none)))) ∧
    (∀ (s : State) (a b l : Reg) (n : BitVec 9) (cn : BitVec 3) (i : Instr) (len : Nat),
      ((i = .copymRegLen a b l cn ∧ len = (s.me.reg l).toNat) ∨ (i = .copymImmLen a b n cn ∧ len = n.toNat + 1)) →
      let dst := (s.me.reg a).toNat
      let src := (s.me.reg b).toNat
      let ds := [s.me.dim 0, s.me.dim 1, s.me.dim 2]
      let total := (s.me.dim 0).len * (s.me.dim 1).len * (s.me.dim 2).len * len
      let box := boxRange src len ds
      len ≤ 2 ^ 40 → rangesMeet box (dst, total) = false →
      (2 ^ 40 < total → exec i s = .next (s.takeTrap (s.stemTrap 175 ((dst + 2 ^ 40) % 2 ^ 64)))) ∧
      (total ≤ 2 ^ 40 → s.engRange box.1 box.2 → s.engRange dst total → s.engRoom s.cur cn = true →
        exec i s = .next (if total = 0 then s.modMe Hart.advance else s.issued { s.newXfer .copym cn.toNat dst src len with
          dims := [(0, s.me.dim 0), (1, s.me.dim 1), (2, s.me.dim 2)], srcLo := box.1, srcHi := box.1 + box.2,
          dstHi := dst + total }))) ∧
    (∀ (s : State) (a b l : Reg) (n : BitVec 9) (cn : BitVec 3) (i : Instr) (len : Nat),
      ((i = .sldRegLen a b l cn ∧ len = (s.me.reg l).toNat) ∨ (i = .sldImmLen a b n cn ∧ len = n.toNat + 1)) →
      let f := s.me.reg a
      let src := (s.me.reg b).toNat
      let stride := (f.extractLsb' 32 32).toInt
      let box := boxRange src 8 [⟨len, BitVec.ofInt 64 stride⟩]
      (f.extractLsb' 11 21 = 0 → 2048 < f.toNat % 2048 + len → len ≤ 2 ^ 40 → exec i s = .next (s.takeTrap (s.stemTrap 132 0))) ∧
      (f.extractLsb' 11 21 = 0 → f.toNat % 2048 + len ≤ 2048 → s.engRange box.1 box.2 → s.me.bolts ≠ [] →
        exec i s = .next (s.beginWait .bolts none)) ∧
      (f.extractLsb' 11 21 = 0 → f.toNat % 2048 + len ≤ 2048 → s.engRange box.1 box.2 → s.me.bolts = [] → s.engRoom s.cur cn = true →
        exec i s = .next (if len = 0 then s.modMe Hart.advance else s.issued { s.newXfer .sld cn.toNat 0 src len with
          first := f.toNat % 2048, stride := stride, srcLo := box.1, srcHi := box.1 + box.2, dstHi := 0 })))) ∧
  (∀ (s : State) (a b l : Reg) (n : BitVec 9) (cn : BitVec 3) (i : Instr) (len : Nat) (red : Bool),
      ((red = false ∧ i = .mcastRegLen a b l cn ∧ len = (s.me.reg l).toNat) ∨
        (red = false ∧ i = .mcastImmLen a b n cn ∧ len = n.toNat + 1) ∨
        (red = true ∧ i = .redstRegLen a b l cn ∧ len = (s.me.reg l).toNat) ∨
        (red = true ∧ i = .redstImmLen a b n cn ∧ len = n.toNat + 1)) →
      let da := (s.me.reg a).toNat
      let src := (s.me.reg b).toNat
      let m := s.sread s.me.asid .grove da 1024
      let d := BitVec.ofNat 1024 m.1
      let ds := destsOf d
      let own := ds.filter (fun p => decide (p.1 = 0))
      let va := (d.extractLsb' 192 64).toNat
      (2 ^ 40 < len → exec i s = .next (s.takeTrap (s.stemTrap 168 ((src + 2 ^ 40) % 2 ^ 64)))) ∧
      (len ≤ 2 ^ 40 → da % 64 ≠ 0 → exec i s = .next (s.takeTrap (s.stemTrap 170 da))) ∧
      (0 < len → len ≤ 2 ^ 40 → da % 64 = 0 → s.clean → s.me.stores = [] → s.reaches da 1024 .rd →
        own.all (fun p => !(rangesMeet (src, len) (p.2, len))) = true →
        d.extractLsb' 0 64 = 0 → d.extractLsb' 65 63 = 0 → d.extractLsb' 132 2 = 0 → d.extractLsb' 134 2 ≠ 3 →
        (∀ j < 12, (d.extractLsb' (144 + 4 * j) 4).toNat ≤ 8) → 0 < ndestOf d → ndestOf d ≤ 12 →
        own.all (fun p => decide (p.2 < aperture)) = true → destsMeet len ds = false →
        (red = true → ∃ t : Tag, Tag.ofCode (d.extractLsb' 136 8) = some t ∧ t.isAtomic = true ∧ len % t.width = 0 ∧
          ∀ p ∈ ds, ∀ k < len / t.width, oneLine (p.2 + k * t.width) t.width = true) →
        s.engRange src len → own.all (fun p => decide (s.engRange p.2 len)) = true →
        (d.getLsbD 64 = true → va % 64 = 0 ∧ s.checkAccess s.me.asid va 64 .rmw = none ∧
          (isHost (s.physOf va) && hostPort (s.physOf va) == 1) = false) →
        s.engRoom s.cur cn = true →
          exec i s = .next (m.2.issued { s.newXfer (if red then .redst else .mcast) cn.toNat 0 src len with
            desc := d, dstHi := 0, arr := if d.getLsbD 64 then some va else none })))

/-- The end of a transfer (R131, R135, R138, R139, R198, R387): with the bolts issued before it complete, no transfer it
follows in flight and no shootdown pending, its hart's vector accesses are performed and its data is moved, its entry
retires and its counter falls by one; it arrives on the word it names, with ERR and CAUSE where it failed, and a failure
without a word is reported on its counter. No register of its hart changes. What is moved, where no structure holds an error
and every page may be reached (R127, R131, R199-R203): COPY moves its bits from source to destination, through the aperture
in the scratchpad of its core, else in memory at dev scope, piece by piece within the pages of both; COPYM copies its runs,
with i0 fastest and i2 slowest, one behind the other; MCAST writes every piece to every destination of this device; a row of
a copy may be moved before the transfer ends, and its bank's arrival pointer then passes it (R136); REDST combines each
element into every destination, by sum modulo 2^w, minimum or maximum of an integer tag; SLD fills the scale file from FIRST
on with the bytes STRIDE apart. A destination that fails keeps MCAST and REDST from every one: a link that is down takes 416
+ k, a peer that refuses 424 + k. -/
def Obligations.EngineTransferEnds : Prop :=
  (∀ (s : State) (x ext : Nat) (t : Xfer), s.xfer x = some t → t.kind ≠ .tldf → s.xferReady t = true →
    let m := (s.drainBy t.hart (·.vec)).moveXfer t ext
    ∃ r : State, r.xfers = m.1.xfers.filter (fun u => decide (u.id ≠ t.id)) ∧
      Tab.get 0 (r.hart t.hart).ctrs t.cn = Tab.get 0 (m.1.hart t.hart).ctrs t.cn - 1 ∧
      (r.hart t.hart).regs = (m.1.hart t.hart).regs ∧ (r.hart t.hart).pc = (m.1.hart t.hart).pc ∧
      (m.2 = none → r.dev = m.1.dev ∧ r.hostMem = m.1.hostMem ∧ r.groves = m.1.groves) ∧
      exec (.engineTransferComplete x ext) s = .next (match t.arr, m.2 with
        | none, none => r
        | none, some e => r.engFailed t e
        | some va, c => match r.arriveOn t.hart t.asid va 1 (c.map (·.1)) with
          | .ok u => u
          | .error e => r.engFailed t e)) ∧
  (∀ (s : State) (t : Xfer) (c a : Nat),
    ((s.engFailed t (c, a)).hart t.hart).engFails = (s.hart t.hart).engFails ++ [⟨t.cn, c, BitVec.ofNat 64 a⟩]) ∧
  (∀ w n c : Nat, arrivalWord w n none = w / 2 ^ 32 * 2 ^ 32 + (w + n) % 2 ^ 32 ∧
    (arrivalWord w n (some c)).testBit 32 = true ∧ arrivalWord w n (some c) % 2 ^ 32 = (w + n) % 2 ^ 32 ∧
    arrivalWord w n (some c) / 2 ^ 33 % 2 ^ 9 = (if w.testBit 32 then w / 2 ^ 33 % 2 ^ 9 else c % 512) ∧
    arrivalWord w n (some c) / 2 ^ 42 = w / 2 ^ 42) ∧
  ((∀ (s : State) (t : Xfer) (ext : Nat), t.kind = .copy → t.banks = [] → s.clean →
      let src := t.src + t.done
      let dst := t.dst + t.done
      let k := min (t.len - t.done) (min (pageBits - src % pageBits) (pageBits - dst % pageBits))
      let m := t.readAt s src k
      (t.done = t.len → s.moveXfer t ext = (s, none)) ∧
      (t.done < t.len → t.canAt s src k .rd 5 → t.canAt s dst k .wr 6 →
        s.moveXfer t ext = (t.writeAt m.2 dst k m.1).moveXfer { t with done := t.done + k } ext)) ∧
    (∀ (s : State) (t : Xfer) (ext : Nat) (p : Nat × Nat × Nat), (t.kind = .copy ∨ t.kind = .copym) → t.banks ≠ [] →
      t.piece = some p → s.moveXfer t ext =
        let m := (t.rowsLeft p).foldl t.copyPiece (s, none)
        match m.2 with
        | some _ => m
        | none => m.1.moveXfer { t with done := t.done + p.2.2, banks := [] } ext) ∧
    (∀ (s : State) (x k : Nat) (t : Xfer) (p r : Nat × Nat × Nat), s.xfer x = some t → (t.kind = .copy ∨ t.kind = .copym) →
      t.piece = some p → (t.rowsLeft p).find? (fun q => decide (bankOf q.1 = k)) = some r → s.xferReady t = true → s.clean →
      (s.hart t.hart).stores = [] → 0 < r.2.2 → t.canAt s r.2.1 r.2.2 .rd 5 → t.canAt s r.1 r.2.2 .wr 6 →
        let m := t.readAt s r.2.1 r.2.2
        let u := t.writeAt m.2 r.1 r.2.2 m.1
        let v := u.setHart t.hart (u.hart t.hart).xferDone
        s.moveNext x k = { v with xfers := v.xfers.map (fun (w : Xfer) => if w.id = x then w.filled p r else w) }) ∧
    (∀ (s : State) (t : Xfer) (ext : Nat), t.kind = .copym → t.banks = [] →
      let d (i : Nat) : Dim := Tab.get Dim.initial t.dims i
      t.runs.length = (d 2).len * (d 1).len * (d 0).len ∧
      (∀ i2 < (d 2).len, ∀ i1 < (d 1).len, ∀ i0 < (d 0).len, t.runs[(i2 * (d 1).len + i1) * (d 0).len + i0]? =
        some (addrPlus t.src (i0 * (d 0).stride.toInt + i1 * (d 1).stride.toInt + i2 * (d 2).stride.toInt))) ∧
      s.moveXfer t ext = ((List.range t.runs.length).zip t.runs).foldl (fun (m : Moved) p =>
        match m.2 with
        | some _ => m
        | none => m.1.moveXfer { t with kind := .copy, dst := t.dst + p.1 * t.len, src := p.2,
                                        done := min t.len (t.done - p.1 * t.len) } ext) (s, none)) ∧
    (∀ (s : State) (t : Xfer) (ext : Nat), (t.kind = .mcast ∨ t.kind = .redst) →
      (∀ e, s.destError t ext = some e → s.moveXfer t ext = (s, some e)) ∧
      (∀ k a l, destsOf t.desc = (k + 1, a) :: l → (s.host.linkDown.testBit k = true → s.destError t ext = some (416 + k, a)) ∧
        (s.host.linkDown.testBit k = false → ext.testBit k = true → s.destError t ext = some (424 + k, a)))) ∧
    (∀ (s : State) (t : Xfer) (ext : Nat), t.kind = .mcast → s.clean → s.destError t ext = none →
      let ps := pieces (t.len / pageBits * 2 + 3) 0 t.src t.len
      (∀ p ∈ ps, t.canAt s (t.src + p.1) p.2.2 .rd 5 ∧
        ∀ r ∈ t.dstRanges, r.1 + p.1 + p.2.2 ≤ aperture ∧ s.engCheck t.hart t.asid (r.1 + p.1) p.2.2 .wr 6 = none) →
      s.moveXfer t ext = (ps.foldl (fun u p =>
        let m := t.readAt u (t.src + p.1) p.2.2
        t.dstRanges.foldl (fun u r => t.writeAt u (r.1 + p.1) p.2.2 m.1) m.2) s, none)) ∧
    (∀ (s : State) (t : Xfer) (ext : Nat) (g : Tag), t.kind = .redst → s.clean → s.destError t ext = none →
      Tag.ofCode (t.desc.extractLsb' 136 8) = some g →
      let w := g.width
      (∀ k < t.len / w, t.canAt s (t.src + k * w) w .rd 5 ∧ ∀ r ∈ t.dstRanges, r.1 + k * w + w ≤ aperture ∧
        s.engCheck t.hart t.asid (r.1 + k * w) w .rd 7 = none ∧ s.engCheck t.hart t.asid (r.1 + k * w) w .wr 7 = none) →
      s.moveXfer t ext = ((List.range (t.len / w)).foldl (fun u k =>
        let x := t.readAt u (t.src + k * w) w
        t.dstRanges.foldl (fun u r =>
          let y := t.readAt u (r.1 + k * w) w
          t.writeAt y.2 (r.1 + k * w) w (combine (t.desc.extractLsb' 134 2).toNat g y.1 x.1)) x.2) s, none)) ∧
    (∀ w y x : Nat, 0 < w → y < 2 ^ w → x < 2 ^ w →
      (∀ g ∈ [Tag.nat w, .int w], combine 0 g y x = (y + x) % 2 ^ w) ∧
      combine 1 (.nat w) y x = min y x ∧ combine 2 (.nat w) y x = max y x ∧
      signed (combine 1 (.int w) y x) w = min (signed y w) (signed x w) ∧
      signed (combine 2 (.int w) y x) w = max (signed y w) (signed x w)) ∧
    (∀ (s : State) (t : Xfer) (ext : Nat), t.kind = .sld → s.clean →
      (∀ i < t.len, t.canAt s (addrPlus t.src (i * t.stride)) 8 .rd 5) →
      s.moveXfer t ext = ((List.range t.len).foldl (fun (u : State) (i : Nat) =>
        let m := t.readAt u (addrPlus t.src (i * t.stride)) 8
        m.2.setHart t.hart { m.2.hart t.hart with
          sf := Tab.set 0x7F (m.2.hart t.hart).sf (t.first + i) (BitVec.ofNat 8 m.1) }) s, none)))

/-! ### Bolts -/

/-- BOLT (R11, R12, R147, R187): a misaligned target takes 42; at VL 0 the bolt completes at once; otherwise, with room in
the queue, it stands behind the hart's other bolts with the registers, dimensions and lengths of its issue and one fragment
of every element below VL at its entry; an access that is yet to write a register gives it to the bolt too (R142); without
room the hart waits. -/
def Obligations.BoltIssue : Prop :=
  ∀ (s : State) (off : BitVec 26),
    let x := s.me
    let e := x.pc + BitVec.ofInt 64 (off.toInt * 32)
    let n := s.countWords s.cur e.toNat 32
    (e.toNat % 64 ≠ 0 → exec (.bolt off) s = .next (s.takeTrap (s.stemTrap 42 e.toNat))) ∧
    (e.toNat % 64 = 0 → x.vl = 0 → exec (.bolt off) s = .next (s.modMe Hart.advance)) ∧
    (e.toNat % 64 = 0 → x.vl ≠ 0 → (x.bolts = [] ∨ x.queued + n ≤ 32) →
      let b : Bolt := { seq := x.boltSeq + 1, entry := e, frame := x.regs, dims := x.dims, vl := x.vl, mvl := x.mvl,
                        lanes := x.lc, frags := [⟨e.toNat, 2 ^ x.vl - 1, none⟩], convoy := [], begun := false, words := n,
                        mpos := none, vstep := false, recheck := s.recheckOf x, ext := 0, ahead := [], cut := false, rowsTold := [],
                        chain := [] }
      exec (.bolt off) s = .next (s.modMe (fun x => Hart.advance { x with
        boltSeq := b.seq, bolts := x.bolts ++ [b]
        stores := x.stores.map (fun p => if p.dests = [] then p else { p with bolts := p.bolts ++ [b.seq] }) }))) ∧
    (e.toNat % 64 = 0 → x.vl ≠ 0 → x.bolts ≠ [] → 32 < x.queued + n →
      exec (.bolt off) s = .next (s.beginWait .boltRoom none))

/-- LWAIT (R52, R184, R311, R367): a hart of no context takes 312 + the layer's band, and a layer its context does not have
304 + the band; a RESIDENT layer is acquired at dev scope, its LRT entry goes to sd, and it is the hart's position; an
ABSENT one is requested and the hart waits. The wake of a hart that waits does the same, and a timeout takes 296 + the band
with the entry's address. -/
def Obligations.LayerWaits : Prop :=
  ∀ (s : State) (d a : Reg) (tmo : BitVec 5),
    let l := (s.me.reg a).toNat
    (s.me.mctx = 0 → exec (.lwait d a tmo) s = .next (s.takeTrap (s.stemTrap (312 + min 7 (l / 512)) 0))) ∧
    (s.me.mctx ≠ 0 → s.ctx s.me.mctx.toNat = none →
      exec (.lwait d a tmo) s = .next (s.takeTrap (s.stemTrap (304 + min 7 (l / 512)) 0))) ∧
    (∀ c, s.me.mctx ≠ 0 → s.ctx s.me.mctx.toNat = some c →
      (c.nlayer ≤ l → exec (.lwait d a tmo) s = .next (s.takeTrap (s.stemTrap (304 + min 7 (l / 512)) (c.entryAt l)))) ∧
      (l < c.nlayer → s.lrtEntry c l % 4 = 2 → exec (.lwait d a tmo) s =
        .next (State.modMe { s.acquire (groveOf s.cur) .dev with ctxs := s.ctxs.map (fun (k : Ctx) =>
            if k.mctx = c.mctx then { k with lastLwait := some s.cycle } else k) }
          (fun x => Hart.advance { x.setReg d (BitVec.ofNat 64 (s.lrtEntry c l)) with position := max x.position l }))) ∧
      (l < c.nlayer → s.lrtEntry c l % 4 = 0 → exec (.lwait d a tmo) s =
        .next (State.beginWait { s.setEntry c l (s.lrtEntry c l - s.lrtEntry c l % 4 + 1) with
          swaps := s.swaps ++ [⟨c.mctx, l, .needPages, [], s.cycle, false, c.mctx, false⟩] } (.lwait d l)
            (if tmo = 0 then none else some (2 ^ (tmo.toNat + 9)))))) ∧
    (∀ (h n : Nat) (c : Ctx), s.waitsFor h (.lwait d n) → (s.hart h).mctx ≠ 0 → s.ctx (s.hart h).mctx.toNat = some c →
      n < c.nlayer →
      (s.lrtEntry c n % 4 = 2 → exec (.lwaitWake h) s =
        .next (State.modMe { (s.on h).acquire (groveOf h) .dev with ctxs := s.ctxs.map (fun (k : Ctx) =>
            if k.mctx = c.mctx then { k with lastLwait := some s.cycle } else k) }
          (fun x => Hart.advance { x.setReg d (BitVec.ofNat 64 (s.lrtEntry c n)) with position := max x.position n }))) ∧
      (s.timedOut h (.lwait d n) → s.lrtEntry c n % 4 ≠ 2 → exec (.swapTimeout h) s =
        .next ((s.on h).takeTrap ((s.on h).stemTrap (296 + min 7 (n / 512)) (c.entryAt n)))))

/-- How the fragments of a bolt meet (R14, R17): the one with the lowest counter runs, holding the elements of every
fragment at that counter; the others stay parked. STOP ends the running fragment (R19): the bolt is over with its last
fragment, and otherwise the lowest of the others runs. VBANY, VBALL and VBNONE (R160, R217-R219) branch by the active
elements of the fragment, VJMP always: a taken branch goes to PC + sext(OFF, 20) x 64 bits, whose word must be fetched, with
the causes of a fetch, and must carry CB or takes 33; another goes to the next word. Where another fragment is then lower,
that one returns, and the one that moved is parked: in the buffer while fewer than 8 are, else in the lowest free spill
slot, in scratchpad the hart holds; it takes FRAG_OVERFLOW, 55, without a slot, SP_RANGE, 60, beyond the scratchpad, and
LOT_NOT_HELD, 199, in a quarter it does not hold (R17). VBDIV (R16-R18, R218): with no active element it goes on, with only
active ones it branches; otherwise the fragment is cut in two, the one of the higher counter parked as above. Where both
have one counter, the part not taken is the one that runs, and the other is parked, before they merge: the model's choice,
log 93. The convoy is over. VFENCE fences at its scope once the transfers issued before the bolt are complete (R220), the
hart's vector accesses being performed before it (R142), and at sys scope what it has written through port 1 (R338). -/
def Obligations.BoltControl : Prop :=
  (∀ (b : Bolt) (f : Frag) (fs : List Frag), b.frags = f :: fs →
    ∃ low, (∃ g ∈ b.frags, g.pc = low) ∧ (∀ g ∈ b.frags, low ≤ g.pc) ∧
      b.choose = { b with
        frags := ⟨low, (b.frags.filter (fun g => decide (g.pc = low))).foldl (fun m g => m ||| g.mask) 0, none⟩ ::
          b.frags.filter (fun g => !(decide (g.pc = low))) }) ∧
  ((∀ (s : State) (b : Bolt) (bs : List Bolt), s.me.bolts = b :: bs →
      (b.frags.length ≤ 1 → exec .stop s = .next (s.modMe (fun x => { x with bolts := bs, vwait := none }))) ∧
      (∀ f g fs, b.frags = f :: g :: fs → exec .stop s = .next (s.goesOn b bs (g :: fs)))) ∧
    (∀ (s : State) (b : Bolt) (bs : List Bolt) (f : Frag) (fs : List Frag), s.me.bolts = b :: bs → b.frags = f :: fs →
      let own := (List.range b.vl).filter (fun e => f.mask.testBit e)
      let here (k : MaskOp) : List Nat := own.filter (b.active s.me k)
      (s.clean → ∀ (off : BitVec 20) (k : MaskOp),
        let t := wrap (f.pc + off.toInt * 64) 64
        ∀ p ∈ [(Instr.vbany off k, decide (here k ≠ [])), (.vbnone off k, decide (here k = [])),
            (.vball off k, decide (here k = own)), (.vjmp off, true)],
          (p.2 = true → s.branchesTo b t (exec p.1 s) (s.movesTo b bs f fs t (exec p.1 s))) ∧
          (p.2 = false → s.movesTo b bs f fs (f.pc + 64) (exec p.1 s))) ∧
      (∀ sc : Scope, (s.xfersOf s.cur).all (fun t => t.behind.contains b.seq) = true →
        exec (.vfence sc) s = .next (((s.drainBy s.cur (fun p => p.vec || (decide (sc = .sys) && portOne p.parts))).fence sc).modMe
          Hart.vnext)))) ∧
  (∀ (s : State) (b : Bolt) (bs : List Bolt) (f : Frag) (fs : List Frag) (off : BitVec 20) (k : MaskOp),
      s.me.bolts = b :: bs → b.frags = f :: fs → s.clean →
      let t := wrap (f.pc + off.toInt * 64) 64
      let own := (List.range b.vl).filter (fun e => f.mask.testBit e)
      let yes := Bits.ofList (own.filter (b.active s.me k))
      let no := Bits.ofList (own.filter (fun e => !(b.active s.me k e)))
      let lo : Frag := if t < f.pc + 64 then ⟨t, yes, none⟩ else ⟨f.pc + 64, no, none⟩
      let hi : Frag := if t < f.pc + 64 then ⟨f.pc + 64, no, none⟩ else ⟨t, yes, none⟩
      let v := exec (.vbdiv off k) s
      (yes = 0 → s.movesTo b bs f fs (f.pc + 64) v) ∧
      (yes ≠ 0 → s.branchesTo b t v
        ((no = 0 → s.movesTo b bs f fs t v) ∧
          (no ≠ 0 →
            (∀ g' u, s.parks (fs ++ s.parkedElsewhere) b hi g' u → v = .next (u.goesOn b bs (lo :: g' :: fs))) ∧
            (∀ c a, s.parkCause (fs ++ s.parkedElsewhere) b c a → v = .next (s.takeTrap (s.vecTrap c a)))))))

/-- The operand checks of bolt instructions (R164, R209, R212, R306): an instruction of these families whose operands fail
takes the first cause of R164 and writes nothing else: a vector register at or above NREG 17, then the case its row of the
table below names (18 a scan onto its source, 20 to 22 FX and ZP, 24 to 31 the tags in the order vd, va, vb, vc, FX, tile,
activation, pair), then a bound register among those it writes, FLUME_WRITE 56 (R214), of a segment each of the nf registers
(R261). The sources of a bolt instruction (R132, R133, R195, R214): without a bound register they are the registers as they
stand. A register bound to a flume of no layer and no scales, its token live over the strip, shows its next strip: the
strip's elements of the stream are read in turn and narrowed to the register's tag, with zero for the elements beyond the
strip; the binding has consumed one strip more, active elements set their flags, and the register itself keeps what it
holds. -/
def Obligations.SourcesAndOperandFaults : Prop :=
  (∀ (s : State) (b : Bolt) (i : Instr) (c : Nat), s.me.bolts.head? = some b → operandCause i s.me = some c →
      ((elementOf i).isSome = true ∨ (specialOf i).isSome = true ∨ (maskOf i).isSome = true ∨ (reduceOf i).isSome = true ∨
        (movesOf i).isSome = true ∨ (loadOf i).isSome = true ∨ (storeOf i).isSome = true ∨ (vatomOf s.me i).isSome = true) →
        exec i s = .next (s.takeTrap (s.vecTrap c 0))) ∧
  (∀ (x : Hart) (vd va vb vc : VReg) (sa sb : Reg) (md ma : MReg) (q : QReg) (t : TReg) (c : Cond) (r : Rnd) (k : MaskOp)
      (a : SlideAmt) (u : ExtSel) (fx : BitVec 4) (d17 : BitVec 17) (d14 : BitVec 14) (d12 : BitVec 12) (nf : BitVec 3) (cn : CReg)
      (tok : Tok) (sc : Scope) (f nr : Bool) (n : BitVec 10) (w : BitVec 7) (l : BitVec 8),
    let tag (v : VReg) : Tag := x.tag v
    let int (v : VReg) : Bool := (x.tag v).isInt
    let fp (v : VReg) : Bool := (x.tag v).isFlt || decide (x.tag v = .p16)
    let plain (v : VReg) : Bool := decide (x.tag v ≠ .ts8) && decide (x.tag v ≠ .e8m0)
    let act (g : Tag) : Bool := (g.isInt && decide (g.width ≤ 16)) || g.isFlt
    let sums (g : Tag) : Bool := g.isInt || decide (g = .flt .f32) || decide (g = .flt .bf16) || decide (g = .flt .f16)
    let same (v u : VReg) : Bool := decide ((x.tag v).width = (x.tag u).width)
    let seg := (List.range (nf.toNat + 1)).map (fun i => vd + BitVec.ofNat 6 i)
    let rows (is : List Instr) (rs : List VReg) (cs : List (Nat × Bool)) (ws : List VReg) : Prop :=
      ∀ i ∈ is, operandCause i x = x.faultOf rs cs ws
    (rows [.vadd vd va vb r k, .vsub vd va vb r k, .vmul vd va vb r k, .vdiv vd va vb r k, .vmin vd va vb r k, .vmax vd va vb r k,
        .vsel vd va vb ma k, .vzip vd va vb f k, .vunzip vd va vb f k] [vd, va, vb] [] [vd] ∧
      rows [.vmulh vd va vb r k, .vmacc vd va vb k, .vrem vd va vb r k, .vadds vd va vb r k, .vsubs vd va vb r k, .vavg vd va vb r k,
        .vshl vd va vb r k, .vshr vd va vb r k, .vsra vd va vb r k, .vbext vd va vb r k] [vd, va, vb]
        [(24, int vd), (25, int va), (26, int vb)] [vd] ∧
      rows [.vmulw vd va vb r fx k] [vd, va, vb] [(20, decide (fx ≠ 0) && decide ((Tag.ofFX fx).width ≤ x.cfg.sw))] [vd] ∧
      rows [.vand vd va vb r k, .vor vd va vb r k, .vxor vd va vb r k] [vd, va, vb] [(31, same vd va && same va vb)] [vd] ∧
      rows [.vfma vd va vb vc r k, .vfms vd va vb vc r k, .vfnma vd va vb vc r k] [vd, va, vb, vc] [(24, fp vd)] [vd] ∧
      rows [.vsat vd va vb vc r k] [vd, va, vb, vc] [] [vd] ∧
      rows [.vabs vd va r k, .vcvt vd va r fx k, .vnarrow vd va r fx k, .vrsum vd va r k, .vrmax vd va r k, .vrmin vd va r k,
        .vslup vd va a k, .vsldn vd va a k, .vcomp vd va k, .vexpd vd va k, .vrev vd va k] [vd, va] [] [vd] ∧
      rows [.vneg vd va r k] [vd, va] [(24, decide (tag vd ≠ .e8m0)), (25, decide (tag va ≠ .e8m0))] [vd] ∧
      rows [.vpopc vd va k, .vclz vd va k] [vd, va] [(24, int vd)] [vd]) ∧
    (rows [.vsqrt vd va r k, .vrcp vd va r k, .vrsq vd va r k, .vexp vd va r k, .vlog vd va r k, .vsig vd va r k, .vtanh vd va r k]
        [vd, va] [(24, fp vd)] [vd] ∧
      rows [.vwiden vd va k] [vd, va] [(31, widens (tag va) (tag vd))] [vd] ∧
      rows [.vqnt vd va r f nr k] [vd, va] [(21, !nr || int vd), (24, int vd || (tag vd).isFlt || decide (tag vd = .ts8))] [vd] ∧
      rows [.vdqnt vd va r f nr k] [vd, va] [(21, !nr || int va), (24, fp vd)] [vd] ∧
      rows [.vrnd vd va r k] [vd, va] [(24, (tag vd).isFlt), (25, (tag va).isFlt)] [vd] ∧
      rows [.vclass vd va k] [vd, va] [(24, int vd && decide (9 ≤ (tag vd).width))] [vd] ∧
      rows [.vscl vd va vb r k] [vd, va, vb] [(24, (tag vd).isFlt), (26, int vb)] [vd] ∧
      rows [.vcmp md va vb c k, .vcmpn md va vb c k, .qcmp q va vb l c k] [va, vb] [] [] ∧
      rows [.mpop vd ma k, .mfirst vd ma k] [vd] [(24, int vd)] [vd] ∧
      rows [.vrand vd va r k, .vror vd va r k] [vd, va] [(24, int vd), (25, int va), (31, same vd va)] [vd] ∧
      rows [.vscan vd va r k, .vscanmx vd va r k] [vd, va] [(18, decide (vd ≠ va))] [vd] ∧
      rows [.vrdot vd va vb r k] [vd, va, vb] [(24, int vd || fp vd)] [vd] ∧
      rows [.vgthr vd va vb k] [vd, va, vb] [(26, int vb)] [vd]) ∧
    (rows [.vidx vd k] [vd] [(24, int vd || (tag vd).isFlt)] [vd] ∧ rows [.vmvs vd sa sb k, .vbcast vd sa k] [vd] [] [vd] ∧
      rows [.vext va u k] [va] [] [] ∧ rows [.vrng vd k, .qmov (.fromQ vd q) r k] [vd] [(24, plain vd)] [vd] ∧
      rows [.vld vd sa r d17 fx tok k, .vlds vd sa sb r d17 fx tok k, .vldm vd sa r d17 fx tok k, .vldsp vd sa sb r d17 fx k]
        [vd] [] [vd] ∧
      rows [.vldx vd sa vb r d17 fx tok k, .vldxo vd sa vb r d17 fx tok k, .vldspx vd sa vb r d17 fx k] [vd, vb] [(26, int vb)] [vd] ∧
      rows [.vst vd sa r d17 fx tok k, .vsts vd sa sb r d17 fx tok k, .vstm vd sa r d17 fx tok k, .vstsp vd sa sb r d17 fx k]
        [vd] [] [] ∧
      rows [.vstx vd sa vb r d17 fx tok k, .vstxo vd sa vb r d17 fx tok k, .vstspx vd sa vb r d17 fx k] [vd, vb] [(26, int vb)] [] ∧
      rows [.vldseg vd sa sb r d14 nf fx tok k, .vstseg vd sa sb r d14 nf fx tok k] seg
        [(17, decide (vd.toNat + nf.toNat < x.cfg.nreg))] seg ∧
      rows [.vaadd vd sa vb vc sc f nr d12 fx tok k, .vamin vd sa vb vc sc f nr d12 fx tok k, .vamax vd sa vb vc sc f nr d12 fx tok k]
        ((if nr then [] else [vd]) ++ [vb, vc])
        [(26, int vb), (if fx = 0 then 27 else 28, sums (if fx = 0 then tag vc else Tag.ofFX fx))] (if nr then [] else [vd]) ∧
      rows [.vaand vd sa vb vc sc f nr d12 fx tok k, .vaor vd sa vb vc sc f nr d12 fx tok k, .vaxor vd sa vb vc sc f nr d12 fx tok k,
        .vaswap vd sa vb vc sc f nr d12 fx tok k] ((if nr then [] else [vd]) ++ [vb, vc]) [(26, int vb)] (if nr then [] else [vd]) ∧
      rows [.vacas vd sa vb vc sc f nr d12 fx tok k] [vd, vb, vc] [(26, int vb)] (if nr then [] else [vd])) ∧
    (rows [.tld t sa sb d17 fx tok, .tldf t sa sb cn d17 fx] []
        [(29, decide (fx = 1) || decide (fx = 2) || decide (8 ≤ fx.toNat))] [] ∧
      rows [.mrow va t sa f n k, .mrowz va t sa f n k] [va] [(30, act (tag va))] [] ∧
      rows [.msweep sa t sb f n fx tok] [] [(22, decide (fx ≠ 0)), (30, act (Tag.ofFX fx))] [] ∧
      rows [.mdrain vd r n k] [vd] [(24, int vd || fp vd)] [vd] ∧ rows [.mdrains sa sb r w n fx] [] [(22, decide (fx ≠ 0))] [] ∧
      rows [.mldacc va n k] [va] [] [] ∧ rows [.qblend vd va vb q r k] [vd, va, vb] [] [vd] ∧
      rows [.qcoll md q (some vb) k] [vb] [(26, int vb)] [] ∧
      rows [.qgrad vd (.soft q) r k] [vd] [(24, decide (tag vd = .flt .f32))] [vd] ∧
      rows [.qgrad vd (.blend va vb) r k] [vd, va, vb] [(24, decide (tag vd = .flt .f32))] [vd] ∧
      rows [.qmov (.toQ q va l) r k] [va] [(25, plain va)] [] ∧ rows [.qseed (.vec va) k] [va] [(25, int va)] [])) ∧
  ((∀ (s : State) (b : Bolt) (k : MaskOp) (vs : List VReg), s.clean → s.me.binds = [] →
      s.seen b k vs s.me s ∧ s.mxSeen b k vs s.me s) ∧
    (∀ (s : State) (b : Bolt) (va : VReg) (k : MaskOp) (d : Binding), s.clean → s.me.bindOf va.toNat = some d →
      senOf d.record = false → lenOf d.record = false → d.early = [] →
      let es := d.elems b.vl
      let fp := es.map (fun p => Foot.mk p.1 (d.elemAt p.2) d.tag.width)
      s.vecReaches b (recField d.record 23 20) .rd 5 3 fp →
      let m := State.feetRead (.mem (BitVec.ofNat 4 (recField d.record 23 20))) s fp
      let cs := (es.zip m.1).map (fun p => (p.1.1,
        (s.me.tag va).narrow (s.me.mode .fmode) false s.me.satfin (!d.tag.isInt) (d.tag.value p.2).res))
      let fl : Fl := (cs.filter (fun c => b.active s.me k c.1)).foldl (fun f c => f ||| c.2.2) 0
      let y := s.me.putCodes va ((List.range b.vl).map (fun e => (e, (s.me.tag va).zeroCode)) ++ cs.map (fun c => (c.1, c.2.1)))
      let t (fl : Fl) : State := m.2.modMe (fun x => Hart.addFlags { x with binds := x.binds.map (fun (d' : Binding) =>
        if d'.reg = va.toNat then { d' with strips := d'.strips + 1 } else d') } fl)
      s.seen b k [va] y (t fl) ∧ s.mxSeen b k [va] y (t 0)))

/-- The element-wise instructions (R211, R213, R221, R225-R235, R238-R241, R244, R245, R253): of every active element the
code and flags that `elementOf` gives are computed from the sources, written to vd and added to FMODE; the vector unit goes
on to the next word. A special function's result (R233) is narrowed once; its values at NaN, at zeros, and of a reciprocal,
and its NV for a negative operand, are as stated, and elsewhere the model's enclosure stands for the exact value (log 17).
VABS and VNEG change the sign bit alone between equal floating tags, give |x| and -x of an integer, and leave an e8m0 code
as it is (R229); that VMULH and VBEXT carry RND is the model's choice, log 121; VMIN and VMAX take a NaN as missing, -0 as
below +0, and of equal values the first (R228). What writing elements leaves (R10, R211): the elements written hold their
codes, modulo the width of the tag; every other element of that register, every other vector register, every mask, soft
predicate and scalar register, and the configuration are as before; FMODE gains the flags and the bolt moves on to its next
word. -/
def Obligations.ElementWise : Prop :=
  ((∀ (s t : State) (y : Hart) (b : Bolt) (i : Instr) (vd : VReg) (k : MaskOp) (vs : List VReg) (f : Hart → Bolt → Nat → Nat × Fl),
      elementOf i = some (vd, k, vs, f) → s.boltAt i b → s.seen b k vs y t →
        exec i s = .next (t.modMe (fun x => x.wrote vd ((b.actives y k).map (fun e => (e, f y b e)))))) ∧
    (∀ (s t : State) (y : Hart) (b : Bolt) (i : Instr) (f : Special) (vd va : VReg) (r : Rnd) (k : MaskOp),
      specialOf i = some (f, vd, va, r, k) → s.boltAt i b → s.seen b k [va] y t →
        exec i s = .next (t.modMe (fun x => x.wrote vd ((b.actives y k).map (fun e => (e,
          y.narrowTo vd (y.mode r) false true (f.eval (y.val va e))))))))) ∧
  ((∀ (y : Hart) (vd va : VReg) (r : Rnd) (e : Nat) (neg : Bool),
      (∀ f, y.tag va = .flt f → y.tag vd = .flt f → (signop neg vd va r y e).2 = 0 ∧
        ∀ i, (signop neg vd va r y e).1.testBit i = (if i = f.exp + f.man then neg && !((y.code va e).testBit i)
          else (y.code va e).testBit i)) ∧
      (∀ f, y.tag va = .flt f → y.tag vd ≠ .flt f →
        signop neg vd va r y e = y.rounded vd r true (if neg || (y.val va e).isNeg then (y.val va e).neg else y.val va e, 0)) ∧
      ((y.tag va).isInt = true → signop neg vd va r y e =
        y.whole vd r false (if neg then -(y.val va e).toInt else ((y.val va e).toInt.natAbs : Int))) ∧
      (y.tag va = .e8m0 → y.tag vd = .e8m0 → signop neg vd va r y e = (y.code va e, 0))) ∧
    (∀ (big : Bool) (x z : Val), (Val.picksSecond big .nan .nan = false) ∧ (x ≠ .nan → Val.picksSecond big x .nan = false) ∧
      (z ≠ .nan → Val.picksSecond big .nan z = true)) ∧
    (∀ (big : Bool) (i j : Int), Val.picksSecond big (Val.ofInt i) (Val.ofInt j) = (if big then decide (i < j) else decide (j < i))) ∧
    (∀ big neg : Bool, Val.picksSecond big (Val.zero neg) (Val.zero (!neg)) = (neg == big)) ∧
    (∀ f : Special, f.eval .nan = (.nan, 0)) ∧
    (∀ (m e : Int), m < 0 → ∀ f ∈ [Special.sqrt, .rsq, .log], f.eval (.fin ⟨m, e⟩ true) = (.nan, flNV) ∧
      f.eval (.inf true) = (.nan, flNV)) ∧
    (∀ (m e : Int) (neg : Bool), m ≠ 0 → Special.rcp.eval (.fin ⟨m, e⟩ neg) = (.fin neg 1 m.natAbs (-e), 0)) ∧
    (∀ neg : Bool, Special.rcp.eval (Val.zero neg) = (.inf neg, flOF) ∧ Special.rsq.eval (Val.zero neg) = (.inf neg, flOF) ∧
      Special.log.eval (Val.zero neg) = (.inf true, flOF) ∧ Special.exp.eval (Val.zero neg) = (.fin false 1 1 0, 0) ∧
      Special.sig.eval (Val.zero neg) = (.fin false 1 1 (-1), 0) ∧ Special.sqrt.eval (Val.zero neg) = (.fin neg 0 1 0, 0) ∧
      Special.tanh.eval (Val.zero neg) = (.fin neg 0 1 0, 0))) ∧
  (∀ (x : Hart) (vd : VReg) (rs : List (Nat × Nat × Fl)), (∀ r ∈ rs, r.1 < 2 ^ 20) →
      let y := x.wrote vd rs
      (∀ (v : VReg) (e : Nat), e < 2 ^ 20 → (v ≠ vd ∨ e ∉ rs.map (·.1)) → y.code v e = x.code v e) ∧
      ((rs.map (·.1)).Nodup → ∀ r ∈ rs, y.code vd r.1 = r.2.1 % 2 ^ (x.tag vd).width) ∧
      y.masks = x.masks ∧ y.qcodes = x.qcodes ∧ y.qlin = x.qlin ∧ y.regs = x.regs ∧ y.pc = x.pc ∧ y.cfg = x.cfg ∧ y.vl = x.vl ∧
      y.pstat = x.pstat ∧ y.toks = x.toks ∧ y.dims = x.dims ∧ y.sf = x.sf ∧ y.vretq = x.vretq ∧
      y.fmode = x.fmode ||| (rs.foldl (fun (fl : Fl) r => fl ||| r.2.2) 0).setWidth 64 ∧
      (∀ b bs, x.bolts = b :: bs → y.bolts = b.advance :: bs))

/-- The reductions, scans and permutations (R93, R94, R209, R247-R255): a reduction writes element 0 of vd with its value
and flags; a scan writes every active element with the running value through it, starting from the zero of R94, or for
VSCANMX, which sets no NV, from the least value; a permutation reads every source element before it writes one, and an
element moves as its code between equal tags, and is otherwise narrowed. What a reduction's value is (R89, R93, R94, R228,
R247, R249): VRSUM is the tree of R93 over the elements, each sum rounded to vd's tag, with -0 for an inactive element;
VRMAX and VRMIN are the tree of the larger or smaller, where a NaN and an inactive element are missing, of no active element
the identity; each node rounds, so a node that becomes NaN in e4m3 or e8m0 is missing above it: the model's choice, log 96.
On integers a sum is the sum modulo 2^w in any order, and the largest and smallest are those of the active elements. VRDOT
sums the products of x - z and y exactly and rounds once, z the zero point where va is an integer of at most 8 bits; that
the flags of its terms are met in ascending order is the model's choice, log 122. The example of R93: 2^24, 1 and 1 give
2^24. -/
def Obligations.ReductionsAndPermutations : Prop :=
  (∀ (s t : State) (y : Hart) (b : Bolt) (i : Instr) (vd : VReg) (k : MaskOp) (vs : List VReg) (f : Hart → Bolt → Nat × Fl),
    reduceOf i = some (vd, k, vs, f) → s.boltAt i b → s.seen b k vs y t →
      exec i s = .next (t.modMe (fun x => x.wrote vd [(0, f y b)]))) ∧
  (∀ (s t : State) (y : Hart) (b : Bolt) (vd va : VReg) (r : Rnd) (k : MaskOp), s.seen b k [va] y t →
    (s.boltAt (.vscan vd va r k) b →
      let p := scanFrom (Val.add (y.mode r)) y vd va (y.mode r) (y.isReal [va]) (Val.zero true) (b.actives y k)
      exec (.vscan vd va r k) s = .next (t.modMe (fun x => ((x.putCodes vd p.1).addFlags p.2).vnext))) ∧
    (s.boltAt (.vscanmx vd va r k) b →
      let p := scanFrom (fun x z => (Val.pick true x z, 0)) y vd va (y.mode r) (y.isReal [va]) ((y.tag vd).extreme true)
        (b.actives y k)
      exec (.vscanmx vd va r k) s = .next (t.modMe (fun x => ((x.putCodes vd p.1).addFlags (p.2 &&& ~~~flNV)).vnext)))) ∧
  (∀ (s t : State) (y : Hart) (b : Bolt) (i : Instr) (vd : VReg) (k : MaskOp) (vs : List VReg) (f : Hart → Bolt → Moves),
    movesOf i = some (vd, k, vs, f) → s.boltAt i b → s.seen b k vs y t →
      exec i s = .next (t.modMe (fun x => x.wrote vd ((f y b).map (y.movedTo vd))))) ∧
  ((∀ (y : Hart) (b : Bolt) (vd va : VReg) (r : Rnd) (k : MaskOp) (n : Nat), treeHeight b.vl n →
      let md := y.mode r
      let real := y.isReal [va]
      sumOf vd va r k y b = y.rootOf vd md real (treeOf (fun p q => y.entryOf vd md real (Val.add md p.1 q.1)) n
        (fun e => if b.active y k e then (y.val va e, none) else (Val.zero true, none)))) ∧
    (∀ (y : Hart) (b : Bolt) (vd va : VReg) (r : Rnd) (k : MaskOp) (n : Nat) (big : Bool), treeHeight b.vl n →
      let md := y.mode r
      let real := y.isReal [va]
      let round (v : Val) : Option Entry × Fl := (some (y.entryOf vd md real (v, 0)).1, (y.entryOf vd md real (v, 0)).2)
      let pass (p : Entry) : Option Entry × Fl := if p.1 = .nan then (some p, 0) else round p.1
      let p := treeOf (fun p q => match p, q with
        | none, none => (none, 0)
        | some x, none => pass x
        | none, some x => pass x
        | some x, some z => pass (if Val.picksSecond big x.1 z.1 then z.1 else x.1, none)) n
        (fun e => if b.active y k e then some ((y.val va e, none) : Entry) else none)
      let c := y.rootOf vd md real (p.1.getD ((y.tag vd).extreme big, none), p.2)
      extremeOf big vd va r k y b = (c.1, c.2 &&& ~~~flNV)) ∧
    (∀ (y : Hart) (b : Bolt) (vd va : VReg) (r : Rnd) (k : MaskOp) (w : Nat), b.vl ≤ 2 ^ 20 → (y.tag va).isInt = true →
      (y.tag vd = .int w ∨ y.tag vd = .nat w) → 0 < w →
      (sumOf vd va r k y b).1 = wrap ((b.actives y k).map (fun e => (y.val va e).toInt)).sum w ∧
      (y.tag va = y.tag vd → ∀ big : Bool,
        (b.actives y k = [] → (y.tag vd).value (extremeOf big vd va r k y b).1 = (y.tag vd).extreme big) ∧
        (b.actives y k ≠ [] → ∃ e ∈ b.actives y k, extremeOf big vd va r k y b = (y.code va e, 0) ∧
          ∀ e' ∈ b.actives y k, if big then (y.val va e').toInt ≤ (y.val va e).toInt else (y.val va e).toInt ≤ (y.val va e').toInt)) ∧
      (∀ vb : VReg, (y.tag vb).isInt = true → (dotOf vd va vb r k y b).1 = wrap ((b.actives y k).map (fun e =>
        ((y.val va e).toInt - if (y.tag va).width ≤ 8 then zeroPoint y.zpa (y.tag va) else 0) * (y.val vb e).toInt)).sum w)) ∧
    (∀ w : Nat, 0 < w → Tag.extreme (.int w) true = Val.ofInt (-2 ^ (w - 1)) ∧ Tag.extreme (.int w) false = Val.ofInt (2 ^ (w - 1) - 1) ∧
      Tag.extreme (.nat w) true = Val.ofInt 0 ∧ Tag.extreme (.nat w) false = Val.ofInt (2 ^ w - 1)) ∧
    (∀ (g : Tag) (big : Bool), g.isInt = false → g.extreme big = .inf big) ∧
    (∀ (z : Word) (w : Nat), 0 < w → zeroPoint z (.nat w) = ((z.toNat % 2 ^ min w 8 : Nat) : Int) ∧
      zeroPoint z (.int w) = signed (z.toNat % 2 ^ min w 8) (min w 8)) ∧
    (∀ (y : Hart) (b : Bolt) (vd va vb : VReg) (r : Rnd) (k : MaskOp) (e : Nat) (es : List Nat), b.actives y k = e :: es →
      let md := y.mode r
      let term (e : Nat) : Val × Fl := (if (y.tag va).isInt && decide ((y.tag va).width ≤ 8) then
        Val.ofInt ((y.val va e).toInt - zeroPoint y.zpa (y.tag va)) else y.val va e).mul (y.val vb e)
      let p := es.foldl (fun a e => let z := Val.add md a.1 (term e).1; (z.1, a.2 ||| z.2 ||| (term e).2)) (term e)
      dotOf vd va vb r k y b = y.narrowTo vd md false (y.isReal [va, vb]) (p.1.res, p.2)) ∧
    (∀ (y : Hart) (b : Bolt) (vd va : VReg) (k : MaskOp), b.vl = 3 → y.tag vd = .flt .f32 → y.tag va = .flt .f32 →
      (∀ e < 3, b.active y k e = true) → y.code va 0 = 0x4B800000 → y.code va 1 = 0x3F800000 → y.code va 2 = 0x3F800000 →
      (sumOf vd va .rne k y b).1 = 0x4B800000))

/-- VQNT and VDQNT (R88-R91, R236, R237, R304): with the scales of the active elements in the scale file and not being
loaded, VQNT writes the quantised codes, and QNTN, CLIPN and ZERON count the elements, the clipped ones and those that
became zero; when the ratio of R91 is first exceeded SCLBAD is set, and under its enable SCALE_CLIP is taken after the
instruction. VDQNT writes (x - z), a zero difference with the sign of R77, times the scale narrowed once. A scale index
above 2,047 takes SCALE_RANGE, 128 or 129, with the element. What is quantised (R76, R87, R236): x, or x divided by its
scale, NaN for the scale code 0xFF, narrowed saturating; a NaN sets NV and counts neither clip nor zero; without a zero
point the code is as narrowed, clipped where narrowing set OF or NV; with one, q + z is held within an integer tag, and a
hold sets OF and clips; a finite x other than zero whose q is zero counts in ZERON. -/
def Obligations.Quantisation : Prop :=
  ∀ (s t : State) (y : Hart) (b : Bolt) (vd va : VReg) (r : Rnd) (sc zp : Bool) (k : MaskOp),
    let es := b.actives s.me k
    let fits := sc = false ∨
      ∀ e ∈ es, s.me.scaleIndex e ≤ 2047 ∧ s.scaleFilling b.seq (s.me.scaleIndex e) = false
    (s.boltAt (.vqnt vd va r sc zp k) b → fits → s.seen b k [va] y t →
      let qs := (b.actives y k).map (fun e => (e, quantise vd va r sc zp y e))
      let q : Word := BitVec.ofNat 64 (min (t.me.qntn.toNat + qs.length) (2 ^ 64 - 1))
      let c : Word := BitVec.ofNat 64 (min (t.me.clipn.toNat + (qs.filter (fun q => q.2.clip)).length) (2 ^ 64 - 1))
      let z : Word := BitVec.ofNat 64 (min (t.me.zeron.toNat + (qs.filter (fun q => q.2.zero)).length) (2 ^ 64 - 1))
      let bad := decide (min (t.me.clipth.toNat % 2 ^ 16) 0x8000 * q.toNat < c.toNat * 32768) && !(t.me.clipth.getLsbD 16)
      let u := t.modMe (fun x => { x.wrote vd (qs.map (fun q => (q.1, q.2.code, q.2.fl))) with
        qntn := q, clipn := c, zeron := z, clipth := if bad then x.clipth ||| 0x10000 else x.clipth })
      exec (.vqnt vd va r sc zp k) s =
        .next (if bad && t.me.clipth.getLsbD 17 then u.takeTrap (t.vecTrap (clipCause (y.tag vd)) 0) else u)) ∧
    (s.boltAt (.vdqnt vd va r sc zp k) b → fits → s.seen b k [va] y t →
      exec (.vdqnt vd va r sc zp k) s = .next (t.modMe (fun x => x.wrote vd ((b.actives y k).map (fun e => (e,
        let v := if zp then (Val.sub (y.mode r) (y.val va e) (Val.ofInt (zeroPoint y.zpa (y.tag va)))).1 else y.val va e
        let c := y.sfCode (y.scaleIndex e)
        y.narrowTo vd (y.mode r) false true
          ((if sc then (if c = 255 then Val.nan else v.scale (c - 127)) else v).res, 0))))))) ∧
    (∀ e ∈ es, sc = true → 2047 < s.me.scaleIndex e → (∀ e' ∈ es, e' < e → s.me.scaleIndex e' ≤ 2047) →
      (s.boltAt (.vqnt vd va r sc zp k) b → exec (.vqnt vd va r sc zp k) s = .next (s.takeTrap (s.vecTrap 128 0 e))) ∧
      (s.boltAt (.vdqnt vd va r sc zp k) b → exec (.vdqnt vd va r sc zp k) s = .next (s.takeTrap (s.vecTrap 129 0 e)))) ∧
    (∀ e : Nat,
      let c := y.sfCode (y.scaleIndex e)
      let x := if sc then (if c = 255 then Val.nan else (y.val va e).scale (127 - c)) else y.val va e
      let g := y.tag vd
      let n := g.narrow (y.mode r) true y.satfin (sc || !(y.tag va).isInt) x.res
      let q := quantise vd va r sc zp y e
      let sum := (g.value n.1).toInt + zeroPoint y.zpa g
      (x = .nan → (zp = true → g.isInt = true) → q.clip = false ∧ q.zero = false ∧ q.fl.getLsbD 4 = true) ∧
      (x ≠ .nan → zp = false → q.code = n.1 ∧ q.fl = n.2 ∧ q.clip = (n.2.getLsbD 4 || n.2.getLsbD 5)) ∧
      (x ≠ .nan → q.zero = ((match x with
        | .fin d _ => decide (d.m ≠ 0)
        | _ => false) && (g.value n.1).isZero)) ∧
      (∀ (w : Nat) (lo hi : Int), zp = true → 0 < w →
        ((g = .int w ∧ lo = -2 ^ (w - 1) ∧ hi = 2 ^ (w - 1) - 1) ∨ (g = .nat w ∧ lo = 0 ∧ hi = 2 ^ w - 1)) →
        q.code = wrap (max lo (min sum hi)) w ∧
        (x ≠ .nan → q.fl = n.2 ||| (if lo ≤ sum ∧ sum ≤ hi then 0 else flOF) ∧
          q.clip = (n.2.getLsbD 4 || n.2.getLsbD 5 || !(decide (lo ≤ sum) && decide (sum ≤ hi)))) ∧
        (x = .nan → q.code = wrap (zeroPoint y.zpa g) w)))

/-- VMVS, VEXT, VTRAP and VRNG (R13, R99, R100, R221-R224): one element from the frame where it is active; entries to the
return queue as it has room, the rest when it has more; the trap of 448 + n after the instruction where an element is
active, with the lowest in TIDX; and one draw of R99 for each active element from the generator of its lane. The
instructions that write a mask (R242, R243, R246): the bits of md at the active elements become what `maskOf` gives; every
other bit of md, every other mask and every register is as before, and a write of m0 is discarded (R211). -/
def Obligations.ElementsScalarsAndMasks : Prop :=
  (∀ (s : State) (b : Bolt) (k : MaskOp), s.me.bolts.head? = some b →
      (∀ (vd : VReg) (sa sb : Reg), s.boltAt (.vmvs vd sa sb k) b →
        exec (.vmvs vd sa sb k) s = .next (s.modMe (fun x => (if b.active x k (b.f sb).toNat
          then x.putCode vd (b.f sb).toNat (b.f sa).toNat else x).vnext))) ∧
      (∀ (va : VReg) (sel : ExtSel) (y : Hart) (t : State), s.boltAt (.vext va sel k) b → s.seen b k [va] y t →
        let es := match sel with
          | .elem sb => [if b.active y k (b.f sb).toNat then y.entry va (b.f sb).toNat else 0]
          | .all => (b.actives y k).map (y.entry va)
        let left := es.drop b.ext
        let room := 64 - s.me.vretq.length
        (left.length ≤ room → exec (.vext va sel k) s = .next (t.modMe (fun x =>
          ({ x with vretq := x.vretq ++ left }.modBolt (fun b => { b with ext := 0 })).vnext))) ∧
        (room < left.length → ∃ u, exec (.vext va sel k) s = .next u ∧ u.me.vretq = s.me.vretq ++ left.take room ∧
          u.me.bolts = { b with ext := b.ext + room } :: s.me.bolts.tail ∧ u.me.regs = s.me.regs ∧ u.me.vregs = s.me.vregs)) ∧
      (∀ n : BitVec 6,
        (b.actives s.me k = [] → exec (.vtrap n k) s = .next (s.modMe Hart.vnext)) ∧
        (∀ e es, b.actives s.me k = e :: es →
          exec (.vtrap n k) s = .next ((s.modMe Hart.vnext).takeTrap (s.vecTrap (448 + n.toNat) 0 e)))) ∧
      (∀ vd : VReg, s.boltAt (.vrng vd k) b →
        let d := drawAll b (fun _ => none) s.myCore.gens (b.actives s.me k)
        exec (.vrng vd k) s = .next ((s.modMyCore (fun c => { c with gens := d.1 })).modMe (fun x =>
          x.wrote vd (d.2.map (fun p => (p.1, drawCode (x.tag vd) p.2)))))) ∧
      (∀ g : Word,
        let st := g + 0x9E3779B97F4A7C15
        let z1 := (st ^^^ (st >>> 30)) * 0xBF58476D1CE4E5B9
        let z2 := (z1 ^^^ (z1 >>> 27)) * 0x94D049BB133111EB
        splitmix g = (st, z2 ^^^ (z2 >>> 31)))) ∧
  (∀ (s t : State) (y : Hart) (b : Bolt) (i : Instr) (md : MReg) (k : MaskOp) (vs : List VReg) (f : Hart → Bolt → Nat → Bool),
      maskOf i = some (md, k, vs, f) → s.boltAt i b → s.seen b k vs y t →
      ∃ m : Tab Nat, exec i s = .next (t.modMe (fun x => { x with masks := m }.vnext)) ∧
        (md = 0 → m = s.me.masks) ∧
        (∀ n, n ≠ md.toNat → Tab.get 0 m n = Tab.get 0 s.me.masks n) ∧
        (md ≠ 0 → ∀ e, (Tab.get 0 m md.toNat).testBit e =
          if e ∈ b.actives s.me k then f y b e else (Tab.get 0 s.me.masks md.toNat).testBit e))

/-- The vector loads (R257-R259, R262): with the footprint of the active elements reached, the bits of each are read in turn
at its address and converted to vd's tag; active elements outside the box of VLDM read zero. Nothing else changes but what
the reads bring into the grove L2. VLDSEG reads each field of a record into its own register (R261). The vector stores
(R257-R262): with the footprint of the active elements reached, each element's code converted to the memory tag is written
at its address, and no register changes. Elements that overlap are written in ascending order by VSTXO; of another store the
word parts of overlapping elements are written in some order, the free one of log 16. VSTSEG does so for each field of a
record (R261), with the registers its operand checks let pass. VLDSP goes on behind a copy whose bits it reads have arrived
(R136). Where the step leaves accesses (R142; log 15), the elements of a store to memory only enter behind the hart's other
accesses, in their order. -/
def Obligations.VectorLoadsAndStores : Prop :=
  ((∀ (s t : State) (y : Hart) (b : Bolt) (i : Instr) (v : VAccess), loadOf i = some v → s.boltAt i b → s.seen b v.k v.srcs y t →
      t.footReaches b v.w .rd 0 (v.feet y b) →
      let mt := memTag (y.tag v.vd) v.fx
      let m := State.feetRead v.w t (v.feet y b)
      exec i s = .next (m.2.modMe (fun x => x.wrote v.vd
        (((b.actives y v.k).filter (fun e => !(v.inside b e))).map (fun e => (e, (y.tag v.vd).zeroCode, 0)) ++
          ((v.elems y b).zip m.1).map (fun p => (p.1, conv mt (y.tag v.vd) (y.mode v.r) y.satfin p.2)))))) ∧
    (∀ (s : State) (b : Bolt) (vd : VReg) (sa sb : Reg) (r : Rnd) (disp : BitVec 14) (nf : BitVec 3) (fx : BitVec 4) (tok : Tok)
        (k : MaskOp), s.boltAt (.vldseg vd sa sb r disp nf fx tok k) b →
      let mt := memTag (s.me.tag vd) fx
      let rs : Int := if sb = 0 then ((nf.toNat + 1) * mt.width : Nat) else (b.f sb).toInt
      let fs := (b.actives s.me k).flatMap (fun e => (List.range (nf.toNat + 1)).map (fun j =>
        (vd + BitVec.ofNat 6 j, Foot.mk e (addrPlus (b.base sa disp) (e * rs + (j * mt.width : Nat))) mt.width)))
      s.footReaches b (.mem tok) .rd 0 (fs.map (·.2)) →
      let m := State.feetRead (.mem tok) s (fs.map (·.2))
      let cs := (fs.zip m.1).map (fun p => (p.1.1, p.1.2.e, conv mt (s.me.tag p.1.1) (s.me.mode r) s.me.satfin p.2))
      exec (.vldseg vd sa sb r disp nf fx tok k) s = .next (m.2.modMe (fun x =>
        ((cs.foldl (fun x c => x.putCode c.1 c.2.1 c.2.2.1) x).addFlags (cs.foldl (fun f c => f ||| c.2.2.2) 0)).vnext)))) ∧
  ((∀ (s t : State) (y : Hart) (b : Bolt) (i : Instr) (v : VAccess) (ordered : Bool), storeOf i = some (v, ordered) →
      s.boltAt i b → s.seen b v.k v.srcs y t → t.footReaches b v.w .wr 1 (v.feet y b) →
      let mt := memTag (y.tag v.vd) v.fx
      let cs := (v.feet y b).map (fun p => (p, conv (y.tag v.vd) mt (y.mode v.r) y.satfin (y.code v.vd p.e)))
      let ps : List Put := cs.map (fun c => ⟨c.1, c.2.1⟩)
      let done (x : Hart) : Hart := (x.addFlags (cs.foldl (fun f c => f ||| c.2.2) 0)).vnext
      ((ordered = true ∨ anyMeet ps = false) → exec i s = .next ((State.feetWrite v.w t ps).modMe done)) ∧
      (ordered = false → anyMeet ps = true → ∃ qs : List Put, qs.Perm (ps.flatMap (Put.words 3)) ∧
        exec i s = .next ((State.feetWrite v.w { t with free := t.free + 1 } qs).modMe done))) ∧
    (∀ (s t : State) (y : Hart) (b : Bolt) (i : Instr) (v : VAccess) (ordered : Bool) (tok : Tok), storeOf i = some (v, ordered) →
      v.w = .mem tok → s.boltAt i b → s.seen b v.k v.srcs y t → t.late = true → t.vecFree b tok.toNat .wr 6 1 (v.feet y b) →
      let mt := memTag (y.tag v.vd) v.fx
      let cs := (v.feet y b).map (fun p => (p, conv (y.tag v.vd) mt (y.mode v.r) y.satfin (y.code v.vd p.e)))
      (ordered = true ∨ anyMeet (cs.map (fun c => ⟨c.1, c.2.1⟩)) = false) → exec i s = .next (t.modMe (fun x =>
        (({ x with stores := x.stores ++ cs.map (fun c => ⟨t.phys (t.spaceOf t.cur tok.toNat) c.1.a c.1.w,
            if ordered then .ordered c.2.1 t.cycle else .store c.2.1, .grove, true, []⟩) } : Hart).addFlags
          (cs.foldl (fun f c => f ||| c.2.2) 0)).vnext))) ∧
    (∀ (s t : State) (y : Hart) (b : Bolt) (vd : VReg) (sa sb : Reg) (r : Rnd) (disp : BitVec 14) (nf : BitVec 3) (fx : BitVec 4) (tok : Tok)
        (k : MaskOp), s.boltAt (.vstseg vd sa sb r disp nf fx tok k) b →
      s.seen b k (segRegs vd (nf.toNat + 1)) y t →
      let mt := memTag (y.tag vd) fx
      let rs : Int := if sb = 0 then ((nf.toNat + 1) * mt.width : Nat) else (b.f sb).toInt
      let fs := (b.actives y k).flatMap (fun e => (List.range (nf.toNat + 1)).map (fun j =>
        (vd + BitVec.ofNat 6 j, Foot.mk e (addrPlus (b.base sa disp) (e * rs + (j * mt.width : Nat))) mt.width)))
      t.footReaches b (.mem tok) .wr 1 (fs.map (·.2)) →
      let cs := fs.map (fun p => (p.2, conv (y.tag p.1) mt (y.mode r) y.satfin (y.code p.1 p.2.e)))
      let ps : List Put := cs.map (fun c => ⟨c.1, c.2.1⟩)
      let done (x : Hart) : Hart := (x.addFlags (cs.foldl (fun f c => f ||| c.2.2) 0)).vnext
      (anyMeet ps = false →
        exec (.vstseg vd sa sb r disp nf fx tok k) s = .next ((State.feetWrite (.mem tok) t ps).modMe done)) ∧
      (anyMeet ps = true → ∃ qs : List Put, qs.Perm (ps.flatMap (Put.words 3)) ∧
        exec (.vstseg vd sa sb r disp nf fx tok k) s =
          .next ((State.feetWrite (.mem tok) { t with free := t.free + 1 } qs).modMe done))))

/-- The vector atomics (R263, R264): with the footprint reached, every element in one line and none in a memory of port 1
that its form cannot reach, each element's old code is read and the operation's result written, in turn, and without NR the
old codes go to vd; operands and old codes are converted as R257 has it, under FMODE.SATFIN. Elements that overlap are
performed in some order, the free one of log 16. -/
def Obligations.VectorAtomics : Prop :=
  ∀ (s t : State) (y : Hart) (b : Bolt) (i : Instr) (v : VAtomic), vatomOf s.me i = some v → s.boltAt i b →
    s.seen b v.k v.srcs y t →
    let ps := v.parts y b
    t.footReaches b v.w .rmw 2 (ps.map (·.1)) → (∀ p ∈ ps, oneLine p.1.a p.1.w = true) →
    (∀ k, v.w = .mem k → ∀ p ∈ ps, t.portCause v.form (t.physIn (t.spaceOf t.cur k.toNat) p.1.a) p.1.w = none) →
    let mt := memTag (y.tag v.vc) v.fx
    let done (old : List (Nat × Nat)) (x : Hart) : Hart := x.wrote v.vd (if v.nr then [] else
      old.map (fun r => (r.1, (conv mt (y.tag v.vd) .rne y.satfin r.2).1, 0)))
    (anyMeet (ps.map (fun p => ⟨p.1, 0⟩)) = false →
      exec i s = .next ((State.atomicsRun v mt t ps).2.modMe (done (State.atomicsRun v mt t ps).1))) ∧
    (anyMeet (ps.map (fun p => ⟨p.1, 0⟩)) = true → ∃ qs, qs.Perm ps ∧
      exec i s = .next ((State.atomicsRun v mt { t with free := t.free + 1 } qs).2.modMe
        (done (State.atomicsRun v mt { t with free := t.free + 1 } qs).1)))

/-! ### The matrix engine -/

/-- Tile loads (R265, R268-R271): with the engine held and one fragment, TLD reads K rows of 256 codes through its token and
the tile is VALID, attached to the token, with every scale 1.0; TSCL reads the scales of a loaded tile; TLDF enters a
transfer, which stands in the vector stream where its bolt does (R135), its counter rises by one and the tile is being
filled; when the transfer is ready, the hart's vector accesses are performed and its rows are read, the tile is VALID and
attached to nothing, or INVALID where a read fails, and the counter falls by one; that a tile which waits for another fill
is left as it is is the model's reading, log 50. No register changes. TLD and TLDF of an FX that names no weight tag take
TAG_UNSUPPORTED, 29 (R265). TSCL takes a cause of its footprint first, and TILE_INVALID, 150 + td, of an INVALID tile or one
being filled (R271, R308). -/
def Obligations.TileLoads : Prop :=
  (∀ (s0 : State) (b0 : Bolt) (td : TReg) (sa sb : Reg) (disp : BitVec 17) (fx : BitVec 4) (tok : Tok),
    s0.me.bolts.head? = some b0 → s0.mx.mxAt (.tld td sa sb disp fx tok) b0.mx 0 0 →
    let s := s0.mx
    let b := b0.mx
    (s.myCore.tile td.toNat).st ≠ .filling →
    let w := (Tag.ofFX fx).width
    let base := b.base sa disp
    let rs : Int := if sb = 0 then (256 * w : Nat) else (b.f sb).toInt
    let fp := (List.range (tileK fx)).map (fun (k : Nat) => Foot.mk 0 (addrPlus base (k * rs)) (256 * w))
    s.vecReaches b tok.toNat .rd 5 4 fp →
    let m := State.feetRead (.mem tok) s fp
    exec (.tld td sa sb disp fx tok) s0 = .next ((m.2.modMyCore (fun c => c.setTile td.toNat
      { st := .valid, fx := fx, w := tileCodes w m.1, ts := [], tok := some tok.toNat, base := base, rs := rs, fill := none })).modMe
        Hart.mxNext)) ∧
  (∀ (s0 : State) (b0 : Bolt) (td : TReg) (sa : Reg) (disp : BitVec 17) (tok : Tok),
    s0.me.bolts.head? = some b0 → s0.mx.mxAt (.tscl td sa disp tok) b0.mx 0 0 →
    let s := s0.mx
    let b := b0.mx
    let x := s.myCore.tile td.toNat
    let g := tileK x.fx / 32
    let fp := Foot.mk 0 (b.base sa disp) (2048 * g)
    (x.st = .valid ∨ x.st = .reload) → s.vecReaches b tok.toNat .rd 5 5 [fp] →
    let m := s.footRead (.mem tok) .grove fp
    ∃ ts : Tab (BitVec 8), (∀ i < 256 * g, Tab.get 0x7F ts i = BitVec.ofNat 8 (m.1 / 2 ^ (8 * i))) ∧
      exec (.tscl td sa disp tok) s0 = .next ((m.2.modMyCore (fun c => c.setTile td.toNat { x with ts := ts })).modMe
        Hart.mxNext)) ∧
  (∀ (s0 : State) (b0 : Bolt) (td : TReg) (sa sb : Reg) (cc : CReg) (disp : BitVec 17) (fx : BitVec 4),
    s0.me.bolts.head? = some b0 → s0.mx.mxAt (.tldf td sa sb cc disp fx) b0.mx 0 0 →
    let s := s0.mx
    let b := b0.mx
    (s.myCore.tile td.toNat).st ≠ .filling →
    let w := (Tag.ofFX fx).width
    let base := b.base sa disp
    let rs : Int := if sb = 0 then (256 * w : Nat) else (b.f sb).toInt
    let box := boxRange base (256 * w) [⟨tileK fx, BitVec.ofInt 64 rs⟩]
    s.engRange box.1 box.2 → s.engRoom s.cur cc = true →
    let u := s.modMe (fun x => { x with ctrs := Tab.set 0 x.ctrs cc.toNat (Tab.get 0 x.ctrs cc.toNat + 1) })
    let t : Xfer := { s.newXfer .tldf cc.toNat 0 base (256 * w) with
      id := s.nextUid,
      stride := rs, tile := td.toNat, fx := fx, srcLo := box.1, srcHi := box.1 + box.2, dstHi := 0,
      behind := [], bolt := some b.seq }
    exec (.tldf td sa sb cc disp fx) s0 = .next ((State.modMyCore { u with
      xfers := s.xfers ++ [t], nextUid := s.nextUid + 1 } (fun c => c.setTile td.toNat
        { Tile.cleared with st := .filling, fx := fx, fill := some s.nextUid })).modMe Hart.mxNext)) ∧
  (∀ (s : State) (x : Nat) (t : Xfer), s.xfer x = some t → t.kind = .tldf → t.arr = none → s.xferReady t = true →
    ((s.core (coreOf t.hart)).tile t.tile).st = .filling → ((s.core (coreOf t.hart)).tile t.tile).fill = some t.id →
    let w := (Tag.ofFX t.fx).width
    let s' := s.drainBy t.hart (·.vec)
    (∀ rows s1, t.fillRows s' (tileRows t.src t.stride t.fx) = .ok (rows, s1) →
      ∃ u, exec (.tldfFillComplete x 0) s = .next u ∧ (u.core (coreOf t.hart)).tile t.tile =
          { st := .valid, fx := t.fx, w := tileCodes w rows, ts := [], tok := none, base := 0, rs := 0,
            fill := none } ∧
        (∀ e ∈ u.xfers, e.id ≠ t.id) ∧
        Tab.get 0 (u.hart t.hart).ctrs t.cn = Tab.get 0 (s.hart t.hart).ctrs t.cn - 1) ∧
    (∀ e, t.fillRows s' (tileRows t.src t.stride t.fx) = .error e →
      ∃ u, exec (.tldfFillComplete x 0) s = .next u ∧ (u.core (coreOf t.hart)).tile t.tile = Tile.cleared ∧
        (u.hart t.hart).engFails = (s.hart t.hart).engFails ++ [⟨t.cn, e.1, BitVec.ofNat 64 e.2⟩])) ∧
  (∀ (s : State) (x : Nat) (t : Xfer), s.xfer x = some t → t.kind = .tldf → s.xferReady t = true →
    ((s.core (coreOf t.hart)).tile t.tile).fill ≠ some t.id →
    ∃ u, exec (.tldfFillComplete x 0) s = .next u ∧ ∀ c n, (u.core c).tile n = (s.core c).tile n) ∧
  (∀ (s0 : State) (b0 : Bolt) (td : TReg) (sa sb : Reg) (cc : CReg) (disp : BitVec 17) (fx : BitVec 4) (tok : Tok),
    s0.me.bolts.head? = some b0 →
    ((fx ≠ 1 ∧ fx ≠ 2 ∧ fx.toNat < 8) → ∀ i ∈ [Instr.tld td sa sb disp fx tok, .tldf td sa sb cc disp fx],
      exec i s0 = .next (s0.mx.takeTrap (s0.mx.vecTrap 29 0))) ∧
    (s0.mx.mxAt (.tscl td sa disp tok) b0.mx 0 0 →
      let x := s0.myCore.tile td.toNat
      let fp := [Foot.mk 0 (b0.base sa disp) (2048 * (tileK x.fx / 32))]
      (∀ c a e, s0.mx.probeCause tok.toNat .rd 5 5 fp = some (c, a, e) →
        exec (.tscl td sa disp tok) s0 = .next (s0.mx.takeTrap (s0.mx.vecTrap c a e tok.toNat))) ∧
      (s0.mx.probeCause tok.toNat .rd 5 5 fp = none → (x.st = .invalid ∨ x.st = .filling) →
        exec (.tscl td sa disp tok) s0 = .next (s0.mx.takeTrap (s0.mx.vecTrap (150 + td.toNat) 0)))))

/-- Row products (R20, R92, R266, R267, R272-R275): with the engine and the row's slab held, one fragment, a tile that
stands, and the scales it needs in the file, MROW adds the 32 products of its group whose k are active into every column of
the row and into its CHK; it goes on with the next group, and after the last it is complete, and where it names a word
arrives behind the hart's vector accesses (R138). MROWZ first sets the row to zero. No other row, no register and no memory
but the arrival word changes. -/
def Obligations.RowProducts : Prop :=
  ∀ (s t : State) (y : Hart) (b : Bolt) (zero : Bool) (va : VReg) (tb : TReg) (sc : Reg) (useScale : Bool) (n : BitVec 10)
      (k : MaskOp) (x : Tile),
    let i := if zero then Instr.mrowz va tb sc useScale n k else .mrow va tb sc useScale n k
    let p := b.mpos.getD .start
    let r := n.toNat
    let tag := y.tag va
    let f32 := !(tag.isInt && (Tag.ofFX x.fx).isInt)
    s.me.bolts.head? = some b → s.mx.mxAt i b.mx r 1 → s.mx.arrivalStands b sc → s.mx.mxSeen b.mx k [va] y t →
    t.tileStands tb.toNat x → 32 * p.g < tileK x.fx → (useScale = true → f32 = true → t.scalesStand b (tileK x.fx)) →
    ∃ c' : Core, t.myCore.groupAdded c' x f32 (zero && decide (p.g = 0)) p.g r
        (((List.range' (32 * p.g) 32).filter (b.active y k)).map (fun e =>
          (e, y.activation tag f32 useScale e (y.val va e)))) (if sc = 0 then none else some (b.f sc)) ∧
      let u := t.setCore (coreOf t.cur) c'
      (32 * (p.g + 1) < tileK x.fx → exec i s = .next (u.modMe (fun z =>
        Hart.mxAt { z with binds := s.me.binds } { p with g := p.g + 1 }))) ∧
      (tileK x.fx ≤ 32 * (p.g + 1) → ∀ v, u.mxDone b sc v → exec i s = .next v)

/-- Sweeps (R273, R274): MSWEEP reads the 32 activations of its group at its position in the box through its token and adds
their products into the row of that position as MROW does; it goes on with the next group or position, and after the last it
is complete and arrives where it names a word. A box without a position is complete at once. -/
def Obligations.Sweeps : Prop :=
  ∀ (s0 : State) (b0 : Bolt) (sa : Reg) (tb : TReg) (sc : Reg) (useScale : Bool) (n : BitVec 10) (fx : BitVec 4) (tok : Tok)
      (x : Tile),
    let s := s0.mx
    let b := b0.mx
    let i := Instr.msweep sa tb sc useScale n fx tok
    let rows := b.len 0 * b.len 1 * b.len 2
    let tag := Tag.ofFX fx
    let w := tag.width
    let f32 := !(tag.isInt && (Tag.ofFX x.fx).isInt)
    let at_ (p : MPos) : Option MPos := sweepPos (b.len 0) (b.len 1) (b.len 2) (tileK x.fx / 32) p
    s0.me.bolts.head? = some b0 → s.mxAt i b n.toNat rows → s.arrivalStands b sc → s.tileStands tb.toNat x → 0 < tileK x.fx →
    (at_ (b.mpos.getD .start) = none → ∀ v, s.mxDone b sc v → exec i s0 = .next v) ∧
    (∀ p, at_ (b.mpos.getD .start) = some p →
      let fp := Foot.mk 0 (addrPlus (b.f sa).toNat (p.i0 * b.stride 0 + p.i1 * b.stride 1 + p.i2 * b.stride 2
        + (32 * p.g * w : Nat))) (32 * w)
      let r := n.toNat + p.i0 + b.len 0 * (p.i1 + b.len 1 * p.i2)
      s.vecReaches b tok.toNat .rd 5 7 [fp] → (useScale = true → f32 = true → s.scalesStand b (tileK x.fx)) →
      let m := s.footRead (.mem tok) .grove fp
      ∃ c' : Core, s.myCore.groupAdded c' x f32 false p.g r ((List.range 32).map (fun j => (32 * p.g + j,
          s.me.activation tag f32 useScale (32 * p.g + j) (tag.value (m.1 / 2 ^ (j * w) % 2 ^ w)))))
          (if sc = 0 then none else some (b.f sc)) ∧
        let u := m.2.setCore (coreOf s.cur) c'
        (∀ q, at_ { p with g := p.g + 1 } = some q → exec i s0 = .next (u.modMe (fun y => y.mxAt q))) ∧
        (at_ { p with g := p.g + 1 } = none → ∀ v, u.mxDone b sc v → exec i s0 = .next v))

/-- Drains, zeroing and loads of accumulator rows (R275-R279): MDRAIN narrows the columns below 256 of the active elements,
saturating, into vd; MDRAINS writes the rows it names into the scratchpad, in ascending order where they overlap, which is
the model's choice (log 116); a row that mismatches its checksum and records no word takes CHECKSUM, 152 + its slab, after
the drain, which is counted. MZERO sets its rows and their CHK to zero, and MLDACC writes a row from a register, zero where
no element is active, with its CHK; both clear the recorded words. A row of MDRAIN that mismatches and records a word sets
ERR and CAUSE, 152 + its slab, in that word, adds nothing to its COUNT and takes no trap. Without a slab of their rows the
instructions on rows take 196, and without the engine every matrix instruction 197 (R267). -/
def Obligations.Drains : Prop :=
  (∀ (s0 : State) (b0 : Bolt) (vd : VReg) (r : Rnd) (n : BitVec 10) (k : MaskOp), s0.me.bolts.head? = some b0 →
    let s := s0.mx
    let b := b0.mx
    s.mxAt (.mdrain vd r n k) b n.toNat 1 →
    let f32 := !(s.me.tag vd).isInt
    let put (x : Hart) : Hart := x.putCodes vd (((b.actives x k).filter (fun e => decide (e < 256))).map (fun e =>
      (e, (x.narrowTo vd (x.mode r) true f32 ((accVal f32 (s.myCore.accAt n.toNat e)).res, 0)).1)))
    let done (x : Hart) : Hart := (put x).mxNext
    (s.myCore.mismatch f32 n.toNat = false → exec (.mdrain vd r n k) s0 = .next (s.modMe done)) ∧
    (∀ va u, s.myCore.mismatch f32 n.toNat = true → (s.myCore.row n.toNat).arr = some va →
      State.arriveOn { s.modMe put with rel := { s.rel with mxBad := s.rel.mxBad + 1 } } s.cur s.me.asid va.toNat 0
        (some (152 + n.toNat / 128)) = .ok u → exec (.mdrain vd r n k) s0 = .next (u.modMe Hart.mxNext)) ∧
    (s.myCore.mismatch f32 n.toNat = true → (s.myCore.row n.toNat).arr = none → b0.mpos = none → s.me.depth < 3 →
      ∃ t, exec (.mdrain vd r n k) s0 = .next t ∧ t.rel.mxBad = s.rel.mxBad + 1 ∧ t.me.vregs = (done s.me).vregs ∧
        t.me.tcause = BitVec.ofNat 64 (152 + n.toNat / 128) ∧ t.me.tidx = BitVec.ofNat 64 n.toNat ∧ t.me.pc = s.me.tvec)) ∧
  (∀ (s0 : State) (b0 : Bolt) (sa sb : Reg) (r : Rnd) (rows : BitVec 7) (n : BitVec 10) (fx : BitVec 4),
    s0.me.bolts.head? = some b0 →
    let s := s0.mx
    let b := b0.mx
    s.mxAt (.mdrains sa sb r rows n fx) b n.toNat (rows.toNat + 1) →
    let tag := Tag.ofFX fx
    let w := tag.width
    let f32 := !tag.isInt
    let rs : Int := if sb = 0 then (256 * w : Nat) else (b.f sb).toInt
    let fp := (List.range (rows.toNat + 1)).flatMap (fun (i : Nat) => (List.range 256).map (fun (j : Nat) =>
      (j, Foot.mk i (addrPlus (b.f sa).toNat (i * rs + (j * w : Nat))) w)))
    s.scratchReaches b false true (fp.map (·.2)) → (∀ i ≤ rows.toNat, s.myCore.mismatch f32 (n.toNat + i) = false) →
      exec (.mdrains sa sb r rows n fx) s0 = .next ((State.feetWrite (.scratch false) s (fp.map (fun p => ⟨p.2,
        (tag.narrow (s.me.mode r) true s.me.satfin f32 ((accVal f32 (s.myCore.accAt (n.toNat + p.2.e) p.1)).res)).1⟩))).modMe
          Hart.mxNext)) ∧
  (∀ (s : State) (b : Bolt) (rows : BitVec 7) (n : BitVec 10), s.me.bolts.head? = some b →
    s.mx.mxAt (.mzero rows n) b.mx n.toNat (rows.toNat + 1) →
    ∃ c' : Core, s.mx.myCore.rowsSet c' (List.range' n.toNat (rows.toNat + 1)) (fun _ _ => 0) 0 ∧
      exec (.mzero rows n) s = .next ((s.mx.setCore (coreOf s.cur) c').modMe Hart.mxNext)) ∧
  (∀ (s t : State) (y : Hart) (b : Bolt) (va : VReg) (n : BitVec 10) (k : MaskOp), s.me.bolts.head? = some b →
    s.mx.mxAt (.mldacc va n k) b.mx n.toNat 1 → s.mx.mxSeen b.mx k [va] y t →
    let f32 := !(y.tag va).isInt
    let es := (b.actives y k).filter (fun e => decide (e < 256))
    let code (j : Nat) : Nat := if j ∈ es then (if f32 then rneF32 (y.val va j)
      else wrap (intHold true 32 (y.val va j).toInt) 32) else 0
    let held := es.any (fun j => !f32 && decide (intHold true 32 (y.val va j).toInt ≠ (y.val va j).toInt))
    let chk := if f32 then rneF32 (sumVals ((List.range 256).map (fun j => accVal true (code j))))
      else ((List.range 256).map code).sum
    ∃ c' : Core, t.myCore.rowsSet c' [n.toNat] (fun _ => code) chk ∧
      exec (.mldacc va n k) s = .next ((t.setCore (coreOf t.cur) c').modMe (fun x =>
        (if held then x.addFlags flNV else x).mxNext))) ∧
  (∀ (s : State) (b : Bolt) (w : BitVec 7) (n : BitVec 10) (va vd : VReg) (sa sb sc : Reg) (td : TReg) (cc : CReg) (r : Rnd)
      (k : MaskOp) (f : Bool) (fx : BitVec 4) (disp : BitVec 17) (tok : Tok),
    s.me.bolts.head? = some b → b.frags.length ≤ 1 → s.clean →
    (∀ p ∈ [(Instr.mzero w n, w.toNat + 1), (.mdrain vd r n k, 1), (.mdrains sa sb r w n fx, w.toNat + 1), (.mldacc va n k, 1),
        (.mrow va td sc f n k, 1), (.mrowz va td sc f n k, 1), (.msweep sa td sc f n fx tok, b.len 0 * b.len 1 * b.len 2)],
      operandCause p.1 s.me = none → n.toNat + p.2 ≤ 1024 →
      ((∃ r, n.toNat ≤ r ∧ r < n.toNat + p.2 ∧ s.holds 1 (r / 128) = false) →
        exec p.1 s = .next (s.mx.takeTrap (s.mx.vecTrap 196 0))) ∧
      ((∀ r, n.toNat ≤ r → r < n.toNat + p.2 → s.holds 1 (r / 128) = true) → s.holds 3 0 = false →
        exec p.1 s = .next (s.mx.takeTrap (s.mx.vecTrap 197 0)))) ∧
    (∀ i ∈ [Instr.tld td sa sb disp fx tok, .tldf td sa sb cc disp fx, .tscl td sa disp tok],
      operandCause i s.me = none → s.holds 3 0 = false → exec i s = .next (s.mx.takeTrap (s.mx.vecTrap 197 0))))

/-! ### Soft predicates -/

/-- Making and combining soft predicates (R95-R98, R281-R287): each writes the codes of the active elements of qd and its
lineage, and nothing else but QSTAT. QCMP's code is soft_cmp's at temperature T (log 17); a NaN T takes 136 and a negative
one 137. QAND and QOR multiply where the lineages share no bit, and otherwise, or in the .c form, take the lesser and the
greater; shared lineages set QOVERLAP; QNOT is 1 - p; QMOV moves codes or converts. Consuming soft predicates (R99, R100,
R281, R288-R292): QBLEND writes the blend of two sources by the held code; QHARD and QCOLL write mask bits, the held code at
or above the threshold, and a draw of the lane's generator, or of a key, below it; QSEED sets the generators of the active
lanes; QGRAD writes p (1 - p) / T, or the difference of its sources. A held code above 0x8000 sets QRANGE. -/
def Obligations.SoftPredicates : Prop :=
  (∀ (s : State) (b : Bolt) (k : MaskOp) (qd qa qb : QReg), s.me.bolts.head? = some b →
      let es := b.actives s.me k
      let made (reads : List QReg) (ovf : Bool) (lin : BitVec 8) (f : Nat → Nat) (x : Hart) : Hart :=
        let x' : Hart := { x with qstat := (if ovf then x.qstat ||| 2 else x.qstat) }
        ((reads.foldl (fun (x : Hart) q => x.noteRange q es) x').putQ qd (es.map (fun e => (e, f e))) lin).vnext
      (∀ (va vb : VReg) (lin : BitVec 8) (c : Cond) (y : Hart) (t : State), s.boltAt (.qcmp qd va vb lin c k) b →
        (s.me.temperature.isNan = false → (s.me.temperature.isNeg = false ∨ s.me.temperature.isZero = true) →
          s.seen b k [va, vb] y t →
          exec (.qcmp qd va vb lin c k) s = .next (t.modMe (fun x =>
            (x.putQ qd ((b.actives y k).map (fun e => (e, softCmp c (y.val va e) (y.val vb e) y.temperature))) lin).vnext))) ∧
        (s.me.temperature.isNan = true → exec (.qcmp qd va vb lin c k) s = .next (s.takeTrap (s.vecTrap 136 0))) ∧
        (s.me.temperature.isNan = false → s.me.temperature.isNeg = true → s.me.temperature.isZero = false →
          exec (.qcmp qd va vb lin c k) s = .next (s.takeTrap (s.vecTrap 137 0)))) ∧
      (∀ code : BitVec 16, s.boltAt (.qset qd code k) b →
        exec (.qset qd code k) s = .next (s.modMe (made [] false 0 (fun _ => code.toNat)))) ∧
      (∀ lin : BitVec 8, s.boltAt (.qlin qd lin) b → exec (.qlin qd lin) s = .next (s.modMe (fun x =>
        Hart.vnext { x with qlin := Tab.set 0 x.qlin qd.toNat lin }))) ∧
      (∀ r : Rnd, s.boltAt (.qmov (.qq qd qa) r k) b →
        exec (.qmov (.qq qd qa) r k) s = .next (s.modMe (made [] false (s.me.lin qa) (s.me.qcode qa)))) ∧
      (∀ (va : VReg) (lin : BitVec 8) (r : Rnd) (y : Hart) (t : State), s.boltAt (.qmov (.toQ qd va lin) r k) b →
        s.seen b k [va] y t →
        let res (e : Nat) : Nat × Fl := Tag.p16.narrow (y.mode r) false y.satfin (!(y.tag va).isInt) (y.val va e).res
        exec (.qmov (.toQ qd va lin) r k) s = .next (t.modMe (fun x =>
          ((x.addFlags ((b.actives y k).foldl (fun f e => f ||| (res e).2) 0)).putQ qd
            ((b.actives y k).map (fun e => (e, (res e).1))) lin).vnext))) ∧
      (∀ (vd : VReg) (r : Rnd), s.boltAt (.qmov (.fromQ vd qa) r k) b →
        exec (.qmov (.fromQ vd qa) r k) s = .next (s.modMe (fun x =>
          if x.tag vd = .p16 then x.wrote vd (es.map (fun e => (e, x.qcode qa e, 0)))
          else (x.noteRange qa es).wrote vd (es.map (fun e =>
            (e, x.narrowTo vd (x.mode r) false true ((Tag.p16.value (x.qcode qa e)).res, 0))))))) ∧
      (∀ form : Bool,
        let shared := decide (s.me.lin qa &&& s.me.lin qb ≠ 0)
        (s.boltAt (.qand qd qa qb form k) b → exec (.qand qd qa qb form k) s = .next (s.modMe (made [qa, qb] (!form && shared)
          (s.me.lin qa ||| s.me.lin qb) (fun e => if form || shared then min (s.me.qheld qa e) (s.me.qheld qb e)
            else div15 (s.me.qheld qa e * s.me.qheld qb e))))) ∧
        (s.boltAt (.qor qd qa qb form k) b → exec (.qor qd qa qb form k) s = .next (s.modMe (made [qa, qb] (!form && shared)
          (s.me.lin qa ||| s.me.lin qb) (fun e => if form || shared then max (s.me.qheld qa e) (s.me.qheld qb e)
            else div15 (32768 * (s.me.qheld qa e + s.me.qheld qb e) - s.me.qheld qa e * s.me.qheld qb e)))))) ∧
      (s.boltAt (.qnot qd qa k) b →
        exec (.qnot qd qa k) s = .next (s.modMe (made [qa] false (s.me.lin qa) (fun e => 32768 - s.me.qheld qa e))))) ∧
  (∀ (s : State) (b : Bolt) (k : MaskOp) (qa : QReg), s.me.bolts.head? = some b →
      let es := b.actives s.me k
      (∀ (vd va vb : VReg) (r : Rnd) (y : Hart) (t : State), s.boltAt (.qblend vd va vb qa r k) b →
        (s.modMe (fun x => x.noteRange qa es)).seen b k [va, vb] y t →
        exec (.qblend vd va vb qa r k) s = .next (t.modMe (fun x => x.wrote vd ((b.actives y k).map (fun e =>
          (e, blendOf vd va vb qa r y e)))))) ∧
      (∀ (md : MReg) (thr : BitVec 16), s.boltAt (.qhard md qa thr k) b →
        exec (.qhard md qa thr k) s = .next (s.modMe (fun x =>
          ((x.noteRange qa es).putMask md es (fun e => decide (thr.toNat ≤ x.qheld qa e))).vnext))) ∧
      (∀ (md : MReg) (key : Option VReg) (y : Hart) (t : State), s.boltAt (.qcoll md qa key k) b → s.seen b k key.toList y t →
        let d := drawAll b (fun e => key.map (fun v => BitVec.ofNat 64 (y.code v e))) t.myCore.gens (b.actives y k)
        exec (.qcoll md qa key k) s = .next ((t.modMyCore (fun c => { c with gens := d.1 })).modMe (fun x =>
          ((x.noteRange qa (b.actives y k)).putMask md (b.actives y k) (fun e =>
            d.2.any (fun p => decide (p.1 = e) && decide ((p.2 >>> 49).toNat < y.qheld qa e)))).vnext))) ∧
      (∀ (src : SeedSrc) (y : Hart) (t : State), s.boltAt (.qseed src k) b →
        s.seen b k (match src with
          | .vec va => [va]
          | .frame _ => []) y t →
        let ls := (b.actives y k).filter (fun l => decide (l < 8 * Bits.count b.lanes 8))
        let seed (l : Nat) : Word := match src with
          | .vec va => BitVec.ofNat 64 (y.code va l)
          | .frame sa => b.f sa + BitVec.ofNat 64 l
        exec (.qseed src k) s = .next ((t.modMyCore (fun c =>
          { c with gens := ls.foldl (fun g l => Tab.set 0 g (b.laneOf l) (seed l)) c.gens })).modMe Hart.vnext)) ∧
      (∀ (vd : VReg) (r : Rnd), s.boltAt (.qgrad vd (.soft qa) r k) b →
        (s.me.temperature.isNan = false → (s.me.temperature.isNeg = false ∨ s.me.temperature.isZero = true) →
          exec (.qgrad vd (.soft qa) r k) s = .next (s.modMe (fun x => (x.noteRange qa es).wrote vd (es.map (fun e =>
            (e, x.narrowTo vd (x.mode r) false true (slopeOf x.temperature (x.qheld qa e)))))))) ∧
        (s.me.temperature.isNan = true → exec (.qgrad vd (.soft qa) r k) s = .next (s.takeTrap (s.vecTrap 138 0)))) ∧
      (∀ (vd va vb : VReg) (r : Rnd) (y : Hart) (t : State), s.boltAt (.qgrad vd (.blend va vb) r k) b →
        s.seen b k [va, vb] y t →
        exec (.qgrad vd (.blend va vb) r k) s = .next (t.modMe (fun x => x.wrote vd ((b.actives y k).map (fun e =>
          (e, y.rounded vd r (y.isReal [va, vb]) ((y.val va e).sub (y.mode r) (y.val vb e)))))))))

/-- At zero temperature the soft operations are the hard ones (R295): a soft compare gives 0x8000 or 0 as the hard compare
holds, NaN and signed zeros included; on those codes both forms of QAND and QOR, QNOT, QHARD with a threshold of 1 to 0x8000
and QCOLL, whatever is drawn, are the operations of masks; QBLEND takes the code that VSEL takes; and the slope of QGRAD is
+0. -/
def Obligations.ZeroTemperature : Prop :=
  (∀ (c : Cond) (x y t : Val), t.isZero = true → softCmp c x y t = (if Val.compare c x y then 0x8000 else 0)) ∧
  (∀ p q : Bool,
    let code (b : Bool) : Nat := if b then 0x8000 else 0
    div15 (code p * code q) = code (p && q) ∧ min (code p) (code q) = code (p && q) ∧
    div15 (32768 * (code p + code q) - code p * code q) = code (p || q) ∧ max (code p) (code q) = code (p || q) ∧
    32768 - code p = code (!p) ∧ (∀ thr, 1 ≤ thr → thr ≤ 0x8000 → decide (thr ≤ code p) = p) ∧
    (∀ z : Word, decide ((z >>> 49).toNat < code p) = p)) ∧
  (∀ (vd va vb : VReg) (qc : QReg) (r : Rnd) (y : Hart) (e : Nat) (m : Bool), y.qheld qc e = (if m then 0x8000 else 0) →
    (blendOf vd va vb qc r y e).1 = (y.moved vd (if m then va else vb) (y.mode r) e).1) ∧
  (∀ (t : Val) (n : Nat), t.isZero = true → slopeOf t n = (.fin false 0 1 0, 0))

/-! ### The yards, pre-emption and layers -/

/-- The yards (R27, R28, R33-R36): the head of a queue that waits for nothing, or whose arrival word has reached its target
without an error, becomes a farm; a word with ERR halts the queue and is reported. The lead goes to a core that covers the
packet's fixed lots with the most free slots, of the yard's own die (log 46), in the address space of the packet's context
(log 23), at the packet's entry with the packet's arguments and the default handler; followers take the lead's registers at
the FARM with their own index, and shared pins of the tokens live there (log 87). A FARM with 0 that finds no core waits for
slots (log 86). The effective priority is the packet's and one for each millisecond of unmet demand, at most 7; the
hart-cycles used by the farm's harts in slots are charged. -/
def Obligations.Yards : Prop :=
  (∀ (s : State) (die q : Nat) (p : QPacket) (rest : List QPacket),
    let y := s.yardQ die q
    let n := p.pkt.toNat
    let w := s.vreadHome p.asid (pktArr n) 64
    let f : Farm := { id := s.nextUid, pkt := p.pkt, asid := s.asidOf (pktMctx n), die := die, counter := 0, total := pktCount n,
                      leadPlaced := false, opened := false, wanted := 0, entry := BitVec.ofNat 64 (pktEntry n), leadRegs := [],
                      leadToks := [], placed := 0, alive := 0, running := 0, since := s.time, full := false, deficit := 65536,
                      counted := s.cycle }
    y.packets = p :: rest → y.halted = false → (pktWaits n = true → s.checkAccess p.asid (pktArr n) 64 .rd = none) →
      (pktWaits n = false ∨ (w.testBit 32 = false ∧ pktTarget n ≤ w % 2 ^ 32) → exec (.packetRelease die q) s =
        .next { s.setYardQ die q { y with packets := rest } with farms := s.farms ++ [f], nextUid := s.nextUid + 1 }) ∧
      (pktWaits n = true → w.testBit 32 = true → exec (.packetRelease die q) s =
        .next ((s.setYardQ die q { y with halted := true }).posted
          { cls := 5, cause := 240 + q, hart := 384 * die + 7, mctx := pktMctx n, info := BitVec.ofNat 64 (16 * die + q),
            addr := BitVec.ofNat 64 (pktArr n), data := [BitVec.ofNat 64 w] })) ∧
      (pktWaits n = true → w.testBit 32 = false → w % 2 ^ 32 < pktTarget n → exec (.packetRelease die q) s = .next s)) ∧
  (∀ (s : State) (p rot : Nat) (ks : List Nat),
    (s.bestCore p rot ks = none ↔ ∀ k ∈ ks, s.suits k p = false) ∧
    ∀ k, s.bestCore p rot ks = some k → k ∈ ks ∧ s.suits k p = true ∧
      ∀ j ∈ ks, s.suits j p = true → (s.freeSlots j).length ≤ (s.freeSlots k).length) ∧
  (∀ (s : State) (f k : Nat) (x : Farm), s.farmOf f = some x →
    let p := x.pkt.toNat
    let due : Int := x.deficit - (x.running * (s.cycle - x.counted) : Nat)
    let hart (idx : Nat) (entry : Word) (regs : Tab Word) (toks : Tab Token) : Hart :=
      { Hart.vacant with placed := true, uid := s.nextUid, farm := x.id, idx := idx, asid := x.asid, pc := entry, regs := regs,
                         toks := toks, tvec := s.handler, mctx := BitVec.ofNat 64 (pktMctx p) }
    (x.leadPlaced = false → s.bestCore p (Tab.get 0 s.yardRot x.die) (dieCores x.die) = some k →
      (s.grove (k / 8)).asleep = false → ∃ t h regs, exec (.leadPlacement f) s = .next t ∧
        s.placedAt t k h p (hart 0 x.entry regs []) ∧ t.farmOf f = some { x with leadPlaced := true, placed := 1, alive := 1,
                                                                                      running := x.running + 1, deficit := due,
                                                                                      counted := s.cycle } ∧
        (∀ r, r < 32 → Tab.get 0 regs r = if r = 9 then BitVec.ofNat 64 (pktCount p) else
          if 10 ≤ r ∧ r < 22 then pktArg p (r - 10) else 0)) ∧
    (x.opened = true → x.wanted ≠ 0 → s.followerCore x = some k → (s.grove (k / 8)).asleep = false →
      ∃ t h, exec (.followerPlacement f) s = .next t ∧
        s.placedAt t k h p (hart x.placed x.entry (Tab.set 0 x.leadRegs 8 (BitVec.ofNat 64 x.placed))
          ((x.leadToks.filter (fun q => decide (q.2.st = .live))).map (fun q => (q.1, { q.2 with shared := true })))) ∧
        t.farmOf f = some { x with placed := x.placed + 1, alive := x.alive + 1, running := x.running + 1, full := false,
                                   deficit := due, counted := s.cycle,
                                   wanted := if x.wanted = 2 ^ 64 then x.wanted else x.wanted - 1 }) ∧
    (x.opened = true → x.wanted = 2 ^ 64 → s.followerCore x = none →
      ∃ t, exec (.followerPlacement f) s = .next t ∧ t.farmOf f = some { x with full := true } ∧ t.harts = s.harts) ∧
    (∀ now, x.priority now = min 7 (p / 2 ^ 140 % 8 + if x.unmet then (now - x.since) / ticksPerMilli else 0)) ∧
    (∃ t y, exec (.effectivePriorityAging f) s = .next t ∧ t.farmOf f = some y ∧ y.counted = s.cycle ∧
      (y.deficit = due ∨ y.deficit = due + 65536) ∧
      t.harts = s.harts ∧ t.dev = s.dev ∧ t.hostMem = s.hostMem))

/-- Pre-emption (R48, R317-R320, R373): 4,096 cycles after a request the running convoy is cut. At a stop of the vector
side, with no kept event due and the transfers complete, the hart is saved: its slot is vacant, what it was is held with the
contents of its lots by index, no lot is left with it (one that an unfinished claim of another hart has selected passes to
that claim, another becomes free), and the header of R373 stands in its area, which is taken first-fit from its context's
pool, or of a context that is not resident from the pool firmware holds; where no area fits, the request is given up. What
an area holds (R319, R373) is what a restore takes: an item that has been written since is taken from there, the PC, the
scalar registers, the tokens and the scratchpad at their places (log 56). A restore (R48, R320, R373) of a hart that held no
negotiated lots and whose area was not written: it goes to a core that covers its fixed lots, in its first free slot, with
its registers, status, tokens, bindings, bolts and frames, the accumulators of its slabs by index, and, with as many lanes,
its vector state; its fixed lots are granted again by ascending index, its area is freed, and it is saved no longer. A saved
hart that no core suits stays saved (logs 55, 57, 58). -/
def Obligations.PreemptionAndRestore : Prop :=
  (∀ (s : State) (h t0 : Nat),
      let x := s.hart h
      let c := s.core (coreOf h)
      let lots (kind : Nat) : Nat := (c.heldLots (slotOf h) kind).length
      let n := areaLen x (lots 2) (lots 1) (lots 3)
      x.preempt = some t0 →
      (t0 + 4096 ≤ s.cycle → exec (.convoyCut h) s = .next (s.setHart h
        { x with vwait := none, bolts := match x.bolts with
          | [] => []
          | b :: bs => { b with convoy := [], chain := [], cut := b.cut || decide (b.convoy ≠ []) } :: bs })) ∧
      (s.cycle < t0 + 4096 → exec (.convoyCut h) s = .next s) ∧
      (x.placed = true → x.vectorStopped = true → (x.duePend = none ∨ x.halted = true) → s.xfersOf h = [] → ∀ r : Option Nat,
        (s.ctx x.mctx.toNat = none ∧ firstFit Config.firmwarePool.1 Config.firmwarePool.2 n s.fwAreas = r ∨
          ∃ k, s.ctx x.mctx.toNat = some k ∧ firstFit k.saveBase k.saveLen n k.areas = r) →
        (r = none → exec (.preemption h) s = .next (s.setHart h { x with preempt := none })) ∧
        (∀ a, r = some a →
          ∃ t v, exec (.preemption h) s = .next t ∧ t.hart h = Hart.vacant ∧ t.saved = s.saved ++ [v] ∧
            v.hart.uid = x.uid ∧ v.hart.regs = x.regs ∧ v.hart.pc = x.pc ∧ v.hart.pstat = x.pstat ∧ v.hart.vregs = x.vregs ∧
            v.hart.masks = x.masks ∧ v.hart.qcodes = x.qcodes ∧ v.hart.frames.map (·.pc) = x.frames.map (·.pc) ∧ v.hart.toks = x.toks ∧
            v.hart.binds = x.binds ∧ v.hart.bolts.map (·.frags) = x.bolts.map (·.frags) ∧ v.hart.preempt = none ∧
            v.number = h ∧ v.g = x.g ∧ v.area = a ∧ v.len = n ∧
            (∀ kind i, kind < 4 → i < lotCount kind → c.holds (slotOf h) kind i = true → (c.lot kind i).claim = none →
              (t.core (coreOf h)).lot kind i = { Lot.free with lastUid := (c.lot kind i).lastUid }) ∧
            (c.claims.any (fun y => decide (y.slot = slotOf h) && decide (y.uid = x.uid)) = false → ∀ kind i,
              (t.core (coreOf h)).lot kind i = (((List.range 4).flatMap (fun kind =>
                ((List.range (lotCount kind)).filter (c.holds (slotOf h) kind)).map (fun i => (kind, i)))).foldl
                  (fun c p => c.passLot p.1 p.2) c).lot kind i) ∧
            (∀ j q, (c.heldLots (slotOf h) 1)[j]? = some q → ∀ e < 32768, Tab.get 0 v.acc (j * 32768 + e) = Tab.get 0 c.acc (q * 32768 + e)) ∧
            (∀ j q, (c.heldLots (slotOf h) 2)[j]? = some q → ∀ e < 2 ^ 19,
              Tab.get 0 v.scratch (j * 2 ^ 19 + e) = Tab.get 0 c.scratch (q * 2 ^ 19 + e)) ∧
            (∀ j l, (Bits.members x.lc 8)[j]? = some l → ∀ e < 8, v.gens[8 * j + e]? = some (Tab.get 0 c.gens (8 * l + e))) ∧
            (a % 8 = 0 → a + 512 ≤ 3 * 2 ^ 41 → Memory.read t.dev a 512 = v.header)))) ∧
  (∀ v : Saved, let z := v.header
    z / 2 ^ 448 = v.len % 2 ^ 64 ∧ z / 2 ^ 423 % 2 ^ 11 = v.number % 2 ^ 11 ∧ z / 2 ^ 411 % 2 ^ 12 = v.hart.mctx.toNat % 2 ^ 12 ∧
      z / 2 ^ 384 % 2 ^ 27 = v.hart.mvl % 2 ^ 27 ∧ z / 2 ^ 377 % 2 ^ 7 = v.g % 2 ^ 7 ∧
      z / 2 ^ 371 % 2 ^ 6 = (v.hart.bolts.length + (v.hart.frames.map (fun f => f.bolts.length)).sum) % 2 ^ 6 ∧
      z / 2 ^ 368 % 8 = v.held 2 % 8 ∧ z / 2 ^ 364 % 16 = v.held 1 % 16 ∧ z / 2 ^ 363 % 2 = v.held 3 % 2 ∧ z % 2 ^ 363 = 0) ∧
  (∀ (s : State) (v : Saved), (s.areaStands v → s.fromArea v = v) ∧
    let written (i : Nat) : Prop :=
      v.image i (v.fields i) ≠ Memory.window s.dev ((v.area + v.offset i) / 8) (up512 (v.items.getD i 0) / 8)
    (v.image 0 (v.fields 0) ≠ Memory.window s.dev ((v.area + 512) / 8) 256 →
      (s.fromArea v).hart.pc = BitVec.ofNat 64 (s.homeRead (v.area + 512) 64) ∧
      ∀ r : Reg, r ≠ 0 → (s.fromArea v).hart.reg r = BitVec.ofNat 64 (s.homeRead (v.area + 512 + 64 * r.toNat) 64)) ∧
    (written 8 → ∀ k < 16,
      let z (n : Nat) : Nat := s.homeRead (v.area + v.offset 8 + 192 * k + n) 64
      Tab.get Token.none (s.fromArea v).hart.toks k = Token.of (z 0) (z 64) (z 128)) ∧
    (written 16 → ∀ e < v.held 2 * 2 ^ 19,
      Tab.get 0 (s.fromArea v).scratch e = BitVec.ofNat 8 (s.homeRead (v.area + v.offset 16 + 8 * e) 8))) ∧
  (∀ (s : State) (x : Nat) (v : Saved), s.saved.find? (fun v => decide (v.hart.uid = x)) = some v → v.dest = none →
      (s.restoreCore (s.fromArea v) = none → exec (.contextRestore x) s = .next s) ∧
      (∀ k, s.restoreCore v = some k → v.negotiated = [] → v.claims = [] → (s.grove (k / 8)).asleep = false → s.areaStands v →
        ∃ t sl, exec (.contextRestore x) s = .next t ∧ (s.freeSlots k).head? = some sl ∧
          let y := t.hart (8 * k + sl)
          y.uid = x ∧ y.regs = v.hart.regs ∧ y.pc = v.hart.pc ∧ y.pstat ||| 0x100 = v.hart.pstat ||| 0x100 ∧ y.toks = v.hart.toks ∧
          y.binds = v.hart.binds ∧ y.frames.map (·.pc) = v.hart.frames.map (·.pc) ∧
          y.bolts.map (·.frags) = v.hart.bolts.map (·.frags) ∧
          (8 * Bits.count ((t.core k).lanesOf sl) 8 = v.g → y.vregs = v.hart.vregs ∧ y.masks = v.hart.masks ∧
            y.pstat = v.hart.pstat ∧ y.vl = v.hart.vl) ∧
          ((v.acc.map (·.1)).Nodup → (∀ p ∈ v.acc, p.1 < 32768 * ((t.core k).heldLots sl 1).length) →
            ∀ j q, ((t.core k).heldLots sl 1)[j]? = some q → ∀ e < 32768,
              Tab.get 0 (t.core k).acc (q * 32768 + e) = Tab.get 0 v.acc (j * 32768 + e)) ∧
          t.saved = s.saved.filter (fun u => !(decide (u.hart.uid = x))) ∧
          (∀ kind i, kind < 4 → i < lotCount kind → (t.core k).lot kind i =
            if i ∈ ((s.core k).freeLots kind).take (pktLots v.fixed kind) then ⟨1, BitVec.ofNat 3 sl, 0, none, x⟩
            else (s.core k).lot kind i) ∧
          (∀ c, s.ctx v.hart.mctx.toNat = some c → t.ctx v.hart.mctx.toNat =
            some { c with areas := c.areas.filter (fun a => !(decide (a.1 = v.area))) }) ∧
          (∀ h, h ≠ 8 * k + sl → t.hart h = s.hart h)))

/-- Kept events and notifications (R304, R313, R318): the kept event due at a boundary is taken as its trap, and so is the
oldest notification at depth 0 with NEN where nothing comes before it; a notification is taken at once, or kept behind the
others. A vacant slot and a number above 12 take none. That only the events whose depth condition holds take part in the
order is the model's reading (log 54), and that a kept event is taken while the stem waits its choice (log 104). Failures
that come after an access (R129, R307, R313): a hart's access held at a migrating page for 2^24 cycles takes 120 + its
class, which the model raises for the classes of harts' own accesses (log 47); a host access without a completion takes 112
+ its class for classes 0 to 4, for class 1 as a cause of the running bolt; of classes 5 to 7 it is the hart's next access
to the address that fails (log 100), by HOST_ABORT; and a back-invalidation that the host does not answer takes 434. -/
def Obligations.KeptEventsAndLateFailures : Prop :=
  (∀ (s : State) (h n : Nat),
      let x := s.hart h
      let note (n : Nat) : TrapInfo :=
        { cause := 435 + n, detail := 0, pc := x.pc, addr := 0, idx := 0, tok := 0, vec := false }
      (∀ p, x.duePend = some p → x.placed = true → x.halted = false →
        p ∈ x.pend ∧ x.allows p = true ∧ (∀ q ∈ x.pend, x.allows q = true → p.order ≤ q.order) ∧
        (∀ q ∈ x.pend, x.allows q = true → q.order = p.order → q.trap.vec = true → p.trap.vec = true) ∧
        exec (.pendingEventTaken h) s = .next ((s.setHart h { x with pend := x.pend.erase p }).takeTrapOn h (x.pendTrap p))) ∧
      (∀ m t, x.duePend = none → x.notes = m :: t → x.mayNotify = true →
        exec (.pendingEventTaken h) s = .next ((s.setHart h { x with notes := t }).takeTrapOn h (note m))) ∧
      (x.placed = true → n ≤ 12 → x.mayNotify = true → x.notes = [] →
        exec (.fwNotify h n) s = .next (s.takeTrapOn h (note n))) ∧
      (x.placed = true → n ≤ 12 → x.mayNotify = false →
        exec (.fwNotify h n) s = .next (s.setHart h { x with notes := x.notes ++ [n] })) ∧
      (x.placed = false ∨ 12 < n → exec (.fwNotify h n) s = .next s)) ∧
  (∀ (s : State) (h cls va : Nat),
      (s.timedOut h (.page va cls) →
        exec (.pageBlocked h) s = .next ((s.on h).takeTrap ((s.on h).stemTrap (120 + cls) va))) ∧
      (((s.hart h).bolts = [] ∨ cls ≠ 1) → cls < 5 → exec (.hostTimeout h cls va) s =
        .next ((s.on h).takeTrap ((s.on h).stemTrap (112 + cls) va))) ∧
      (∀ b bs f fs, (s.hart h).bolts = b :: bs → b.frags = f :: fs → exec (.hostTimeout h 1 va) s = .next ((s.on h).takeTrap
        { cause := 113, detail := 0, pc := BitVec.ofNat 64 f.pc, addr := BitVec.ofNat 64 va, idx := 0, tok := 0, vec := true })) ∧
      (5 ≤ cls → cls < 8 → exec (.hostTimeout h cls va) s = .next { s.on h with noReply := (h, 6, (s.on h).physOf va) :: s.noReply } ∧
        ∀ n, 0 < n → isHost ((s.on h).physOf va) = true → s.host.portDown.testBit (hostPort ((s.on h).physOf va)) = false →
          { s.on h with noReply := (h, 6, (s.on h).physOf va) :: s.noReply }.hostFail h (s.hart h).asid va n cls = some (104 + cls, va)) ∧
      exec (.backinvTimeout h va) s = .next ((s.on h).takeTrap ((s.on h).stemTrap 434 va)))

/-- A layer's transfer goes on (R51, R363, R366, R371): with pages free and within the quota it takes the first of them and
maps its region to them, read-only (the model's choice, log 25); once it has them, the source is written over them and the
entry becomes RESIDENT with its generation one higher, with an event. A source that cannot be read fails with reason 0 and
one whose port or link is down with reason 2. Evictions and failed transfers (R51, R125, R311, R367-R369, R371): an eviction
whose pages no migration moves revokes every token that covers them, unmaps and frees them and writes ABSENT, and the layer
is asked for again where it was asked for meanwhile; one whose pages a migration moves waits for it. For a request that
waits for pages the time without one begins anew. A request without a page for 2^30 cycles fails with reason 1, and a
source's error with 0 or 2: 280 + 4 x the source's kind + the reason. A failure revokes the tokens over the pages and frees
them, writes ABSENT with an event, and every hart of the context that waits for the layer below depth 3 takes the cause, a
flume of its bolt before its stem; no other hart changes but by the tokens. Where a request finds too few pages, or its
quota exceeded, and none leaves for it yet, the first of R367's order (the contexts before their layers: log 123) leaves, of
its own context or, within the quota, of contexts of lower priority: a RESIDENT layer without pins goes EVICTING and every
token over its pages is revoked; where there is none, the request waits. -/
def Obligations.Layers : Prop :=
  ((∀ (s : State) (c : Ctx) (l : Nat) (w : Swap), s.ctx c.mctx = some c → s.swapOf c.mctx l = some w →
      let e := s.lrtEntry c l
      let pages := e / 2 ^ 14 % 2 ^ 12
      let ps := s.freePages.take pages
      (w.phase = .needPages → pages ≤ s.freePages.length → (c.quota = 0 ∨ s.heldPages c + pages ≤ c.quota) → w.layer = l →
        w.mctx = c.mctx → exec (.layerArrival c.mctx l) s = .next { s with
          maps := s.maps ++ ((List.range pages).zip ps).map (fun p =>
            Mapping.mk c.asid (entRegion e + p.1 * 2 ^ 19) 19 p.2 true false false false)
          pool := s.pool ++ ps
          swaps := s.swaps.map (fun v => if v.mctx = w.mctx ∧ v.layer = w.layer then { w with phase := .filling, pages := ps } else v) }) ∧
      (w.phase = .filling → s.sourceEntry c l = none →
        exec (.layerArrival c.mctx l) s = .next (s.failLayerWith c l (280 + 4 * s.layerSource c l))) ∧
      (w.phase = .needPages → w.layer = l → w.mctx = c.mctx → (s.ctxs.map (fun d : Ctx => d.mctx)).Nodup →
        s.swaps.any (fun v => decide (v.phase = .evicting) && decide (v.req = c.mctx)) = false →
        let beyond : Prop := c.quota ≠ 0 ∧ c.quota < s.heldPages c + pages
        let may (d : Ctx) (k : Nat) : Prop := d ∈ s.ctxs ∧ (d.mctx = c.mctx ∨ (¬ beyond ∧ d.eprio < c.eprio)) ∧ k < d.nlayer ∧
          s.lrtEntry d k % 4 = 2 ∧ s.lrtEntry d k / 4 % 16 = 0 ∧ ¬(d.mctx = c.mctx ∧ k = l)
        let asked (d : Ctx) : Nat := (d.lastLwait.map (· + 1)).getD 0
        let before (d : Ctx) (k : Nat) (e : Ctx) (j : Nat) : Prop :=
          if d.mctx = e.mctx then
            if k < s.position d then s.position d ≤ j ∨ k ≤ j else s.position d ≤ j ∧ j ≤ k
          else d.eprio < e.eprio ∨ (d.eprio = e.eprio ∧ (asked d < asked e ∨ (asked d = asked e ∧ d.mctx < e.mctx)))
        beyond ∨ s.freePages.length < pages →
          (∀ d k, may d k → (∀ e j, may e j → before d k e j) → let v := s.lrtEntry d k
            s.migrating d.asid (entRegion v) (entPages v * 2 ^ 19) = false →
            let u := (s.setEntry d k (v - v % 4 + 3)).revoke d.asid (entRegion v) (entPages v * 2 ^ 19) (.evicted d.mctx k)
            exec (.layerArrival c.mctx l) s =
              .next { u with swaps := u.swaps ++ [⟨d.mctx, k, .evicting, [], s.cycle, false, c.mctx, false⟩] }) ∧
          ((∀ d k, ¬ may d k) → exec (.layerArrival c.mctx l) s = .next s)) ∧
      (∀ src, w.phase = .filling → s.sourceEntry c l = some src → s.sourceDown src = true →
        exec (.layerArrival c.mctx l) s = .next (s.failLayerWith c l (280 + 4 * s.layerSource c l + 2))) ∧
      (∀ src, w.phase = .filling → w.layer = l → w.evict = false → s.sourceEntry c l = some src → s.sourceDown src = false →
        let s1 := s.fillPages src w.pages
        let e1 := s1.lrtEntry c l
        let e2 := e1 / 2 ^ 14 * 2 ^ 14 + (e1 / 2 ^ 6 % 2 ^ 8 + 1) % 256 * 2 ^ 6 + e1 / 4 % 16 * 4 + 2
        exec (.layerArrival c.mctx l) s = .next (((s1.setEntry c l e2).dropSwap c.mctx l).posted
          { cls := 8, cause := 0, hart := 0, mctx := c.mctx, info := BitVec.ofNat 64 (2 ^ 56 + l % 4096),
            addr := BitVec.ofNat 64 (entRegion e2),
            data := [BitVec.ofNat 64 e2, BitVec.ofNat 64 (srcKind src), BitVec.ofNat 64 (w.pages.length * 2 ^ 19),
                     BitVec.ofNat 64 c.mctx] }))) ∧
    (∀ (s : State) (src : Nat) (ps : List Nat), ps.Pairwise (fun p q => p + 2 ^ 19 ≤ q ∨ q + 2 ^ 19 ≤ p) →
      (∀ p ∈ ps, p + 2 ^ 19 ≤ 3 * 2 ^ 41) → ∀ i (hi : i < ps.length), ∀ j < 128,
        (s.fillPages src ps).homeRead (ps[i] + 4096 * j) 4096 = s.sourcePiece src (i * 2 ^ 19 + 4096 * j))) ∧
  ((∀ (s : State) (c : Ctx) (l : Nat) (w : Swap), s.ctx c.mctx = some c → s.swapOf c.mctx l = some w →
      let entry (u : State) : Nat := u.lrtEntry c l
      let region (u : State) : Nat := entRegion (entry u)
      let bits (u : State) : Nat := entPages (entry u) * 2 ^ 19
      let inside (u : State) (m : Mapping) : Bool :=
        decide (m.asid = c.asid) && decide (region u ≤ m.va) && decide (m.va < region u + bits u)
      let gone (u : State) : List Nat := (u.maps.filter (inside u)).map (fun m => m.pa)
      let freed (u : State) : State := { u with
        maps := u.maps.filter (fun m => !(inside u m)), pool := u.pool.filter (fun p => !((gone u).contains p))
        swaps := u.swaps.map (fun v => if v.phase = .needPages ∧ (gone u).any (fun p => u.pool.contains p) then
          { v with since := u.cycle } else v) }
      (w.phase = .evicting → w.mctx = c.mctx → w.layer = l → s.migrating c.asid (region s) (bits s) = false →
        let v := s.drainAll
        let u := v.revoke c.asid (region v) (bits v) (.evicted c.mctx l)
        let z := (((freed u).setEntry c l (entry u - entry u % 4)).dropSwap c.mctx l).posted
          { cls := 8, cause := 0, hart := 0, mctx := c.mctx, info := BitVec.ofNat 64 (2 * 2 ^ 56 + l % 4096),
            addr := BitVec.ofNat 64 (region u),
            data := [BitVec.ofNat 64 (entry u - entry u % 4), BitVec.ofNat 64 (s.layerSource c l), 0, BitVec.ofNat 64 w.req] }
        exec (.evictionComplete c.mctx l) s = .next (if w.again then z.requestLayer c.mctx l else z)) ∧
      (w.phase = .evicting → s.migrating c.asid (region s) (bits s) = true → exec (.evictionComplete c.mctx l) s = .next s) ∧
      (w.phase = .needPages → w.since + 2 ^ 30 ≤ s.cycle →
        exec (.swapVictimTimeout c.mctx l) s = .next (s.failLayerWith c l (280 + 4 * s.layerSource c l + 1))) ∧
      (w.phase = .needPages → s.cycle < w.since + 2 ^ 30 → exec (.swapVictimTimeout c.mctx l) s = .next s) ∧
      (∀ reason, reason = 0 ∨ reason = 2 → w.phase = .filling →
        exec (.swapFailed c.mctx l reason) s = .next (s.failLayerWith c l (280 + 4 * s.layerSource c l + reason))) ∧
      (∀ cause, let t := s.failLayerWith c l cause
        let r := s.revoke c.asid (region s) (bits s) .unmapped
        t.swapOf c.mctx l = none ∧ t.maps = (freed s).maps ∧ t.pool = (freed s).pool ∧
        (∀ h d k, h < 1536 → (s.hart h).placed = true → (s.hart h).mctx.toNat = c.mctx → (s.hart h).depth < 3 →
          Hart.waitsLayer (s.hart h).vwait l = false → (s.hart h).wait.map (fun r => r.kind) = some (.lwait d k) → k = l →
          t.hart h = (r.hart h).trap { cause := cause, detail := 0, pc := (s.hart h).pc, addr := BitVec.ofNat 64 (c.entryAt l),
                                       idx := 0, tok := 0, vec := false }) ∧
        (∀ h b bs f fs, h < 1536 → (s.hart h).placed = true → (s.hart h).mctx.toNat = c.mctx → (s.hart h).depth < 3 →
          Hart.waitsLayer (s.hart h).vwait l = true → (s.hart h).bolts = b :: bs → b.frags = f :: fs → ∃ p : TrapInfo,
            p.cause = cause ∧ p.vec = true ∧ p.pc = BitVec.ofNat 64 f.pc ∧ p.addr = BitVec.ofNat 64 (c.entryAt l) ∧
            t.hart h = (r.hart h).trap p) ∧
        (280 ≤ cause → cause < 296 → (∀ h, (s.hart h).depth = 3 → (s.hart h).mctx.toNat ≠ c.mctx) →
          let e := entry s - entry s % 4
          let z := (((freed r).setEntry c l e).dropSwap c.mctx l).posted
            { cls := 8, cause := cause, hart := 0, mctx := c.mctx, info := BitVec.ofNat 64 (3 * 2 ^ 56 + l % 4096),
              addr := BitVec.ofNat 64 (region s),
              data := [BitVec.ofNat 64 e, BitVec.ofNat 64 (s.layerSource c l), 0, BitVec.ofNat 64 c.mctx] }
          t.dev = z.dev ∧ t.hostMem = z.hostMem ∧ t.host = z.host) ∧
        (∀ h, (Hart.waitsLayer (s.hart h).wait l = false ∧ Hart.waitsLayer (s.hart h).vwait l = false) ∨
          (s.hart h).mctx.toNat ≠ c.mctx → t.hart h = r.hart h))))

/-! ### The host -/

/-- The mailbox's protocol (R345, R346, R352): an answer sets STATUS and LEN, clears OWN, keeps OP and TAG, and writes its
response over the first parameters; a set reserved bit answers 2, another start state than a command's answers 3, and an
opcode that is not assigned 1. QRESET, SETEVT, SETVEC and PEERWIN (R346, R350-R352): QRESET drops the head packet, every
packet or none, lets the queue go on and answers how many it dropped; SETEVT places the ring and begins its count; SETVEC
gives a class its port and vector; PEERWIN opens a window and answers its number. Where the rights of PEERWIN stand in their
word is the model's choice (log 30). A parameter outside its range answers 2. -/
def Obligations.Mailbox : Prop :=
  ((∀ (s : State) (status : Nat) (resp : List Word), status < 256 → resp.length ≤ 511 →
      let t := s.reply status resp
      t.host.own = false ∧ t.host.op = s.host.op ∧ t.host.tag = s.host.tag ∧ t.host.mbStatus = status ∧
        (t.host.mbHdr.extractLsb' 32 16).toNat = resp.length ∧
        (∀ i (hi : i < resp.length), t.host.param i = resp[i].toNat) ∧ (∀ i, resp.length ≤ i → t.host.param i = s.host.param i) ∧
        t.harts = s.harts ∧ t.cores = s.cores ∧ t.maps = s.maps ∧ t.ctxs = s.ctxs ∧ t.yardQs = s.yardQs ∧ t.farms = s.farms) ∧
    (∀ p ∈ [(Instr.ident, 0x01), (.openq, 0x02), (.closeq, 0x03), (.setevt, 0x05), (.setvec, 0x06), (.peerwin, 0x07),
        (.resync, 0x08), (.attest, 0x09), (.warm, 0x0A), (.cold, 0x0B), (.endhart, 0x0C), (.imgload, 0x0D), (.ctxload, 0x20),
        (.ctxunload, 0x21), (.lreq, 0x22), (.levict, 0x23), (.lpin, 0x24), (.lunpin, 0x25), (.ctxset, 0x26), (.migrate, 0x27),
        (.unmap, 0x28), (.swapcancel, 0x29)], ∀ s : State, s.host.own = true → s.host.accepted = false → s.host.op = p.2 → s.boot.hunikHalted = false →
      (s.host.badHeader = true → exec p.1 s = .next (s.reply 2 [])) ∧
      (s.host.badHeader = false → p.2 ≠ 0x01 → p.2 ≠ 0x09 → p.2 ≠ 0x0B → s.boot.st ≠ .ready →
        (p.2 = 0x0A ∨ p.2 = 0x0D → s.boot.st ≠ .failed) → exec p.1 s = .next (s.reply 3 []))) ∧
    (∀ s : State, s.host.own = true → s.boot.hunikHalted = false → s.host.badHeader = false →
      ¬((1 ≤ s.host.op ∧ s.host.op ≤ 0x0D) ∨ (0x20 ≤ s.host.op ∧ s.host.op ≤ 0x29)) →
        exec .mailboxUnknownOpcode s = .next (s.reply 1 []))) ∧
  (∀ s : State,
      let u := s.accepted
      let p0 := s.host.param 0
      let p1 := s.host.param 1
      let p2 := s.host.param 2
      let p3 := s.host.param 3
      let y := s.yardQ p0 p1
      (s.submitted 0x04 → p0 ≤ 3 → p1 ≤ 15 →
        (p2 = 0 → exec .qresetDropHead s = .next ((u.setYardQ p0 p1 ⟨y.packets.tail, false⟩).reply 0
          [if y.packets = [] then 0 else 1])) ∧
        (p2 = 1 → exec .qresetDropAll s = .next ((u.setYardQ p0 p1 ⟨[], false⟩).reply 0 [BitVec.ofNat 64 y.packets.length])) ∧
        (p2 = 2 → exec .qresetRetryHead s = .next ((u.setYardQ p0 p1 ⟨y.packets, false⟩).reply 0 [0]))) ∧
      (s.submitted 0x04 → (3 < p0 ∨ 15 < p1 ∨ 2 < p2) → 2 ≤ p2 → exec .qresetRetryHead s = .next (u.reply 2 [])) ∧
      (s.submitted 0x05 → 4 ≤ p1 → p1 ≤ 12 → exec .setevt s = .next (State.reply { u with host := { u.host with
        ring := some (p0, p1, p2), evCount := 0, evdrop := 0 } } 0 [])) ∧
      (s.submitted 0x05 → (p1 < 4 ∨ 12 < p1) → exec .setevt s = .next (u.reply 2 [])) ∧
      (s.submitted 0x06 → 1 ≤ p0 → p0 ≤ 10 → p1 ≤ 1 → p2 ≤ 63 → exec .setvec s = .next (State.reply { u with host := { u.host with
        vecs := Tab.set (0, 0) u.host.vecs p0 (p1, p2) } } 0 [])) ∧
      (s.submitted 0x06 → (1 < p1 ∨ 63 < p2) → exec .setvec s = .next (u.reply 2 [])) ∧
      (s.submitted 0x07 → p0 ≤ 7 → p3 ≤ 3 → p1 + p2 ≤ 3 * 2 ^ 41 → exec .peerwin s = .next (State.reply { u with host := { u.host with
        windows := u.host.windows ++ [⟨p0, p1, p2, p3.testBit 0, p3.testBit 1⟩] } } 0 [BitVec.ofNat 64 s.host.windows.length])) ∧
      (s.submitted 0x07 → 7 < p0 → exec .peerwin s = .next (u.reply 2 [])))

/-- IDENT, ATTEST, WARM, COLD, IMGLOAD, ENDHART and RESYNC (R346, R355, R356, R358-R360): IDENT answers the part, the
ordering code, the serial number of the image in use, both images' versions and the certificate; ATTEST answers a signed
report of the nonce, the four measurements, slot, start count, KIND and STATE. The order of these words, SHAKE256 as another
standard has it, and the keys and signatures of 1,793 and 1,280 bytes as free values, are the model's (log 18), as is where
an image holds its settings (log 11), where RESYNC holds its fields (log 20), and that its destination is a physical address
that no permission guards (log 43). WARM and COLD begin a start of their kind, cold too after the third warm failure.
IMGLOAD copies the bits at its source into the slot that is not in use, which the next start takes first, and answers their
measurement; an image is accepted by its signer's key and its signature. ENDHART ends a hart that depth 3 has halted, and
answers 2 for another, which is the model's choice (log 70); its transfers complete first. RESYNC writes its record where
there is room. -/
def Obligations.MailboxServices : Prop :=
  ∀ s : State,
    let u := s.accepted
    let words (m : BitVec 512) : List Word := (List.range 8).map (fun i => m.extractLsb' (64 * i) 64)
    let image := if s.boot.img = 1 then s.boot.slotB else s.boot.slotA
    (s.called 0x01 → exec .ident s = .next (u.reply 0
      ([Config.partNumber, Config.orderingCode, image.serial, s.boot.slotA.version, s.boot.slotB.version] ++ image.cert))) ∧
    (s.called 0x09 → s.boot.st ≠ .off →
      let m := s.boot.measured
      let r := (List.range 4).map (fun i => Tab.get 0 s.host.mbWords i) ++ words m.image ++ words m.firmware ++ words m.foreman ++
        words m.handler ++ [BitVec.ofNat 64 s.boot.img, BitVec.ofNat 64 s.boot.startNo, BitVec.ofNat 64 s.boot.kind,
                            BitVec.ofNat 64 s.boot.st.code]
      let signed := Config.identitySign (64 * r.length) (r.foldr (fun w n => w.toNat + n * 2 ^ 64) 0)
      exec .attest s = .next (u.reply 0 (r ++ (List.range 160).map (fun i => signed.extractLsb' (64 * i) 64)))) ∧
    (s.called 0x0A → (s.boot.st = .ready ∨ s.boot.st = .failed) → exec .warm s = .next (let t := u.reply 0 []
      { t with hbm := t.hbm.clean, boot := if 3 ≤ s.boot.wfail then { t.boot with st := .verify, kind := 1, initDone := false, hbmValid := false }
                       else { t.boot with st := .verify, kind := 2, initDone := false } })) ∧
    (s.called 0x0B → s.boot.st ≠ .off → exec .cold s = .next (let t := u.reply 0 []
      { t with boot := { t.boot with st := .verify, kind := 1, initDone := false, hbmValid := false } })) ∧
    (s.called 0x0D → (s.boot.st = .ready ∨ s.boot.st = .failed) →
      let a := s.host.param 1
      let n := s.host.param 2
      let coherent : Prop := a + n ≤ 3 * 2 ^ 41 ∨ (2 ^ 50 ≤ a ∧ a + n ≤ 2 ^ 51)
      (s.host.param 0 ≤ 1 → s.host.param 0 ≠ s.boot.img → coherent →
        let m := newImage n (s.homeRead a n)
        let k := Config.signerKey n (s.homeRead a n)
        exec .imgload s = .next (State.reply { u with boot := { s.boot with
            sel := s.host.param 0
            slotA := if s.host.param 0 = 0 then m else s.boot.slotA
            slotB := if s.host.param 0 = 1 then m else s.boot.slotB } } 0 (words (shake256 n (s.homeRead a n)))) ∧
          m.len = n ∧ m.bits = s.homeRead a n ∧
          (m.ok = true ↔
            (shake256 (8 * 1793) k.toNat = Config.signingKeys.1 ∨ shake256 (8 * 1793) k.toNat = Config.signingKeys.2) ∧
            Config.falconVerifies k (Config.signatureOf n (s.homeRead a n)) n (s.homeRead a n) = true)) ∧
      (1 < s.host.param 0 ∨ s.host.param 0 = s.boot.img ∨ ¬coherent → exec .imgload s = .next (u.reply 2 []))) ∧
    (s.submitted 0x0C →
      let h := s.host.param 0
      let x := s.hart h
      (h < 1536 → x.placed = true → x.halted = true → x.depth = 3 → s.xfersOf h = [] →
        ∃ t : State, exec .endhart s = .next (t.reply 0 []) ∧ t.hart h = Hart.vacant ∧ t.dev = (s.drain h).dev ∧
          t.hostMem = (s.drain h).hostMem ∧ (∀ g, g / 8 ≠ h / 8 → t.hart g = s.hart g)) ∧
      (h < 1536 → x.placed = true → x.halted = true → x.depth = 3 → s.xfersOf h ≠ [] →
        exec .endhart s = .next (u.setHart h { x with bolts := [], frames := [] })) ∧
      (1536 ≤ h ∨ x.placed = false ∨ x.halted = false ∨ x.depth ≠ 3 → exec .endhart s = .next (u.reply 2 []))) ∧
    (s.submitted 0x08 →
      let r := u.resyncRecord
      r.2 = 512 + 64 * 128 + 64 * 64 + 64 * 256 + 192 * 256 + min 256 s.swaps.length * 128 + 96 * 32 + 64 * 128 ∧
      (s.host.param 1 < r.2 → exec .resync s = .next (u.reply 2 [BitVec.ofNat 64 r.2])) ∧
      (r.2 ≤ s.host.param 1 → exec .resync s = .next ((u.homePut (s.host.param 0) r.2 r.1).reply 0 [BitVec.ofNat 64 r.2])))

/-- Host queues (R345, R347, R348, R350): OPENQ opens a queue from its descriptor with TAIL and HEAD 0, and refuses a
reserved bit, a broken alignment, a length outside 2^4 to 2^12, an open identifier, and a ring or control words outside
device memory and port 0's host memory; CLOSEQ reads TAIL and answers the final HEAD once HEAD has reached it; the foreman
reads TAIL when it has served all it last read, copies the next packet, launches it into the queue's yard queue, and
advances HEAD with its write, its acquires and releases being counted for sleeping groves (R382); then another queue of its
die has the turn. Where the yard queue is full the copy waits, and the entry is not read again; a queue without the turn is
not served, and no two queues of a die have it unless both hold copies (log 119). The foreman is a device unit here and its
firmware is not run (R9, log 79), the addresses of rings and control words are physical (log 43), and where INFO of a
rejection holds kind, HQID and count is the model's choice (log 31). -/
def Obligations.HostQueues : Prop :=
  (∀ s : State, s.submitted 0x02 →
    let u := s.accepted
    let d := (List.range 8).foldl (fun n i => n + s.host.param i * 2 ^ (64 * i)) 0
    let base := d / 2 ^ 448 % 2 ^ 64
    let ctrl := d / 2 ^ 384 % 2 ^ 64
    let lg := d / 2 ^ 13 % 16
    let id := d / 2 ^ 26 % 64
    let inside (a n : Nat) : Prop := a + n ≤ 3 * 2 ^ 41 ∨ (2 ^ 50 ≤ a ∧ a + n ≤ 2 ^ 51)
    let good : Prop := d / 2 ^ 32 % 2 ^ 304 = 0 ∧ d % 2 ^ 13 = 0 ∧ base % 1024 = 0 ∧ ctrl % 128 = 0 ∧ 4 ≤ lg ∧ lg ≤ 12 ∧
      inside base (1024 * 2 ^ lg) ∧ inside ctrl 128 ∧ ∀ q ∈ s.host.queues, q.hqid ≠ id
    (¬good → exec .openq s = .next (u.reply 2 [])) ∧
    (good →
      let v := (u.homePut ctrl 64 0).homePut (ctrl + 64) 64 0
      exec .openq s = .next (State.reply { v with host := { v.host with queues := v.host.queues ++
        [{ hqid := id, die := d / 2 ^ 24 % 4, yq := d / 2 ^ 20 % 16, base := base, ctrl := ctrl,
           ctx := (List.range 4).map (fun i => d / 2 ^ (336 + 12 * i) % 2 ^ 12), maxPrio := d / 2 ^ 17 % 8, log2n := lg, head := 0,
           tail := 0, copy := none, closing := none }] } } 0 []))) ∧
  (∀ s : State, s.submitted 0x03 →
    (s.hostQ (s.host.param 0) = none → exec .closeq s = .next (s.accepted.reply 2 [])) ∧
    ∀ q, s.hostQ (s.host.param 0) = some q → q.closing = none →
      exec .closeq s = .next (s.accepted.setHostQ { q with closing := some (s.homeRead q.ctrl 64) })) ∧
  (∀ (s : State) (hq : Nat) (q : HostQ), s.hostQ hq = some q →
    let a := q.base + q.head % 2 ^ q.log2n * 1024
    let t := if q.tail = q.head then (match q.closing with
      | some t => t
      | none => s.homeRead q.ctrl 64) else q.tail
    let s0 := if q.tail = q.head then s.countScoped else s
    let q0 : HostQ := { q with tail := t }
    let e := s.homeRead a 1024
    let p := e / 2 ^ 148 * 2 ^ 148 + q.yq * 2 ^ 144 + e % 2 ^ 144
    let y := s.yardQ q.die q.yq
    let passed (q0 : HostQ) (u : State) : State :=
      let v := (u.homePut (q.ctrl + 64) 64 ((q.head + 1) % 2 ^ 64)).countScoped.setHostQ
        { q0 with head := (q.head + 1) % 2 ^ 64, copy := none }
      { v with host := { v.host with turn := Tab.set 0 v.host.turn q.die ((q.hqid + 1) % 64) } }
    let rejected (r : HostQ) (u : State) (p kind cause : Nat) : State := passed r (u.posted
      { cls := 4, cause := cause, hart := 384 * q.die + 7, mctx := pktMctx p, addr := BitVec.ofNat 64 a, data := [],
        info := BitVec.ofNat 64 (kind * 2 ^ 56 + q.hqid * 2 ^ 48 + q.head % 2 ^ 32) })
    let refused : Nat → Nat → State := rejected q0 s0 p
    let known : Prop := pktMctx p = 0 ∨ pktMctx p ∈ q.ctx
    (q.closing = some q.head → (s.host.own = true → s.host.op = 0x03 → exec (.closeqComplete hq) s =
        .next (State.reply { s with host := { s.host with queues := s.host.queues.filter (fun y => !(decide (y.hqid = hq))) } }
          0 [BitVec.ofNat 64 q.head]))) ∧
    ((t = q.head ∧ q.copy = none) ∨ s.hasTurn q = false → exec (.foremanQueueService hq) s = .next s) ∧
    (∀ q1 ∈ s.host.queues, q1.die = q.die → q1.hqid < 64 → q.hqid < 64 → Tab.get 0 s.host.turn q.die < 64 → s.hasTurn q = true → s.hasTurn q1 = true →
      (q1.copy = none ∨ q.copy = none) → q1.hqid = q.hqid) ∧
    (∀ c, q.copy = some c → s.hasTurn q = true →
      (∀ k, s.packetCause c = some k → exec (.foremanQueueService hq) s = .next (rejected q s c 0 k)) ∧
      (s.packetCause c = none → y.packets.length < 64 → exec (.foremanQueueService hq) s = .next (passed q (s.countScoped.setYardQ
        q.die q.yq { y with packets := y.packets ++ [⟨BitVec.ofNat 1024 c, a, s.asidOf (pktMctx c)⟩] }))) ∧
      (s.packetCause c = none → 64 ≤ y.packets.length → exec (.foremanQueueService hq) s = .next (s.setHostQ q))) ∧
    (t ≠ q.head → q.copy = none → s.hasTurn q = true →
      (¬known → exec (.foremanQueueService hq) s = .next (refused 0 238)) ∧
      (known → q.maxPrio < pktPrio p → exec (.foremanQueueService hq) s = .next (refused 1 0)) ∧
      (known → pktPrio p ≤ q.maxPrio → 2 ^ q.log2n < ((t : Int) - q.head) % 2 ^ 64 →
        exec (.foremanQueueService hq) s = .next (refused 2 0)) ∧
      (known → pktPrio p ≤ q.maxPrio → ((t : Int) - q.head) % 2 ^ 64 ≤ 2 ^ q.log2n →
        (∀ c, s.packetCause p = some c → exec (.foremanQueueService hq) s = .next (refused 0 c)) ∧
        (s.packetCause p = none → y.packets.length < 64 → exec (.foremanQueueService hq) s = .next (passed q0
          (s0.countScoped.setYardQ q.die q.yq
            { y with packets := y.packets ++ [⟨BitVec.ofNat 1024 p, a, s.asidOf (pktMctx p)⟩] }))) ∧
        (s.packetCause p = none → 64 ≤ y.packets.length →
          exec (.foremanQueueService hq) s = .next (s0.setHostQ { q0 with copy := some p })))))

/-- CTXLOAD, CTXUNLOAD and CTXSET (R361, R364): a descriptor at an aligned address in device memory, with no reserved bit,
no broken alignment and no value outside its range, of an identifier that is not resident, becomes a resident context, of 64
at most; another is refused with 2, and a 65th with 5. A context in use is not unloaded (3); another leaves with its layers,
and one whose layers are all ABSENT frees no page. CTXSET replaces priority, mode and quota. LREQ, LEVICT, LPIN, LUNPIN and
SWAPCANCEL (R364, R368, R369): LREQ requests each layer of its range; LEVICT begins to evict a RESIDENT layer without pins,
revoking the tokens of its address space over its pages where no page of it migrates, has an ARRIVING one leave once it is
RESIDENT, and is denied (4) for a pinned one; LPIN and LUNPIN count pins up to 15 and down to 0; SWAPCANCEL fails an
ARRIVING layer with reason 3 and refuses another (3). A layer the context does not have, or another context, answers 2. -/
def Obligations.ContextAndLayerCommands : Prop :=
  (∀ s : State,
      let u := s.accepted
      let p (i : Nat) : Nat := s.host.param i
      let d := s.homeRead (p 0) 512
      let f (lo w : Nat) : Nat := d / 2 ^ lo % 2 ^ w
      let good : Prop := f 64 188 = 0 ∧ f 36 4 = 0 ∧ f 29 3 = 0 ∧ f 12 4 = 0 ∧ f 448 64 % 64 = 0 ∧ f 384 64 % 128 = 0 ∧
        f 320 64 % 512 = 0 ∧ f 320 64 + f 280 40 ≤ 3 * 2 ^ 41 ∧ f 40 2 ≠ 3 ∧ 1 ≤ f 16 13 ∧ f 16 13 ≤ 4096 ∧ f 0 12 ≠ 0 ∧
        s.ctx (f 0 12) = none
      (s.submitted 0x20 → p 0 % 64 = 0 → p 0 + 512 ≤ 3 * 2 ^ 41 →
        (¬good → exec .ctxload s = .next (u.reply 2 [])) ∧
        (good → 64 ≤ s.ctxs.length → exec .ctxload s = .next (u.reply 5 [])) ∧
        (good → s.ctxs.length < 64 → exec .ctxload s = .next (State.reply { u with ctxs := s.ctxs ++
          [{ mctx := f 0 12, lrt := f 448 64, src := f 384 64, saveBase := f 320 64, saveLen := f 280 40, quota := f 252 28,
             asid := f 48 16, hq := f 42 6, recheck := f 40 2, eprio := f 32 4, nlayer := f 16 13, unchecked := 0,
             lastLwait := none, areas := [] }] } 0 []))) ∧
      (s.submitted 0x20 → (p 0 % 64 ≠ 0 ∨ 3 * 2 ^ 41 < p 0 + 512) → exec .ctxload s = .next (u.reply 2 [])) ∧
      (∀ c, s.submitted 0x21 → s.ctx (p 0) = some c →
        (s.ctxInUse (p 0) = true → exec .ctxunload s = .next (u.reply 3 [])) ∧
        (s.ctxInUse (p 0) = false → ∃ (t : State) (n : Word), exec .ctxunload s = .next (t.reply 0 [n]) ∧
          t.ctxs = s.ctxs.filter (fun k => !(decide (k.mctx = p 0))) ∧
          ((∀ l < c.nlayer, s.lrtEntry c l % 4 = 0) → n = 0 ∧ t.dev = s.dev ∧ t.hostMem = s.hostMem ∧ t.harts = s.harts ∧
            t.maps = s.maps))) ∧
      (∀ c, s.submitted 0x26 → s.ctx (p 0) = some c →
        (p 1 ≤ 15 → p 2 ≤ 2 → p 3 < 2 ^ 28 → exec .ctxset s = .next (State.reply { u with ctxs := s.ctxs.map (fun (k : Ctx) =>
          if k.mctx = c.mctx then { k with eprio := p 1, recheck := p 2, quota := p 3 } else k) } 0 [])) ∧
        (15 < p 1 ∨ 2 < p 2 ∨ 2 ^ 28 ≤ p 3 → exec .ctxset s = .next (u.reply 2 []))) ∧
      (s.ctx (p 0) = none → (s.submitted 0x21 → exec .ctxunload s = .next (u.reply 2 [])) ∧
        (s.submitted 0x26 → exec .ctxset s = .next (u.reply 2 [])))) ∧
  (∀ (s : State) (c : Ctx),
      let u := s.accepted
      let l := s.host.param 1
      let e := s.lrtEntry c l
      let pins := e / 4 % 16
      s.ctx (s.host.param 0) = some c →
      (s.submitted 0x22 → l + s.host.param 2 ≤ c.nlayer → exec .lreq s = .next
        (((List.range (s.host.param 2)).foldl (fun (t : State) i => t.requestLayer c.mctx (l + i)) u).reply 0 [])) ∧
      (s.submitted 0x22 → c.nlayer < l + s.host.param 2 → exec .lreq s = .next (u.reply 2 [])) ∧
      (∀ p ∈ [(Instr.levict, 0x23), (.lpin, 0x24), (.lunpin, 0x25), (.swapcancel, 0x29)],
        s.submitted p.2 → c.nlayer ≤ l → exec p.1 s = .next (u.reply 2 [])) ∧
      (l < c.nlayer →
        (s.submitted 0x23 → (pins ≠ 0 → exec .levict s = .next (u.reply 4 [])) ∧
          (pins = 0 → e % 4 = 2 → exec .levict s = .next
            (let v0 := u.setEntry c l (e - e % 4 + 3)
             let v := if s.migrating c.asid (entRegion e) (entPages e * 2 ^ 19) then v0
               else v0.revoke c.asid (entRegion e) (entPages e * 2 ^ 19) (.evicted c.mctx l)
             State.reply { v with swaps := v.swaps ++ [⟨c.mctx, l, .evicting, [], s.cycle, false, 0, false⟩] } 0 [])) ∧
          (∀ w, pins = 0 → e % 4 = 1 → s.swapOf c.mctx l = some w →
            exec .levict s = .next ((u.setSwap { w with evict := true }).reply 0 [])) ∧
          (pins = 0 → (e % 4 = 0 ∨ e % 4 = 3) → exec .levict s = .next (u.reply 0 []))) ∧
        (s.submitted 0x24 → (pins = 15 → exec .lpin s = .next (u.reply 4 [])) ∧
          (pins < 15 → exec .lpin s = .next ((u.setEntry c l (e + 4)).reply 0 [BitVec.ofNat 64 (pins + 1)]))) ∧
        (s.submitted 0x25 → (pins = 0 → exec .lunpin s = .next (u.reply 2 [])) ∧
          (0 < pins → exec .lunpin s = .next ((u.setEntry c l (e - 4)).reply 0 [BitVec.ofNat 64 (pins - 1)]))) ∧
        (s.submitted 0x29 → (e % 4 = 1 → exec .swapcancel s =
            .next ((u.failLayerWith c l (280 + 4 * s.layerSource c l + 3)).reply 0 [])) ∧
          (e % 4 ≠ 1 → exec .swapcancel s = .next (u.reply 3 [])))))

/-- MIGRATE and UNMAP (R125, R128, R129, R364, R370, R371): with no other in progress, MIGRATE of a mapped device page to an
aligned, unused range of its size blocks the page and revokes the tokens over its mappings. Its completion performs what is
past its check, revokes the tokens probed since, copies the page, names the new page in every mapping, and lets the accesses
that waited go on, in their order; once they have, the command answers. UNMAP of whole pages outside every layer revokes the
tokens over the range; its completion revokes those probed since, removes the mappings, answers how many, and leaves the
rest. A second one waits. That the answer comes at the completion, with OWN set until then, is the model's reading (log 32),
and that a moved page's event names the layer it lies in too (log 31); and so is that the accesses that waited run before
every other pending one (log 106). -/
def Obligations.PageMoves : Prop :=
  (∀ s : State, s.submitted 0x27 →
    let u := s.accepted
    let pa := s.host.param 0
    let new := s.host.param 1
    (s.migs ≠ [] → exec .migrate s = .next u) ∧
    (s.migs = [] → s.mapsOf pa = [] → exec .migrate s = .next (u.reply 2 [])) ∧
    (∀ m ms, s.migs = [] → s.mapsOf pa = m :: ms →
      let good : Prop := new % 2 ^ m.sz = 0 ∧ s.physInUse new (2 ^ m.sz) = false ∧ new + 2 ^ m.sz ≤ 3 * 2 ^ 41 ∧ pa < 3 * 2 ^ 41
      (good → exec .migrate s = .next
        (let v := (m :: ms).foldl (fun (s : State) m => s.revoke m.asid m.va (2 ^ m.sz) .unmapped) u
         { v with migs := [⟨s.nextUid, false, 0, 0, 0, pa, new, m.sz, false, []⟩], nextUid := s.nextUid + 1 })) ∧
      (¬good → exec .migrate s = .next (u.reply 2 [])))) ∧
  (∀ (s : State) (pa : Nat) (g : Mig), s.migs.find? (fun m => !m.unmap && decide (m.pa = pa)) = some g →
    let others := s.migs.filter (fun m => !(decide (m.id = g.id)))
    let page := 2 ^ g.sz
    (pa % page = 0 → g.newPa % page = 0 → g.newPa ≠ pa → pa + page ≤ 3 * 2 ^ 41 → g.newPa + page ≤ 3 * 2 ^ 41 → g.moved = false →
      ∃ t u : State, exec (.migrateComplete pa) s = .next t ∧
        u.maps = s.maps.map (fun (m : Mapping) => if m.tabled = true ∧ m.pa = pa then { m with pa := g.newPa } else m) ∧
        u.agenda = g.queue ++ s.agenda ∧
        (∀ i < page, u.homeRead (g.newPa + i) 1 = (s.drainAll.flushPage pa g.sz).homeRead (pa + i) 1) ∧
        (∀ h, (u.hart h).regs = (s.drainAll.hart h).regs ∧ (u.hart h).pc = (s.hart h).pc ∧ ∀ va cls,
          (u.hart h).wait.map (fun r => r.kind) ≠ some (.page va cls) ∧ (u.hart h).vwait.map (fun r => r.kind) ≠ some (.page va cls)) ∧
        (∀ m ∈ s.mapsOf pa, ∀ h k, (s.hart h).asid = m.asid → ((u.hart h).tok k).st = .live →
          ((u.hart h).tok k).base + ((u.hart h).tok k).ext ≤ m.va ∨ m.va + 2 ^ m.sz ≤ ((u.hart h).tok k).base) ∧
        (g.queue ≠ [] → t = u ∧ u.migs = s.migs.map (fun (m : Mig) => if m.id = g.id then { m with moved := true } else m)) ∧
        (g.queue = [] → s.host.own = true → s.host.op = 0x27 → u.migs = others ∧ t = (u.posted (u.migrateEvent g)).reply 0 [])) ∧
    (g.moved = true → g.queue ≠ [] → exec (.migrateComplete pa) s =
      .next (if s.agenda.any g.queue.contains then s else { s with agenda := g.queue ++ s.agenda })) ∧
    (g.moved = true → g.queue = [] → s.host.own = true → s.host.op = 0x27 →
      let u : State := { s with migs := others }
      exec (.migrateComplete pa) s = .next ((u.posted (u.migrateEvent g)).reply 0 [])) ∧
    (let at_ := (s.mapsOf g.newPa).head?.bind (fun m => s.layerAt m.asid m.va)
     let event (m l : Nat) (data : List Word) : Event :=
       { cls := 8, cause := 0, hart := 0, mctx := m, info := BitVec.ofNat 64 (4 * 2 ^ 56 + l % 4096), addr := BitVec.ofNat 64 g.pa,
         data := data }
     (at_ = none → s.migrateEvent g = event 0 0 [0, 0, BitVec.ofNat 64 page, 0]) ∧
     (∀ c l, at_ = some (c, l) → s.migrateEvent g = event c.mctx l [BitVec.ofNat 64 (s.lrtEntry c l),
       BitVec.ofNat 64 (s.layerSource c l), BitVec.ofNat 64 page, 0]))) ∧
  (∀ s : State, s.submitted 0x28 →
    let u := s.accepted
    let asid := s.host.param 0
    let va := s.host.param 1
    let n := s.host.param 2
    (s.migs ≠ [] → exec .unmap s = .next u) ∧
    (s.migs = [] → s.partlyCovered asid va n = true → exec .unmap s = .next (u.reply 2 [])) ∧
    (s.migs = [] → s.partlyCovered asid va n = false → s.meetsLayer asid va n = true → exec .unmap s = .next (u.reply 4 [])) ∧
    (s.migs = [] → s.partlyCovered asid va n = false → s.meetsLayer asid va n = false → exec .unmap s = .next
      { u.revoke asid va n .unmapped with
        migs := [⟨s.nextUid, true, asid, va, n, 0, 0, 0, false, []⟩], nextUid := s.nextUid + 1 })) ∧
  (∀ (s : State) (x : Nat) (g : Mig), s.migs.find? (fun m => m.unmap && decide (m.id = x)) = some g → s.host.own = true → s.host.op = 0x28 →
    let out (m : Mapping) : Bool := decide (m.asid = g.asid) && decide (g.va ≤ m.va) && decide (m.va < g.va + g.ext)
    let u := s.drainAll.revoke g.asid g.va g.ext .unmapped
    exec (.unmapComplete x) s = .next ((State.posted { u with maps := s.maps.filter (fun m => !(out m)), migs := s.migs.filter (fun m =>
        !(decide (m.id = x))) }
      { cls := 8, cause := 0, hart := 0, mctx := 0, info := BitVec.ofNat 64 (4 * 2 ^ 56), addr := BitVec.ofNat 64 g.va,
        data := [0, 0, 0, 0] }).reply 0 [BitVec.ofNat 64 (s.maps.filter out).length])) ∧
  (∀ (s : State) (asid lo n h k : Nat) (st : TokState),
    ((s.revoke asid lo n st).hart h).tok k =
      let t := (s.hart h).tok k
      if (s.hart h).asid = asid ∧ t.st = .live ∧ t.base < lo + n ∧ lo < t.base + t.ext then { t with st := st } else t)

/-- The pins, power and scan (R354-R357, R384): power good with PERST# deasserted begins a cold start from OFF. PERST#
begins a warm start from READY and FAILED, cold after the third warm failure (from FAILED the model's choice, log 68),
abandons a start, whose successor is warm where HBM holds valid contents, and takes a frozen device that is not OFF to a
cold start. A loss of power and a thermal trip leave OFF with memory and arrays lost. FREEZE stops the clocks and takes the
ports down, and its end starts nothing. Scan of a frozen device reads its state and writes none of it; how a place is
numbered is the model's choice (log 61). -/
def Obligations.PowerAndScan : Prop :=
  ∀ s : State,
    let b := s.boot
    let start (b : Boot) (kind : Nat) (valid : Bool) : Boot := { b with st := .verify, kind := kind, initDone := false, hbmValid := valid }
    exec .powerGood s = .next { s with boot := if b.st = .off ∧ b.perst = false ∧ b.frozen = false then start { b with powerGood := true } 1 false
      else { b with powerGood := true } } ∧
    exec .perstDeassert s = .next { s with boot := if b.st = .off ∧ b.powerGood = true then start { b with perst := false, frozen := false } 1 false
      else { b with perst := false } } ∧
    (b.frozen = true → b.st ≠ .off →
      exec .perstAssert s = .next { s with boot := start { b with perst := true, frozen := false } 1 false }) ∧
    (b.st = .off → exec .perstAssert s = .next { s with boot := { b with perst := true } }) ∧
    (b.frozen = false → (b.st = .ready ∨ b.st = .failed) →
      exec .perstAssert s = .next { s with
        hbm := s.hbm.clean
        boot := if 3 ≤ b.wfail then start { b with perst := true } 1 false else start { b with perst := true } 2 b.hbmValid }) ∧
    (b.frozen = false → b.st.starting = true → exec .perstAssert s = .next { s with
      boot := if b.kind = 2 ∨ b.hbmValid = true then start { b with perst := true } 2 b.hbmValid
        else start { b with perst := true } 1 false }) ∧
    (∀ i ∈ [Instr.powerLoss, .thermalTrip], ∃ t, exec i s = .next t ∧ t.boot.st = .off ∧ t.boot.powerGood = false ∧
      t.boot.hbmValid = false ∧ t.boot.frozen = false ∧ t.boot.slotA = b.slotA ∧ t.boot.slotB = b.slotB ∧ t.dev = [] ∧
      t.hbm = ⟨[], []⟩ ∧ t.harts = [] ∧
      t.cores = [] ∧ t.groves = [] ∧ t.maps = [] ∧ t.yardQs = [] ∧ t.farms = [] ∧ t.ctxs = [] ∧ t.xfers = [] ∧ t.saved = [] ∧
      t.host.queues = [] ∧ t.host.mbHdr = 0 ∧ t.host.w2base = 0 ∧ t.hostMem = s.hostMem) ∧
    exec .freeze s = .next { s with boot := { b with frozen := true }, host := { s.host with portDown := 3 } } ∧
    exec .freezeDeassert s = .next s ∧
    (∀ what key, b.frozen = false → exec (.scanReadout what key) s = .next s) ∧
    (∀ key, b.frozen = true → ∀ p ∈ [(ScanSel.devByte, (Memory.byte s.dev key).toNat),
        (.scalar, ((s.hart (key / 32)).reg (BitVec.ofNat 5 key)).toNat), (.hartPc, (s.hart key).pc.toNat),
        (.accRow, (Tab.get 0 (s.core (key / 2 ^ 18)).acc (key % 2 ^ 18)).toNat),
        (.scratchByte, (Memory.byte (s.core (key / 2 ^ 21)).scratch (key % 2 ^ 21)).toNat),
        (.generator, (Tab.get 0 (s.core (key / 64)).gens (key % 64)).toNat),
        (.element, (Tab.get 0 (s.hart (key / 2 ^ 26)).vregs (key % 2 ^ 26)).toNat),
        (.soft, (Tab.get 0 (s.hart (key / 2 ^ 23)).qcodes (key % 2 ^ 23)).toNat),
        (.lineage, (Tab.get 0 (s.hart (key / 8)).qlin (key % 8)).toNat),
        (.scale, if (s.hart (key / 2048)).placed then (Tab.get 0x7F (s.hart (key / 2048)).sf (key % 2048)).toNat else 0),
        (.vcfgTag, ((s.hart (key / 64)).cfg.tags.getD (key % 64) 0).toNat),
        (.vector, (Tab.get (0, 0) s.host.vecs key).1 + 2 ^ 64 * (Tab.get (0, 0) s.host.vecs key).2),
        (.pba, (Tab.get 0 s.host.pba key).toNat), (.msix, (Tab.get 0 s.host.msix key).toNat),
        (.errorCount, Tab.get 0 s.rel.errCount key),
        (.hostWord, s.host.words.getD key 0), (.powerWord, s.rel.words.getD key 0), (.startWord, s.boot.words.getD key 0),
        (.boltWord, (((s.hart (key / 2 ^ 18)).boltList[key / 2 ^ 12 % 64]?).map Bolt.scanWords).getD [] |>.getD (key % 2 ^ 12) 0),
        (.counter, Tab.get 0 (s.hart (key / 8)).ctrs (key % 8)),
        (.lots, (s.core key).lanepart.toNat + 2 ^ 64 * (s.core key).lotmap.toNat),
        (.tileCode, (Tab.get 0 ((s.core (key / 2 ^ 17)).tile (key / 2 ^ 16 % 2)).w (key % 2 ^ 16)).toNat),
        (.lineData, (s.line (key / 2 ^ 40) (key % 2 ^ 40)).data.toNat),
        (.lineStamp, (s.line (key / 2 ^ 40) (key % 2 ^ 40)).stamp.toNat),
        (.generation, (s.grove key).gen.toNat), (.hstat, s.hstat.toNat),
        (.slotWord, if key = 0 then s.host.mbHdr.toNat else (Tab.get 0 s.host.mbWords (key - 1)).toNat)],
      exec (.scanReadout p.1 key) s = .next { s with host := { s.host with out := p.2, how := .ok } })

/-- A start (R354-R356, R359, R360): VERIFY uses the selected image, or the other where it does not verify, measures it,
trains the ports and goes to TRAIN or, warm, to RESTORE; these go to INIT; INIT zeroes the arrays, device memory included in
a cold start, and then the firmware images, which have to verify, are measured and READY is posted, with WFAIL cleared;
where no ring stands the event is counted in EVDROP, which is the model's reading (log 22). That VERIFY raises the start
count is the model's choice (log 66), as are the clock that an image's points name (log 114) and SHAKE256 as another
standard has it (log 18). A failure sets LASTFAIL: a cold start ends in FAILED, and a warm one counts in WFAIL, up to 3, the
third making the next start cold. PERST# holds a start, and a halted controller a warm one, in the model's reading (log 69).
-/
def Obligations.StartUp : Prop :=
  ∀ s : State,
    let b := s.boot
    let image (i : Nat) : Image := if i = 1 then b.slotB else b.slotA
    let failsAs (given c : Nat) : Prop := ∃ t, exec (.start given) s = .next t ∧ t.boot.lastFail = c ∧
      (b.kind ≠ 2 → t.boot.st = .failed ∧ t.boot.wfail = b.wfail) ∧
      (b.kind = 2 → t.boot.st = .verify ∧ t.boot.wfail = min 3 (b.wfail + 1) ∧ t.boot.kind = if 3 ≤ b.wfail + 1 then 1 else 2)
    let fails (c : Nat) : Prop := failsAs c c
    (b.perst = true ∨ (b.hunikHalted = true ∧ b.kind = 2) → ∀ c, exec (.start c) s = .next s) ∧
    (b.perst = false → b.hunikHalted = false ∨ b.kind = 1 →
      (b.st = .verify → ∀ i, i = (if (image b.sel).ok then b.sel else 1 - b.sel) → (image i).ok = true →
        exec (.start 0) s = .next { s with
          host := { s.host with portDown := 0 }
          rel := { s.rel with
            dieDown := []
            mhz := if (image i).voltFreq = [] then 1050 else 600 + 50 * (Config.clockOf (image i).voltFreq % 10) }
          boot := { b with st := if b.kind = 2 then .restore else .train, bootAt := s.time, startNo := b.startNo + 1,
                           port1Up := true, hunikHalted := false, img := i, sel := i,
                           measured := { b.measured with image := shake256 (image i).len (image i).bits } } }) ∧
      (b.st = .verify → (image b.sel).ok = false → (image (1 - b.sel)).ok = false → fails 1) ∧
      (b.st = .train ∨ b.st = .restore → exec (.start 0) s = .next { s with boot :=
        { b with st := .init, hbmValid := decide (b.kind = 2) } }) ∧
      (b.st = .train ∨ b.st = .restore → ∀ c, 0x10 ≤ c → c ≤ 0x1B → fails c) ∧
      (b.st = .init → b.initDone = false → fails 0x20 ∧ ∃ t, exec (.start 0) s = .next t ∧ t.boot.st = .init ∧
        t.boot.initDone = true ∧ t.boot.hbmValid = true ∧ t.dev = (if b.kind = 2 then s.dev else []) ∧
        t.hbm = (if b.kind = 2 then s.hbm else ⟨[], []⟩) ∧ t.harts = [] ∧ t.cores = [] ∧
        t.groves = [] ∧ t.maps = [] ∧ t.yardQs = [] ∧ t.farms = [] ∧ t.ctxs = [] ∧ t.xfers = [] ∧ t.saved = [] ∧
        t.host.queues = [] ∧ t.hostMem = s.hostMem) ∧
      (b.st = .init → b.initDone = true → (b.firmware.ok && b.foreman.ok && b.handler.ok) = false → failsAs 0 0x30) ∧
      (b.st = .init → b.initDone = true → (b.firmware.ok && b.foreman.ok && b.handler.ok) = true →
        fails 0x30 ∧ ∃ t, exec (.start 0) s = .next t ∧ t.boot.st = .ready ∧ t.boot.wfail = 0 ∧
        t.boot.measured.image = b.measured.image ∧
        [t.boot.measured.firmware, t.boot.measured.foreman, t.boot.measured.handler] =
          [b.firmware, b.foreman, b.handler].map (fun m => shake256 m.len m.bits) ∧
        t.harts = s.harts ∧ t.maps = s.maps ∧ (s.host.ring = none → t.dev = s.dev ∧ t.host.evdrop = min 255 (s.host.evdrop + 1)) ∧
        ∀ lv < 5, Tab.get 0 t.rel.scrub lv = (image b.img).scrub.getD lv 0))

/-- Accesses of the host (R102, R103, R113, R337, R340-R345, R354): BAR 0 takes W2BASE, the command slot and the MSI-X
table, ignores what is read-only or not listed, and refuses other widths; it reads HSTAT, W2BASE, the slot, the MSI-X table
and its pending bits, and zero elsewhere; BAR 2 and the managed device memory read, write and update bytes of device memory
at the home in READY, a byte beyond device memory reads 0xFF, and an access the ports do not complete is unsupported; a
configuration request is answered once the port has trained. No structure holds an error. That managed device memory is
refused outside READY is the model's choice, as is the fault that an access outside device memory finds there (log 75) and
that an AtomicOp beyond it is unsupported (log 76). An access at a page that migrates is queued there, without a limit of
time (log 120), and performed at the new home once the page has moved (R129). Accesses of peers (R200, R346, R363): in
READY, over a link that is up, a write that a window of the link covers and allows is written at its place in the window,
and a reduction combines by its operation; a read answers the bits; a write, a read or a reduction that no window allows is
refused, as is a reduction by another operation or tag. That the first window that covers and allows an access decides is
the model's (log 30). A link that is down carries nothing. -/
def Obligations.HostAndPeerAccesses : Prop :=
  ((∀ (s : State) (port val : Nat), s.linkUp port = true →
      let x := s.host
      exec (.hostBar0Write port 0x10 8 val) s = .next { s with host := { x with w2base := BitVec.ofNat 64 val &&& 0xFFC0000000, out := 0, how := .ok } } ∧
      (∀ off ∈ [0x0, 0x9000],
        exec (.hostBar0Write port off 8 val) s = .next { s with host := { x with out := 0, how := .ok } }) ∧
      (∀ off size, (8 ≤ off ∧ off < 0x10) ∨ (0x2000 ≤ off ∧ off < 0x8000) →
        exec (.hostBar0Write port off size val) s = .next { s with host := { x with out := 0, how := .ok } }) ∧
      (∀ off size, 0x1000 ≤ off → off < 0x2000 → (size ≠ 8 ∨ off % 8 ≠ 0) →
        exec (.hostBar0Write port off size val) s = .next { s with host := { x with out := 0, how := .unsupported } }) ∧
      (x.own = false → exec (.hostBar0Write port 0x1000 8 val) s = .next { s with host := { x with
        mbHdr := (BitVec.ofNat 64 val &&& 0xFF00FFFFFFFFFFFF) ||| (x.mbHdr &&& 0x00FF000000000000), out := 0, how := .ok } }) ∧
      (∀ i < 511, x.own = false → exec (.hostBar0Write port (0x1008 + 8 * i) 8 val) s = .next { s with host := { x with
        mbWords := Tab.set 0 x.mbWords i (BitVec.ofNat 64 val), out := 0, how := .ok } }) ∧
      (∀ i < 512, x.own = true → exec (.hostBar0Write port (0x1000 + 8 * i) 8 val) s = .next { s with host := { x with
        mbovr := true, out := 0, how := .ok } }) ∧
      (∀ i < 128, (Tab.get 0 x.pba port).getLsbD (i / 2) = false → exec (.hostBar0Write port (0x8000 + 8 * i) 8 val) s = .next { s with
        host := { x with msix := Tab.set 0 x.msix (128 * port + i) (BitVec.ofNat 64 val), out := 0, how := .ok } }) ∧
      (∀ off size,
        let answers (size v : Nat) : Prop := s.bar0Read port off size = { s with host := { x with out := v, how := .ok } }
        (off = 0 → answers 8 s.hstat.toNat) ∧ (off = 0x10 → answers 8 x.w2base.toNat) ∧ (off = 0x1000 → answers 8 x.mbHdr.toNat) ∧
        (∀ i < 511, off = 0x1008 + 8 * i → answers 8 (Tab.get 0 x.mbWords i).toNat) ∧
        (∀ i < 128, off = 0x8000 + 8 * i → answers 8 (Tab.get 0 x.msix (128 * port + i)).toNat ∧
          answers 4 ((Tab.get 0 x.msix (128 * port + i)).toNat % 2 ^ 32)) ∧
        (off = 0x9000 → answers 8 (Tab.get 0 x.pba port).toNat) ∧
        ((8 ≤ off ∧ off < 0x10) ∨ (0x2000 ≤ off ∧ off < 0x8000) → answers size 0) ∧
        (0x1000 ≤ off → off < 0x2000 → (size ≠ 8 ∨ off % 8 ≠ 0) →
          s.bar0Read port off size = { s with host := { x with out := 0, how := .unsupported } })) ∧
      (∀ en, exec (.configurationRequest port en) s = .next { s with host := { x with
        out := Config.configSpace port
        how := .ok
        atomicEn := match en with
          | some v => if port = 1 then v else x.atomicEn
          | none => x.atomicEn } })) ∧
    (∀ (s : State) (port off size val : Nat) (en : Option Bool), s.linkUp port = false →
      exec (.hostBar0Write port off size val) s = .next s ∧
      exec (.configurationRequest port en) s = .next { s with host := { s.host with out := 0, how := .retry } }) ∧
    (∀ (s : State) (byte size cmp val : Nat) (kind : AtomKind), s.clean → s.migs = [] →
      let k := s.host.w2base.toNat / 2 ^ 30 % 2 ^ 10 / 2 ^ s.host.barLog * 2 ^ s.host.barLog * 2 ^ 30 + byte
      let read (k : Nat) (r : Host.Outcome State Fault Refusal) : Prop :=
        ∃ b, r = .next { s with hbm := b, host := { s.host with out := Memory.read s.dev (8 * k) (8 * size), how := .ok } }
      let wrote (k v out : Nat) (r : Host.Outcome State Fault Refusal) : Prop :=
        ∃ t, r = .next t ∧ Memory.read t.dev (8 * k) (8 * size) = v % 2 ^ (8 * size) ∧ t.host.out = out ∧ t.host.how = .ok ∧
          (∀ j, j < k ∨ k + size ≤ j → Memory.byte t.dev j = Memory.byte s.dev j) ∧ t.hostMem = s.hostMem ∧ t.harts = s.harts
      let result (k : Nat) : Nat :=
        let old := Memory.read s.dev (8 * k) (8 * size)
        match kind with
        | .fetchAdd => old + val
        | .swap => val
        | .cas => if old = cmp % 2 ^ (8 * size) then val else old
      let refused (r : Host.Outcome State Fault Refusal) : Prop := r = .next { s with host := { s.host with out := 0, how := .unsupported } }
      let atomicSize : Prop := (size = 4 ∨ size = 8 ∨ (size = 16 ∧ kind = .cas)) ∧ byte % size = 0
      (s.boot.st = .ready → k + size ≤ 3 * 2 ^ 38 →
        read k (exec (.hostBar2Read byte size) s) ∧ wrote k val 0 (exec (.hostBar2Write byte size val) s) ∧
        (atomicSize → wrote k (result k) (Memory.read s.dev (8 * k) (8 * size)) (exec (.hostAtomicop kind byte size cmp val) s))) ∧
      (s.boot.st = .ready → 3 * 2 ^ 38 ≤ k → size = 1 →
        ∃ b, exec (.hostBar2Read byte size) s = .next { s with hbm := b, host := { s.host with out := 255, how := .ok } }) ∧
      (s.boot.st = .ready → (¬atomicSize ∨ 3 * 2 ^ 38 < k + size) → refused (exec (.hostAtomicop kind byte size cmp val) s)) ∧
      (s.boot.st ≠ .ready → refused (exec (.hostBar2Read byte size) s) ∧ exec (.hostBar2Write byte size val) s = .next s ∧
        refused (exec (.hostAtomicop kind byte size cmp val) s)) ∧
      (s.boot.st = .ready → byte + size ≤ 3 * 2 ^ 38 → s.host.portDown.testBit 0 = false →
        read byte (exec (.hostManagedDeviceMemoryAccess .read byte size cmp val) s) ∧
        wrote byte val 0 (exec (.hostManagedDeviceMemoryAccess .write byte size cmp val) s) ∧
        wrote byte (result byte) (Memory.read s.dev (8 * byte) (8 * size))
          (exec (.hostManagedDeviceMemoryAccess (.atomic kind) byte size cmp val) s)) ∧
      (∀ op, s.boot.st ≠ .ready → byte + size ≤ 3 * 2 ^ 38 → refused (exec (.hostManagedDeviceMemoryAccess op byte size cmp val) s)) ∧
      (∀ op, 3 * 2 ^ 38 < byte + size → exec (.hostManagedDeviceMemoryAccess op byte size cmp val) s = .fault .outsideDeviceMemory)) ∧
    (∀ (s : State) (byte size cmp val : Nat) (op : HdmOp) (m : Mig), s.clean → s.boot.st = .ready → byte + size ≤ 3 * 2 ^ 38 →
      s.host.portDown.testBit 0 = false → s.heldPage (8 * byte) (8 * size) = some m →
      let i : Instr := .hostManagedDeviceMemoryAccess op byte size cmp val
      let with_ (s : State) (q : List Sel) : State :=
        { s with migs := s.migs.map (fun (y : Mig) => if y.id = m.id then { y with queue := q } else y) }
      let a := m.newPa + (8 * byte - m.pa)
      ((∀ y ∈ s.migs, y.id = m.id → y = m) → m.moved = false ∨ m.queue.contains (.event i) = false →
        exec i s = .next (with_ s (m.queue ++ [.event i]))) ∧
      (m.moved = true → m.queue.contains (.event i) = true → m.pa ≤ 8 * byte → 8 * byte + 8 * size ≤ m.pa + 2 ^ m.sz →
        m.newPa + 2 ^ m.sz ≤ 3 * 2 ^ 41 → 0 < size → ∃ t, exec i s = .next t ∧ t.host.how = .ok ∧
          (op = .read → t.host.out = s.homeRead a (8 * size) ∧ t.dev = s.dev) ∧
          (op = .write → t.homeRead a (8 * size) = val % 2 ^ (8 * size) ∧
            ∀ j, j + 1 ≤ a ∨ a + 8 * size ≤ j → j < 3 * 2 ^ 41 → t.homeRead j 1 = s.homeRead j 1)))) ∧
  (∀ (s : State) (link off size val : Nat), s.boot.st = .ready → s.clean → s.migs = [] → 0 < size →
      let done (t : State) (how : Completion) (out : Nat) : State := { t with host := { t.host with out := out, how := how } }
      (s.host.linkDown.testBit link = true → ∀ red, exec (.peerWrite link off size val red) s = .next s ∧
        exec (.peerRead link off size) s = .next s) ∧
      (s.host.linkDown.testBit link = false →
        (∀ w, s.host.windows.find? (fun w => decide (w.link = link) && w.write && decide (off + size ≤ w.ext)) = some w →
          w.base + off + size ≤ 3 * 2 ^ 41 →
          exec (.peerWrite link off size val none) s = .next (done (s.homePut (w.base + off) size val) .ok 0)) ∧
        (s.host.windows.find? (fun w => decide (w.link = link) && w.write && decide (off + size ≤ w.ext)) = none →
          exec (.peerWrite link off size val none) s = .next (done s .unsupported 0)) ∧
        (∀ w op code t, s.host.windows.find? (fun w => decide (w.link = link) && w.reduce && decide (off + size ≤ w.ext)) = some w →
          w.base + off + size ≤ 3 * 2 ^ 41 →
          Tag.ofCode code = some t → t.isAtomic = true → t.width = size → op < 3 →
          exec (.peerWrite link off size val (some (op, code))) s = .next (done (s.homePut (w.base + off) size
            (combine op t (s.homeRead (w.base + off) size) (val % 2 ^ size))) .ok 0)) ∧
        (∀ op code, s.host.windows.find? (fun w => decide (w.link = link) && w.reduce && decide (off + size ≤ w.ext)) = none ∨
            3 ≤ op ∨ (∀ t, Tag.ofCode code = some t → t.isAtomic = false ∨ t.width ≠ size) →
          exec (.peerWrite link off size val (some (op, code))) s = .next (done s .unsupported 0)) ∧
        (∀ w, s.host.windows.find? (fun w => decide (w.link = link) && decide (off + size ≤ w.ext)) = some w →
          w.base + off + size ≤ 3 * 2 ^ 41 →
          ∃ b, exec (.peerRead link off size) s = .next (done { s with hbm := b } .ok (s.homeRead (w.base + off) size))) ∧
        (s.host.windows.find? (fun w => decide (w.link = link) && decide (off + size ≤ w.ext)) = none →
          exec (.peerRead link off size) s = .next (done s .unsupported 0))))

/-! ### Reliability -/

/-- Errors and links (R312, R321, R322, R324, R374, R378): a link whose retries have failed is down and counted, of a die
link nothing more being given (log 29); the groups of structures are the model's reading (log 64): an upset that a reader, a
scrubber or the next instruction finds is kept, of a vector register file, the scale file, a mask or a soft predicate in
every place of its 64-bit word (log 101), the accesses executed so far being performed first (log 15); what a reader
consumes, or an instruction meets in a pipe, is put right where it is correctable, counted, and kept as a trap under CEN; a
counted error of a cache or of memory is logged at its level; one of firmware SRAM halts the controller, and one of the
image store leaves its slot unverified. Scrubbing, reports and throttling (R375, R376, R379, R380, R384): a scrubber in
READY brings PASSES up to date from the time since READY (log 61), and a correctable error at its word is put right and
counted; every REPORT seconds, whatever the clock, the counts are posted and begin again, the bursts saved being a free
value (log 28); throttling gates matrix issue and then lowers the clock by 50 MHz to 600, and recovers in the reverse order,
with an event at each step. -/
def Obligations.ErrorsAndThrottling : Prop :=
  ((∀ (s : State) (l : Nat),
      let counted (k : Nat) : Reliab := { s.rel with errCount := Tab.set 0 s.rel.errCount k ((Tab.get 0 s.rel.errCount k + 1) % 2 ^ 32) }
      (l ≤ 1 → exec (.linkDown .hostPort l) s = .next { s with rel := counted (83 + 2 * l), host :=
        { s.host with portDown := s.host.portDown ||| 2 ^ l } }) ∧
      (l ≤ 7 → exec (.linkDown .thefy l) s = .next { s with rel := counted 87, host :=
        { s.host with linkDown := s.host.linkDown ||| 2 ^ l } }) ∧
      exec (.linkDown .die l) s = .next { s with rel := { counted 67 with
        dieDown := if s.rel.dieDown.contains (33, l) then s.rel.dieDown else s.rel.dieDown ++ [(33, l)] } } ∧
      ((∀ h, (s.hart h).stores = []) →
        (∀ place, exec (.softError 45 place l true) s = .next { s with rel := counted 91, boot := { s.boot with hunikHalted := true } }) ∧
        exec (.softError 47 1 l true) s = .next { s with rel := counted 95, boot :=
          { s.boot with slotB := { s.boot.slotB with ok := false } } } ∧
        (∀ st ∈ [33, 34, 35, 36, 37, 38, 39, 40, 41, 42, 43, 44, 45, 46], ∀ place,
          exec (.softError st place l false) s = .next { s with rel := counted (2 * st) }))) ∧
    (∀ (s : State) (st place word : Nat) (unc : Bool), (∀ h, (s.hart h).stores = []) →
      let all (l : List Nat) : State := { s with rel := { s.rel with
        upsets := s.rel.upsets ++ l.map (fun w => (⟨st, place, w, unc, false⟩ : Upset)) } }
      ((1 ≤ st ∧ st ≤ 5) ∨ (8 ≤ st ∧ st ≤ 24) ∨ st = 28 ∨ st = 31 ∨ (st = 46 ∧ unc = true) →
        exec (.softError st place word unc) s = .next (all [word])) ∧
      (st = 6 → exec (.softError st place word unc) s = .next (all ((List.range 8).map (8 * word + ·)))) ∧
      (st = 7 → exec (.softError st place word unc) s = .next (all (if word < 2 ^ 17 then (List.range 64).map (64 * word + ·)
        else (List.range 4).map (2 ^ 23 + 4 * (word - 2 ^ 17) + ·)))) ∧
      exec (.softError 0 place word unc) s = .next { s with rel := { s.rel with
        upsets := s.rel.upsets ++ ((s.hart place).slotsOf word).map (fun w => ⟨0, place, w, unc, false⟩) } } ∧
      (st ∈ [25, 26, 27, 29, 30, 32] → exec (.softError st place word false) s = .next (s.logError 0 (320 + 2 * st) 0 2047)) ∧
      (∀ addr kind hart lv, st < 48 → levelOf st = some lv → kind = 0 → (Tab.get [] s.rel.elogs lv).length < 64 →
        (Tab.get 0 s.rel.elogc lv).toNat / 2 ^ 24 % 2 ^ 8 = 0 →
        let t := s.logError addr (320 + 2 * st) kind hart
        Tab.get [] t.rel.elogs lv = Tab.get [] s.rel.elogs lv ++ [logEntry addr s.millis (320 + 2 * st) kind hart] ∧
          Tab.get 0 t.rel.errCount (2 * st) = (Tab.get 0 s.rel.errCount (2 * st) + 1) % 2 ^ 32 ∧ t.harts = s.harts ∧ t.dev = s.dev)) ∧
    (∀ (s : State) (u : Upset) (c : TrapInfo) (i : Instr) (b : Bolt),
      let found (a : Act Unit) (tr : TrapInfo) : Prop := ∃ t, a s = .ok ((), t) ∧
        t.rel.upsets = (s.clearUpset u).rel.upsets ∧ (∀ h, h ≠ s.cur → t.hart h = s.hart h) ∧
        Tab.get 0 t.rel.errCount (2 * u.s) = (Tab.get 0 s.rel.errCount (2 * u.s) + 1) % 2 ^ 32 ∧
        t.hart s.cur = if s.me.cen = true then { s.me with pend := s.me.pend ++ [⟨2, tr, s.me.depth⟩] } else s.me
      (u.unc = false → found (consumeUpset (some u) c)
        { c with cause := 320 + 2 * u.s, detail := 0, addr := BitVec.ofNat 64 u.addr }) ∧
      (u.unc = true → consumeUpset (some u) c s = .error (.trap
        { c with cause := 320 + 2 * u.s + 1, detail := if u.poisoned then 1 else 0, addr := BitVec.ofNat 64 u.addr })) ∧
      (u.s ≠ 22 → found (meetPipe i b u) (s.vecTrap (320 + 2 * u.s) 0 0)))) ∧
  (∀ s : State,
      let rel := s.rel
      let event (mhz reason : Nat) : Event := { cls := 7, cause := 0, hart := 0, mctx := 0, info := 4 <<< 56, addr := 0,
                                                data := [BitVec.ofNat 64 mhz, BitVec.ofNat 64 reason] }
      (∀ reason, 1 ≤ reason → reason ≤ 3 →
        (rel.duty = 0 → exec (.throttle reason) s =
          .next (State.posted { s with rel := { rel with duty := 1, reason := reason } } (event rel.mhz reason))) ∧
        (rel.duty ≠ 0 → 600 < rel.mhz → exec (.throttle reason) s = .next (State.posted
          { s with rel := { rel with mhz := max 600 (rel.mhz - 50), duty := 1, reason := reason } } (event (max 600 (rel.mhz - 50)) reason)))) ∧
      (rel.duty = 0 → exec .throttleRecover s = .next s) ∧
      (rel.duty ≠ 0 → rel.mhz < 1050 → exec .throttleRecover s = .next (State.posted
        { s with rel := { rel with mhz := min 1050 (rel.mhz + 50), duty := 1 } } (event (min 1050 (rel.mhz + 50)) rel.reason))) ∧
      (rel.duty ≠ 0 → 1050 ≤ rel.mhz → exec .throttleRecover s = .next (State.posted
        { s with rel := { rel with duty := 0, reason := 0 } } (event rel.mhz 0))) ∧
      (let every := (if s.boot.img = 1 then s.boot.slotB else s.boot.slotA).reportS * (1000 * ticksPerMilli)
       (s.boot.st = .ready → rel.reportAt + every ≤ s.time → exec .periodicReport s = .next (State.posted
        { s with free := s.free + 1, rel := { rel with squashes := 0, unchecked := 0, mxBad := 0, reportAt := s.time } }
        { cls := 7, cause := 0, hart := 0, mctx := 0, info := 3 <<< 56, addr := 0,
          data := [BitVec.ofNat 64 rel.squashes, BitVec.ofNat 64 rel.unchecked, BitVec.ofNat 64 rel.mxBad, Config.burstsSaved s.free] })) ∧
       (s.time < rel.reportAt + every → exec .periodicReport s = .next s)) ∧
      (∀ level place word, level < 5 → s.boot.st = .ready → (Tab.get 0 rel.scrub level).getLsbD 0 = true →
        let r := Tab.get 0 rel.scrub level
        let st := [5, 1, 24, 28, 31].getD level 0
        let period := r.toNat / 2 ^ 12 % 2 ^ 20
        let passes := if period = 0 then 0 else (s.time - s.boot.readyAt) / (1000 * ticksPerMilli) / period % 2 ^ 16
        let r1 := BitVec.ofNat 64 (r.toNat % 2 ^ 32 + passes * 2 ^ 32)
        let found := rel.upsets.find? (fun u => decide (u.s = st) && decide (u.place = place) && decide (u.word = word))
        rel.upsets.all (fun u => !(decide (u.s = 46) && decide (u.place = level))) = true →
        (found = none → exec (.scrubWord level place word) s =
          .next { s with rel := { rel with scrub := Tab.set 0 rel.scrub level r1 } }) ∧
        (∀ u, found = some u → u.unc = false → ∃ t, exec (.scrubWord level place word) s = .next t ∧
          Tab.get 0 t.rel.scrub level = r1 ∧ Tab.get 0 t.rel.errCount (2 * st) = (Tab.get 0 rel.errCount (2 * st) + 1) % 2 ^ 32 ∧
          (r.getLsbD 1 = false → t.rel.upsets = rel.upsets) ∧
          (r.getLsbD 1 = true → t.rel.upsets = rel.upsets.filter (fun v => !(decide (v.s = st) && decide (v.place = place) &&
            decide (v.word = word)))))))

/-- Retention, and the grove L2's own steps (R109, R117, R118, R382): an idle grove sleeps and keeps its lines; its wake
counts as `d` acquires below 128, the lines that then stand 64 or more generations behind being written back and dropped and
the others kept, and from 128 on it writes back and drops every line; an eviction takes a line's dirty bits home and drops
it; the sweep does so for each line 64 or more generations behind and leaves the others; neither touches a grove that
sleeps; a refresh closes the row buffers of its bank. No structure holds an error. That the lines an advance would make
ambiguous have been swept before it is the model's (log 84). -/
def Obligations.CacheUpkeep : Prop :=
  (∀ (s : State) (g : Nat),
    let x := s.grove g
    (s.boot.st = .ready → x.asleep = false → s.vacantGrove g = true →
      max x.idleAt s.boot.readyAt + (if s.boot.img = 1 then s.boot.slotB else s.boot.slotA).retIdleMs * ticksPerMilli ≤ s.time →
      exec (.retentionEntry g) s = .next (s.setGrove g { x with asleep := true, d := 0 })) ∧
    (x.asleep = false → exec (.groveWake g) s = .next s) ∧
    (x.asleep = true → s.clean → ∃ t, exec (.groveWake g) s = .next t ∧ (t.grove g).asleep = false ∧ (t.grove g).d = 0 ∧
      (x.d < 128 → (t.grove g).gen = x.gen + BitVec.ofNat 8 x.d) ∧
      ((x.lines.map (fun p => p.1)).Nodup →
        let leaves (y : Line) : Bool := decide (128 ≤ x.d) || decide (64 ≤ (x.gen - y.stamp).toNat + x.d)
        (∀ l y, (l, y) ∈ x.lines → t.line g l = if leaves y then Line.none else s.line g l) ∧
        (∀ l, 512 * l + 512 ≤ 3 * 2 ^ 41 → ∀ i < 512, t.homeRead (512 * l + i) 1 =
          if leaves (s.line g l) && (s.line g l).dirty.getLsbD i then ((s.line g l).data.getLsbD i).toNat
          else s.homeRead (512 * l + i) 1)) ∧
      (128 ≤ x.d → ∀ l, t.line g l = Line.none) ∧
      t.harts = s.harts ∧ t.cores = s.cores ∧ ∀ g', g' ≠ g → t.grove g' = s.grove g')) ∧
  (∀ (s : State) (g l : Nat), (s.grove g).asleep = true →
    exec (.l2Eviction g l) s = .next s ∧ exec (.l2StaleSweep g) s = .next s) ∧
  (∀ (s : State) (g l : Nat), s.clean → (s.grove g).asleep = false → 512 * l + 512 ≤ 3 * 2 ^ 41 →
    ∃ t, exec (.l2Eviction g l) s = .next t ∧ t.line g l = Line.none ∧ (∀ k, k ≠ l → t.line g k = s.line g k) ∧
      (∀ i < 512, t.homeRead (512 * l + i) 1 = if (s.line g l).dirty.getLsbD i then ((s.line g l).data.getLsbD i).toNat
        else s.homeRead (512 * l + i) 1) ∧
      (∀ a, a < 512 * l ∨ 512 * l + 512 ≤ a → t.homeRead a 1 = s.homeRead a 1)) ∧
  (∀ (s : State) (g : Nat), s.clean → (s.grove g).asleep = false → ((s.grove g).lines.map (fun p => p.1)).Nodup →
    ∃ t, exec (.l2StaleSweep g) s = .next t ∧
      (∀ l x, (l, x) ∈ (s.grove g).lines → if 64 ≤ ((s.grove g).gen - x.stamp).toNat then t.line g l = Line.none ∧
        (512 * l + 512 ≤ 3 * 2 ^ 41 → ∀ i < 512, x.dirty.getLsbD i = true →
          t.homeRead (512 * l + i) 1 = (x.data.getLsbD i).toNat) else t.line g l = s.line g l)) ∧
  (∀ (s : State) (bank : Nat), exec (.hbmRefresh bank) s = .next { s with hbm := { s.hbm with rows := Tab.del s.hbm.rows bank } })
end

