-- ==== Sys2Proof/Laws/Tab.lean ====
section
/-!
SUPPORT. Laws of tables: a lookup after an update, and that updates keep the canonical form.
-/
namespace Sys2Proof.Machine

theorem Tab.get_nil {α : Type} (d : α) (k : Nat) : Tab.get d [] k = d := rfl

theorem Tab.get_put_self {α : Type} (d : α) (t : Tab α) (k : Nat) (v : α) : Tab.get d (Tab.put t k v) k = v := by
  induction t with
  | nil => simp [Tab.put, Tab.get]
  | cons p t ih =>
    obtain ⟨k', v'⟩ := p
    simp only [Tab.put]
    split
    · simp [Tab.get]
    · split
      · simp [Tab.get]
      · simp [Tab.get, *]

theorem Tab.get_put_ne {α : Type} (d : α) (t : Tab α) {j k : Nat} (v : α) (h : j ≠ k) :
    Tab.get d (Tab.put t k v) j = Tab.get d t j := by
  induction t with
  | nil => simp [Tab.put, Tab.get, Ne.symm h]
  | cons p t ih =>
    obtain ⟨k', v'⟩ := p
    simp only [Tab.put]
    split
    · subst_vars; simp [Tab.get, Ne.symm h]
    · split
      · simp [Tab.get, Ne.symm h]
      · simp [Tab.get, ih]

/-- What a table holds after a put. -/
theorem Tab.get_put {α : Type} (d : α) (t : Tab α) (j k : Nat) (v : α) :
    Tab.get d (Tab.put t k v) j = if j = k then v else Tab.get d t j := by
  split
  · subst_vars; exact Tab.get_put_self d t _ v
  · exact Tab.get_put_ne d t v ‹_›

/-- What a table holds after a deletion. -/
theorem Tab.get_del {α : Type} (d : α) (t : Tab α) (j k : Nat) :
    Tab.get d (Tab.del t k) j = if j = k then d else Tab.get d t j := by
  induction t with
  | nil => simp [Tab.del, Tab.get]
  | cons p t ih =>
    obtain ⟨k', v'⟩ := p
    by_cases h : k' = k
    · simp only [Tab.del, h, if_true, ih, Tab.get]
      split
      · rfl
      · rw [if_neg (by omega)]
    · simp only [Tab.del, h, if_false, Tab.get, ih]
      split
      · rw [if_neg (by omega)]
      · rfl

/-- What a table holds after a set: the value, listed or not. -/
theorem Tab.get_set {α : Type} [DecidableEq α] (d : α) (t : Tab α) (j k : Nat) (v : α) :
    Tab.get d (Tab.set d t k v) j = if j = k then v else Tab.get d t j := by
  unfold Tab.set
  split
  · rename_i h; rw [h]; exact Tab.get_del d t j k
  · exact Tab.get_put d t j k v

theorem Tab.get_set_self {α : Type} [DecidableEq α] (d : α) (t : Tab α) (k : Nat) (v : α) :
    Tab.get d (Tab.set d t k v) k = v := by rw [Tab.get_set, if_pos rfl]

theorem Tab.get_set_ne {α : Type} [DecidableEq α] (d : α) (t : Tab α) {j k : Nat} (v : α) (h : j ≠ k) :
    Tab.get d (Tab.set d t k v) j = Tab.get d t j := by rw [Tab.get_set, if_neg h]

/-- A lookup through a map of the values that keeps the default. -/
theorem Tab.get_map {α : Type} (d : α) (f : α → α) (hd : f d = d) (t : Tab α) (k : Nat) :
    Tab.get d (t.map (fun p => (p.1, f p.2))) k = f (Tab.get d t k) := by
  induction t with
  | nil => simp [Tab.get, hd]
  | cons p t ih => simp only [List.map_cons, Tab.get]; split <;> simp_all

/-! ### Canonical form -/

/-- Canonical form, as a property of neighbours: ascending, and nothing listed with the default. -/
theorem Tab.wf_iff {α : Type} [DecidableEq α] (d : α) (t : Tab α) :
    Tab.wf d t = true ↔ t.Pairwise (fun p q => p.1 < q.1) ∧ ∀ p ∈ t, p.2 ≠ d := by
  induction t with
  | nil => simp [Tab.wf]
  | cons p t ih =>
    obtain ⟨k, v⟩ := p
    cases t with
    | nil => simp [Tab.wf]
    | cons q t =>
      obtain ⟨k', v'⟩ := q
      simp only [Tab.wf, Bool.and_eq_true, decide_eq_true_eq, ih, List.pairwise_cons, List.mem_cons]
      constructor
      · rintro ⟨⟨h1, h2⟩, ⟨h3, h4⟩, h5⟩
        refine ⟨⟨?_, h3, h4⟩, ?_⟩
        · rintro p (rfl | hp)
          · exact h1
          · exact Nat.lt_trans h1 (h3 p hp)
        · rintro p (rfl | hp)
          · exact h2
          · exact h5 p hp
      · rintro ⟨⟨h1, h3, h4⟩, h5⟩
        exact ⟨⟨h1 _ (.inl rfl), h5 _ (.inl rfl)⟩, ⟨h3, h4⟩, fun p hp => h5 p (.inr hp)⟩

theorem Tab.mem_del {α : Type} (t : Tab α) (k : Nat) (p : Nat × α) : p ∈ Tab.del t k ↔ p ∈ t ∧ p.1 ≠ k := by
  induction t with
  | nil => simp [Tab.del]
  | cons q t ih =>
    obtain ⟨k', v'⟩ := q
    by_cases h : k' = k
    · simp only [Tab.del, h, if_true, ih, List.mem_cons]
      constructor
      · rintro ⟨h1, h2⟩; exact ⟨.inr h1, h2⟩
      · rintro ⟨rfl | h1, h2⟩
        · exact absurd rfl h2
        · exact ⟨h1, h2⟩
    · simp only [Tab.del, h, if_false, List.mem_cons, ih]
      constructor
      · rintro (rfl | ⟨h1, h2⟩)
        · exact ⟨.inl rfl, h⟩
        · exact ⟨.inr h1, h2⟩
      · rintro ⟨rfl | h1, h2⟩
        · exact .inl rfl
        · exact .inr ⟨h1, h2⟩

theorem Tab.mem_put {α : Type} (t : Tab α) (k : Nat) (v : α) (p : Nat × α) (h : p ∈ Tab.put t k v) :
    p = (k, v) ∨ p ∈ t := by
  induction t with
  | nil => simp_all [Tab.put]
  | cons q t ih =>
    obtain ⟨k', v'⟩ := q
    simp only [Tab.put] at h
    split at h
    · rcases List.mem_cons.1 h with h | h
      · exact .inl h
      · exact .inr (List.mem_cons_of_mem _ h)
    · split at h
      · rcases List.mem_cons.1 h with h | h
        · exact .inl h
        · exact .inr h
      · rcases List.mem_cons.1 h with h | h
        · exact .inr (h ▸ List.mem_cons_self)
        · exact (ih h).imp_right (List.mem_cons_of_mem _)

theorem Tab.pairwise_del {α : Type} (t : Tab α) (k : Nat) (h : t.Pairwise (fun p q => p.1 < q.1)) :
    (Tab.del t k).Pairwise (fun p q => p.1 < q.1) := by
  induction t with
  | nil => simp [Tab.del]
  | cons q t ih =>
    obtain ⟨k', v'⟩ := q
    obtain ⟨h1, h2⟩ := List.pairwise_cons.1 h
    simp only [Tab.del]
    split
    · exact ih h2
    · exact List.pairwise_cons.2 ⟨fun p hp => h1 p ((Tab.mem_del t k p).1 hp).1, ih h2⟩

theorem Tab.pairwise_put {α : Type} (t : Tab α) (k : Nat) (v : α) (h : t.Pairwise (fun p q => p.1 < q.1)) :
    (Tab.put t k v).Pairwise (fun p q => p.1 < q.1) := by
  induction t with
  | nil => simp [Tab.put]
  | cons q t ih =>
    obtain ⟨k', v'⟩ := q
    obtain ⟨h1, h2⟩ := List.pairwise_cons.1 h
    simp only [Tab.put]
    split
    · rename_i he; subst he; exact List.pairwise_cons.2 ⟨h1, h2⟩
    · split
      · rename_i hlt
        refine List.pairwise_cons.2 ⟨?_, h⟩
        intro p hp
        rcases List.mem_cons.1 hp with rfl | hp
        · exact hlt
        · exact Nat.lt_trans hlt (h1 p hp)
      · refine List.pairwise_cons.2 ⟨?_, ih h2⟩
        intro p hp
        rcases Tab.mem_put t k v p hp with rfl | hp
        · simp only; omega
        · exact h1 p hp

/-- A set keeps the canonical form. -/
theorem Tab.wf_set {α : Type} [DecidableEq α] (d : α) (t : Tab α) (k : Nat) (v : α) (h : Tab.wf d t = true) :
    Tab.wf d (Tab.set d t k v) = true := by
  rw [Tab.wf_iff] at h ⊢
  unfold Tab.set
  split
  · exact ⟨Tab.pairwise_del t k h.1, fun p hp => h.2 p ((Tab.mem_del t k p).1 hp).1⟩
  · rename_i hv
    refine ⟨Tab.pairwise_put t k v h.1, fun p hp => ?_⟩
    rcases Tab.mem_put t k v p hp with rfl | hp
    · exact hv
    · exact h.2 p hp

end Sys2Proof.Machine
end

