-- ==== Sys2Proof/Laws/Memory.lean ====
section
/-!
SUPPORT. Laws of memories: a read is the bits of its range, a write changes exactly the bits it names, and the canonical form is
kept.
-/
namespace Sys2Proof.Machine

open Sys2Proof

/-- A bit of a memory by bit address. -/
def Memory.bit (m : Memory) (a : Nat) : Bool := (Memory.byte m (a / 8)).toNat.testBit (a % 8)

theorem Tab.get_filter {α : Type} (d : α) (t : Tab α) (f : Nat → Bool) (k : Nat) :
    Tab.get d (t.filter (fun p => f p.1)) k = if f k then Tab.get d t k else d := by
  induction t with
  | nil => simp [Tab.get]
  | cons p t ih =>
    obtain ⟨k', v⟩ := p
    by_cases hf : f k' = true
    · rw [List.filter_cons_of_pos (by simpa using hf)]
      simp only [Tab.get, ih]
      by_cases hk : k' = k
      · subst hk; simp [hf]
      · simp [hk]
    · rw [List.filter_cons_of_neg (by simpa using hf)]
      simp only [Tab.get, ih]
      by_cases hk : k' = k
      · subst hk; simp [hf]
      · simp [hk]

theorem Tab.get_append {α : Type} (d : α) (t u : Tab α) (k : Nat) :
    Tab.get d (t ++ u) k = if k ∈ t.map Prod.fst then Tab.get d t k else Tab.get d u k := by
  induction t with
  | nil => simp
  | cons p t ih =>
    obtain ⟨k', v⟩ := p
    simp only [List.cons_append, Tab.get, ih, List.map_cons, List.mem_cons]
    by_cases hk : k' = k
    · simp [hk]
    · rw [if_neg hk]
      by_cases hm : k ∈ t.map Prod.fst
      · rw [if_pos hm, if_pos (.inr hm), if_neg hk]
      · rw [if_neg hm, if_neg (not_or.2 ⟨fun h => hk h.symm, hm⟩)]

theorem Tab.get_notMem {α : Type} (d : α) (t : Tab α) (k : Nat) (h : k ∉ t.map Prod.fst) : Tab.get d t k = d := by
  induction t with
  | nil => rfl
  | cons p t ih =>
    obtain ⟨k', v⟩ := p
    simp only [List.map_cons, List.mem_cons, not_or] at h
    simp only [Tab.get]
    rw [if_neg (fun e => h.1 e.symm)]
    exact ih h.2

/-! ### Reads -/

theorem Memory.byte_window (m : Memory) (k n j : Nat) :
    Memory.byte (m.window k n) j = if k ≤ j ∧ j < k + n then Memory.byte m j else 0 := by
  have := Tab.get_filter (0 : Byte) m (fun i => decide (k ≤ i) && decide (i < k + n)) j
  simpa [Memory.byte, Memory.window] using this

theorem Memory.testBit_bytes (m : Memory) (n k i : Nat) :
    (Memory.bytes m k n).testBit i = (decide (i < 8 * n) && (Memory.byte m (k + i / 8)).toNat.testBit (i % 8)) := by
  induction n generalizing k i with
  | zero => simp [Memory.bytes]
  | succ n ih =>
    have hb : (Memory.byte m k).toNat < 2 ^ 8 := (Memory.byte m k).isLt
    simp only [Memory.bytes]
    rw [show (256 : Nat) = 2 ^ 8 from rfl, Nat.add_comm, Nat.testBit_two_pow_mul_add _ hb, ih]
    by_cases h : i < 8
    · simp [h, Nat.div_eq_of_lt h, Nat.mod_eq_of_lt h]; omega
    · rw [if_neg h, show k + 1 + (i - 8) / 8 = k + i / 8 by omega, show (i - 8) % 8 = i % 8 by omega]
      congr 1
      exact decide_eq_decide.2 (by omega)

/-- Bit i of a read is bit a + i of memory. -/
theorem Memory.testBit_read (m : Memory) (a w i : Nat) :
    (Memory.read m a w).testBit i = (decide (i < w) && m.bit (a + i)) := by
  unfold Memory.read Memory.bit
  rw [Nat.testBit_mod_two_pow, Nat.testBit_shiftRight, Memory.testBit_bytes, Memory.byte_window]
  by_cases h : i < w
  · have h1 : a % 8 + i < 8 * byteSpan a w := by unfold byteSpan; omega
    have h2 : a / 8 + (a % 8 + i) / 8 = (a + i) / 8 := by omega
    have h3 : (a % 8 + i) % 8 = (a + i) % 8 := by omega
    rw [h2, h3, if_pos (by omega)]
    simp [h, h1]
  · simp [h]

theorem Memory.read_lt (m : Memory) (a w : Nat) : Memory.read m a w < 2 ^ w := Nat.mod_lt _ (Nat.two_pow_pos w)

theorem Memory.read_one (m : Memory) (a : Nat) : Memory.read m a 1 = (m.bit a).toNat := by
  apply Nat.eq_of_testBit_eq
  intro i
  rw [Memory.testBit_read]
  cases i with
  | zero => simp; cases m.bit a <;> rfl
  | succ i => simp; cases m.bit a <;> simp [Nat.testBit_succ]

/-! ### Writes -/

theorem Memory.testBit_merged (m : Memory) (k mask v i : Nat) (hi : i < 8) :
    (m.merged k mask v).toNat.testBit i = if mask.testBit i then v.testBit i else (Memory.byte m k).toNat.testBit i := by
  unfold Memory.merged
  simp only []
  by_cases h : BitVec.ofNat 8 mask = 255
  · rw [if_pos h]
    have := congrArg (fun b : BitVec 8 => b.toNat.testBit i) h
    simp only [BitVec.toNat_ofNat, Nat.testBit_mod_two_pow, hi, decide_true, Bool.true_and] at this
    have all : ∀ i < 8, (255 : BitVec 8).toNat.testBit i = true := by decide
    rw [all i hi] at this
    rw [if_pos this, BitVec.toNat_ofNat, Nat.testBit_mod_two_pow]
    simp [hi]
  · rw [if_neg h]
    simp only [BitVec.testBit_toNat, BitVec.getLsbD_or, BitVec.getLsbD_and, BitVec.getLsbD_not, BitVec.getLsbD_ofNat, hi,
      decide_true, Bool.true_and]
    cases mask.testBit i <;> simp

theorem Memory.fst_cells (m : Memory) (n k mask v j : Nat) (h : j ∈ (m.cells k mask v n).map Prod.fst) : k ≤ j ∧ j < k + n := by
  induction n generalizing k mask v with
  | zero => simp [Memory.cells] at h
  | succ n ih =>
    simp only [Memory.cells] at h
    split at h
    · have := ih _ _ _ h; omega
    · rcases List.mem_cons.1 h with h | h
      · simp only at h; omega
      · have := ih _ _ _ h; omega

theorem Memory.get_cells (m : Memory) (n k mask v j : Nat) :
    Tab.get 0 (m.cells k mask v n) j =
      if k ≤ j ∧ j < k + n then m.merged j (mask / 256 ^ (j - k)) (v / 256 ^ (j - k)) else 0 := by
  induction n generalizing k mask v with
  | zero => rw [if_neg (by omega)]; rfl
  | succ n ih =>
    by_cases hj : j = k
    · subst hj
      have ht : Tab.get 0 (m.cells (j + 1) (mask / 256) (v / 256) n) j = 0 := by
        apply Tab.get_notMem; intro h; have := Memory.fst_cells _ _ _ _ _ _ h; omega
      simp only [Memory.cells]
      split
      · rename_i h0; rw [ht, if_pos (by omega)]; simp [h0]
      · simp [Tab.get]
    · have step : Tab.get 0 (m.cells k mask v (n + 1)) j = Tab.get 0 (m.cells (k + 1) (mask / 256) (v / 256) n) j := by
        simp only [Memory.cells]
        split
        · rfl
        · simp [Tab.get, Ne.symm hj]
      rw [step, ih]
      by_cases h : k ≤ j ∧ j < k + (n + 1)
      · rw [if_pos (by omega), if_pos h]
        have : j - k = (j - (k + 1)) + 1 := by omega
        rw [this, Nat.pow_succ, Nat.mul_comm, ← Nat.div_div_eq_div_mul, ← Nat.div_div_eq_div_mul]
      · rw [if_neg (by omega), if_neg h]

theorem Memory.byte_write (m : Memory) (a w v j : Nat) :
    Memory.byte (m.write a w v) j = if a / 8 ≤ j ∧ j < a / 8 + byteSpan a w then
      m.merged j (((2 ^ w - 1) <<< (a % 8)) / 256 ^ (j - a / 8)) (((v % 2 ^ w) <<< (a % 8)) / 256 ^ (j - a / 8))
    else Memory.byte m j := by
  have lo : Tab.get (0 : Byte) (m.filter (fun c => decide (c.1 < a / 8))) j = if j < a / 8 then Memory.byte m j else 0 := by
    have := Tab.get_filter (0 : Byte) m (fun i => decide (i < a / 8)) j
    simpa [Memory.byte] using this
  have hi : Tab.get (0 : Byte) (m.filter (fun c => decide (a / 8 + byteSpan a w ≤ c.1))) j =
      if a / 8 + byteSpan a w ≤ j then Memory.byte m j else 0 := by
    have := Tab.get_filter (0 : Byte) m (fun i => decide (a / 8 + byteSpan a w ≤ i)) j
    simpa [Memory.byte] using this
  have lom : ∀ j, j ∈ (m.filter (fun c => decide (c.1 < a / 8))).map Prod.fst → j < a / 8 := by
    intro j h
    simp only [List.mem_map, List.mem_filter, decide_eq_true_eq] at h
    obtain ⟨p, ⟨-, h⟩, rfl⟩ := h; exact h
  unfold Memory.byte Memory.write
  simp only []
  rw [List.append_assoc, Tab.get_append, Tab.get_append, lo, hi, Memory.get_cells]
  change _ = if _ then _ else Memory.byte m j
  by_cases h1 : j < a / 8
  · rw [if_neg (c := a / 8 ≤ j ∧ j < a / 8 + byteSpan a w) (by omega), if_neg (c := a / 8 ≤ j ∧ _) (by omega)]
    split
    · rfl
    · rename_i hm
      have hz : Memory.byte m j = 0 := by
        rw [if_pos h1] at lo
        rw [← lo]; exact Tab.get_notMem _ _ _ hm
      rw [if_neg (by intro h; have := Memory.fst_cells _ _ _ _ _ _ h; omega), if_neg (by omega)]
      exact hz.symm
  · rw [if_neg (by intro h; exact h1 (lom j h))]
    by_cases h2 : j < a / 8 + byteSpan a w
    · rw [if_pos (c := a / 8 ≤ j ∧ j < a / 8 + byteSpan a w) (by omega), if_pos (c := a / 8 ≤ j ∧ _) (by omega),
        if_neg (c := a / 8 + byteSpan a w ≤ j) (by omega)]
      split
      · rfl
      · rename_i hm
        have := Memory.get_cells m (byteSpan a w) (a / 8) ((2 ^ w - 1) <<< (a % 8)) ((v % 2 ^ w) <<< (a % 8)) j
        rw [if_pos (by omega), Tab.get_notMem _ _ _ hm] at this
        exact this
    · rw [if_neg (by intro h; have := Memory.fst_cells _ _ _ _ _ _ h; omega), if_pos (by omega), if_neg (by omega)]

/-- What a write leaves of a bit: the value's bit inside the range, the bit as it was outside. -/
theorem Memory.bit_write (m : Memory) (a w v b : Nat) :
    (m.write a w v).bit b = if a ≤ b ∧ b < a + w then v.testBit (b - a) else m.bit b := by
  unfold Memory.bit
  rw [Memory.byte_write]
  have hmod : b % 8 < 8 := Nat.mod_lt _ (by decide)
  by_cases hspan : a / 8 ≤ b / 8 ∧ b / 8 < a / 8 + byteSpan a w
  · rw [if_pos hspan, Memory.testBit_merged _ _ _ _ _ hmod]
    have e : (256 : Nat) ^ (b / 8 - a / 8) = 2 ^ (8 * (b / 8 - a / 8)) := by
      rw [show (256 : Nat) = 2 ^ 8 from rfl, ← Nat.pow_mul]
    rw [e, Nat.testBit_div_two_pow, Nat.testBit_div_two_pow, Nat.testBit_shiftLeft, Nat.testBit_shiftLeft,
      Nat.testBit_two_pow_sub_one, Nat.testBit_mod_two_pow]
    by_cases h1 : a ≤ b
    · have h2 : b % 8 + 8 * (b / 8 - a / 8) ≥ a % 8 := by omega
      have h3 : b % 8 + 8 * (b / 8 - a / 8) - a % 8 = b - a := by omega
      rw [h3]
      by_cases h4 : b - a < w
      · rw [if_pos (by simp [h2, h4]), if_pos (by omega)]
        simp [h2, h4]
      · rw [if_neg (by simp [h4]), if_neg (by omega)]
    · rw [if_neg (by simp; omega), if_neg (by omega)]
  · rw [if_neg hspan, if_neg]
    unfold byteSpan at hspan
    omega

/-- A read of what was written gives it back. -/
theorem Memory.read_write (m : Memory) (a w v : Nat) : Memory.read (m.write a w v) a w = v % 2 ^ w := by
  apply Nat.eq_of_testBit_eq
  intro i
  rw [Memory.testBit_read, Memory.bit_write, Nat.testBit_mod_two_pow]
  by_cases h : i < w
  · rw [if_pos (by omega), Nat.add_sub_cancel_left]
  · simp [h]

/-- A write leaves every read of a range apart from it as it was. -/
theorem Memory.read_write_apart (m : Memory) (a w v b n : Nat) (h : b + n ≤ a ∨ a + w ≤ b) :
    Memory.read (m.write a w v) b n = Memory.read m b n := by
  apply Nat.eq_of_testBit_eq
  intro i
  rw [Memory.testBit_read, Memory.testBit_read, Memory.bit_write]
  by_cases hi : i < n
  · rw [if_neg (by omega)]
  · simp [hi]

/-! ### Canonical form -/

theorem Memory.pairwise_cells (m : Memory) (n k mask v : Nat) :
    (m.cells k mask v n).Pairwise (fun p q => p.1 < q.1) ∧ ∀ p ∈ m.cells k mask v n, p.2 ≠ 0 := by
  induction n generalizing k mask v with
  | zero => simp [Memory.cells]
  | succ n ih =>
    obtain ⟨h1, h2⟩ := ih (k + 1) (mask / 256) (v / 256)
    simp only [Memory.cells]
    split
    · exact ⟨h1, h2⟩
    · rename_i hb
      refine ⟨List.pairwise_cons.2 ⟨fun p hp => ?_, h1⟩, fun p hp => ?_⟩
      · have := Memory.fst_cells m n (k + 1) (mask / 256) (v / 256) p.1 (List.mem_map_of_mem hp)
        simp only; omega
      · rcases List.mem_cons.1 hp with rfl | hp
        · exact hb
        · exact h2 p hp

/-- A write keeps the canonical form. -/
theorem Memory.wf_write (m : Memory) (a w v : Nat) (h : Memory.wf m = true) : Memory.wf (m.write a w v) = true := by
  unfold Memory.wf at h ⊢
  rw [Tab.wf_iff] at h ⊢
  obtain ⟨h1, h2⟩ := h
  obtain ⟨c1, c2⟩ := Memory.pairwise_cells m (byteSpan a w) (a / 8) ((2 ^ w - 1) <<< (a % 8)) ((v % 2 ^ w) <<< (a % 8))
  unfold Memory.write
  simp only []
  constructor
  · rw [List.append_assoc, List.pairwise_append]
    refine ⟨h1.filter _, List.pairwise_append.2 ⟨c1, h1.filter _, ?_⟩, ?_⟩
    · intro p hp q hq
      have := Memory.fst_cells m _ _ _ _ p.1 (List.mem_map_of_mem hp)
      have hq := (List.mem_filter.1 hq).2
      simp only [decide_eq_true_eq] at hq
      omega
    · intro p hp q hq
      have hp := (List.mem_filter.1 hp).2
      simp only [decide_eq_true_eq] at hp
      rcases List.mem_append.1 hq with hq | hq
      · have := Memory.fst_cells m _ _ _ _ q.1 (List.mem_map_of_mem hq); omega
      · have hq := (List.mem_filter.1 hq).2
        simp only [decide_eq_true_eq] at hq
        omega
  · intro p hp
    rcases List.mem_append.1 hp with hp | hp
    · rcases List.mem_append.1 hp with hp | hp
      · exact h2 p (List.mem_filter.1 hp).1
      · exact c2 p hp
    · exact h2 p (List.mem_filter.1 hp).1

end Sys2Proof.Machine
end

