-- ==== Sys2Proof/Laws/State.lean ====
section
/-!
SUPPORT. Laws of the state: what a field reads after each update of the state and of a hart.
-/
namespace Sys2Proof.Machine

open Sys2Proof

/-! ### Fields of the state -/

@[simp] theorem State.setHart_cycle (s : State) (h : Nat) (x : Hart) : (s.setHart h x).cycle = s.cycle := rfl
@[simp] theorem State.setHart_time (s : State) (h : Nat) (x : Hart) : (s.setHart h x).time = s.time := rfl
@[simp] theorem State.setHart_free (s : State) (h : Nat) (x : Hart) : (s.setHart h x).free = s.free := rfl
@[simp] theorem State.setHart_cur (s : State) (h : Nat) (x : Hart) : (s.setHart h x).cur = s.cur := rfl
@[simp] theorem State.setHart_rotor (s : State) (h : Nat) (x : Hart) : (s.setHart h x).rotor = s.rotor := rfl
@[simp] theorem State.setHart_nextUid (s : State) (h : Nat) (x : Hart) : (s.setHart h x).nextUid = s.nextUid := rfl
@[simp] theorem State.setHart_late (s : State) (h : Nat) (x : Hart) : (s.setHart h x).late = s.late := rfl
@[simp] theorem State.setHart_agenda (s : State) (h : Nat) (x : Hart) : (s.setHart h x).agenda = s.agenda := rfl
@[simp] theorem State.setHart_cores (s : State) (h : Nat) (x : Hart) : (s.setHart h x).cores = s.cores := rfl
@[simp] theorem State.setHart_groves (s : State) (h : Nat) (x : Hart) : (s.setHart h x).groves = s.groves := rfl
@[simp] theorem State.setHart_dev (s : State) (h : Nat) (x : Hart) : (s.setHart h x).dev = s.dev := rfl
@[simp] theorem State.setHart_hbm (s : State) (h : Nat) (x : Hart) : (s.setHart h x).hbm = s.hbm := rfl
@[simp] theorem State.setHart_hostMem (s : State) (h : Nat) (x : Hart) : (s.setHart h x).hostMem = s.hostMem := rfl
@[simp] theorem State.setHart_maps (s : State) (h : Nat) (x : Hart) : (s.setHart h x).maps = s.maps := rfl
@[simp] theorem State.setHart_pool (s : State) (h : Nat) (x : Hart) : (s.setHart h x).pool = s.pool := rfl
@[simp] theorem State.setHart_yardQs (s : State) (h : Nat) (x : Hart) : (s.setHart h x).yardQs = s.yardQs := rfl
@[simp] theorem State.setHart_yardRot (s : State) (h : Nat) (x : Hart) : (s.setHart h x).yardRot = s.yardRot := rfl
@[simp] theorem State.setHart_askRot (s : State) (h : Nat) (x : Hart) : (s.setHart h x).askRot = s.askRot := rfl
@[simp] theorem State.setHart_farms (s : State) (h : Nat) (x : Hart) : (s.setHart h x).farms = s.farms := rfl
@[simp] theorem State.setHart_ctxs (s : State) (h : Nat) (x : Hart) : (s.setHart h x).ctxs = s.ctxs := rfl
@[simp] theorem State.setHart_swaps (s : State) (h : Nat) (x : Hart) : (s.setHart h x).swaps = s.swaps := rfl
@[simp] theorem State.setHart_migs (s : State) (h : Nat) (x : Hart) : (s.setHart h x).migs = s.migs := rfl
@[simp] theorem State.setHart_xfers (s : State) (h : Nat) (x : Hart) : (s.setHart h x).xfers = s.xfers := rfl
@[simp] theorem State.setHart_saved (s : State) (h : Nat) (x : Hart) : (s.setHart h x).saved = s.saved := rfl
@[simp] theorem State.setHart_fwAreas (s : State) (h : Nat) (x : Hart) : (s.setHart h x).fwAreas = s.fwAreas := rfl
@[simp] theorem State.setHart_noReply (s : State) (h : Nat) (x : Hart) : (s.setHart h x).noReply = s.noReply := rfl
@[simp] theorem State.setHart_host (s : State) (h : Nat) (x : Hart) : (s.setHart h x).host = s.host := rfl
@[simp] theorem State.setHart_boot (s : State) (h : Nat) (x : Hart) : (s.setHart h x).boot = s.boot := rfl
@[simp] theorem State.setHart_rel (s : State) (h : Nat) (x : Hart) : (s.setHart h x).rel = s.rel := rfl

@[simp] theorem State.setCore_cycle (s : State) (c : Nat) (x : Core) : (s.setCore c x).cycle = s.cycle := rfl
@[simp] theorem State.setCore_time (s : State) (c : Nat) (x : Core) : (s.setCore c x).time = s.time := rfl
@[simp] theorem State.setCore_free (s : State) (c : Nat) (x : Core) : (s.setCore c x).free = s.free := rfl
@[simp] theorem State.setCore_cur (s : State) (c : Nat) (x : Core) : (s.setCore c x).cur = s.cur := rfl
@[simp] theorem State.setCore_rotor (s : State) (c : Nat) (x : Core) : (s.setCore c x).rotor = s.rotor := rfl
@[simp] theorem State.setCore_nextUid (s : State) (c : Nat) (x : Core) : (s.setCore c x).nextUid = s.nextUid := rfl
@[simp] theorem State.setCore_late (s : State) (c : Nat) (x : Core) : (s.setCore c x).late = s.late := rfl
@[simp] theorem State.setCore_agenda (s : State) (c : Nat) (x : Core) : (s.setCore c x).agenda = s.agenda := rfl
@[simp] theorem State.setCore_harts (s : State) (c : Nat) (x : Core) : (s.setCore c x).harts = s.harts := rfl
@[simp] theorem State.setCore_groves (s : State) (c : Nat) (x : Core) : (s.setCore c x).groves = s.groves := rfl
@[simp] theorem State.setCore_dev (s : State) (c : Nat) (x : Core) : (s.setCore c x).dev = s.dev := rfl
@[simp] theorem State.setCore_hbm (s : State) (c : Nat) (x : Core) : (s.setCore c x).hbm = s.hbm := rfl
@[simp] theorem State.setCore_hostMem (s : State) (c : Nat) (x : Core) : (s.setCore c x).hostMem = s.hostMem := rfl
@[simp] theorem State.setCore_maps (s : State) (c : Nat) (x : Core) : (s.setCore c x).maps = s.maps := rfl
@[simp] theorem State.setCore_pool (s : State) (c : Nat) (x : Core) : (s.setCore c x).pool = s.pool := rfl
@[simp] theorem State.setCore_yardQs (s : State) (c : Nat) (x : Core) : (s.setCore c x).yardQs = s.yardQs := rfl
@[simp] theorem State.setCore_yardRot (s : State) (c : Nat) (x : Core) : (s.setCore c x).yardRot = s.yardRot := rfl
@[simp] theorem State.setCore_askRot (s : State) (c : Nat) (x : Core) : (s.setCore c x).askRot = s.askRot := rfl
@[simp] theorem State.setCore_farms (s : State) (c : Nat) (x : Core) : (s.setCore c x).farms = s.farms := rfl
@[simp] theorem State.setCore_ctxs (s : State) (c : Nat) (x : Core) : (s.setCore c x).ctxs = s.ctxs := rfl
@[simp] theorem State.setCore_swaps (s : State) (c : Nat) (x : Core) : (s.setCore c x).swaps = s.swaps := rfl
@[simp] theorem State.setCore_migs (s : State) (c : Nat) (x : Core) : (s.setCore c x).migs = s.migs := rfl
@[simp] theorem State.setCore_xfers (s : State) (c : Nat) (x : Core) : (s.setCore c x).xfers = s.xfers := rfl
@[simp] theorem State.setCore_saved (s : State) (c : Nat) (x : Core) : (s.setCore c x).saved = s.saved := rfl
@[simp] theorem State.setCore_fwAreas (s : State) (c : Nat) (x : Core) : (s.setCore c x).fwAreas = s.fwAreas := rfl
@[simp] theorem State.setCore_noReply (s : State) (c : Nat) (x : Core) : (s.setCore c x).noReply = s.noReply := rfl
@[simp] theorem State.setCore_host (s : State) (c : Nat) (x : Core) : (s.setCore c x).host = s.host := rfl
@[simp] theorem State.setCore_boot (s : State) (c : Nat) (x : Core) : (s.setCore c x).boot = s.boot := rfl
@[simp] theorem State.setCore_rel (s : State) (c : Nat) (x : Core) : (s.setCore c x).rel = s.rel := rfl

@[simp] theorem State.setGrove_cycle (s : State) (g : Nat) (x : Grove) : (s.setGrove g x).cycle = s.cycle := rfl
@[simp] theorem State.setGrove_time (s : State) (g : Nat) (x : Grove) : (s.setGrove g x).time = s.time := rfl
@[simp] theorem State.setGrove_free (s : State) (g : Nat) (x : Grove) : (s.setGrove g x).free = s.free := rfl
@[simp] theorem State.setGrove_cur (s : State) (g : Nat) (x : Grove) : (s.setGrove g x).cur = s.cur := rfl
@[simp] theorem State.setGrove_rotor (s : State) (g : Nat) (x : Grove) : (s.setGrove g x).rotor = s.rotor := rfl
@[simp] theorem State.setGrove_nextUid (s : State) (g : Nat) (x : Grove) : (s.setGrove g x).nextUid = s.nextUid := rfl
@[simp] theorem State.setGrove_late (s : State) (g : Nat) (x : Grove) : (s.setGrove g x).late = s.late := rfl
@[simp] theorem State.setGrove_agenda (s : State) (g : Nat) (x : Grove) : (s.setGrove g x).agenda = s.agenda := rfl
@[simp] theorem State.setGrove_harts (s : State) (g : Nat) (x : Grove) : (s.setGrove g x).harts = s.harts := rfl
@[simp] theorem State.setGrove_cores (s : State) (g : Nat) (x : Grove) : (s.setGrove g x).cores = s.cores := rfl
@[simp] theorem State.setGrove_dev (s : State) (g : Nat) (x : Grove) : (s.setGrove g x).dev = s.dev := rfl
@[simp] theorem State.setGrove_hbm (s : State) (g : Nat) (x : Grove) : (s.setGrove g x).hbm = s.hbm := rfl
@[simp] theorem State.setGrove_hostMem (s : State) (g : Nat) (x : Grove) : (s.setGrove g x).hostMem = s.hostMem := rfl
@[simp] theorem State.setGrove_maps (s : State) (g : Nat) (x : Grove) : (s.setGrove g x).maps = s.maps := rfl
@[simp] theorem State.setGrove_pool (s : State) (g : Nat) (x : Grove) : (s.setGrove g x).pool = s.pool := rfl
@[simp] theorem State.setGrove_yardQs (s : State) (g : Nat) (x : Grove) : (s.setGrove g x).yardQs = s.yardQs := rfl
@[simp] theorem State.setGrove_yardRot (s : State) (g : Nat) (x : Grove) : (s.setGrove g x).yardRot = s.yardRot := rfl
@[simp] theorem State.setGrove_askRot (s : State) (g : Nat) (x : Grove) : (s.setGrove g x).askRot = s.askRot := rfl
@[simp] theorem State.setGrove_farms (s : State) (g : Nat) (x : Grove) : (s.setGrove g x).farms = s.farms := rfl
@[simp] theorem State.setGrove_ctxs (s : State) (g : Nat) (x : Grove) : (s.setGrove g x).ctxs = s.ctxs := rfl
@[simp] theorem State.setGrove_swaps (s : State) (g : Nat) (x : Grove) : (s.setGrove g x).swaps = s.swaps := rfl
@[simp] theorem State.setGrove_migs (s : State) (g : Nat) (x : Grove) : (s.setGrove g x).migs = s.migs := rfl
@[simp] theorem State.setGrove_xfers (s : State) (g : Nat) (x : Grove) : (s.setGrove g x).xfers = s.xfers := rfl
@[simp] theorem State.setGrove_saved (s : State) (g : Nat) (x : Grove) : (s.setGrove g x).saved = s.saved := rfl
@[simp] theorem State.setGrove_fwAreas (s : State) (g : Nat) (x : Grove) : (s.setGrove g x).fwAreas = s.fwAreas := rfl
@[simp] theorem State.setGrove_noReply (s : State) (g : Nat) (x : Grove) : (s.setGrove g x).noReply = s.noReply := rfl
@[simp] theorem State.setGrove_host (s : State) (g : Nat) (x : Grove) : (s.setGrove g x).host = s.host := rfl
@[simp] theorem State.setGrove_boot (s : State) (g : Nat) (x : Grove) : (s.setGrove g x).boot = s.boot := rfl
@[simp] theorem State.setGrove_rel (s : State) (g : Nat) (x : Grove) : (s.setGrove g x).rel = s.rel := rfl

@[simp] theorem State.on_cycle (s : State) (h : Nat) : (s.on h).cycle = s.cycle := rfl
@[simp] theorem State.on_time (s : State) (h : Nat) : (s.on h).time = s.time := rfl
@[simp] theorem State.on_free (s : State) (h : Nat) : (s.on h).free = s.free := rfl
@[simp] theorem State.on_rotor (s : State) (h : Nat) : (s.on h).rotor = s.rotor := rfl
@[simp] theorem State.on_nextUid (s : State) (h : Nat) : (s.on h).nextUid = s.nextUid := rfl
@[simp] theorem State.on_late (s : State) (h : Nat) : (s.on h).late = s.late := rfl
@[simp] theorem State.on_agenda (s : State) (h : Nat) : (s.on h).agenda = s.agenda := rfl
@[simp] theorem State.on_harts (s : State) (h : Nat) : (s.on h).harts = s.harts := rfl
@[simp] theorem State.on_cores (s : State) (h : Nat) : (s.on h).cores = s.cores := rfl
@[simp] theorem State.on_groves (s : State) (h : Nat) : (s.on h).groves = s.groves := rfl
@[simp] theorem State.on_dev (s : State) (h : Nat) : (s.on h).dev = s.dev := rfl
@[simp] theorem State.on_hbm (s : State) (h : Nat) : (s.on h).hbm = s.hbm := rfl
@[simp] theorem State.on_hostMem (s : State) (h : Nat) : (s.on h).hostMem = s.hostMem := rfl
@[simp] theorem State.on_maps (s : State) (h : Nat) : (s.on h).maps = s.maps := rfl
@[simp] theorem State.on_pool (s : State) (h : Nat) : (s.on h).pool = s.pool := rfl
@[simp] theorem State.on_yardQs (s : State) (h : Nat) : (s.on h).yardQs = s.yardQs := rfl
@[simp] theorem State.on_yardRot (s : State) (h : Nat) : (s.on h).yardRot = s.yardRot := rfl
@[simp] theorem State.on_askRot (s : State) (h : Nat) : (s.on h).askRot = s.askRot := rfl
@[simp] theorem State.on_farms (s : State) (h : Nat) : (s.on h).farms = s.farms := rfl
@[simp] theorem State.on_ctxs (s : State) (h : Nat) : (s.on h).ctxs = s.ctxs := rfl
@[simp] theorem State.on_swaps (s : State) (h : Nat) : (s.on h).swaps = s.swaps := rfl
@[simp] theorem State.on_migs (s : State) (h : Nat) : (s.on h).migs = s.migs := rfl
@[simp] theorem State.on_xfers (s : State) (h : Nat) : (s.on h).xfers = s.xfers := rfl
@[simp] theorem State.on_saved (s : State) (h : Nat) : (s.on h).saved = s.saved := rfl
@[simp] theorem State.on_fwAreas (s : State) (h : Nat) : (s.on h).fwAreas = s.fwAreas := rfl
@[simp] theorem State.on_noReply (s : State) (h : Nat) : (s.on h).noReply = s.noReply := rfl
@[simp] theorem State.on_host (s : State) (h : Nat) : (s.on h).host = s.host := rfl
@[simp] theorem State.on_boot (s : State) (h : Nat) : (s.on h).boot = s.boot := rfl
@[simp] theorem State.on_rel (s : State) (h : Nat) : (s.on h).rel = s.rel := rfl

@[simp] theorem State.modMe_cycle (s : State) (f : Hart → Hart) : (s.modMe f).cycle = s.cycle := rfl
@[simp] theorem State.modMe_time (s : State) (f : Hart → Hart) : (s.modMe f).time = s.time := rfl
@[simp] theorem State.modMe_free (s : State) (f : Hart → Hart) : (s.modMe f).free = s.free := rfl
@[simp] theorem State.modMe_cur (s : State) (f : Hart → Hart) : (s.modMe f).cur = s.cur := rfl
@[simp] theorem State.modMe_rotor (s : State) (f : Hart → Hart) : (s.modMe f).rotor = s.rotor := rfl
@[simp] theorem State.modMe_nextUid (s : State) (f : Hart → Hart) : (s.modMe f).nextUid = s.nextUid := rfl
@[simp] theorem State.modMe_late (s : State) (f : Hart → Hart) : (s.modMe f).late = s.late := rfl
@[simp] theorem State.modMe_agenda (s : State) (f : Hart → Hart) : (s.modMe f).agenda = s.agenda := rfl
@[simp] theorem State.modMe_cores (s : State) (f : Hart → Hart) : (s.modMe f).cores = s.cores := rfl
@[simp] theorem State.modMe_groves (s : State) (f : Hart → Hart) : (s.modMe f).groves = s.groves := rfl
@[simp] theorem State.modMe_dev (s : State) (f : Hart → Hart) : (s.modMe f).dev = s.dev := rfl
@[simp] theorem State.modMe_hbm (s : State) (f : Hart → Hart) : (s.modMe f).hbm = s.hbm := rfl
@[simp] theorem State.modMe_hostMem (s : State) (f : Hart → Hart) : (s.modMe f).hostMem = s.hostMem := rfl
@[simp] theorem State.modMe_maps (s : State) (f : Hart → Hart) : (s.modMe f).maps = s.maps := rfl
@[simp] theorem State.modMe_pool (s : State) (f : Hart → Hart) : (s.modMe f).pool = s.pool := rfl
@[simp] theorem State.modMe_yardQs (s : State) (f : Hart → Hart) : (s.modMe f).yardQs = s.yardQs := rfl
@[simp] theorem State.modMe_yardRot (s : State) (f : Hart → Hart) : (s.modMe f).yardRot = s.yardRot := rfl
@[simp] theorem State.modMe_askRot (s : State) (f : Hart → Hart) : (s.modMe f).askRot = s.askRot := rfl
@[simp] theorem State.modMe_farms (s : State) (f : Hart → Hart) : (s.modMe f).farms = s.farms := rfl
@[simp] theorem State.modMe_ctxs (s : State) (f : Hart → Hart) : (s.modMe f).ctxs = s.ctxs := rfl
@[simp] theorem State.modMe_swaps (s : State) (f : Hart → Hart) : (s.modMe f).swaps = s.swaps := rfl
@[simp] theorem State.modMe_migs (s : State) (f : Hart → Hart) : (s.modMe f).migs = s.migs := rfl
@[simp] theorem State.modMe_xfers (s : State) (f : Hart → Hart) : (s.modMe f).xfers = s.xfers := rfl
@[simp] theorem State.modMe_saved (s : State) (f : Hart → Hart) : (s.modMe f).saved = s.saved := rfl
@[simp] theorem State.modMe_fwAreas (s : State) (f : Hart → Hart) : (s.modMe f).fwAreas = s.fwAreas := rfl
@[simp] theorem State.modMe_noReply (s : State) (f : Hart → Hart) : (s.modMe f).noReply = s.noReply := rfl
@[simp] theorem State.modMe_host (s : State) (f : Hart → Hart) : (s.modMe f).host = s.host := rfl
@[simp] theorem State.modMe_boot (s : State) (f : Hart → Hart) : (s.modMe f).boot = s.boot := rfl
@[simp] theorem State.modMe_rel (s : State) (f : Hart → Hart) : (s.modMe f).rel = s.rel := rfl

@[simp] theorem State.modMyCore_cycle (s : State) (f : Core → Core) : (s.modMyCore f).cycle = s.cycle := rfl
@[simp] theorem State.modMyCore_time (s : State) (f : Core → Core) : (s.modMyCore f).time = s.time := rfl
@[simp] theorem State.modMyCore_free (s : State) (f : Core → Core) : (s.modMyCore f).free = s.free := rfl
@[simp] theorem State.modMyCore_cur (s : State) (f : Core → Core) : (s.modMyCore f).cur = s.cur := rfl
@[simp] theorem State.modMyCore_rotor (s : State) (f : Core → Core) : (s.modMyCore f).rotor = s.rotor := rfl
@[simp] theorem State.modMyCore_nextUid (s : State) (f : Core → Core) : (s.modMyCore f).nextUid = s.nextUid := rfl
@[simp] theorem State.modMyCore_late (s : State) (f : Core → Core) : (s.modMyCore f).late = s.late := rfl
@[simp] theorem State.modMyCore_agenda (s : State) (f : Core → Core) : (s.modMyCore f).agenda = s.agenda := rfl
@[simp] theorem State.modMyCore_harts (s : State) (f : Core → Core) : (s.modMyCore f).harts = s.harts := rfl
@[simp] theorem State.modMyCore_groves (s : State) (f : Core → Core) : (s.modMyCore f).groves = s.groves := rfl
@[simp] theorem State.modMyCore_dev (s : State) (f : Core → Core) : (s.modMyCore f).dev = s.dev := rfl
@[simp] theorem State.modMyCore_hbm (s : State) (f : Core → Core) : (s.modMyCore f).hbm = s.hbm := rfl
@[simp] theorem State.modMyCore_hostMem (s : State) (f : Core → Core) : (s.modMyCore f).hostMem = s.hostMem := rfl
@[simp] theorem State.modMyCore_maps (s : State) (f : Core → Core) : (s.modMyCore f).maps = s.maps := rfl
@[simp] theorem State.modMyCore_pool (s : State) (f : Core → Core) : (s.modMyCore f).pool = s.pool := rfl
@[simp] theorem State.modMyCore_yardQs (s : State) (f : Core → Core) : (s.modMyCore f).yardQs = s.yardQs := rfl
@[simp] theorem State.modMyCore_yardRot (s : State) (f : Core → Core) : (s.modMyCore f).yardRot = s.yardRot := rfl
@[simp] theorem State.modMyCore_askRot (s : State) (f : Core → Core) : (s.modMyCore f).askRot = s.askRot := rfl
@[simp] theorem State.modMyCore_farms (s : State) (f : Core → Core) : (s.modMyCore f).farms = s.farms := rfl
@[simp] theorem State.modMyCore_ctxs (s : State) (f : Core → Core) : (s.modMyCore f).ctxs = s.ctxs := rfl
@[simp] theorem State.modMyCore_swaps (s : State) (f : Core → Core) : (s.modMyCore f).swaps = s.swaps := rfl
@[simp] theorem State.modMyCore_migs (s : State) (f : Core → Core) : (s.modMyCore f).migs = s.migs := rfl
@[simp] theorem State.modMyCore_xfers (s : State) (f : Core → Core) : (s.modMyCore f).xfers = s.xfers := rfl
@[simp] theorem State.modMyCore_saved (s : State) (f : Core → Core) : (s.modMyCore f).saved = s.saved := rfl
@[simp] theorem State.modMyCore_fwAreas (s : State) (f : Core → Core) : (s.modMyCore f).fwAreas = s.fwAreas := rfl
@[simp] theorem State.modMyCore_noReply (s : State) (f : Core → Core) : (s.modMyCore f).noReply = s.noReply := rfl
@[simp] theorem State.modMyCore_host (s : State) (f : Core → Core) : (s.modMyCore f).host = s.host := rfl
@[simp] theorem State.modMyCore_boot (s : State) (f : Core → Core) : (s.modMyCore f).boot = s.boot := rfl
@[simp] theorem State.modMyCore_rel (s : State) (f : Core → Core) : (s.modMyCore f).rel = s.rel := rfl

@[simp] theorem State.setFarm_cycle (s : State) (x : Farm) : (s.setFarm x).cycle = s.cycle := rfl
@[simp] theorem State.setFarm_time (s : State) (x : Farm) : (s.setFarm x).time = s.time := rfl
@[simp] theorem State.setFarm_free (s : State) (x : Farm) : (s.setFarm x).free = s.free := rfl
@[simp] theorem State.setFarm_cur (s : State) (x : Farm) : (s.setFarm x).cur = s.cur := rfl
@[simp] theorem State.setFarm_rotor (s : State) (x : Farm) : (s.setFarm x).rotor = s.rotor := rfl
@[simp] theorem State.setFarm_nextUid (s : State) (x : Farm) : (s.setFarm x).nextUid = s.nextUid := rfl
@[simp] theorem State.setFarm_late (s : State) (x : Farm) : (s.setFarm x).late = s.late := rfl
@[simp] theorem State.setFarm_agenda (s : State) (x : Farm) : (s.setFarm x).agenda = s.agenda := rfl
@[simp] theorem State.setFarm_harts (s : State) (x : Farm) : (s.setFarm x).harts = s.harts := rfl
@[simp] theorem State.setFarm_cores (s : State) (x : Farm) : (s.setFarm x).cores = s.cores := rfl
@[simp] theorem State.setFarm_groves (s : State) (x : Farm) : (s.setFarm x).groves = s.groves := rfl
@[simp] theorem State.setFarm_dev (s : State) (x : Farm) : (s.setFarm x).dev = s.dev := rfl
@[simp] theorem State.setFarm_hbm (s : State) (x : Farm) : (s.setFarm x).hbm = s.hbm := rfl
@[simp] theorem State.setFarm_hostMem (s : State) (x : Farm) : (s.setFarm x).hostMem = s.hostMem := rfl
@[simp] theorem State.setFarm_maps (s : State) (x : Farm) : (s.setFarm x).maps = s.maps := rfl
@[simp] theorem State.setFarm_pool (s : State) (x : Farm) : (s.setFarm x).pool = s.pool := rfl
@[simp] theorem State.setFarm_yardQs (s : State) (x : Farm) : (s.setFarm x).yardQs = s.yardQs := rfl
@[simp] theorem State.setFarm_yardRot (s : State) (x : Farm) : (s.setFarm x).yardRot = s.yardRot := rfl
@[simp] theorem State.setFarm_askRot (s : State) (x : Farm) : (s.setFarm x).askRot = s.askRot := rfl
@[simp] theorem State.setFarm_ctxs (s : State) (x : Farm) : (s.setFarm x).ctxs = s.ctxs := rfl
@[simp] theorem State.setFarm_swaps (s : State) (x : Farm) : (s.setFarm x).swaps = s.swaps := rfl
@[simp] theorem State.setFarm_migs (s : State) (x : Farm) : (s.setFarm x).migs = s.migs := rfl
@[simp] theorem State.setFarm_xfers (s : State) (x : Farm) : (s.setFarm x).xfers = s.xfers := rfl
@[simp] theorem State.setFarm_saved (s : State) (x : Farm) : (s.setFarm x).saved = s.saved := rfl
@[simp] theorem State.setFarm_fwAreas (s : State) (x : Farm) : (s.setFarm x).fwAreas = s.fwAreas := rfl
@[simp] theorem State.setFarm_noReply (s : State) (x : Farm) : (s.setFarm x).noReply = s.noReply := rfl
@[simp] theorem State.setFarm_host (s : State) (x : Farm) : (s.setFarm x).host = s.host := rfl
@[simp] theorem State.setFarm_boot (s : State) (x : Farm) : (s.setFarm x).boot = s.boot := rfl
@[simp] theorem State.setFarm_rel (s : State) (x : Farm) : (s.setFarm x).rel = s.rel := rfl

@[simp] theorem State.setYardQ_cycle (s : State) (die q : Nat) (x : YardQ) : (s.setYardQ die q x).cycle = s.cycle := rfl
@[simp] theorem State.setYardQ_time (s : State) (die q : Nat) (x : YardQ) : (s.setYardQ die q x).time = s.time := rfl
@[simp] theorem State.setYardQ_free (s : State) (die q : Nat) (x : YardQ) : (s.setYardQ die q x).free = s.free := rfl
@[simp] theorem State.setYardQ_cur (s : State) (die q : Nat) (x : YardQ) : (s.setYardQ die q x).cur = s.cur := rfl
@[simp] theorem State.setYardQ_rotor (s : State) (die q : Nat) (x : YardQ) : (s.setYardQ die q x).rotor = s.rotor := rfl
@[simp] theorem State.setYardQ_nextUid (s : State) (die q : Nat) (x : YardQ) : (s.setYardQ die q x).nextUid = s.nextUid := rfl
@[simp] theorem State.setYardQ_late (s : State) (die q : Nat) (x : YardQ) : (s.setYardQ die q x).late = s.late := rfl
@[simp] theorem State.setYardQ_agenda (s : State) (die q : Nat) (x : YardQ) : (s.setYardQ die q x).agenda = s.agenda := rfl
@[simp] theorem State.setYardQ_harts (s : State) (die q : Nat) (x : YardQ) : (s.setYardQ die q x).harts = s.harts := rfl
@[simp] theorem State.setYardQ_cores (s : State) (die q : Nat) (x : YardQ) : (s.setYardQ die q x).cores = s.cores := rfl
@[simp] theorem State.setYardQ_groves (s : State) (die q : Nat) (x : YardQ) : (s.setYardQ die q x).groves = s.groves := rfl
@[simp] theorem State.setYardQ_dev (s : State) (die q : Nat) (x : YardQ) : (s.setYardQ die q x).dev = s.dev := rfl
@[simp] theorem State.setYardQ_hbm (s : State) (die q : Nat) (x : YardQ) : (s.setYardQ die q x).hbm = s.hbm := rfl
@[simp] theorem State.setYardQ_hostMem (s : State) (die q : Nat) (x : YardQ) : (s.setYardQ die q x).hostMem = s.hostMem := rfl
@[simp] theorem State.setYardQ_maps (s : State) (die q : Nat) (x : YardQ) : (s.setYardQ die q x).maps = s.maps := rfl
@[simp] theorem State.setYardQ_pool (s : State) (die q : Nat) (x : YardQ) : (s.setYardQ die q x).pool = s.pool := rfl
@[simp] theorem State.setYardQ_yardRot (s : State) (die q : Nat) (x : YardQ) : (s.setYardQ die q x).yardRot = s.yardRot := rfl
@[simp] theorem State.setYardQ_askRot (s : State) (die q : Nat) (x : YardQ) : (s.setYardQ die q x).askRot = s.askRot := rfl
@[simp] theorem State.setYardQ_farms (s : State) (die q : Nat) (x : YardQ) : (s.setYardQ die q x).farms = s.farms := rfl
@[simp] theorem State.setYardQ_ctxs (s : State) (die q : Nat) (x : YardQ) : (s.setYardQ die q x).ctxs = s.ctxs := rfl
@[simp] theorem State.setYardQ_swaps (s : State) (die q : Nat) (x : YardQ) : (s.setYardQ die q x).swaps = s.swaps := rfl
@[simp] theorem State.setYardQ_migs (s : State) (die q : Nat) (x : YardQ) : (s.setYardQ die q x).migs = s.migs := rfl
@[simp] theorem State.setYardQ_xfers (s : State) (die q : Nat) (x : YardQ) : (s.setYardQ die q x).xfers = s.xfers := rfl
@[simp] theorem State.setYardQ_saved (s : State) (die q : Nat) (x : YardQ) : (s.setYardQ die q x).saved = s.saved := rfl
@[simp] theorem State.setYardQ_fwAreas (s : State) (die q : Nat) (x : YardQ) : (s.setYardQ die q x).fwAreas = s.fwAreas := rfl
@[simp] theorem State.setYardQ_noReply (s : State) (die q : Nat) (x : YardQ) : (s.setYardQ die q x).noReply = s.noReply := rfl
@[simp] theorem State.setYardQ_host (s : State) (die q : Nat) (x : YardQ) : (s.setYardQ die q x).host = s.host := rfl
@[simp] theorem State.setYardQ_boot (s : State) (die q : Nat) (x : YardQ) : (s.setYardQ die q x).boot = s.boot := rfl
@[simp] theorem State.setYardQ_rel (s : State) (die q : Nat) (x : YardQ) : (s.setYardQ die q x).rel = s.rel := rfl

@[simp] theorem State.setBoot_cycle (s : State) (f : Boot → Boot) : (s.setBoot f).cycle = s.cycle := rfl
@[simp] theorem State.setBoot_time (s : State) (f : Boot → Boot) : (s.setBoot f).time = s.time := rfl
@[simp] theorem State.setBoot_free (s : State) (f : Boot → Boot) : (s.setBoot f).free = s.free := rfl
@[simp] theorem State.setBoot_cur (s : State) (f : Boot → Boot) : (s.setBoot f).cur = s.cur := rfl
@[simp] theorem State.setBoot_rotor (s : State) (f : Boot → Boot) : (s.setBoot f).rotor = s.rotor := rfl
@[simp] theorem State.setBoot_nextUid (s : State) (f : Boot → Boot) : (s.setBoot f).nextUid = s.nextUid := rfl
@[simp] theorem State.setBoot_late (s : State) (f : Boot → Boot) : (s.setBoot f).late = s.late := rfl
@[simp] theorem State.setBoot_agenda (s : State) (f : Boot → Boot) : (s.setBoot f).agenda = s.agenda := rfl
@[simp] theorem State.setBoot_harts (s : State) (f : Boot → Boot) : (s.setBoot f).harts = s.harts := rfl
@[simp] theorem State.setBoot_cores (s : State) (f : Boot → Boot) : (s.setBoot f).cores = s.cores := rfl
@[simp] theorem State.setBoot_groves (s : State) (f : Boot → Boot) : (s.setBoot f).groves = s.groves := rfl
@[simp] theorem State.setBoot_dev (s : State) (f : Boot → Boot) : (s.setBoot f).dev = s.dev := rfl
@[simp] theorem State.setBoot_hbm (s : State) (f : Boot → Boot) : (s.setBoot f).hbm = s.hbm := rfl
@[simp] theorem State.setBoot_hostMem (s : State) (f : Boot → Boot) : (s.setBoot f).hostMem = s.hostMem := rfl
@[simp] theorem State.setBoot_maps (s : State) (f : Boot → Boot) : (s.setBoot f).maps = s.maps := rfl
@[simp] theorem State.setBoot_pool (s : State) (f : Boot → Boot) : (s.setBoot f).pool = s.pool := rfl
@[simp] theorem State.setBoot_yardQs (s : State) (f : Boot → Boot) : (s.setBoot f).yardQs = s.yardQs := rfl
@[simp] theorem State.setBoot_yardRot (s : State) (f : Boot → Boot) : (s.setBoot f).yardRot = s.yardRot := rfl
@[simp] theorem State.setBoot_askRot (s : State) (f : Boot → Boot) : (s.setBoot f).askRot = s.askRot := rfl
@[simp] theorem State.setBoot_farms (s : State) (f : Boot → Boot) : (s.setBoot f).farms = s.farms := rfl
@[simp] theorem State.setBoot_ctxs (s : State) (f : Boot → Boot) : (s.setBoot f).ctxs = s.ctxs := rfl
@[simp] theorem State.setBoot_swaps (s : State) (f : Boot → Boot) : (s.setBoot f).swaps = s.swaps := rfl
@[simp] theorem State.setBoot_migs (s : State) (f : Boot → Boot) : (s.setBoot f).migs = s.migs := rfl
@[simp] theorem State.setBoot_xfers (s : State) (f : Boot → Boot) : (s.setBoot f).xfers = s.xfers := rfl
@[simp] theorem State.setBoot_saved (s : State) (f : Boot → Boot) : (s.setBoot f).saved = s.saved := rfl
@[simp] theorem State.setBoot_fwAreas (s : State) (f : Boot → Boot) : (s.setBoot f).fwAreas = s.fwAreas := rfl
@[simp] theorem State.setBoot_noReply (s : State) (f : Boot → Boot) : (s.setBoot f).noReply = s.noReply := rfl
@[simp] theorem State.setBoot_host (s : State) (f : Boot → Boot) : (s.setBoot f).host = s.host := rfl
@[simp] theorem State.setBoot_rel (s : State) (f : Boot → Boot) : (s.setBoot f).rel = s.rel := rfl

@[simp] theorem State.setSwap_cycle (s : State) (w : Swap) : (s.setSwap w).cycle = s.cycle := rfl
@[simp] theorem State.setSwap_time (s : State) (w : Swap) : (s.setSwap w).time = s.time := rfl
@[simp] theorem State.setSwap_free (s : State) (w : Swap) : (s.setSwap w).free = s.free := rfl
@[simp] theorem State.setSwap_cur (s : State) (w : Swap) : (s.setSwap w).cur = s.cur := rfl
@[simp] theorem State.setSwap_rotor (s : State) (w : Swap) : (s.setSwap w).rotor = s.rotor := rfl
@[simp] theorem State.setSwap_nextUid (s : State) (w : Swap) : (s.setSwap w).nextUid = s.nextUid := rfl
@[simp] theorem State.setSwap_late (s : State) (w : Swap) : (s.setSwap w).late = s.late := rfl
@[simp] theorem State.setSwap_agenda (s : State) (w : Swap) : (s.setSwap w).agenda = s.agenda := rfl
@[simp] theorem State.setSwap_harts (s : State) (w : Swap) : (s.setSwap w).harts = s.harts := rfl
@[simp] theorem State.setSwap_cores (s : State) (w : Swap) : (s.setSwap w).cores = s.cores := rfl
@[simp] theorem State.setSwap_groves (s : State) (w : Swap) : (s.setSwap w).groves = s.groves := rfl
@[simp] theorem State.setSwap_dev (s : State) (w : Swap) : (s.setSwap w).dev = s.dev := rfl
@[simp] theorem State.setSwap_hbm (s : State) (w : Swap) : (s.setSwap w).hbm = s.hbm := rfl
@[simp] theorem State.setSwap_hostMem (s : State) (w : Swap) : (s.setSwap w).hostMem = s.hostMem := rfl
@[simp] theorem State.setSwap_maps (s : State) (w : Swap) : (s.setSwap w).maps = s.maps := rfl
@[simp] theorem State.setSwap_pool (s : State) (w : Swap) : (s.setSwap w).pool = s.pool := rfl
@[simp] theorem State.setSwap_yardQs (s : State) (w : Swap) : (s.setSwap w).yardQs = s.yardQs := rfl
@[simp] theorem State.setSwap_yardRot (s : State) (w : Swap) : (s.setSwap w).yardRot = s.yardRot := rfl
@[simp] theorem State.setSwap_askRot (s : State) (w : Swap) : (s.setSwap w).askRot = s.askRot := rfl
@[simp] theorem State.setSwap_farms (s : State) (w : Swap) : (s.setSwap w).farms = s.farms := rfl
@[simp] theorem State.setSwap_ctxs (s : State) (w : Swap) : (s.setSwap w).ctxs = s.ctxs := rfl
@[simp] theorem State.setSwap_migs (s : State) (w : Swap) : (s.setSwap w).migs = s.migs := rfl
@[simp] theorem State.setSwap_xfers (s : State) (w : Swap) : (s.setSwap w).xfers = s.xfers := rfl
@[simp] theorem State.setSwap_saved (s : State) (w : Swap) : (s.setSwap w).saved = s.saved := rfl
@[simp] theorem State.setSwap_fwAreas (s : State) (w : Swap) : (s.setSwap w).fwAreas = s.fwAreas := rfl
@[simp] theorem State.setSwap_noReply (s : State) (w : Swap) : (s.setSwap w).noReply = s.noReply := rfl
@[simp] theorem State.setSwap_host (s : State) (w : Swap) : (s.setSwap w).host = s.host := rfl
@[simp] theorem State.setSwap_boot (s : State) (w : Swap) : (s.setSwap w).boot = s.boot := rfl
@[simp] theorem State.setSwap_rel (s : State) (w : Swap) : (s.setSwap w).rel = s.rel := rfl

@[simp] theorem State.dropSwap_cycle (s : State) (m l : Nat) : (s.dropSwap m l).cycle = s.cycle := rfl
@[simp] theorem State.dropSwap_time (s : State) (m l : Nat) : (s.dropSwap m l).time = s.time := rfl
@[simp] theorem State.dropSwap_free (s : State) (m l : Nat) : (s.dropSwap m l).free = s.free := rfl
@[simp] theorem State.dropSwap_cur (s : State) (m l : Nat) : (s.dropSwap m l).cur = s.cur := rfl
@[simp] theorem State.dropSwap_rotor (s : State) (m l : Nat) : (s.dropSwap m l).rotor = s.rotor := rfl
@[simp] theorem State.dropSwap_nextUid (s : State) (m l : Nat) : (s.dropSwap m l).nextUid = s.nextUid := rfl
@[simp] theorem State.dropSwap_late (s : State) (m l : Nat) : (s.dropSwap m l).late = s.late := rfl
@[simp] theorem State.dropSwap_agenda (s : State) (m l : Nat) : (s.dropSwap m l).agenda = s.agenda := rfl
@[simp] theorem State.dropSwap_harts (s : State) (m l : Nat) : (s.dropSwap m l).harts = s.harts := rfl
@[simp] theorem State.dropSwap_cores (s : State) (m l : Nat) : (s.dropSwap m l).cores = s.cores := rfl
@[simp] theorem State.dropSwap_groves (s : State) (m l : Nat) : (s.dropSwap m l).groves = s.groves := rfl
@[simp] theorem State.dropSwap_dev (s : State) (m l : Nat) : (s.dropSwap m l).dev = s.dev := rfl
@[simp] theorem State.dropSwap_hbm (s : State) (m l : Nat) : (s.dropSwap m l).hbm = s.hbm := rfl
@[simp] theorem State.dropSwap_hostMem (s : State) (m l : Nat) : (s.dropSwap m l).hostMem = s.hostMem := rfl
@[simp] theorem State.dropSwap_maps (s : State) (m l : Nat) : (s.dropSwap m l).maps = s.maps := rfl
@[simp] theorem State.dropSwap_pool (s : State) (m l : Nat) : (s.dropSwap m l).pool = s.pool := rfl
@[simp] theorem State.dropSwap_yardQs (s : State) (m l : Nat) : (s.dropSwap m l).yardQs = s.yardQs := rfl
@[simp] theorem State.dropSwap_yardRot (s : State) (m l : Nat) : (s.dropSwap m l).yardRot = s.yardRot := rfl
@[simp] theorem State.dropSwap_askRot (s : State) (m l : Nat) : (s.dropSwap m l).askRot = s.askRot := rfl
@[simp] theorem State.dropSwap_farms (s : State) (m l : Nat) : (s.dropSwap m l).farms = s.farms := rfl
@[simp] theorem State.dropSwap_ctxs (s : State) (m l : Nat) : (s.dropSwap m l).ctxs = s.ctxs := rfl
@[simp] theorem State.dropSwap_migs (s : State) (m l : Nat) : (s.dropSwap m l).migs = s.migs := rfl
@[simp] theorem State.dropSwap_xfers (s : State) (m l : Nat) : (s.dropSwap m l).xfers = s.xfers := rfl
@[simp] theorem State.dropSwap_saved (s : State) (m l : Nat) : (s.dropSwap m l).saved = s.saved := rfl
@[simp] theorem State.dropSwap_fwAreas (s : State) (m l : Nat) : (s.dropSwap m l).fwAreas = s.fwAreas := rfl
@[simp] theorem State.dropSwap_noReply (s : State) (m l : Nat) : (s.dropSwap m l).noReply = s.noReply := rfl
@[simp] theorem State.dropSwap_host (s : State) (m l : Nat) : (s.dropSwap m l).host = s.host := rfl
@[simp] theorem State.dropSwap_boot (s : State) (m l : Nat) : (s.dropSwap m l).boot = s.boot := rfl
@[simp] theorem State.dropSwap_rel (s : State) (m l : Nat) : (s.dropSwap m l).rel = s.rel := rfl

@[simp] theorem State.setHostQ_cycle (s : State) (q : HostQ) : (s.setHostQ q).cycle = s.cycle := rfl
@[simp] theorem State.setHostQ_time (s : State) (q : HostQ) : (s.setHostQ q).time = s.time := rfl
@[simp] theorem State.setHostQ_free (s : State) (q : HostQ) : (s.setHostQ q).free = s.free := rfl
@[simp] theorem State.setHostQ_cur (s : State) (q : HostQ) : (s.setHostQ q).cur = s.cur := rfl
@[simp] theorem State.setHostQ_rotor (s : State) (q : HostQ) : (s.setHostQ q).rotor = s.rotor := rfl
@[simp] theorem State.setHostQ_nextUid (s : State) (q : HostQ) : (s.setHostQ q).nextUid = s.nextUid := rfl
@[simp] theorem State.setHostQ_late (s : State) (q : HostQ) : (s.setHostQ q).late = s.late := rfl
@[simp] theorem State.setHostQ_agenda (s : State) (q : HostQ) : (s.setHostQ q).agenda = s.agenda := rfl
@[simp] theorem State.setHostQ_harts (s : State) (q : HostQ) : (s.setHostQ q).harts = s.harts := rfl
@[simp] theorem State.setHostQ_cores (s : State) (q : HostQ) : (s.setHostQ q).cores = s.cores := rfl
@[simp] theorem State.setHostQ_groves (s : State) (q : HostQ) : (s.setHostQ q).groves = s.groves := rfl
@[simp] theorem State.setHostQ_dev (s : State) (q : HostQ) : (s.setHostQ q).dev = s.dev := rfl
@[simp] theorem State.setHostQ_hbm (s : State) (q : HostQ) : (s.setHostQ q).hbm = s.hbm := rfl
@[simp] theorem State.setHostQ_hostMem (s : State) (q : HostQ) : (s.setHostQ q).hostMem = s.hostMem := rfl
@[simp] theorem State.setHostQ_maps (s : State) (q : HostQ) : (s.setHostQ q).maps = s.maps := rfl
@[simp] theorem State.setHostQ_pool (s : State) (q : HostQ) : (s.setHostQ q).pool = s.pool := rfl
@[simp] theorem State.setHostQ_yardQs (s : State) (q : HostQ) : (s.setHostQ q).yardQs = s.yardQs := rfl
@[simp] theorem State.setHostQ_yardRot (s : State) (q : HostQ) : (s.setHostQ q).yardRot = s.yardRot := rfl
@[simp] theorem State.setHostQ_askRot (s : State) (q : HostQ) : (s.setHostQ q).askRot = s.askRot := rfl
@[simp] theorem State.setHostQ_farms (s : State) (q : HostQ) : (s.setHostQ q).farms = s.farms := rfl
@[simp] theorem State.setHostQ_ctxs (s : State) (q : HostQ) : (s.setHostQ q).ctxs = s.ctxs := rfl
@[simp] theorem State.setHostQ_swaps (s : State) (q : HostQ) : (s.setHostQ q).swaps = s.swaps := rfl
@[simp] theorem State.setHostQ_migs (s : State) (q : HostQ) : (s.setHostQ q).migs = s.migs := rfl
@[simp] theorem State.setHostQ_xfers (s : State) (q : HostQ) : (s.setHostQ q).xfers = s.xfers := rfl
@[simp] theorem State.setHostQ_saved (s : State) (q : HostQ) : (s.setHostQ q).saved = s.saved := rfl
@[simp] theorem State.setHostQ_fwAreas (s : State) (q : HostQ) : (s.setHostQ q).fwAreas = s.fwAreas := rfl
@[simp] theorem State.setHostQ_noReply (s : State) (q : HostQ) : (s.setHostQ q).noReply = s.noReply := rfl
@[simp] theorem State.setHostQ_boot (s : State) (q : HostQ) : (s.setHostQ q).boot = s.boot := rfl
@[simp] theorem State.setHostQ_rel (s : State) (q : HostQ) : (s.setHostQ q).rel = s.rel := rfl

/-! ### Harts, cores and groves -/

@[simp] theorem State.hart_setHart (s : State) (h g : Nat) (x : Hart) : (s.setHart h x).hart g = if g = h then x else s.hart g :=
  Tab.get_put _ _ _ _ _
@[simp] theorem State.core_setCore (s : State) (c d : Nat) (x : Core) : (s.setCore c x).core d = if d = c then x else s.core d :=
  Tab.get_put _ _ _ _ _
@[simp] theorem State.grove_setGrove (s : State) (g k : Nat) (x : Grove) : (s.setGrove g x).grove k = if k = g then x else s.grove k :=
  Tab.get_put _ _ _ _ _
@[simp] theorem State.hart_modMe (s : State) (f : Hart → Hart) (g : Nat) :
    (s.modMe f).hart g = if g = s.cur then f s.me else s.hart g := Tab.get_put _ _ _ _ _
@[simp] theorem State.core_modMyCore (s : State) (f : Core → Core) (d : Nat) :
    (s.modMyCore f).core d = if d = coreOf s.cur then f s.myCore else s.core d := Tab.get_put _ _ _ _ _
@[simp] theorem State.me_modMe (s : State) (f : Hart → Hart) : (s.modMe f).me = f s.me := Tab.get_put_self _ _ _ _
@[simp] theorem State.myCore_modMyCore (s : State) (f : Core → Core) : (s.modMyCore f).myCore = f s.myCore :=
  Tab.get_put_self _ _ _ _
@[simp] theorem State.me_on (s : State) (h : Nat) : (s.on h).me = s.hart h := rfl
@[simp] theorem State.hart_on (s : State) (h g : Nat) : (s.on h).hart g = s.hart g := rfl
@[simp] theorem State.core_on (s : State) (h d : Nat) : (s.on h).core d = s.core d := rfl

@[simp] theorem State.setCore_hart (s : State) (c : Nat) (x : Core) (h : Nat) : (s.setCore c x).hart h = s.hart h := rfl
@[simp] theorem State.setGrove_hart (s : State) (c : Nat) (x : Grove) (h : Nat) : (s.setGrove c x).hart h = s.hart h := rfl
@[simp] theorem State.modMyCore_hart (s : State) (f : Core → Core) (h : Nat) : (s.modMyCore f).hart h = s.hart h := rfl
@[simp] theorem State.setFarm_hart (s : State) (x : Farm) (h : Nat) : (s.setFarm x).hart h = s.hart h := rfl
@[simp] theorem State.setYardQ_hart (s : State) (die q : Nat) (x : YardQ) (h : Nat) : (s.setYardQ die q x).hart h = s.hart h := rfl
@[simp] theorem State.setBoot_hart (s : State) (f : Boot → Boot) (h : Nat) : (s.setBoot f).hart h = s.hart h := rfl
@[simp] theorem State.setHart_core (s : State) (h : Nat) (x : Hart) (c : Nat) : (s.setHart h x).core c = s.core c := rfl
@[simp] theorem State.setGrove_core (s : State) (g : Nat) (x : Grove) (c : Nat) : (s.setGrove g x).core c = s.core c := rfl
@[simp] theorem State.modMe_core (s : State) (f : Hart → Hart) (c : Nat) : (s.modMe f).core c = s.core c := rfl
@[simp] theorem State.setFarm_core (s : State) (x : Farm) (c : Nat) : (s.setFarm x).core c = s.core c := rfl
@[simp] theorem State.setYardQ_core (s : State) (die q : Nat) (x : YardQ) (c : Nat) : (s.setYardQ die q x).core c = s.core c := rfl
@[simp] theorem State.setBoot_core (s : State) (f : Boot → Boot) (c : Nat) : (s.setBoot f).core c = s.core c := rfl

/-! ### Scalar registers -/

@[simp] theorem Hart.reg_zero (x : Hart) : x.reg 0 = 0 := rfl
@[simp] theorem Hart.setReg_zero (x : Hart) (v : Word) : x.setReg 0 v = x := rfl
/-- A scalar register after a write of one. -/
theorem Hart.reg_setReg (x : Hart) (r q : Reg) (v : Word) :
    (x.setReg r v).reg q = if q = 0 then 0 else if q = r then v else x.reg q := by
  unfold Hart.reg Hart.setReg
  by_cases hq : q = 0
  · simp [hq]
  · rw [if_neg hq, if_neg hq]
    by_cases hr : r = 0
    · rw [if_pos hr, if_neg (fun e => hq (e.trans hr)), if_neg hq]
    · rw [if_neg hr]
      simp only [Tab.get_set]
      by_cases h : q = r
      · rw [if_pos h, if_pos (by rw [h])]
      · rw [if_neg h, if_neg (fun e => h (BitVec.eq_of_toNat_eq e)), if_neg hq]

@[simp] theorem Hart.advance_placed (x : Hart) : (x.advance).placed = x.placed := rfl
@[simp] theorem Hart.advance_halted (x : Hart) : (x.advance).halted = x.halted := rfl
@[simp] theorem Hart.advance_uid (x : Hart) : (x.advance).uid = x.uid := rfl
@[simp] theorem Hart.advance_farm (x : Hart) : (x.advance).farm = x.farm := rfl
@[simp] theorem Hart.advance_idx (x : Hart) : (x.advance).idx = x.idx := rfl
@[simp] theorem Hart.advance_asid (x : Hart) : (x.advance).asid = x.asid := rfl
@[simp] theorem Hart.advance_regs (x : Hart) : (x.advance).regs = x.regs := rfl
@[simp] theorem Hart.advance_pstat (x : Hart) : (x.advance).pstat = x.pstat := rfl
@[simp] theorem Hart.advance_vtype (x : Hart) : (x.advance).vtype = x.vtype := rfl
@[simp] theorem Hart.advance_vl (x : Hart) : (x.advance).vl = x.vl := rfl
@[simp] theorem Hart.advance_mvl (x : Hart) : (x.advance).mvl = x.mvl := rfl
@[simp] theorem Hart.advance_fmode (x : Hart) : (x.advance).fmode = x.fmode := rfl
@[simp] theorem Hart.advance_temp (x : Hart) : (x.advance).temp = x.temp := rfl
@[simp] theorem Hart.advance_qstat (x : Hart) : (x.advance).qstat = x.qstat := rfl
@[simp] theorem Hart.advance_zpa (x : Hart) : (x.advance).zpa = x.zpa := rfl
@[simp] theorem Hart.advance_sfbase (x : Hart) : (x.advance).sfbase = x.sfbase := rfl
@[simp] theorem Hart.advance_clipn (x : Hart) : (x.advance).clipn = x.clipn := rfl
@[simp] theorem Hart.advance_zeron (x : Hart) : (x.advance).zeron = x.zeron := rfl
@[simp] theorem Hart.advance_qntn (x : Hart) : (x.advance).qntn = x.qntn := rfl
@[simp] theorem Hart.advance_clipth (x : Hart) : (x.advance).clipth = x.clipth := rfl
@[simp] theorem Hart.advance_sbudget (x : Hart) : (x.advance).sbudget = x.sbudget := rfl
@[simp] theorem Hart.advance_srlimit (x : Hart) : (x.advance).srlimit = x.srlimit := rfl
@[simp] theorem Hart.advance_srefn (x : Hart) : (x.advance).srefn = x.srefn := rfl
@[simp] theorem Hart.advance_recallW (x : Hart) : (x.advance).recallW = x.recallW := rfl
@[simp] theorem Hart.advance_pfspill (x : Hart) : (x.advance).pfspill = x.pfspill := rfl
@[simp] theorem Hart.advance_tvec (x : Hart) : (x.advance).tvec = x.tvec := rfl
@[simp] theorem Hart.advance_tcause (x : Hart) : (x.advance).tcause = x.tcause := rfl
@[simp] theorem Hart.advance_tpc (x : Hart) : (x.advance).tpc = x.tpc := rfl
@[simp] theorem Hart.advance_taddr (x : Hart) : (x.advance).taddr = x.taddr := rfl
@[simp] theorem Hart.advance_tidx (x : Hart) : (x.advance).tidx = x.tidx := rfl
@[simp] theorem Hart.advance_ttoken (x : Hart) : (x.advance).ttoken = x.ttoken := rfl
@[simp] theorem Hart.advance_mctx (x : Hart) : (x.advance).mctx = x.mctx := rfl
@[simp] theorem Hart.advance_cfg (x : Hart) : (x.advance).cfg = x.cfg := rfl
@[simp] theorem Hart.advance_vregs (x : Hart) : (x.advance).vregs = x.vregs := rfl
@[simp] theorem Hart.advance_masks (x : Hart) : (x.advance).masks = x.masks := rfl
@[simp] theorem Hart.advance_qcodes (x : Hart) : (x.advance).qcodes = x.qcodes := rfl
@[simp] theorem Hart.advance_qlin (x : Hart) : (x.advance).qlin = x.qlin := rfl
@[simp] theorem Hart.advance_sf (x : Hart) : (x.advance).sf = x.sf := rfl
@[simp] theorem Hart.advance_toks (x : Hart) : (x.advance).toks = x.toks := rfl
@[simp] theorem Hart.advance_ctrs (x : Hart) : (x.advance).ctrs = x.ctrs := rfl
@[simp] theorem Hart.advance_engFails (x : Hart) : (x.advance).engFails = x.engFails := rfl
@[simp] theorem Hart.advance_dims (x : Hart) : (x.advance).dims = x.dims := rfl
@[simp] theorem Hart.advance_binds (x : Hart) : (x.advance).binds = x.binds := rfl
@[simp] theorem Hart.advance_bolts (x : Hart) : (x.advance).bolts = x.bolts := rfl
@[simp] theorem Hart.advance_boltSeq (x : Hart) : (x.advance).boltSeq = x.boltSeq := rfl
@[simp] theorem Hart.advance_frames (x : Hart) : (x.advance).frames = x.frames := rfl
@[simp] theorem Hart.advance_vretq (x : Hart) : (x.advance).vretq = x.vretq := rfl
@[simp] theorem Hart.advance_routine (x : Hart) : (x.advance).routine = x.routine := rfl
@[simp] theorem Hart.advance_recalls (x : Hart) : (x.advance).recalls = x.recalls := rfl
@[simp] theorem Hart.advance_vwait (x : Hart) : (x.advance).vwait = x.vwait := rfl
@[simp] theorem Hart.advance_pend (x : Hart) : (x.advance).pend = x.pend := rfl
@[simp] theorem Hart.advance_notes (x : Hart) : (x.advance).notes = x.notes := rfl
@[simp] theorem Hart.advance_preempt (x : Hart) : (x.advance).preempt = x.preempt := rfl
@[simp] theorem Hart.advance_position (x : Hart) : (x.advance).position = x.position := rfl
@[simp] theorem Hart.advance_stores (x : Hart) : (x.advance).stores = x.stores := rfl
@[simp] theorem Hart.advance_fetched (x : Hart) : (x.advance).fetched = x.fetched := rfl
@[simp] theorem Hart.advance_told (x : Hart) : (x.advance).told = x.told := rfl
@[simp] theorem Hart.reg_advance (x : Hart) (r : Reg) : (x.advance).reg r = x.reg r := rfl

@[simp] theorem Hart.jump_placed (x : Hart) (t : Word) : (x.jump t).placed = x.placed := rfl
@[simp] theorem Hart.jump_halted (x : Hart) (t : Word) : (x.jump t).halted = x.halted := rfl
@[simp] theorem Hart.jump_uid (x : Hart) (t : Word) : (x.jump t).uid = x.uid := rfl
@[simp] theorem Hart.jump_farm (x : Hart) (t : Word) : (x.jump t).farm = x.farm := rfl
@[simp] theorem Hart.jump_idx (x : Hart) (t : Word) : (x.jump t).idx = x.idx := rfl
@[simp] theorem Hart.jump_asid (x : Hart) (t : Word) : (x.jump t).asid = x.asid := rfl
@[simp] theorem Hart.jump_regs (x : Hart) (t : Word) : (x.jump t).regs = x.regs := rfl
@[simp] theorem Hart.jump_pstat (x : Hart) (t : Word) : (x.jump t).pstat = x.pstat := rfl
@[simp] theorem Hart.jump_vtype (x : Hart) (t : Word) : (x.jump t).vtype = x.vtype := rfl
@[simp] theorem Hart.jump_vl (x : Hart) (t : Word) : (x.jump t).vl = x.vl := rfl
@[simp] theorem Hart.jump_mvl (x : Hart) (t : Word) : (x.jump t).mvl = x.mvl := rfl
@[simp] theorem Hart.jump_fmode (x : Hart) (t : Word) : (x.jump t).fmode = x.fmode := rfl
@[simp] theorem Hart.jump_temp (x : Hart) (t : Word) : (x.jump t).temp = x.temp := rfl
@[simp] theorem Hart.jump_qstat (x : Hart) (t : Word) : (x.jump t).qstat = x.qstat := rfl
@[simp] theorem Hart.jump_zpa (x : Hart) (t : Word) : (x.jump t).zpa = x.zpa := rfl
@[simp] theorem Hart.jump_sfbase (x : Hart) (t : Word) : (x.jump t).sfbase = x.sfbase := rfl
@[simp] theorem Hart.jump_clipn (x : Hart) (t : Word) : (x.jump t).clipn = x.clipn := rfl
@[simp] theorem Hart.jump_zeron (x : Hart) (t : Word) : (x.jump t).zeron = x.zeron := rfl
@[simp] theorem Hart.jump_qntn (x : Hart) (t : Word) : (x.jump t).qntn = x.qntn := rfl
@[simp] theorem Hart.jump_clipth (x : Hart) (t : Word) : (x.jump t).clipth = x.clipth := rfl
@[simp] theorem Hart.jump_sbudget (x : Hart) (t : Word) : (x.jump t).sbudget = x.sbudget := rfl
@[simp] theorem Hart.jump_srlimit (x : Hart) (t : Word) : (x.jump t).srlimit = x.srlimit := rfl
@[simp] theorem Hart.jump_srefn (x : Hart) (t : Word) : (x.jump t).srefn = x.srefn := rfl
@[simp] theorem Hart.jump_recallW (x : Hart) (t : Word) : (x.jump t).recallW = x.recallW := rfl
@[simp] theorem Hart.jump_pfspill (x : Hart) (t : Word) : (x.jump t).pfspill = x.pfspill := rfl
@[simp] theorem Hart.jump_tvec (x : Hart) (t : Word) : (x.jump t).tvec = x.tvec := rfl
@[simp] theorem Hart.jump_tcause (x : Hart) (t : Word) : (x.jump t).tcause = x.tcause := rfl
@[simp] theorem Hart.jump_tpc (x : Hart) (t : Word) : (x.jump t).tpc = x.tpc := rfl
@[simp] theorem Hart.jump_taddr (x : Hart) (t : Word) : (x.jump t).taddr = x.taddr := rfl
@[simp] theorem Hart.jump_tidx (x : Hart) (t : Word) : (x.jump t).tidx = x.tidx := rfl
@[simp] theorem Hart.jump_ttoken (x : Hart) (t : Word) : (x.jump t).ttoken = x.ttoken := rfl
@[simp] theorem Hart.jump_mctx (x : Hart) (t : Word) : (x.jump t).mctx = x.mctx := rfl
@[simp] theorem Hart.jump_cfg (x : Hart) (t : Word) : (x.jump t).cfg = x.cfg := rfl
@[simp] theorem Hart.jump_vregs (x : Hart) (t : Word) : (x.jump t).vregs = x.vregs := rfl
@[simp] theorem Hart.jump_masks (x : Hart) (t : Word) : (x.jump t).masks = x.masks := rfl
@[simp] theorem Hart.jump_qcodes (x : Hart) (t : Word) : (x.jump t).qcodes = x.qcodes := rfl
@[simp] theorem Hart.jump_qlin (x : Hart) (t : Word) : (x.jump t).qlin = x.qlin := rfl
@[simp] theorem Hart.jump_sf (x : Hart) (t : Word) : (x.jump t).sf = x.sf := rfl
@[simp] theorem Hart.jump_toks (x : Hart) (t : Word) : (x.jump t).toks = x.toks := rfl
@[simp] theorem Hart.jump_ctrs (x : Hart) (t : Word) : (x.jump t).ctrs = x.ctrs := rfl
@[simp] theorem Hart.jump_engFails (x : Hart) (t : Word) : (x.jump t).engFails = x.engFails := rfl
@[simp] theorem Hart.jump_dims (x : Hart) (t : Word) : (x.jump t).dims = x.dims := rfl
@[simp] theorem Hart.jump_binds (x : Hart) (t : Word) : (x.jump t).binds = x.binds := rfl
@[simp] theorem Hart.jump_bolts (x : Hart) (t : Word) : (x.jump t).bolts = x.bolts := rfl
@[simp] theorem Hart.jump_boltSeq (x : Hart) (t : Word) : (x.jump t).boltSeq = x.boltSeq := rfl
@[simp] theorem Hart.jump_frames (x : Hart) (t : Word) : (x.jump t).frames = x.frames := rfl
@[simp] theorem Hart.jump_vretq (x : Hart) (t : Word) : (x.jump t).vretq = x.vretq := rfl
@[simp] theorem Hart.jump_routine (x : Hart) (t : Word) : (x.jump t).routine = x.routine := rfl
@[simp] theorem Hart.jump_recalls (x : Hart) (t : Word) : (x.jump t).recalls = x.recalls := rfl
@[simp] theorem Hart.jump_vwait (x : Hart) (t : Word) : (x.jump t).vwait = x.vwait := rfl
@[simp] theorem Hart.jump_pend (x : Hart) (t : Word) : (x.jump t).pend = x.pend := rfl
@[simp] theorem Hart.jump_notes (x : Hart) (t : Word) : (x.jump t).notes = x.notes := rfl
@[simp] theorem Hart.jump_preempt (x : Hart) (t : Word) : (x.jump t).preempt = x.preempt := rfl
@[simp] theorem Hart.jump_position (x : Hart) (t : Word) : (x.jump t).position = x.position := rfl
@[simp] theorem Hart.jump_stores (x : Hart) (t : Word) : (x.jump t).stores = x.stores := rfl
@[simp] theorem Hart.jump_fetched (x : Hart) (t : Word) : (x.jump t).fetched = x.fetched := rfl
@[simp] theorem Hart.jump_told (x : Hart) (t : Word) : (x.jump t).told = x.told := rfl
@[simp] theorem Hart.reg_jump (x : Hart) (t : Word) (r : Reg) : (x.jump t).reg r = x.reg r := rfl

@[simp] theorem Hart.setReg_placed (x : Hart) (r : Reg) (v : Word) : (x.setReg r v).placed = x.placed := by unfold Hart.setReg; split <;> rfl
@[simp] theorem Hart.setReg_halted (x : Hart) (r : Reg) (v : Word) : (x.setReg r v).halted = x.halted := by unfold Hart.setReg; split <;> rfl
@[simp] theorem Hart.setReg_uid (x : Hart) (r : Reg) (v : Word) : (x.setReg r v).uid = x.uid := by unfold Hart.setReg; split <;> rfl
@[simp] theorem Hart.setReg_farm (x : Hart) (r : Reg) (v : Word) : (x.setReg r v).farm = x.farm := by unfold Hart.setReg; split <;> rfl
@[simp] theorem Hart.setReg_idx (x : Hart) (r : Reg) (v : Word) : (x.setReg r v).idx = x.idx := by unfold Hart.setReg; split <;> rfl
@[simp] theorem Hart.setReg_asid (x : Hart) (r : Reg) (v : Word) : (x.setReg r v).asid = x.asid := by unfold Hart.setReg; split <;> rfl
@[simp] theorem Hart.setReg_pc (x : Hart) (r : Reg) (v : Word) : (x.setReg r v).pc = x.pc := by unfold Hart.setReg; split <;> rfl
@[simp] theorem Hart.setReg_wrapFrom (x : Hart) (r : Reg) (v : Word) : (x.setReg r v).wrapFrom = x.wrapFrom := by unfold Hart.setReg; split <;> rfl
@[simp] theorem Hart.setReg_pstat (x : Hart) (r : Reg) (v : Word) : (x.setReg r v).pstat = x.pstat := by unfold Hart.setReg; split <;> rfl
@[simp] theorem Hart.setReg_vtype (x : Hart) (r : Reg) (v : Word) : (x.setReg r v).vtype = x.vtype := by unfold Hart.setReg; split <;> rfl
@[simp] theorem Hart.setReg_vl (x : Hart) (r : Reg) (v : Word) : (x.setReg r v).vl = x.vl := by unfold Hart.setReg; split <;> rfl
@[simp] theorem Hart.setReg_mvl (x : Hart) (r : Reg) (v : Word) : (x.setReg r v).mvl = x.mvl := by unfold Hart.setReg; split <;> rfl
@[simp] theorem Hart.setReg_fmode (x : Hart) (r : Reg) (v : Word) : (x.setReg r v).fmode = x.fmode := by unfold Hart.setReg; split <;> rfl
@[simp] theorem Hart.setReg_temp (x : Hart) (r : Reg) (v : Word) : (x.setReg r v).temp = x.temp := by unfold Hart.setReg; split <;> rfl
@[simp] theorem Hart.setReg_qstat (x : Hart) (r : Reg) (v : Word) : (x.setReg r v).qstat = x.qstat := by unfold Hart.setReg; split <;> rfl
@[simp] theorem Hart.setReg_zpa (x : Hart) (r : Reg) (v : Word) : (x.setReg r v).zpa = x.zpa := by unfold Hart.setReg; split <;> rfl
@[simp] theorem Hart.setReg_sfbase (x : Hart) (r : Reg) (v : Word) : (x.setReg r v).sfbase = x.sfbase := by unfold Hart.setReg; split <;> rfl
@[simp] theorem Hart.setReg_clipn (x : Hart) (r : Reg) (v : Word) : (x.setReg r v).clipn = x.clipn := by unfold Hart.setReg; split <;> rfl
@[simp] theorem Hart.setReg_zeron (x : Hart) (r : Reg) (v : Word) : (x.setReg r v).zeron = x.zeron := by unfold Hart.setReg; split <;> rfl
@[simp] theorem Hart.setReg_qntn (x : Hart) (r : Reg) (v : Word) : (x.setReg r v).qntn = x.qntn := by unfold Hart.setReg; split <;> rfl
@[simp] theorem Hart.setReg_clipth (x : Hart) (r : Reg) (v : Word) : (x.setReg r v).clipth = x.clipth := by unfold Hart.setReg; split <;> rfl
@[simp] theorem Hart.setReg_sbudget (x : Hart) (r : Reg) (v : Word) : (x.setReg r v).sbudget = x.sbudget := by unfold Hart.setReg; split <;> rfl
@[simp] theorem Hart.setReg_srlimit (x : Hart) (r : Reg) (v : Word) : (x.setReg r v).srlimit = x.srlimit := by unfold Hart.setReg; split <;> rfl
@[simp] theorem Hart.setReg_srefn (x : Hart) (r : Reg) (v : Word) : (x.setReg r v).srefn = x.srefn := by unfold Hart.setReg; split <;> rfl
@[simp] theorem Hart.setReg_recallW (x : Hart) (r : Reg) (v : Word) : (x.setReg r v).recallW = x.recallW := by unfold Hart.setReg; split <;> rfl
@[simp] theorem Hart.setReg_pfspill (x : Hart) (r : Reg) (v : Word) : (x.setReg r v).pfspill = x.pfspill := by unfold Hart.setReg; split <;> rfl
@[simp] theorem Hart.setReg_tvec (x : Hart) (r : Reg) (v : Word) : (x.setReg r v).tvec = x.tvec := by unfold Hart.setReg; split <;> rfl
@[simp] theorem Hart.setReg_tcause (x : Hart) (r : Reg) (v : Word) : (x.setReg r v).tcause = x.tcause := by unfold Hart.setReg; split <;> rfl
@[simp] theorem Hart.setReg_tpc (x : Hart) (r : Reg) (v : Word) : (x.setReg r v).tpc = x.tpc := by unfold Hart.setReg; split <;> rfl
@[simp] theorem Hart.setReg_taddr (x : Hart) (r : Reg) (v : Word) : (x.setReg r v).taddr = x.taddr := by unfold Hart.setReg; split <;> rfl
@[simp] theorem Hart.setReg_tidx (x : Hart) (r : Reg) (v : Word) : (x.setReg r v).tidx = x.tidx := by unfold Hart.setReg; split <;> rfl
@[simp] theorem Hart.setReg_ttoken (x : Hart) (r : Reg) (v : Word) : (x.setReg r v).ttoken = x.ttoken := by unfold Hart.setReg; split <;> rfl
@[simp] theorem Hart.setReg_mctx (x : Hart) (r : Reg) (v : Word) : (x.setReg r v).mctx = x.mctx := by unfold Hart.setReg; split <;> rfl
@[simp] theorem Hart.setReg_cfg (x : Hart) (r : Reg) (v : Word) : (x.setReg r v).cfg = x.cfg := by unfold Hart.setReg; split <;> rfl
@[simp] theorem Hart.setReg_vregs (x : Hart) (r : Reg) (v : Word) : (x.setReg r v).vregs = x.vregs := by unfold Hart.setReg; split <;> rfl
@[simp] theorem Hart.setReg_masks (x : Hart) (r : Reg) (v : Word) : (x.setReg r v).masks = x.masks := by unfold Hart.setReg; split <;> rfl
@[simp] theorem Hart.setReg_qcodes (x : Hart) (r : Reg) (v : Word) : (x.setReg r v).qcodes = x.qcodes := by unfold Hart.setReg; split <;> rfl
@[simp] theorem Hart.setReg_qlin (x : Hart) (r : Reg) (v : Word) : (x.setReg r v).qlin = x.qlin := by unfold Hart.setReg; split <;> rfl
@[simp] theorem Hart.setReg_sf (x : Hart) (r : Reg) (v : Word) : (x.setReg r v).sf = x.sf := by unfold Hart.setReg; split <;> rfl
@[simp] theorem Hart.setReg_toks (x : Hart) (r : Reg) (v : Word) : (x.setReg r v).toks = x.toks := by unfold Hart.setReg; split <;> rfl
@[simp] theorem Hart.setReg_ctrs (x : Hart) (r : Reg) (v : Word) : (x.setReg r v).ctrs = x.ctrs := by unfold Hart.setReg; split <;> rfl
@[simp] theorem Hart.setReg_engFails (x : Hart) (r : Reg) (v : Word) : (x.setReg r v).engFails = x.engFails := by unfold Hart.setReg; split <;> rfl
@[simp] theorem Hart.setReg_dims (x : Hart) (r : Reg) (v : Word) : (x.setReg r v).dims = x.dims := by unfold Hart.setReg; split <;> rfl
@[simp] theorem Hart.setReg_binds (x : Hart) (r : Reg) (v : Word) : (x.setReg r v).binds = x.binds := by unfold Hart.setReg; split <;> rfl
@[simp] theorem Hart.setReg_bolts (x : Hart) (r : Reg) (v : Word) : (x.setReg r v).bolts = x.bolts := by unfold Hart.setReg; split <;> rfl
@[simp] theorem Hart.setReg_boltSeq (x : Hart) (r : Reg) (v : Word) : (x.setReg r v).boltSeq = x.boltSeq := by unfold Hart.setReg; split <;> rfl
@[simp] theorem Hart.setReg_frames (x : Hart) (r : Reg) (v : Word) : (x.setReg r v).frames = x.frames := by unfold Hart.setReg; split <;> rfl
@[simp] theorem Hart.setReg_vretq (x : Hart) (r : Reg) (v : Word) : (x.setReg r v).vretq = x.vretq := by unfold Hart.setReg; split <;> rfl
@[simp] theorem Hart.setReg_routine (x : Hart) (r : Reg) (v : Word) : (x.setReg r v).routine = x.routine := by unfold Hart.setReg; split <;> rfl
@[simp] theorem Hart.setReg_recalls (x : Hart) (r : Reg) (v : Word) : (x.setReg r v).recalls = x.recalls := by unfold Hart.setReg; split <;> rfl
@[simp] theorem Hart.setReg_wait (x : Hart) (r : Reg) (v : Word) : (x.setReg r v).wait = x.wait := by unfold Hart.setReg; split <;> rfl
@[simp] theorem Hart.setReg_vwait (x : Hart) (r : Reg) (v : Word) : (x.setReg r v).vwait = x.vwait := by unfold Hart.setReg; split <;> rfl
@[simp] theorem Hart.setReg_pend (x : Hart) (r : Reg) (v : Word) : (x.setReg r v).pend = x.pend := by unfold Hart.setReg; split <;> rfl
@[simp] theorem Hart.setReg_notes (x : Hart) (r : Reg) (v : Word) : (x.setReg r v).notes = x.notes := by unfold Hart.setReg; split <;> rfl
@[simp] theorem Hart.setReg_preempt (x : Hart) (r : Reg) (v : Word) : (x.setReg r v).preempt = x.preempt := by unfold Hart.setReg; split <;> rfl
@[simp] theorem Hart.setReg_position (x : Hart) (r : Reg) (v : Word) : (x.setReg r v).position = x.position := by unfold Hart.setReg; split <;> rfl
@[simp] theorem Hart.setReg_stores (x : Hart) (r : Reg) (v : Word) : (x.setReg r v).stores = x.stores := by unfold Hart.setReg; split <;> rfl
@[simp] theorem Hart.setReg_fetched (x : Hart) (r : Reg) (v : Word) : (x.setReg r v).fetched = x.fetched := by unfold Hart.setReg; split <;> rfl
@[simp] theorem Hart.setReg_told (x : Hart) (r : Reg) (v : Word) : (x.setReg r v).told = x.told := by unfold Hart.setReg; split <;> rfl

/-! ### The trap -/

@[simp] theorem Hart.trap_placed (x : Hart) (t : TrapInfo) : (x.trap t).placed = x.placed := rfl
@[simp] theorem Hart.trap_halted (x : Hart) (t : TrapInfo) : (x.trap t).halted = x.halted := rfl
@[simp] theorem Hart.trap_uid (x : Hart) (t : TrapInfo) : (x.trap t).uid = x.uid := rfl
@[simp] theorem Hart.trap_farm (x : Hart) (t : TrapInfo) : (x.trap t).farm = x.farm := rfl
@[simp] theorem Hart.trap_idx (x : Hart) (t : TrapInfo) : (x.trap t).idx = x.idx := rfl
@[simp] theorem Hart.trap_asid (x : Hart) (t : TrapInfo) : (x.trap t).asid = x.asid := rfl
@[simp] theorem Hart.trap_regs (x : Hart) (t : TrapInfo) : (x.trap t).regs = x.regs := rfl
@[simp] theorem Hart.trap_vtype (x : Hart) (t : TrapInfo) : (x.trap t).vtype = x.vtype := rfl
@[simp] theorem Hart.trap_vl (x : Hart) (t : TrapInfo) : (x.trap t).vl = x.vl := rfl
@[simp] theorem Hart.trap_mvl (x : Hart) (t : TrapInfo) : (x.trap t).mvl = x.mvl := rfl
@[simp] theorem Hart.trap_fmode (x : Hart) (t : TrapInfo) : (x.trap t).fmode = x.fmode := rfl
@[simp] theorem Hart.trap_temp (x : Hart) (t : TrapInfo) : (x.trap t).temp = x.temp := rfl
@[simp] theorem Hart.trap_qstat (x : Hart) (t : TrapInfo) : (x.trap t).qstat = x.qstat := rfl
@[simp] theorem Hart.trap_zpa (x : Hart) (t : TrapInfo) : (x.trap t).zpa = x.zpa := rfl
@[simp] theorem Hart.trap_sfbase (x : Hart) (t : TrapInfo) : (x.trap t).sfbase = x.sfbase := rfl
@[simp] theorem Hart.trap_clipn (x : Hart) (t : TrapInfo) : (x.trap t).clipn = x.clipn := rfl
@[simp] theorem Hart.trap_zeron (x : Hart) (t : TrapInfo) : (x.trap t).zeron = x.zeron := rfl
@[simp] theorem Hart.trap_qntn (x : Hart) (t : TrapInfo) : (x.trap t).qntn = x.qntn := rfl
@[simp] theorem Hart.trap_clipth (x : Hart) (t : TrapInfo) : (x.trap t).clipth = x.clipth := rfl
@[simp] theorem Hart.trap_sbudget (x : Hart) (t : TrapInfo) : (x.trap t).sbudget = x.sbudget := rfl
@[simp] theorem Hart.trap_srlimit (x : Hart) (t : TrapInfo) : (x.trap t).srlimit = x.srlimit := rfl
@[simp] theorem Hart.trap_srefn (x : Hart) (t : TrapInfo) : (x.trap t).srefn = x.srefn := rfl
@[simp] theorem Hart.trap_recallW (x : Hart) (t : TrapInfo) : (x.trap t).recallW = x.recallW := rfl
@[simp] theorem Hart.trap_pfspill (x : Hart) (t : TrapInfo) : (x.trap t).pfspill = x.pfspill := rfl
@[simp] theorem Hart.trap_tvec (x : Hart) (t : TrapInfo) : (x.trap t).tvec = x.tvec := rfl
@[simp] theorem Hart.trap_mctx (x : Hart) (t : TrapInfo) : (x.trap t).mctx = x.mctx := rfl
@[simp] theorem Hart.trap_cfg (x : Hart) (t : TrapInfo) : (x.trap t).cfg = x.cfg := rfl
@[simp] theorem Hart.trap_vregs (x : Hart) (t : TrapInfo) : (x.trap t).vregs = x.vregs := rfl
@[simp] theorem Hart.trap_masks (x : Hart) (t : TrapInfo) : (x.trap t).masks = x.masks := rfl
@[simp] theorem Hart.trap_qcodes (x : Hart) (t : TrapInfo) : (x.trap t).qcodes = x.qcodes := rfl
@[simp] theorem Hart.trap_qlin (x : Hart) (t : TrapInfo) : (x.trap t).qlin = x.qlin := rfl
@[simp] theorem Hart.trap_sf (x : Hart) (t : TrapInfo) : (x.trap t).sf = x.sf := rfl
@[simp] theorem Hart.trap_toks (x : Hart) (t : TrapInfo) : (x.trap t).toks = x.toks := rfl
@[simp] theorem Hart.trap_ctrs (x : Hart) (t : TrapInfo) : (x.trap t).ctrs = x.ctrs := rfl
@[simp] theorem Hart.trap_engFails (x : Hart) (t : TrapInfo) : (x.trap t).engFails = x.engFails := rfl
@[simp] theorem Hart.trap_dims (x : Hart) (t : TrapInfo) : (x.trap t).dims = x.dims := rfl
@[simp] theorem Hart.trap_binds (x : Hart) (t : TrapInfo) : (x.trap t).binds = x.binds := rfl
@[simp] theorem Hart.trap_boltSeq (x : Hart) (t : TrapInfo) : (x.trap t).boltSeq = x.boltSeq := rfl
@[simp] theorem Hart.trap_vretq (x : Hart) (t : TrapInfo) : (x.trap t).vretq = x.vretq := rfl
@[simp] theorem Hart.trap_routine (x : Hart) (t : TrapInfo) : (x.trap t).routine = x.routine := rfl
@[simp] theorem Hart.trap_recalls (x : Hart) (t : TrapInfo) : (x.trap t).recalls = x.recalls := rfl
@[simp] theorem Hart.trap_pend (x : Hart) (t : TrapInfo) : (x.trap t).pend = x.pend := rfl
@[simp] theorem Hart.trap_notes (x : Hart) (t : TrapInfo) : (x.trap t).notes = x.notes := rfl
@[simp] theorem Hart.trap_preempt (x : Hart) (t : TrapInfo) : (x.trap t).preempt = x.preempt := rfl
@[simp] theorem Hart.trap_position (x : Hart) (t : TrapInfo) : (x.trap t).position = x.position := rfl
@[simp] theorem Hart.trap_stores (x : Hart) (t : TrapInfo) : (x.trap t).stores = x.stores := rfl
@[simp] theorem Hart.trap_fetched (x : Hart) (t : TrapInfo) : (x.trap t).fetched = x.fetched := rfl

end Sys2Proof.Machine
end

