-- ==== Sys2Proof/Laws/Ops.lean ====
section
/-!
SUPPORT. What the shared operations can do: the algebra of actions, how an instruction ends, the checks and accesses where
nothing stands in the way, and taking a trap.
-/
namespace Sys2Proof.Machine

open Sys2Proof

/-! ### Actions -/

theorem Act.bind_ok {α β : Type} {m : Act α} {f : α → Act β} {s t : State} {a : α} (h : m s = .ok (a, t)) :
    (m >>= f) s = f a t := by
  show (StateT.bind m f) s = f a t
  simp only [StateT.bind, h]; rfl
theorem Act.bind_error {α β : Type} {m : Act α} {f : α → Act β} {s : State} {e : Stop} (h : m s = .error e) :
    (m >>= f) s = .error e := by
  show (StateT.bind m f) s = .error e
  simp only [StateT.bind, h]; rfl
/-- An action followed by another that answers a state: the first does, and so does the second after it. -/
theorem Act.of_bind {α β : Type} {m : Act α} {f : α → Act β} {s u : State} {b : β} (h : (m >>= f) s = .ok (b, u)) :
    ∃ a t, m s = .ok (a, t) ∧ f a t = .ok (b, u) := by
  cases hm : m s with
  | error e => rw [Act.bind_error hm] at h; cases h
  | ok p => obtain ⟨a, t⟩ := p; exact ⟨a, t, rfl, by rw [Act.bind_ok hm] at h; exact h⟩

@[simp] theorem Act.pure_apply {α : Type} (a : α) (s : State) : (pure a : Act α) s = .ok (a, s) := rfl
@[simp] theorem Act.get_apply (s : State) : (get : Act State) s = .ok (s, s) := rfl
@[simp] theorem Act.set_apply (t s : State) : (set t : Act Unit) s = .ok ((), t) := rfl
@[simp] theorem Act.modify_apply (f : State → State) (s : State) : (modify f : Act Unit) s = .ok ((), f s) := rfl
@[simp] theorem Act.me_apply (s : State) : me s = .ok (s.me, s) := rfl
@[simp] theorem Act.modMe_apply (f : Hart → Hart) (s : State) : modMe f s = .ok ((), s.modMe f) := rfl
@[simp] theorem Act.myCore_apply (s : State) : myCore s = .ok (s.myCore, s) := rfl
@[simp] theorem Act.modMyCore_apply (f : Core → Core) (s : State) : modMyCore f s = .ok ((), s.modMyCore f) := rfl
@[simp] theorem Act.rd_apply (r : Reg) (s : State) : rd r s = .ok (s.me.reg r, s) := rfl
@[simp] theorem Act.wrNext_apply (r : Reg) (v : Word) (s : State) :
    wrNext r v s = .ok ((), s.modMe (fun x => (x.setReg r v).advance)) := rfl
@[simp] theorem Act.next_apply (s : State) : next s = .ok ((), s.modMe Hart.advance) := rfl
@[simp] theorem Act.raise_apply {α : Type} (c a : Nat) (s : State) : (raise c a : Act α) s = .error (.trap (s.stemTrap c a)) := rfl
@[simp] theorem Act.raiseIf_false (c a : Nat) (s : State) : raiseIf false c a s = .ok ((), s) := rfl
@[simp] theorem Act.raiseIf_true (c a : Nat) (s : State) : raiseIf true c a s = .error (.trap (s.stemTrap c a)) := rfl
@[simp] theorem Act.stall_apply {α : Type} (k : WaitKind) (l : Option Nat) (s : State) : (stall k l : Act α) s = .error (.stall k l) := rfl
@[simp] theorem Act.stallIf_false (k : WaitKind) (s : State) : stallIf false k s = .ok ((), s) := rfl
@[simp] theorem Act.stallIf_true (k : WaitKind) (s : State) : stallIf true k s = .error (.stall k none) := rfl
@[simp] theorem Act.vraise_apply {α : Type} (c a e k : Nat) (s : State) :
    (vraise c a e k : Act α) s = .error (.trap (s.vecTrap c a e k)) := rfl
@[simp] theorem Act.vraiseIf_false (c a e : Nat) (s : State) : vraiseIf false c a e s = .ok ((), s) := rfl
@[simp] theorem Act.vraiseIf_true (c a e : Nat) (s : State) : vraiseIf true c a e s = .error (.trap (s.vecTrap c a e)) := rfl

/-! ### How an instruction ends -/

theorem runStem_next {m : Act Unit} {s t : State} (h : m s = .ok ((), t)) : runStem m s = .next t := by
  simp only [runStem, h]
theorem runStem_trap {m : Act Unit} {s : State} {i : TrapInfo} (h : m s = .error (.trap i)) : runStem m s = .next (s.takeTrap i) := by
  simp only [runStem, h]
theorem runStem_wait {m : Act Unit} {s : State} {k : WaitKind} {l : Option Nat} (h : m s = .error (.stall k l)) :
    runStem m s = .next (s.beginWait k l) := by
  simp only [runStem, h]
/-- A stem instruction answers a next state: its effect, the trap it raises, or its wait. -/
theorem runStem_cases (m : Act Unit) (s : State) :
    ∃ t, runStem m s = .next t ∧ (m s = .ok ((), t) ∨ (∃ i, m s = .error (.trap i) ∧ t = s.takeTrap i) ∨
      ∃ k l, m s = .error (.stall k l) ∧ t = s.beginWait k l) := by
  rcases h : m s with e | ⟨⟨⟩, t⟩
  · cases e with
    | trap i => exact ⟨_, runStem_trap h, .inr (.inl ⟨i, rfl, rfl⟩)⟩
    | stall k l => exact ⟨_, runStem_wait h, .inr (.inr ⟨k, l, rfl, rfl⟩)⟩
  · exact ⟨t, runStem_next h, .inl rfl⟩

theorem bolts_of_head {x : Hart} {b : Bolt} (h : x.bolts.head? = some b) : ∃ t, x.bolts = b :: t := by
  cases hb : x.bolts with
  | nil => rw [hb] at h; cases h
  | cons c t => rw [hb] at h; cases h; exact ⟨t, rfl⟩

theorem runVec_next {m : Bolt → Act Unit} {s t : State} {b : Bolt} (hb : s.me.bolts.head? = some b) (h : m b s = .ok ((), t)) :
    runVec m s = .next t := by
  obtain ⟨bs, e⟩ := bolts_of_head hb
  simp only [runVec, e, h]
theorem runVec_trap {m : Bolt → Act Unit} {s : State} {b : Bolt} {i : TrapInfo} (hb : s.me.bolts.head? = some b)
    (h : m b s = .error (.trap i)) : runVec m s = .next (s.takeTrap i) := by
  obtain ⟨bs, e⟩ := bolts_of_head hb
  simp only [runVec, e, h]
theorem runVec_wait {m : Bolt → Act Unit} {s : State} {b : Bolt} {k : WaitKind} {l : Option Nat}
    (hb : s.me.bolts.head? = some b) (h : m b s = .error (.stall k l)) : runVec m s = .next (s.vwaitFor k l) := by
  obtain ⟨bs, e⟩ := bolts_of_head hb
  simp only [runVec, e, h]
/-- A bolt instruction answers a next state: nothing without a bolt, else its effect, the trap it raises, or its wait. -/
theorem runVec_cases (m : Bolt → Act Unit) (s : State) :
    ∃ t, runVec m s = .next t ∧ ((s.me.bolts = [] ∧ t = s) ∨ ∃ b bs, s.me.bolts = b :: bs ∧
      (m b s = .ok ((), t) ∨ (∃ i, m b s = .error (.trap i) ∧ t = s.takeTrap i) ∨
        ∃ k l, m b s = .error (.stall k l) ∧ t = s.vwaitFor k l)) := by
  cases hb : s.me.bolts with
  | nil => exact ⟨s, by simp only [runVec, hb], .inl ⟨rfl, rfl⟩⟩
  | cons b bs =>
    have hh : s.me.bolts.head? = some b := by rw [hb]; rfl
    rcases h : m b s with e | ⟨⟨⟩, t⟩
    · cases e with
      | trap i => exact ⟨_, runVec_trap hh h, .inr ⟨b, bs, rfl, .inr (.inl ⟨i, h, rfl⟩)⟩⟩
      | stall k l => exact ⟨_, runVec_wait hh h, .inr ⟨b, bs, rfl, .inr (.inr ⟨k, l, h, rfl⟩)⟩⟩
    · exact ⟨t, runVec_next hh h, .inr ⟨b, bs, rfl, .inl h⟩⟩

end Sys2Proof.Machine
end

