-- ==== Sys2Proof/Laws/Access.lean ====
section
/-!
SUPPORT. What an access to memory can do to the state: it changes memories, grove L2s, error state and the host side alone,
and it keeps the invariant of the memories.
-/
namespace Sys2Proof.Machine

open Sys2Proof

/-! ### The invariant by its parts -/

/-- A grove whose lines hold what they have dirty. -/
def Grove.sound (x : Grove) : Prop := ∀ l ∈ x.lines, l.2.dirty &&& ~~~l.2.valid = 0

theorem linesOk_iff (s : State) : s.linesOk ↔ ∀ p ∈ s.groves, p.2.sound := by
  simp only [State.linesOk, List.all_eq_true, decide_eq_true_eq, Grove.sound]
theorem Grove.sound_vacant : Grove.vacant.sound := fun _ h => absurd h (by simp [Grove.vacant])

theorem Tab.get_mem {α : Type} (d : α) (t : Tab α) (k : Nat) : Tab.get d t k = d ∨ (k, Tab.get d t k) ∈ t := by
  induction t with
  | nil => exact .inl rfl
  | cons p t ih =>
    obtain ⟨k', v⟩ := p
    simp only [Tab.get]
    split
    · next h => subst h; exact .inr (List.mem_cons_self ..)
    · rcases ih with h | h
      · exact .inl h
      · exact .inr (List.mem_cons_of_mem _ h)

theorem State.grove_sound {s : State} (h : s.linesOk) (g : Nat) : (s.grove g).sound := by
  rcases Tab.get_mem Grove.vacant s.groves g with e | e
  · rw [State.grove, e]; exact Grove.sound_vacant
  · exact (linesOk_iff s).1 h _ e
theorem State.line_sound {s : State} (h : s.linesOk) (g l : Nat) : (s.line g l).dirty &&& ~~~(s.line g l).valid = 0 := by
  rcases Tab.get_mem Line.none (s.grove g).lines l with e | e
  · rw [State.line, e]; exact BitVec.zero_and
  · exact State.grove_sound h g _ e
theorem State.linesOk_setGrove {s : State} (h : s.linesOk) {g : Nat} {x : Grove} (hx : x.sound) : (s.setGrove g x).linesOk := by
  rw [linesOk_iff] at h ⊢
  intro p hp
  rcases Tab.mem_put _ _ _ _ hp with e | e
  · rw [e]; exact hx
  · exact h p e
theorem Grove.sound_set {x : Grove} (h : x.sound) (l : Nat) {y : Line} (hy : y.dirty &&& ~~~y.valid = 0) :
    Grove.sound { x with lines := Tab.set Line.none x.lines l y } := by
  intro p hp
  simp only [Tab.set] at hp
  split at hp
  · exact h p ((Tab.mem_del _ _ _).1 hp).1
  · rcases Tab.mem_put _ _ _ _ hp with e | e
    · rw [e]; exact hy
    · exact h p e

/-! ### What an access changes -/

/-- What an access to memory leaves as it was: all but the memories and their caches, the grove L2s, the error state and the host
side. -/
def State.Same (s t : State) : Prop :=
  t = { s with dev := t.dev, hbm := t.hbm, hostMem := t.hostMem, groves := t.groves, rel := t.rel, host := t.host }
/-- An access: it leaves the rest as it was and keeps the invariant. -/
structure State.Steps (s t : State) : Prop where
  same : s.Same t
  inv : s.inv → t.inv

theorem State.Same.refl (s : State) : s.Same s := rfl
theorem State.Same.trans {s t u : State} (h : s.Same t) (k : t.Same u) : s.Same u := by
  unfold State.Same at h k ⊢
  rw [h] at k
  exact k
theorem State.Steps.refl (s : State) : s.Steps s := ⟨.refl s, id⟩
theorem State.Steps.trans {s t u : State} (h : s.Steps t) (k : t.Steps u) : s.Steps u :=
  ⟨h.same.trans k.same, k.inv ∘ h.inv⟩
theorem State.Steps.ite {s t u : State} {c : Prop} [Decidable c] (h : s.Steps t) (k : s.Steps u) : s.Steps (if c then t else u) := by
  split
  · exact h
  · exact k
theorem State.Steps.foldl {α : Type} {f : State → α → State} (h : ∀ (s : State) (a : α), s.Steps (f s a)) (l : List α) (s : State) :
    s.Steps (l.foldl f s) := by
  induction l generalizing s with
  | nil => exact .refl s
  | cons a l ih => exact (h s a).trans (ih _)
/-- A change of the error state and the host side alone is a step. -/
theorem State.Steps.aside (s : State) (r : Reliab) (x : HostSide) : s.Steps { s with rel := r, host := x } := ⟨rfl, id⟩

/-- An access that leaves the error state and the host side as they were where no structure holds an error. -/
structure State.Quiet (s t : State) : Prop extends State.Steps s t where
  calm : s.clean → t.rel = s.rel ∧ t.host = s.host
theorem State.Quiet.refl (s : State) : s.Quiet s := ⟨.refl s, fun _ => ⟨rfl, rfl⟩⟩
theorem State.Quiet.clean {s t : State} (h : s.Quiet t) (c : s.clean) : t.clean := by
  rw [State.clean, (h.calm c).1]; exact c
theorem State.Quiet.trans {s t u : State} (h : s.Quiet t) (k : t.Quiet u) : s.Quiet u :=
  ⟨h.toSteps.trans k.toSteps, fun c => ⟨(k.calm (h.clean c)).1.trans (h.calm c).1, (k.calm (h.clean c)).2.trans (h.calm c).2⟩⟩
theorem State.Quiet.ite {s t u : State} {c : Prop} [Decidable c] (h : s.Quiet t) (k : s.Quiet u) : s.Quiet (if c then t else u) := by
  split
  · exact h
  · exact k
theorem State.Quiet.foldl {α : Type} {f : State → α → State} (h : ∀ (s : State) (a : α), s.Quiet (f s a)) (l : List α) (s : State) :
    s.Quiet (l.foldl f s) := by
  induction l generalizing s with
  | nil => exact .refl s
  | cons a l ih => exact (h s a).trans (ih _)
/-- What is done only where a structure holds an error. -/
theorem State.Quiet.upset {s t : State} (h : s.Steps t) : s.Quiet (if s.rel.upsets = [] then s else t) := by
  refine ⟨.ite (.refl s) h, fun c => ?_⟩
  rw [if_pos c]
  exact ⟨rfl, rfl⟩

theorem State.Same.harts {s t : State} (h : s.Same t) : t.harts = s.harts := by rw [h]
theorem State.Same.cores {s t : State} (h : s.Same t) : t.cores = s.cores := by rw [h]
theorem State.Same.cur {s t : State} (h : s.Same t) : t.cur = s.cur := by rw [h]
theorem State.Same.maps {s t : State} (h : s.Same t) : t.maps = s.maps := by rw [h]
theorem State.Same.migs {s t : State} (h : s.Same t) : t.migs = s.migs := by rw [h]
theorem State.Same.xfers {s t : State} (h : s.Same t) : t.xfers = s.xfers := by rw [h]
theorem State.Same.noReply {s t : State} (h : s.Same t) : t.noReply = s.noReply := by rw [h]
theorem State.Same.boot {s t : State} (h : s.Same t) : t.boot = s.boot := by rw [h]
theorem State.Same.hart {s t : State} (h : s.Same t) (k : Nat) : t.hart k = s.hart k := by rw [State.hart, h.harts, State.hart]
theorem State.Same.core {s t : State} (h : s.Same t) (k : Nat) : t.core k = s.core k := by rw [State.core, h.cores, State.core]
theorem State.Same.me {s t : State} (h : s.Same t) : t.me = s.me := by rw [State.me, h.cur, h.hart, State.me]

theorem State.homeWrite_quiet (s : State) (pa w v : Nat) : s.Quiet (s.homeWrite pa w v) := by
  unfold State.homeWrite
  split
  · exact ⟨⟨rfl, fun h => ⟨⟨Memory.wf_write _ _ _ _ h.1.1, h.1.2⟩, h.2⟩⟩, fun _ => ⟨rfl, rfl⟩⟩
  · split
    · exact ⟨⟨rfl, fun h => ⟨⟨h.1.1, Memory.wf_write _ _ _ _ h.1.2⟩, h.2⟩⟩, fun _ => ⟨rfl, rfl⟩⟩
    · exact .refl s
theorem State.setLine_quiet (s : State) (g l : Nat) {y : Line} (hy : s.linesOk → y.dirty &&& ~~~y.valid = 0) :
    s.Quiet (s.setLine g l y) := by
  refine ⟨⟨rfl, fun h => ⟨h.1, State.linesOk_setGrove h.2 (Grove.sound_set (State.grove_sound h.2 g) l ?_)⟩⟩, fun _ => ⟨rfl, rfl⟩⟩
  split
  · exact BitVec.zero_and
  · exact hy h.2
theorem State.setGrove_quiet (s : State) (g : Nat) {x : Grove} (hx : s.linesOk → x.sound) : s.Quiet (s.setGrove g x) :=
  ⟨⟨rfl, fun h => ⟨h.1, State.linesOk_setGrove h.2 (hx h.2)⟩⟩, fun _ => ⟨rfl, rfl⟩⟩

theorem State.homeUse_quiet (s : State) (l : Nat) : s.Quiet (s.homeUse l) := ⟨⟨rfl, id⟩, fun _ => ⟨rfl, rfl⟩⟩
theorem State.clearUpsets_quiet (s : State) (st p : Nat) (f : Nat → Bool) : s.Quiet (s.clearUpsets st p f) :=
  .upset (.aside s _ _)
theorem State.cleanPage_quiet (s : State) (pa n : Nat) : s.Quiet (s.cleanPage pa n) :=
  (s.clearUpsets_quiet _ _ _).trans (State.clearUpsets_quiet _ _ _ _)
theorem State.homePut_quiet (s : State) (pa w v : Nat) : s.Quiet (s.homePut pa w v) :=
  (s.homeWrite_quiet pa w v).trans (State.cleanPage_quiet _ _ _)
/-- Scalar L1 lines given up, or taken in (R106). -/
theorem State.dropL1_quiet (s : State) (g l : Nat) (m : BitVec 512) : s.Quiet (s.dropL1 g l m) := by
  unfold State.dropL1
  dsimp only
  exact .ite (s.setGrove_quiet _ fun h => State.grove_sound h g) (.refl s)
theorem State.fillL1_quiet (s : State) (k asid v p : Nat) : s.Quiet (s.fillL1 k asid v p) :=
  s.setGrove_quiet _ fun h => State.grove_sound h (k / 8)

theorem State.post_steps (s : State) (e : Event) : s.Steps (s.post e).1 := by
  unfold State.post
  split
  · exact .refl s
  · split
    · exact .aside s s.rel _
    · dsimp only
      split
      · exact .aside s s.rel _
      · exact (s.homePut_quiet ..).toSteps.trans (.aside _ _ _)
theorem State.posted_steps (s : State) (e : Event) : s.Steps (s.posted e) := s.post_steps e
theorem State.drainLog_steps (s : State) (lv : Nat) : s.Steps (s.drainLog lv) := by
  unfold State.drainLog
  dsimp only
  refine .ite (.refl s) (.trans (.trans ?_ (.foldl (fun _ _ => State.posted_steps _ _) _ _)) (.aside _ _ _))
  exact .ite (s.posted_steps _) (.refl s)
theorem State.logError_steps (s : State) (a c k h : Nat) : s.Steps (s.logError a c k h) := by
  unfold State.logError
  dsimp only
  split
  · exact .aside s _ s.host
  · refine State.Steps.ite ?_ ?_
    · exact .trans (.aside s _ s.host) (State.drainLog_steps _ _)
    · exact .aside s _ s.host
theorem State.clearUpset_steps (s : State) (u : Upset) : s.Steps (s.clearUpset u) := .aside s _ _
theorem State.poison_steps (s : State) (st p w : Nat) : s.Steps (s.poison st p w) :=
  (s.clearUpsets_quiet _ _ _).toSteps.trans (.aside _ _ _)
theorem State.poisonLine_steps (s : State) (st p w : Nat) : s.Steps (s.poisonLine st p w) :=
  .foldl (fun s _ => .ite (.refl s) (s.poison_steps _ _ _)) _ _
theorem State.poisonAt_steps (s : State) (u : Upset) : s.Steps (s.poisonAt u) := by
  unfold State.poisonAt
  refine .ite (s.poisonLine_steps _ _ _) (.ite ?_ (s.poison_steps _ _ _))
  exact (s.poison_steps _ _ _).trans (.aside _ _ _)
theorem State.findUpset_steps (s : State) (u : Upset) (h : Nat) : s.Steps (s.findUpset u h) := by
  unfold State.findUpset
  split
  · exact (s.clearUpset_steps u).trans (State.logError_steps _ _ _ _ _)
  · split
    · exact .refl s
    · exact (s.poisonAt_steps u).trans (State.logError_steps _ _ _ _ _)
theorem State.carryHome_quiet (s : State) (g l : Nat) (m : BitVec 512) : s.Quiet (s.carryHome g l m) := by
  unfold State.carryHome
  refine .upset ?_
  exact .trans (.trans (.trans (s.clearUpsets_quiet _ _ _).toSteps (State.clearUpsets_quiet _ _ _ _).toSteps)
    (.foldl (fun s u => s.findUpset_steps u _) _ _)) (.foldl (fun s _ => s.poison_steps _ _ _) _ _)
theorem State.carryIn_quiet (s : State) (g l : Nat) (m : BitVec 512) : s.Quiet (s.carryIn g l m) := by
  unfold State.carryIn
  refine .upset ?_
  exact .trans (.foldl (fun s u => s.findUpset_steps u _) _ _) (.foldl (fun s _ => s.poison_steps _ _ _) _ _)

theorem and_not_of_sub {a b m : BitVec 512} (h : a &&& ~~~b = 0#512) : (a &&& ~~~m) &&& ~~~b = 0#512 := by
  rw [BitVec.and_assoc, BitVec.and_comm (~~~m), ← BitVec.and_assoc, h, BitVec.zero_and]
theorem and_not_of_left {a b m : BitVec 512} (h : a &&& ~~~b = 0#512) : (a &&& ~~~m) &&& ~~~(b &&& ~~~m) = 0#512 := by
  apply BitVec.eq_of_getLsbD_eq
  intro i hi
  have hb := congrArg (·.getLsbD i) h
  simp only [BitVec.getLsbD_and, BitVec.getLsbD_not, BitVec.getLsbD_zero, hi, decide_true, Bool.true_and] at hb ⊢
  revert hb
  generalize a.getLsbD i = x
  generalize b.getLsbD i = y
  generalize m.getLsbD i = z
  revert x y z
  decide

theorem State.groves_homeWrite (t : State) (pa w v : Nat) : (t.homeWrite pa w v).groves = t.groves := by
  unfold State.homeWrite
  split
  · rfl
  · split <;> rfl
theorem State.homeWrite_setLine_quiet (t : State) (pa w v g l : Nat) {y : Line}
    (hy : t.linesOk → y.dirty &&& ~~~y.valid = 0) : t.Quiet ((t.homeWrite pa w v).setLine g l y) := by
  refine (t.homeWrite_quiet pa w v).trans (State.setLine_quiet _ _ _ fun hl => hy ?_)
  rw [linesOk_iff] at hl ⊢
  rwa [State.groves_homeWrite] at hl
theorem State.writeBack_quiet (s : State) (g l : Nat) (m : BitVec 512) : s.Quiet (s.writeBack g l m) := by
  unfold State.writeBack
  dsimp only
  refine .ite (.refl s) ((s.carryHome_quiet _ _ _).trans (State.homeWrite_setLine_quiet _ _ _ _ _ _ fun hl => ?_))
  exact and_not_of_sub (State.line_sound hl g l)
theorem State.writeBackAll_quiet (s : State) (g : Nat) : s.Quiet (s.writeBackAll g) :=
  .foldl (fun s _ => s.writeBack_quiet _ _ _) _ _
theorem State.useLine_quiet (s : State) (g l : Nat) : s.Quiet (s.useLine g l) := by
  unfold State.useLine
  dsimp only
  refine .ite (.refl s) ?_
  refine .trans (((s.carryIn_quiet _ _ _).trans (State.dropL1_quiet _ _ _ _)).trans (State.homeUse_quiet _ _))
    (State.setLine_quiet _ _ _ fun _ => ?_)
  rw [BitVec.not_allOnes]
  exact BitVec.and_zero
theorem State.dropBits_quiet (s : State) (g pa n : Nat) : s.Quiet (s.dropBits g pa n) := by
  unfold State.dropBits
  dsimp only
  refine .trans ((s.writeBack_quiet _ _ _).trans (State.dropL1_quiet _ _ _ _)) (.ite (.refl _) ?_)
  refine .trans (State.clearUpsets_quiet _ _ _ _) (State.setLine_quiet _ _ _ fun hl => ?_)
  refine and_not_of_left (State.line_sound (s := State.dropL1 _ _ _ _) ?_ g _)
  unfold State.clearUpsets at hl
  split at hl <;> exact hl
theorem State.dropLine_quiet (s : State) (g l : Nat) : s.Quiet (s.dropLine g l) :=
  .trans ((s.clearUpsets_quiet _ _ _).trans (State.dropL1_quiet _ _ _ _)) (State.setLine_quiet _ _ _ fun _ => BitVec.zero_and)

theorem State.readPart_quiet (s : State) (g : Nat) (sc : Scope) (pa n : Nat) : s.Quiet (s.readPart g sc pa n).2 := by
  unfold State.readPart
  split
  · split
    · exact s.useLine_quiet _ _
    · exact (s.dropBits_quiet _ _ _).trans (State.homeUse_quiet _ _)
  · exact .refl s

theorem State.line_setLine (s : State) (g l : Nat) (y : Line) : (s.setLine g l y).line g l = if y.valid = 0 then Line.none else y := by
  simp only [State.setLine, State.line, State.grove, State.setGrove, Tab.get_put_self, Tab.get_set_self]
/-- A line at its use holds every bit. -/
theorem State.valid_useLine (s : State) (g l : Nat) : ((s.useLine g l).line g l).valid = BitVec.allOnes 512 := by
  unfold State.useLine
  dsimp only
  split
  · next h => exact h.1
  · rw [State.line_setLine, if_neg]
    intro h
    have := congrArg (·.getLsbD 0) h
    simp at this
/-- Giving up L1 lines leaves the grove's own as they are. -/
theorem State.line_dropL1 (s : State) (g l k j : Nat) (m : BitVec 512) : (s.dropL1 g l m).line k j = s.line k j := by
  unfold State.dropL1
  dsimp only
  split
  · by_cases h : k = g
    · subst h
      simp only [State.line, State.grove, State.setGrove, Tab.get_put_self]
    · simp only [State.line, State.grove, State.setGrove, Tab.get_put_ne _ _ _ h]
  · rfl
theorem State.writePart_quiet (s : State) (g : Nat) (sc : Scope) (pa n v : Nat) : s.Quiet (s.writePart g sc pa n v) := by
  unfold State.writePart
  split
  · split
    · refine .trans ((s.useLine_quiet _ _).trans (State.dropL1_quiet _ _ _ _)) (State.setLine_quiet _ _ _ fun _ => ?_)
      dsimp only
      rw [State.line_dropL1, State.valid_useLine, BitVec.not_allOnes]
      exact BitVec.and_zero
    · exact (s.dropBits_quiet _ _ _).trans (State.homeWrite_quiet _ _ _ _)
  · exact s.homeWrite_quiet _ _ _
theorem State.readParts_quiet (g : Nat) (sc : Scope) (l : List (Nat × Nat)) (s : State) : s.Quiet (s.readParts g sc l).2 := by
  induction l generalizing s with
  | nil => exact .refl s
  | cons p l ih => exact (s.readPart_quiet g sc p.1 p.2).trans (ih _)
theorem State.writeParts_quiet (g : Nat) (sc : Scope) (l : List (Nat × Nat)) (s : State) (v : Nat) :
    s.Quiet (s.writeParts g sc l v) := by
  induction l generalizing s v with
  | nil => exact .refl s
  | cons p l ih => exact (s.writePart_quiet g sc p.1 p.2 _).trans (ih _ _)
theorem State.vread_quiet (s : State) (asid g : Nat) (sc : Scope) (a n : Nat) : s.Quiet (s.vread asid g sc a n).2 :=
  State.readParts_quiet _ _ _ _
theorem State.sread_quiet (s : State) (asid : Nat) (sc : Scope) (a n : Nat) : s.Quiet (s.sread asid sc a n).2 := by
  unfold State.sread
  dsimp only
  split
  · exact (s.vread_quiet ..).trans (.foldl (fun s _ => .ite (.foldl (fun s _ => s.fillL1_quiet _ _ _ _) _ _) (.refl s)) _ _)
  · exact s.vread_quiet ..
theorem State.vwrite_quiet (s : State) (asid g : Nat) (sc : Scope) (a n v : Nat) : s.Quiet (s.vwrite asid g sc a n v) :=
  State.writeParts_quiet _ _ _ _ _
theorem State.writeHome_quiet (l : List (Nat × Nat)) (s : State) (v : Nat) : s.Quiet (s.writeHome l v) := by
  induction l generalizing s v with
  | nil => exact .refl s
  | cons p l ih => exact (s.homePut_quiet p.1 p.2 _).trans (ih _ _)
theorem State.vwriteHome_quiet (s : State) (asid a n v : Nat) : s.Quiet (s.vwriteHome asid a n v) :=
  State.writeHome_quiet _ _ _

theorem State.countScoped_quiet (s : State) : s.Quiet s.countScoped := by
  refine ⟨⟨rfl, fun h => ⟨h.1, ?_⟩⟩, fun _ => ⟨rfl, rfl⟩⟩
  have h := (linesOk_iff s).1 h.2
  rw [linesOk_iff]
  intro p hp
  obtain ⟨q, hq, rfl⟩ := List.mem_map.1 hp
  split
  · exact h q hq
  · exact h q hq
theorem State.release_quiet (s : State) (g : Nat) (sc : Scope) : s.Quiet (s.release g sc) :=
  .ite (.refl s) ((s.writeBackAll_quiet g).trans (State.countScoped_quiet _))
theorem State.sweepFrom_quiet (s : State) (g n : Nat) : s.Quiet (s.sweepFrom g n) :=
  .foldl (fun s _ => .ite ((s.writeBack_quiet _ _ _).trans (State.dropLine_quiet _ _ _)) (.refl s)) _ _
theorem State.sweepLines_quiet (s : State) (g : Nat) : s.Quiet (s.sweepLines g) := s.sweepFrom_quiet g 64
theorem State.nextGen_quiet (s : State) (g : Nat) : s.Quiet (s.nextGen g) :=
  (s.sweepFrom_quiet g 255).trans (State.setGrove_quiet _ _ fun h => State.grove_sound h g)
theorem State.acquire_quiet (s : State) (g : Nat) (sc : Scope) : s.Quiet (s.acquire g sc) :=
  .ite (.refl s) (s.countScoped_quiet.trans (State.nextGen_quiet _ _))
theorem State.wakeGrove_quiet (s : State) (g : Nat) : s.Quiet (s.wakeGrove g) := by
  unfold State.wakeGrove
  dsimp only
  refine .ite (.refl s) ?_
  have h0 : s.Quiet (s.setGrove g { s.grove g with asleep := false, d := 0 }) :=
    s.setGrove_quiet _ fun h => State.grove_sound h g
  refine .ite ?_ ?_
  · exact (h0.trans (State.writeBackAll_quiet _ g)).trans (.foldl (fun s _ => s.dropLine_quiet _ _) _ _)
  · refine .trans ((h0.trans (State.sweepFrom_quiet _ g _)).trans (State.setGrove_quiet _ _ ?_)) (State.sweepLines_quiet _ g)
    exact fun h l hl => State.grove_sound h g l hl
theorem State.noteIdle_quiet (s : State) (h : Nat) : s.Quiet (s.noteIdle h) :=
  s.setGrove_quiet _ fun hl => State.grove_sound hl (groveOf h)
theorem State.cleanWords_quiet (s : State) (g : Nat) (sc : Scope) (ps : List (Nat × Nat)) : s.Quiet (s.cleanWords g sc ps) :=
  .ite (.refl s) (.foldl (fun s _ => .ite (s.clearUpsets_quiet _ _ _)
    ((s.clearUpsets_quiet _ _ _).trans (State.cleanPage_quiet _ _ _))) _ _)
theorem State.putParts_quiet (s : State) (g : Nat) (sc : Scope) (ps : List (Nat × Nat)) (v : Nat) : s.Quiet (s.putParts g sc ps v) :=
  (State.writeParts_quiet g sc ps s v).trans (State.cleanWords_quiet _ _ _ _)

/-! ### Accesses where nothing stands in the way -/

theorem check_ok {s : State} {a n cls : Nat} {k : AccKind} (h : s.checkAccess s.me.asid a n k = none) :
    check a n k cls s = .ok ((), s) := by
  unfold check
  rw [Act.bind_ok (Act.get_apply s), h]
  rfl
theorem check_fails {s : State} {a n cls : Nat} {k : AccKind} {e : Nat × Nat} (h : s.checkAccess s.me.asid a n k = some e) :
    check a n k cls s = .error (.trap (s.stemTrap (memCause e.1 cls) e.2)) := by
  unfold check
  rw [Act.bind_ok (Act.get_apply s), h]
  rfl
theorem firstSome_none {α β : Type} {f : α → Option β} {l : List α} (h : ∀ a ∈ l, f a = none) : firstSome f l = none := by
  induction l with
  | nil => rfl
  | cons a t ih =>
    unfold firstSome
    rw [h a (List.mem_cons_self ..)]
    exact ih fun b hb => h b (List.mem_cons_of_mem _ hb)
/-- No host access of the running hart fails where the host answers (R307). -/
theorem State.hostFail_none {s : State} {asid a n : Nat} (cls : Nat) (h : s.answers asid a n = true) :
    s.hostFail s.cur asid a n cls = none := by
  refine firstSome_none fun p hp => ?_
  have k := List.all_eq_true.1 h p hp
  by_cases i : isHost p.pa = true
  · simp only [i, Bool.not_true, Bool.false_or, Bool.and_eq_true, Bool.not_eq_true'] at k
    rw [i, if_neg (by decide), if_neg (by rw [k.1]; decide), Option.map_eq_none_iff, List.find?_eq_none]
    intro q hq e
    exact absurd (List.any_eq_true.2 ⟨q, hq, e⟩) (by rw [k.2]; decide)
  · rw [if_pos (by simpa using i)]
theorem access_ok {s : State} {a n cls : Nat} {k : AccKind} (h : s.reaches a n k) : access a n k cls s = .ok ((), s) := by
  obtain ⟨h1, h2, h3, h4⟩ := h
  unfold access
  rw [Act.bind_ok (check_ok h1)]
  unfold reach
  rw [Act.bind_ok (Act.get_apply s), h2]
  simp only [h3, State.hostFail_none cls h4]
  rfl
theorem access_fails {s : State} {a n cls : Nat} {k : AccKind} {e : Nat × Nat} (h : s.checkAccess s.me.asid a n k = some e) :
    access a n k cls s = .error (.trap (s.stemTrap (memCause e.1 cls) e.2)) := by
  unfold access
  rw [Act.bind_error (check_fails h)]
theorem State.memUpsets_clean {s : State} (h : s.clean) (g : Nat) (sc : Scope) (ps : List (Nat × Nat)) : s.memUpsets g sc ps = [] :=
  if_pos h
theorem consumeUpsets_nil (t : TrapInfo) (s : State) : consumeUpsets [] t s = .ok ((), s) := rfl
theorem State.cleanWords_clean {s : State} (h : s.clean) (g : Nat) (sc : Scope) (ps : List (Nat × Nat)) : s.cleanWords g sc ps = s :=
  if_pos h
/-- A hart with no access left to perform has none to perform now. -/
theorem State.drainBy_nil {s : State} {h : Nat} (k : (s.hart h).stores = []) (must : Pending → Bool) : s.drainBy h must = s := by
  unfold State.drainBy
  rw [k]
theorem State.drainFor_nil {s : State} {h : Nat} (k : (s.hart h).stores = []) (ps : List (Nat × Nat)) : s.drainFor h ps = s :=
  State.drainBy_nil k _
theorem State.drain_nil {s : State} {h : Nat} (k : (s.hart h).stores = []) : s.drain h = s := State.drainBy_nil k _
theorem State.drainRegs_nil {s : State} {h : Nat} (k : (s.hart h).stores = []) (rs : List Reg) : s.drainRegs h rs = s :=
  State.drainBy_nil k _
theorem State.putParts_clean {s : State} (h : s.clean) (g : Nat) (sc : Scope) (ps : List (Nat × Nat)) (v : Nat) :
    s.putParts g sc ps v = State.writeParts g sc s ps v :=
  State.cleanWords_clean ((State.writeParts_quiet g sc ps s v).clean h) _ _ _
/-- A scalar read where no structure holds an error and no store of the hart waits: the value of memory at the scope. -/
theorem readBits_ok {s : State} (h : s.clean) (k : s.me.stores = []) (a n : Nat) (sc : Scope) :
    readBits a n sc s = .ok ((s.sread s.me.asid sc a n).1, (s.sread s.me.asid sc a n).2) := by
  have e : (s.sread s.me.asid sc a n).2.me.stores = [] := by rw [(State.sread_quiet ..).same.me, k]
  unfold readBits
  rw [Act.bind_ok (Act.get_apply s)]
  refine (Act.bind_ok (Act.set_apply _ s)).trans ?_
  rw [State.drainBy_nil (h := s.cur) k, Act.bind_ok (Act.get_apply s), State.memUpsets_clean h, Act.bind_ok (consumeUpsets_nil _ s),
    Act.bind_ok (Act.get_apply s)]
  refine (Act.bind_ok (Act.set_apply _ s)).trans ?_
  change Except.ok (List.foldl _ _ (s.sread s.me.asid sc a n).2.me.stores, _) = _
  rw [e]
  rfl
/-- A scalar write under the same conditions. -/
theorem writeBits_ok {s : State} (h : s.clean) (k : s.me.stores = []) (a n v : Nat) (sc : Scope) :
    writeBits a n v sc s = .ok ((), s.vwrite s.me.asid (groveOf s.cur) sc a n v) := by
  have e : s.drainFor s.cur (s.phys s.me.asid a n) = s := State.drainFor_nil k _
  unfold writeBits
  rw [Act.bind_ok (Act.get_apply s), Act.set_apply, e]
  exact congrArg (fun x => Except.ok ((), x)) (State.putParts_clean h _ _ _ _)
theorem awaitBolts_ok {s : State} (h : s.me.bolts = []) : awaitBolts s = .ok ((), s) := by
  unfold awaitBolts
  rw [Act.bind_ok (Act.me_apply s)]
  simp [Hart.drained, h]
theorem awaitXfers_ok {s : State} (h : s.xfersOf s.cur = []) : awaitXfers s = .ok ((), s) := by
  unfold awaitXfers
  rw [Act.bind_ok (Act.get_apply s)]
  simp [State.dueXfers, h]

end Sys2Proof.Machine
end

