-- ==== Sys2Proof/Laws/Traps.lean ====
section
/-!
SUPPORT. Taking a trap and returning from it: what is saved, the fields of the status, and what stays as it was.
-/
namespace Sys2Proof.Machine

open Sys2Proof

/-! ### The fields of PSTAT that a trap writes -/

theorem pstatWith_bit (p : Word) (d : Nat) (v : Bool) (i : Nat) : (pstatWith p d v).getLsbD i =
    if i = 13 then v else if i = 14 then (d % 4).testBit 0 else if i = 15 then (d % 4).testBit 1 else p.getLsbD i := by
  by_cases hi : i < 64
  · have hm : ∀ i < 64, (0xFFFFFFFFFFFF1FFF#64).getLsbD i = (decide (i < 13) || decide (16 ≤ i)) := by decide
    have hv : ∀ i < 64, (0x2000#64).getLsbD i = decide (i = 13) := by decide
    have hd : ∀ i < 64, (BitVec.ofNat 64 (d % 4) <<< 14).getLsbD i = (decide (14 ≤ i) && (d % 4).testBit (i - 14)) := by
      intro i hi
      simp only [BitVec.getLsbD_shiftLeft, BitVec.getLsbD_ofNat, hi, decide_true, Bool.true_and]
      by_cases h : i < 14
      · have h' : ¬ (14 ≤ i) := by omega
        simp only [h, h', decide_true, decide_false, Bool.not_true, Bool.false_and]
      · have h' : 14 ≤ i := by omega
        have h2 : i - 14 < 64 := by omega
        simp only [h, h', h2, decide_true, decide_false, Bool.not_false, Bool.true_and]
    have hd' : ∀ k, 2 ≤ k → (d % 4).testBit k = false := by
      intro k hk
      apply Nat.testBit_lt_two_pow
      calc d % 4 < 2 ^ 2 := Nat.mod_lt _ (by decide)
        _ ≤ 2 ^ k := Nat.pow_le_pow_right (by decide) hk
    have e : (pstatWith p d v).getLsbD i = ((p.getLsbD i && (decide (i < 13) || decide (16 ≤ i))) ||
        (decide (14 ≤ i) && (d % 4).testBit (i - 14)) || (v && decide (i = 13))) := by
      unfold pstatWith
      rw [BitVec.getLsbD_or, BitVec.getLsbD_or, BitVec.getLsbD_and]
      congr 1
      · congr 1
        · congr 1
          exact hm i hi
        · exact hd i hi
      · cases v
        · simp
        · simpa using hv i hi
    rw [e]
    split
    · next h => subst h; simp
    · next h13 =>
      split
      · next h => subst h; simp
      · next h14 =>
        split
        · next h => subst h; simp
        · next h15 =>
          by_cases h : i < 13
          · have h2 : ¬ 14 ≤ i := by omega
            simp [h, h2, h13]
          · have h1 : 16 ≤ i := by omega
            have h2 : 14 ≤ i := by omega
            simp [h1, h2, h13, hd' (i - 14) (by omega)]
  · have hi' : 64 ≤ i := by omega
    rw [BitVec.getLsbD_of_ge _ _ hi', BitVec.getLsbD_of_ge _ _ hi', if_neg (by omega), if_neg (by omega), if_neg (by omega)]
@[simp] theorem pstatWith_depth (p : Word) (d : Nat) (v : Bool) : ((pstatWith p d v).extractLsb' 14 2).toNat = d % 4 := by
  have h : (pstatWith p d v).extractLsb' 14 2 = BitVec.ofNat 2 (d % 4) := by
    apply BitVec.eq_of_getLsbD_eq
    intro i hi
    rw [BitVec.getLsbD_extractLsb', pstatWith_bit, BitVec.getLsbD_ofNat]
    have : i = 0 ∨ i = 1 := by omega
    rcases this with rfl | rfl <;> simp
  rw [h, BitVec.toNat_ofNat]
  omega
@[simp] theorem pstatWith_vt (p : Word) (d : Nat) (v : Bool) : (pstatWith p d v).getLsbD 13 = v := by
  rw [pstatWith_bit, if_pos rfl]
theorem pstatWith_else (p : Word) (d : Nat) (v : Bool) (i : Nat) (h : i < 13 ∨ 16 ≤ i) :
    (pstatWith p d v).getLsbD i = p.getLsbD i := by
  rw [pstatWith_bit, if_neg (by omega), if_neg (by omega), if_neg (by omega)]

theorem Hart.depth_lt (x : Hart) : x.depth < 4 := by
  have := (x.pstat.extractLsb' 14 2).isLt
  simpa [Hart.depth] using this
theorem Hart.depth_trap (x : Hart) (t : TrapInfo) : (x.trap t).depth = (x.depth + 1) % 4 := pstatWith_depth ..
theorem Hart.vt_trap (x : Hart) (t : TrapInfo) : (x.trap t).vt = t.vec := pstatWith_vt ..

/-! ### take_trap -/

theorem State.logConsumed_steps (s : State) (h c a : Nat) : s.Steps (s.logConsumed h c a) :=
  .ite (.trans (.ite (s.poisonLine_steps ..) (.ite (s.poisonLine_steps ..) (.refl s))) (State.logError_steps ..)) (.refl s)
theorem State.countSquash_steps (s : State) (t : TrapInfo) : s.Steps (s.countSquash t) :=
  .ite (.aside s _ s.host) (.refl s)
/-- The log of a consumed error and the count of a window squash, which come before a trap. -/
theorem State.trapNotes_steps (s : State) (h : Nat) (t : TrapInfo) :
    s.Steps ((s.logConsumed h t.cause t.addr.toNat).countSquash t) :=
  (s.logConsumed_steps ..).trans (State.countSquash_steps ..)
theorem State.trapNotes_plain {s : State} {h : Nat} {t : TrapInfo} (c : t.cause < 320 ∨ 416 ≤ t.cause) :
    (s.logConsumed h t.cause t.addr.toNat).countSquash t = s := by
  have e : s.logConsumed h t.cause t.addr.toNat = s := if_neg (by omega)
  rw [e]
  exact if_neg (by omega)

/-- The end of the host access that a trap reports (R307) changes only which host accesses are to fail. -/
theorem State.answered_eq (s : State) (h a c va : Nat) : s.answered h a c va = { s with noReply := (s.answered h a c va).noReply } := by
  unfold State.answered
  split <;> rfl
theorem State.answered_plain {s : State} {h a c va : Nat} (k : s.noReply = [] ∨ c < 104 ∨ 117 ≤ c) : s.answered h a c va = s := by
  unfold State.answered
  rw [if_neg]
  rintro ⟨n, l, u⟩
  rcases k with k | k | k
  · exact n k
  · omega
  · omega

theorem State.hart_setHart_self (s : State) (h : Nat) (x : Hart) : (s.setHart h x).hart h = x := Tab.get_put_self ..
theorem State.hart_setHart_ne (s : State) {h k : Nat} (x : Hart) (n : k ≠ h) : (s.setHart h x).hart k = s.hart k :=
  Tab.get_put_ne _ _ _ n

/-- take_trap (R300) in one equation below depth 3: the state it writes to is the same but for memories, logs and events. -/
theorem State.takeTrapOn_low (s : State) (h : Nat) (t : TrapInfo) (d : (s.hart h).depth ≠ 3) :
    ∃ u l, s.Steps u ∧ (t.cause < 320 ∨ 416 ≤ t.cause → u = s) ∧
      (s.noReply = [] ∨ t.cause < 104 ∨ 117 ≤ t.cause → l = s.noReply) ∧
      s.takeTrapOn h t = (({ u with noReply := l } : State).setHart h ((s.hart h).trap t)).recordTrap h t.cause t.pc := by
  have q := s.trapNotes_steps h t
  refine ⟨_, (((s.logConsumed h t.cause t.addr.toNat).countSquash t).answered h (s.hart h).asid t.cause t.addr.toNat).noReply, q,
    fun c => State.trapNotes_plain c, fun c => ?_, ?_⟩
  · rw [State.answered_plain (by rw [q.same.noReply]; exact c), q.same.noReply]
  · unfold State.takeTrapOn
    have e := State.answered_eq ((s.logConsumed h t.cause t.addr.toNat).countSquash t) h (s.hart h).asid t.cause t.addr.toNat
    have k (m : Nat) : (((s.logConsumed h t.cause t.addr.toNat).countSquash t).answered h (s.hart h).asid t.cause
        t.addr.toNat).hart m = s.hart m := by rw [e]; exact q.same.hart m
    dsimp only
    rw [k, if_neg d, e]
/-- take_trap (R300) at depth 3: the hart is halted, and the event posted. -/
theorem State.takeTrapOn_deep (s : State) (h : Nat) (t : TrapInfo) (d : (s.hart h).depth = 3) :
    ∃ u l e, s.Steps u ∧ s.takeTrapOn h t =
      ((({ u with noReply := l } : State).setHart h ((s.hart h).haltAt t.cause)).recordTrap h 63 t.pc).posted e := by
  have q := s.trapNotes_steps h t
  have e := State.answered_eq ((s.logConsumed h t.cause t.addr.toNat).countSquash t) h (s.hart h).asid t.cause t.addr.toNat
  have k (m : Nat) : (((s.logConsumed h t.cause t.addr.toNat).countSquash t).answered h (s.hart h).asid t.cause
      t.addr.toNat).hart m = s.hart m := by rw [e]; exact q.same.hart m
  refine ⟨_, (((s.logConsumed h t.cause t.addr.toNat).countSquash t).answered h (s.hart h).asid t.cause t.addr.toNat).noReply,
    ?_, q, ?_⟩
  · exact ((((s.logConsumed h t.cause t.addr.toNat).countSquash t).answered h (s.hart h).asid t.cause t.addr.toNat).setHart h
      ((s.hart h).haltAt t.cause)).hartEvent h 3 63 (nword t.cause) t.pc []
  · unfold State.takeTrapOn
    dsimp only
    rw [k, if_pos d]
    exact congrArg (fun z : State => ((z.setHart h ((s.hart h).haltAt t.cause)).recordTrap h 63 t.pc).posted _) e
/-- The hart after take_trap. -/
theorem State.hart_takeTrapOn (s : State) (h : Nat) (t : TrapInfo) :
    (s.takeTrapOn h t).hart h = if (s.hart h).depth = 3 then (s.hart h).haltAt t.cause else (s.hart h).trap t := by
  split
  · next d =>
    obtain ⟨u, l, e, -, k⟩ := s.takeTrapOn_deep h t d
    rw [k, (State.posted_steps ..).same.hart]
    exact State.hart_setHart_self ..
  · next d =>
    obtain ⟨u, l, -, -, -, k⟩ := s.takeTrapOn_low h t d
    rw [k]
    exact State.hart_setHart_self ..
/-- No other hart, no core, no mapping and no transfer changes as a trap is taken, and the invariant of the memories stays. -/
theorem State.takeTrapOn_frame (s : State) (h : Nat) (t : TrapInfo) :
    (∀ k, k ≠ h → (s.takeTrapOn h t).hart k = s.hart k) ∧ (s.takeTrapOn h t).cores = s.cores ∧
      (s.takeTrapOn h t).maps = s.maps ∧ (s.takeTrapOn h t).xfers = s.xfers ∧ (s.takeTrapOn h t).cur = s.cur ∧
      (s.inv → (s.takeTrapOn h t).inv) := by
  by_cases d : (s.hart h).depth = 3
  · obtain ⟨u, l, e, q, k⟩ := s.takeTrapOn_deep h t d
    have p := State.posted_steps ((({ u with noReply := l } : State).setHart h ((s.hart h).haltAt t.cause)).recordTrap h 63 t.pc) e
    rw [k]
    refine ⟨fun j n => ?_, p.same.cores.trans q.same.cores, p.same.maps.trans q.same.maps, p.same.xfers.trans q.same.xfers,
      p.same.cur.trans q.same.cur, fun i => p.inv (q.inv i)⟩
    rw [p.same.hart]
    exact (State.hart_setHart_ne _ _ n).trans (q.same.hart j)
  · obtain ⟨u, l, q, -, -, k⟩ := s.takeTrapOn_low h t d
    rw [k]
    refine ⟨fun j n => ?_, q.same.cores, q.same.maps, q.same.xfers, q.same.cur, fun i => q.inv i⟩
    exact (State.hart_setHart_ne _ _ n).trans (q.same.hart j)
/-- The running hart after a trap below depth 3. -/
theorem State.me_takeTrap (s : State) (t : TrapInfo) (d : s.me.depth ≠ 3) : (s.takeTrap t).me = s.me.trap t := by
  have c : (s.takeTrap t).cur = s.cur := (s.takeTrapOn_frame s.cur t).2.2.2.2.1
  unfold State.me
  rw [c]
  exact (s.hart_takeTrapOn s.cur t).trans (if_neg d)
theorem State.me_takeTrap_deep (s : State) (t : TrapInfo) (d : s.me.depth = 3) : (s.takeTrap t).me = s.me.haltAt t.cause := by
  have c : (s.takeTrap t).cur = s.cur := (s.takeTrapOn_frame s.cur t).2.2.2.2.1
  unfold State.me
  rw [c]
  exact (s.hart_takeTrapOn s.cur t).trans (if_pos d)

end Sys2Proof.Machine
end

