-- ==== Sys2Proof/Laws/Bolts.lean ====
section
/-!
SUPPORT. The shared operations of bolt instructions where no structure holds an error: the operand checks, the sources and
what reading them can change, and how an element-wise instruction ends.
-/
namespace Sys2Proof.Machine

open Sys2Proof

/-! ### Actions that keep a relation -/

/-- An action that, where it answers a state, answers one related to the state before. -/
structure Act.Keeps {α : Type} (P : State → State → Prop) (m : Act α) : Prop where
  on : ∀ s a t, m s = .ok (a, t) → P s t
/-- A relation that holds of a state and itself, and along two steps. -/
structure Preorder' (P : State → State → Prop) : Prop where
  refl : ∀ s, P s s
  trans : ∀ s t u, P s t → P t u → P s u

theorem Act.Keeps.pure {α : Type} {P : State → State → Prop} (h : Preorder' P) (a : α) : Act.Keeps P (pure a : Act α) := by
  refine ⟨fun s b t e => ?_⟩
  cases e
  exact h.refl s
theorem Act.Keeps.bind {α β : Type} {P : State → State → Prop} (h : Preorder' P) {m : Act α} {f : α → Act β}
    (hm : Act.Keeps P m) (hf : ∀ a, Act.Keeps P (f a)) : Act.Keeps P (m >>= f) := by
  refine ⟨fun s b u e => ?_⟩
  obtain ⟨a, t, e1, e2⟩ := Act.of_bind e
  exact h.trans _ _ _ (hm.on _ _ _ e1) ((hf a).on _ _ _ e2)
theorem Act.Keeps.get {P : State → State → Prop} (h : Preorder' P) : Act.Keeps P (get : Act State) := by
  refine ⟨fun s a t e => ?_⟩
  cases e
  exact h.refl s
theorem Act.Keeps.me {P : State → State → Prop} (h : Preorder' P) : Act.Keeps P me := by
  refine ⟨fun s a t e => ?_⟩
  cases e
  exact h.refl s
theorem Act.Keeps.vraise {α : Type} {P : State → State → Prop} (c a e k : Nat) : Act.Keeps P (vraise c a e k : Act α) := by
  refine ⟨fun s b t h => ?_⟩
  cases h
theorem Act.Keeps.stall {α : Type} {P : State → State → Prop} (k : WaitKind) (l : Option Nat) : Act.Keeps P (stall k l : Act α) := by
  refine ⟨fun s b t h => ?_⟩
  cases h
theorem Act.Keeps.modMe {P : State → State → Prop} {f : Hart → Hart} (h : ∀ s : State, P s (s.modMe f)) : Act.Keeps P (modMe f) := by
  refine ⟨fun s a t e => ?_⟩
  cases e
  exact h s
theorem Act.Keeps.modify {P : State → State → Prop} {f : State → State} (h : ∀ s : State, P s (f s)) :
    Act.Keeps P (modify f : Act Unit) := by
  refine ⟨fun s a t e => ?_⟩
  cases e
  exact h s
theorem Act.Keeps.forM {α : Type} {P : State → State → Prop} (h : Preorder' P) (l : List α) {f : α → Act Unit}
    (hf : ∀ a, Act.Keeps P (f a)) : Act.Keeps P (l.forM f) := by
  induction l with
  | nil => exact .pure h ()
  | cons a l ih => exact .bind h (hf a) (fun _ => ih)
theorem Act.Keeps.mapM {α β : Type} {P : State → State → Prop} (h : Preorder' P) (l : List α) {f : α → Act β}
    (hf : ∀ a, Act.Keeps P (f a)) : Act.Keeps P (l.mapM f) := by
  induction l with
  | nil => exact .pure h _
  | cons a l ih =>
    rw [List.mapM_cons]
    exact .bind h (hf a) (fun _ => .bind h ih (fun _ => .pure h _))
theorem Act.Keeps.foldlM {α β : Type} {P : State → State → Prop} (h : Preorder' P) (l : List α) {f : β → α → Act β} (b : β)
    (hf : ∀ b a, Act.Keeps P (f b a)) : Act.Keeps P (l.foldlM f b) := by
  induction l generalizing b with
  | nil => exact .pure h b
  | cons a l ih =>
    rw [List.foldlM_cons]
    exact .bind h (hf b a) (fun c => ih c)

/-! ### What reading sources can change -/

/-- Where no structure holds an error, reading sources changes memories and their caches, grove L2s, and of harts the strips consumed and the
flags of the running one. -/
structure State.Drawn (s t : State) : Prop where
  same : t = { s with harts := t.harts, dev := t.dev, hbm := t.hbm, hostMem := t.hostMem, groves := t.groves }
  harts : ∀ h, h ≠ s.cur → t.hart h = s.hart h
  me : t.me = { s.me with binds := t.me.binds, fmode := t.me.fmode }
  inv : s.inv → t.inv
theorem State.Drawn.cur {s t : State} (h : s.Drawn t) : t.cur = s.cur := by rw [h.same]
theorem State.Drawn.clean {s t : State} (h : s.Drawn t) (c : s.clean) : t.clean := by
  have e : t.rel = s.rel := by rw [h.same]
  rw [State.clean, e]
  exact c
theorem State.Drawn.refl (s : State) : s.Drawn s := ⟨rfl, fun _ _ => rfl, rfl, id⟩
theorem State.Drawn.trans {s t u : State} (a : s.Drawn t) (b : t.Drawn u) : s.Drawn u := by
  refine ⟨?_, fun h n => ?_, ?_, b.inv ∘ a.inv⟩
  · have x := b.same
    have y := a.same
    rw [y] at x
    exact x
  · exact (b.harts h (by rw [a.cur]; exact n)).trans (a.harts h n)
  · have x := b.me
    rw [a.me] at x
    exact x
/-- Where a state is clean, and the state after is drawn from it. -/
def drawnFrom (s t : State) : Prop := s.clean → s.Drawn t
theorem drawnFrom_order : Preorder' drawnFrom :=
  ⟨fun s _ => .refl s, fun _ _ _ h k c => (h c).trans (k ((h c).clean c))⟩
theorem State.Quiet.drawn {s t : State} (h : s.Quiet t) : drawnFrom s t := by
  intro c
  have k := h.calm c
  refine ⟨?_, fun g _ => h.same.hart g, ?_, h.inv⟩
  · have x := h.same
    unfold State.Same at x
    rw [k.1, k.2] at x
    rw [h.same.harts]
    exact x
  · rw [h.same.me]

theorem State.drawn_modMe (s : State) {f : Hart → Hart} (h : ∀ x : Hart, f x = { x with binds := (f x).binds, fmode := (f x).fmode }) :
    s.Drawn (s.modMe f) := by
  refine ⟨rfl, fun g n => State.hart_setHart_ne _ _ n, ?_, id⟩
  have e : (s.modMe f).me = f s.me := State.hart_setHart_self ..
  rw [e]
  exact h s.me

theorem meetUpset_ok {s : State} (c : s.clean) (st p : Nat) (f : Nat → Bool) (e : Nat) : meetUpset st p f e s = .ok ((), s) := by
  unfold meetUpset
  rw [Act.bind_ok (Act.get_apply s), if_pos c]
  rfl
theorem predCheck_ok {s : State} (c : s.clean) (i : Instr) (b : Bolt) : predCheck i b s = .ok ((), s) := by
  unfold predCheck
  rw [Act.bind_ok (Act.get_apply s), if_pos c]
  rfl
theorem operands_ok {s : State} {i : Instr} (c : s.clean) (h : operandCause i s.me = none) : operands i s = .ok ((), s) := by
  unfold operands
  rw [Act.bind_ok (Act.get_apply s), h]
  cases s.me.bolts with
  | nil => rfl
  | cons b l => exact predCheck_ok c i b
theorem operands_fails {s : State} {i : Instr} {c : Nat} (h : operandCause i s.me = some c) :
    operands i s = .error (.trap (s.vecTrap c 0)) := by
  unfold operands
  rw [Act.bind_ok (Act.get_apply s), h]
  rfl
theorem regCheck_ok {s : State} (c : s.clean) (b : Bolt) (k : MaskOp) (vs : List VReg) : regCheck b k vs s = .ok ((), s) := by
  unfold regCheck
  rw [Act.bind_ok (Act.get_apply s), if_pos c]
  rfl
theorem slotsWritten_ok {s : State} (c : s.clean) (v : VReg) (es : List Nat) : slotsWritten v es s = .ok ((), s) := by
  unfold slotsWritten
  rw [if_pos c]

theorem vecRead_ok {s : State} (c : s.clean) (sp : Nat) (p : Foot) (sc : Scope) :
    vecRead sp p sc s = .ok ((s.vread sp (groveOf s.cur) sc p.a p.w).1, (s.vread sp (groveOf s.cur) sc p.a p.w).2) := by
  unfold vecRead
  rw [Act.bind_ok (Act.get_apply s), State.memUpsets_clean c, Act.bind_ok (consumeUpsets_nil _ s), Act.bind_ok (Act.get_apply s)]
  rfl
theorem vecRead_drawn (sp : Nat) (p : Foot) (sc : Scope) : Act.Keeps drawnFrom (vecRead sp p sc) := by
  refine ⟨fun s a t h => ?_⟩
  intro c
  rw [vecRead_ok c] at h
  cases h
  exact (State.vread_quiet ..).drawn c
theorem streamElem_drawn (sp : Nat) (d : Binding) (e n : Nat) : Act.Keeps drawnFrom (streamElem sp d e n) := by
  have o := drawnFrom_order
  unfold streamElem
  split
  · exact .pure o _
  · refine .bind o (vecRead_drawn ..) (fun c => ?_)
    split
    · exact .bind o (vecRead_drawn ..) (fun _ => .pure o _)
    · exact .bind o (.pure o _) (fun _ => .pure o _)
theorem stripElem_drawn (sp : Nat) (x : Hart) (d : Binding) (t : Tag) (p : Nat × Nat) :
    Act.Keeps drawnFrom (stripElem sp x d t p) := by
  have o := drawnFrom_order
  unfold stripElem
  refine .bind o (streamElem_drawn ..) (fun c => ?_)
  dsimp only
  split
  · exact .pure o _
  · exact .pure o _
theorem tokenCheck_drawn (k : Nat) (kind : AccKind) (cls consumer : Nat) (fp : List Foot) :
    Act.Keeps drawnFrom (tokenCheck k kind cls consumer fp) := by
  have o := drawnFrom_order
  unfold tokenCheck
  refine .bind o (.get o) (fun s => ?_)
  split
  · exact .vraise ..
  · exact .pure o _
theorem layerCheck_drawn (d : Binding) : Act.Keeps drawnFrom (layerCheck d) := by
  have o := drawnFrom_order
  unfold layerCheck
  refine .bind o (.get o) (fun s => ?_)
  split
  · exact .pure o _
  · split
    · exact .pure o _
    · split
      · exact .vraise ..
      · exact .stall ..
theorem vreach_drawn (sp seq : Nat) (kind : AccKind) (cls : Nat) (fp : List Foot) :
    Act.Keeps drawnFrom (vreach sp seq kind cls fp) := by
  have o := drawnFrom_order
  unfold vreach
  refine .bind o (.get o) (fun s => ?_)
  split
  · exact .stall ..
  · split
    · exact .stall ..
    · split
      · exact .vraise ..
      · exact .pure o _
theorem tokSpace_drawn (k : Nat) : Act.Keeps drawnFrom (tokSpace k) := by
  refine ⟨fun s a t h => ?_⟩
  cases h
  exact drawnFrom_order.refl s
theorem strip_drawn (b : Bolt) (k : MaskOp) (v : VReg) (d : Binding) : Act.Keeps drawnFrom (strip b k v d) := by
  have o := drawnFrom_order
  unfold strip
  refine .bind o (.me o) (fun x => ?_)
  dsimp only
  refine .bind o (tokenCheck_drawn ..) (fun _ => ?_)
  split
  · refine .bind o (layerCheck_drawn ..) (fun _ => .bind o (tokSpace_drawn ..) (fun _ => .bind o (vreach_drawn ..) (fun _ =>
      .bind o (.mapM o _ (fun _ => stripElem_drawn ..)) (fun _ => .pure o _))))
  · exact .bind o (tokSpace_drawn ..) (fun _ => .bind o (vreach_drawn ..) (fun _ =>
      .bind o (.mapM o _ (fun _ => stripElem_drawn ..)) (fun _ => .pure o _)))
theorem source_drawn (q : Bool) (b : Bolt) (k : MaskOp) (y : Hart) (v : VReg) : Act.Keeps drawnFrom (source q b k y v) := by
  have o := drawnFrom_order
  unfold source
  refine .bind o (.me o) (fun x => ?_)
  split
  · exact .pure o _
  · refine .bind o (strip_drawn ..) (fun c => ?_)
    exact .bind o (.modMe (fun s _ => s.drawn_modMe (fun _ => rfl))) (fun _ => .pure o _)
/-- What reading sources can change, of a vector or a matrix instruction. -/
theorem sourcesOf_drawn {q : Bool} {b : Bolt} {k : MaskOp} {vs : List VReg} {s t : State} {y : Hart} (c : s.clean)
    (h : sourcesOf q b k vs s = .ok (y, t)) : s.Drawn t := by
  have o := drawnFrom_order
  have r : Act.Keeps drawnFrom (do
      let x ← me
      if x.binds = [] then pure x else vs.eraseDups.foldlM (source q b k) x) := by
    refine .bind o (.me o) (fun x => ?_)
    split
    · exact .pure o _
    · exact .foldlM o _ _ (fun _ _ => source_drawn ..)
  unfold sourcesOf at h
  rw [Act.bind_ok (regCheck_ok c ..)] at h
  exact r.on _ _ _ h c
theorem sources_drawn {b : Bolt} {k : MaskOp} {vs : List VReg} {s t : State} {y : Hart} (c : s.clean)
    (h : sources b k vs s = .ok (y, t)) : s.Drawn t := sourcesOf_drawn c h
theorem mxSources_drawn {b : Bolt} {k : MaskOp} {vs : List VReg} {s t : State} {y : Hart} (c : s.clean)
    (h : mxSources b k vs s = .ok (y, t)) : s.Drawn t := sourcesOf_drawn c h
/-- Without a bound register the sources are the registers as they stand. -/
theorem sourcesOf_plain {q : Bool} {b : Bolt} {k : MaskOp} {vs : List VReg} {s : State} (c : s.clean) (h : s.me.binds = []) :
    sourcesOf q b k vs s = .ok (s.me, s) := by
  unfold sourcesOf
  rw [Act.bind_ok (regCheck_ok c ..), Act.bind_ok (Act.me_apply s), if_pos h]
  rfl
theorem sources_plain {b : Bolt} {k : MaskOp} {vs : List VReg} {s : State} (c : s.clean) (h : s.me.binds = []) :
    sources b k vs s = .ok (s.me, s) := sourcesOf_plain c h
theorem mxSources_plain {b : Bolt} {k : MaskOp} {vs : List VReg} {s : State} (c : s.clean) (h : s.me.binds = []) :
    mxSources b k vs s = .ok (s.me, s) := sourcesOf_plain c h

/-! ### How element-wise instructions end -/

theorem putResult_ok {s : State} (c : s.clean) (vd : VReg) (rs : List (Nat × Nat × Fl)) :
    putResult vd rs s = .ok ((), s.modMe (fun x => x.wrote vd rs)) := by
  unfold putResult
  rw [Act.bind_ok (slotsWritten_ok c ..)]
  rfl
theorem elementwise_ok {s t : State} {y : Hart} {b : Bolt} {i : Instr} {vd : VReg} {vs : List VReg} {k : MaskOp}
    {f : Hart → Nat → Nat × Fl} (h : s.boltAt i b) (q : s.seen b k vs y t) :
    runVec (elementwise i vd vs k f) s = .next (t.modMe (fun x => x.wrote vd ((b.actives y k).map (fun e => (e, f y e))))) := by
  obtain ⟨hb, c, ho⟩ := h
  refine runVec_next hb ?_
  unfold elementwise
  rw [Act.bind_ok (operands_ok c ho), Act.bind_ok q, putResult_ok ((sources_drawn c q).clean c)]
theorem runVec_fails {s : State} {b : Bolt} {i : Instr} {c : Nat} {f : Bolt → Act Unit} (hb : s.me.bolts.head? = some b)
    (h : operandCause i s.me = some c) : runVec (fun b => operands i >>= fun _ => f b) s = .next (s.takeTrap (s.vecTrap c 0)) :=
  runVec_trap hb (Act.bind_error (operands_fails h))

end Sys2Proof.Machine
end

