-- ==== Sys2Proof/Laws/Lots.lean ====
section
/-!
SUPPORT. What happens to a lot: a lot written, granted, freed and passed on, and the lots that no such change touches.
-/
namespace Sys2Proof.Machine

open Sys2Proof

theorem upFrom_eq (k n : Nat) : upFrom k n = List.range' k n := by
  induction n generalizing k with
  | zero => rfl
  | succ n ih => rw [upFrom, ih, List.range'_succ]
theorem upTo_eq (n : Nat) : upTo n = List.range n := by
  rw [upTo, upFrom_eq, List.range_eq_range']
theorem mem_upTo {n i : Nat} : i ∈ upTo n ↔ i < n := by
  rw [upTo_eq, List.mem_range]
theorem Bits.members_eq (m n : Nat) : Bits.members m n = (List.range n).filter (fun i => m.testBit i) := by
  rw [Bits.members, upTo_eq]
  rfl
theorem Bits.mem_members {m n i : Nat} : i ∈ Bits.members m n ↔ i < n ∧ m.testBit i = true := by
  rw [Bits.members_eq, List.mem_filter, List.mem_range]

/-- A lot's number and kind are ones the core has (R38). -/
abbrev isLot (kind i : Nat) : Prop := kind < 4 ∧ i < lotCount kind
theorem lotKey_inj {k i k' i' : Nat} (h : isLot k i) (h' : isLot k' i') (e : lotKey k i = lotKey k' i') : k = k' ∧ i = i' := by
  obtain ⟨h1, h2⟩ := h
  obtain ⟨h3, h4⟩ := h'
  have c : ∀ k, k < 4 → k = 0 ∨ k = 1 ∨ k = 2 ∨ k = 3 := by omega
  rcases c k h1 with rfl | rfl | rfl | rfl <;> rcases c k' h3 with rfl | rfl | rfl | rfl <;>
    simp only [lotKey, lotCount, if_true] at h2 h4 e <;> simp at h2 h4 e <;> omega

theorem Core.lot_setLot (c : Core) {k i k' i' : Nat} (l : Lot) (h : isLot k i) (h' : isLot k' i') :
    (c.setLot k i l).lot k' i' = if k' = k ∧ i' = i then l else c.lot k' i' := by
  unfold Core.lot Core.setLot
  rw [Tab.get_set]
  by_cases e : lotKey k i = lotKey k' i'
  · obtain ⟨rfl, rfl⟩ := lotKey_inj h h' e
    simp
  · have n : ¬(k' = k ∧ i' = i) := by rintro ⟨rfl, rfl⟩; exact e rfl
    simp [n, Ne.symm e]
theorem Core.lot_setLot_self (c : Core) (k i : Nat) (l : Lot) : (c.setLot k i l).lot k i = l := Tab.get_set_self ..
theorem Core.lot_setClaim (c : Core) (x : Claim) (k i : Nat) : (c.setClaim x).lot k i = c.lot k i := rfl
theorem Core.claims_setLot (c : Core) (k i : Nat) (l : Lot) : (c.setLot k i l).claims = c.claims := rfl
theorem Core.clearLot_frame (c : Core) (kind i : Nat) : (c.clearLot kind i).lots = c.lots ∧ (c.clearLot kind i).claims = c.claims := by
  unfold Core.clearLot
  split
  · exact ⟨rfl, rfl⟩
  · split <;> exact ⟨rfl, rfl⟩
theorem Core.lot_grant (c : Core) {k i k' i' : Nat} (sl uid : Nat) (st : BitVec 2) (rt : Word) (cl : Option Nat)
    (h : isLot k i) (h' : isLot k' i') :
    (c.grant k i sl uid st rt cl).lot k' i' = if k' = k ∧ i' = i then ⟨st, BitVec.ofNat 3 sl, rt, cl, uid⟩ else c.lot k' i' := by
  unfold Core.grant
  rw [Core.lot_setLot _ _ h h']
  split
  · rfl
  · split
    · rfl
    · unfold Core.lot
      rw [(c.clearLot_frame k i).1]
theorem Core.claims_grant (c : Core) (k i sl uid : Nat) (st : BitVec 2) (rt : Word) (cl : Option Nat) :
    (c.grant k i sl uid st rt cl).claims = c.claims := by
  show (if (c.lot k i).lastUid = uid then c else c.clearLot k i).claims = c.claims
  split
  · rfl
  · exact (c.clearLot_frame k i).2

/-- A lot as it was, or without the claim that had selected it. -/
def Lot.keptBy (l l' : Lot) : Prop := l' = l ∨ l' = { l with claim := none }
theorem Lot.keptBy.trans {a b c : Lot} (h : a.keptBy b) (k : b.keptBy c) : a.keptBy c := by
  rcases h with rfl | rfl <;> rcases k with rfl | rfl
  · exact .inl rfl
  · exact .inr rfl
  · exact .inr rfl
  · exact .inr rfl
/-- A lot that no claim has selected stays as it is. -/
theorem Lot.keptBy.plain {a b : Lot} (h : a.keptBy b) (n : a.claim = none) : b = a := by
  rcases h with rfl | rfl
  · rfl
  · obtain ⟨a1, a2, a3, a4, a5⟩ := a
    cases n
    rfl

theorem Core.lot_tag_none (c : Core) (kind j k i : Nat) : (c.lot k i).keptBy ((c.tag kind j none).lot k i) := by
  unfold Core.tag Core.lot Core.setLot
  rw [Tab.get_set]
  by_cases e : lotKey k i = lotKey kind j
  · rw [if_pos e, e]
    exact .inr rfl
  · rw [if_neg e]
    exact .inl rfl
theorem Core.lot_untag (c : Core) (kind k i : Nat) (is : List Nat) :
    (c.lot k i).keptBy ((is.foldl (fun c j => c.tag kind j none) c).lot k i) := by
  induction is generalizing c with
  | nil => exact .inl rfl
  | cons j is ih => exact (c.lot_tag_none kind j k i).trans (ih _)
theorem Core.lot_settle (c : Core) (id k i : Nat) : (c.lot k i).keptBy ((c.settle id).lot k i) := by
  unfold Core.settle
  split
  · exact .inl rfl
  · split
    · exact c.lot_untag _ k i _
    · exact .inl rfl
/-- A lot that leaves its holder changes no other lot but by the claims it completes. -/
theorem Core.lot_passLot_ne (c : Core) {k i k' i' : Nat} (h : isLot k i) (h' : isLot k' i') (n : ¬(k' = k ∧ i' = i)) :
    (c.lot k' i').keptBy ((c.passLot k i).lot k' i') := by
  have f : (c.freeLot k i).lot k' i' = c.lot k' i' := by rw [Core.freeLot, Core.lot_setLot _ _ h h', if_neg n]
  unfold Core.passLot
  split
  · exact .inl f
  · split
    · exact .inl f
    · refine Lot.keptBy.trans (.inl ?_) (Core.lot_settle ..)
      rw [Core.lot_setClaim, Core.lot_grant _ _ _ _ _ _ h h', if_neg n]
theorem Core.lot_passLot_plain (c : Core) {k i : Nat} (n : (c.lot k i).claim = none) :
    (c.passLot k i).lot k i = { Lot.free with lastUid := (c.lot k i).lastUid } := by
  unfold Core.passLot
  rw [n]
  exact Core.lot_setLot_self ..
theorem Core.lot_passLot_claimed (c : Core) {k i id : Nat} {x : Claim} (h : isLot k i) (e : (c.lot k i).claim = some id)
    (hx : c.claimOf id = some x) :
    ∃ l, (c.passLot k i).lot k i = ⟨2, BitVec.ofNat 3 x.slot, x.routine, l, x.uid⟩ := by
  unfold Core.passLot
  simp only [e, hx]
  rcases Core.lot_settle ((c.grant k i x.slot x.uid 2 x.routine (some id)).setClaim { x with got := x.got ||| 2 ^ i }) id k i with q | q <;>
    rw [Core.lot_setClaim, Core.lot_grant _ _ _ _ _ _ h h, if_pos ⟨rfl, rfl⟩] at q
  · exact ⟨_, q⟩
  · exact ⟨_, q⟩

/-- Lots passed on in turn: one that no claim has selected becomes free if it is among them, and otherwise stays. -/
theorem Core.lot_passLots (c : Core) {k k' i' : Nat} (h' : isLot k' i') (hk : k < 4) (is : List Nat) (hd : is.Nodup)
    (hi : ∀ j ∈ is, j < lotCount k) (n : (c.lot k' i').claim = none) :
    (is.foldl (fun c j => c.passLot k j) c).lot k' i' =
      if k' = k ∧ i' ∈ is then { Lot.free with lastUid := (c.lot k' i').lastUid } else c.lot k' i' := by
  induction is generalizing c with
  | nil => simp
  | cons j is ih =>
    have hj : isLot k j := ⟨hk, hi j (List.mem_cons_self ..)⟩
    have hd' := List.nodup_cons.1 hd
    have hi' : ∀ j ∈ is, j < lotCount k := fun j hj => hi j (List.mem_cons_of_mem _ hj)
    simp only [List.foldl_cons]
    by_cases e : k' = k ∧ i' = j
    · obtain ⟨rfl, rfl⟩ := e
      have p := c.lot_passLot_plain n
      rw [ih _ hd'.2 hi' (by rw [p]; rfl), if_neg (fun q => hd'.1 q.2), p]
      simp
    · have p := (c.lot_passLot_ne hj h' e).plain n
      rw [ih _ hd'.2 hi' (by rw [p]; exact n), p]
      have : (k' = k ∧ i' ∈ j :: is) ↔ (k' = k ∧ i' ∈ is) := by
        rw [List.mem_cons]
        constructor
        · rintro ⟨a, b | b⟩
          · exact absurd ⟨a, b⟩ e
          · exact ⟨a, b⟩
        · exact fun q => ⟨q.1, .inr q.2⟩
      simp only [this]

/-! ### Claims undone -/

/-- What the arbiter does to core `k`: it changes that core and the recalls of harts alone, and a lot that no claim has
selected stays as it is. -/
structure State.Arbitrates (s t : State) (k : Nat) : Prop where
  same : t = { s with harts := t.harts, cores := t.cores }
  harts : ∀ h, t.hart h = { s.hart h with recalls := (t.hart h).recalls }
  cores : ∀ j, j ≠ k → t.core j = s.core j
  lots : ∀ kind i, ((s.core k).lot kind i).claim = none → (t.core k).lot kind i = (s.core k).lot kind i
theorem State.Arbitrates.refl (s : State) (k : Nat) : s.Arbitrates s k := ⟨rfl, fun _ => rfl, fun _ _ => rfl, fun _ _ _ => rfl⟩
theorem State.Arbitrates.trans {s t u : State} {k : Nat} (a : s.Arbitrates t k) (b : t.Arbitrates u k) : s.Arbitrates u k := by
  refine ⟨?_, fun h => ?_, fun j n => (b.cores j n).trans (a.cores j n), fun kind i n => ?_⟩
  · have x := b.same
    have y := a.same
    rw [y] at x
    exact x
  · have x := b.harts h
    rw [a.harts h] at x
    exact x
  · have x := a.lots kind i n
    exact (b.lots kind i (by rw [x]; exact n)).trans x
theorem State.core_setCore_self (s : State) (k : Nat) (c : Core) : (s.setCore k c).core k = c := Tab.get_put_self ..
theorem State.core_setCore_ne (s : State) {k j : Nat} (c : Core) (n : j ≠ k) : (s.setCore k c).core j = s.core j :=
  Tab.get_put_ne _ _ _ n
theorem State.arbitrates_setCore (s : State) (k : Nat) (c : Core)
    (h : ∀ kind i, ((s.core k).lot kind i).claim = none → c.lot kind i = (s.core k).lot kind i) :
    s.Arbitrates (s.setCore k c) k :=
  ⟨rfl, fun _ => rfl, fun _ n => State.core_setCore_ne _ _ n, fun kind i n => by rw [State.core_setCore_self]; exact h kind i n⟩
theorem State.arbitrates_recalls (s : State) (k h : Nat) (rs : List Recall) :
    s.Arbitrates (s.setHart h { s.hart h with recalls := rs }) k := by
  refine ⟨rfl, fun j => ?_, fun _ _ => rfl, fun _ _ _ => rfl⟩
  by_cases e : j = h
  · subst e
    rw [State.hart_setHart_self]
  · rw [State.hart_setHart_ne _ _ e]
theorem State.arbitrates_foldl {α : Type} {k : Nat} {f : State → α → State} (h : ∀ (s : State) (a : α), s.Arbitrates (f s a) k)
    (l : List α) (s : State) : s.Arbitrates (l.foldl f s) k := by
  induction l generalizing s with
  | nil => exact .refl s k
  | cons a l ih => exact (h s a).trans (ih _)

/-- A lot's change that leaves the lots of no claim as they are. -/
theorem Core.lot_setLot_claimed (c : Core) {k i : Nat} (l : Lot) (n : (c.lot k i).claim ≠ none) (k' i' : Nat)
    (m : (c.lot k' i').claim = none) : (c.setLot k i l).lot k' i' = c.lot k' i' := by
  unfold Core.lot Core.setLot at *
  rw [Tab.get_set]
  by_cases e : lotKey k' i' = lotKey k i
  · rw [e] at m
    exact absurd m n
  · rw [if_neg e]
theorem State.undoClaim_arbitrates (s : State) (k id o : Nat) : s.Arbitrates (s.undoClaim k id o) k := by
  unfold State.undoClaim
  split
  · exact .refl s k
  · next x _ =>
    dsimp only
    refine State.Arbitrates.trans (State.arbitrates_setCore s k _ ?_) (State.arbitrates_foldl ?_ _ _)
    · have step : ∀ (c : Core) (j : Nat), ∀ kind i, (c.lot kind i).claim = none → (if (c.lot x.kind j).claim = some id then
            if (c.lot x.kind j).st = 2 ∧ (c.lot x.kind j).owner.toNat = x.slot then c.freeLot x.kind j else c.tag x.kind j none
          else c).lot kind i = c.lot kind i := by
        intro c j kind i n
        split
        · next h =>
          have h' : (c.lot x.kind j).claim ≠ none := by rw [h]; exact Option.some_ne_none _
          split
          · exact c.lot_setLot_claimed _ h' kind i n
          · exact c.lot_setLot_claimed _ h' kind i n
        · rfl
      have all : ∀ (is : List Nat) (c : Core), ∀ kind i, (c.lot kind i).claim = none → (is.foldl (fun c j =>
          if (c.lot x.kind j).claim = some id then
            if (c.lot x.kind j).st = 2 ∧ (c.lot x.kind j).owner.toNat = x.slot then c.freeLot x.kind j else c.tag x.kind j none
          else c) c).lot kind i = c.lot kind i := by
        intro is
        induction is with
        | nil => exact fun _ _ _ _ => rfl
        | cons j is ih =>
          intro c kind i n
          have h := step c j kind i n
          exact (ih _ kind i (by rw [h]; exact n)).trans h
      intro kind i n
      exact all _ _ kind i n
    · intro t a
      split
      · exact State.arbitrates_recalls ..
      · exact .refl t k

/-! ### All lots of a slot -/

theorem lots_nodup (n : Nat) : (upTo n).Nodup := by
  rw [upTo_eq]
  exact List.nodup_range
/-- The lots of one kind that a slot holds pass on; one that no claim has selected becomes free, and another slot's stays. -/
theorem Core.lot_releaseKind (c : Core) (sl : Nat) {k k' i' : Nat} (hk : k < 4) (h' : isLot k' i') (is : List Nat) (hd : is.Nodup)
    (hi : ∀ j ∈ is, j < lotCount k) (n : (c.lot k' i').claim = none) :
    (is.foldl (fun c i => if c.holds sl k i then c.passLot k i else c) c).lot k' i' =
      if k' = k ∧ i' ∈ is ∧ c.holds sl k' i' = true then { Lot.free with lastUid := (c.lot k' i').lastUid } else c.lot k' i' := by
  induction is generalizing c with
  | nil => simp
  | cons j is ih =>
    have hj : isLot k j := ⟨hk, hi j (List.mem_cons_self ..)⟩
    have hd' := List.nodup_cons.1 hd
    have hi' : ∀ j ∈ is, j < lotCount k := fun j hj => hi j (List.mem_cons_of_mem _ hj)
    simp only [List.foldl_cons]
    by_cases e : k' = k ∧ i' = j
    · obtain ⟨rfl, rfl⟩ := e
      by_cases q : c.holds sl k' i' = true
      · have p := c.lot_passLot_plain n
        rw [if_pos q, ih _ hd'.2 hi' (by rw [p]; rfl), if_neg (fun r => hd'.1 r.2.1), p,
          if_pos ⟨rfl, List.mem_cons_self .., q⟩]
      · rw [if_neg q, ih _ hd'.2 hi' n, if_neg (fun r => hd'.1 r.2.1), if_neg (fun r => q r.2.2)]
    · have p : (if c.holds sl k j = true then c.passLot k j else c).lot k' i' = c.lot k' i' := by
        split
        · exact (c.lot_passLot_ne hj h' e).plain n
        · rfl
      have ph : (if c.holds sl k j = true then c.passLot k j else c).holds sl k' i' = c.holds sl k' i' := by
        unfold Core.holds at *
        rw [p]
      rw [ih _ hd'.2 hi' (by rw [p]; exact n), p, ph]
      have : (k' = k ∧ i' ∈ j :: is ∧ c.holds sl k' i' = true) ↔ (k' = k ∧ i' ∈ is ∧ c.holds sl k' i' = true) := by
        rw [List.mem_cons]
        constructor
        · rintro ⟨a, b | b, q⟩
          · exact absurd ⟨a, b⟩ e
          · exact ⟨a, b, q⟩
        · exact fun q => ⟨q.1, .inr q.2.1, q.2.2⟩
      simp only [this]
/-- Every lot of a slot passes on (R30): one that no claim has selected becomes free, and those of others stay. -/
theorem Core.lot_releaseAll (c : Core) (sl : Nat) {k i : Nat} (h : isLot k i) (n : (c.lot k i).claim = none) :
    (c.releaseAll sl).lot k i = if c.holds sl k i = true then { Lot.free with lastUid := (c.lot k i).lastUid } else c.lot k i := by
  have step : ∀ (ks : List Nat) (c : Core), ks.Nodup → (∀ j ∈ ks, j < 4) → (c.lot k i).claim = none →
      (ks.foldl (fun c kind => (upTo (lotCount kind)).foldl (fun c i => if c.holds sl kind i then c.passLot kind i else c) c) c).lot k i =
        if k ∈ ks ∧ c.holds sl k i = true then { Lot.free with lastUid := (c.lot k i).lastUid } else c.lot k i := by
    intro ks
    induction ks with
    | nil => intro c _ _ _; simp
    | cons kd ks ih =>
      intro c hd h4 n
      have hd' := List.nodup_cons.1 hd
      have p := c.lot_releaseKind sl (h4 kd (List.mem_cons_self ..)) h (upTo (lotCount kd)) (lots_nodup _)
        (fun j hj => mem_upTo.1 hj) n
      simp only [List.foldl_cons]
      by_cases q : k = kd ∧ i ∈ upTo (lotCount kd) ∧ c.holds sl k i = true
      · rw [if_pos q] at p
        rw [ih _ hd'.2 (fun j hj => h4 j (List.mem_cons_of_mem _ hj)) (by rw [p]; rfl), p]
        obtain ⟨rfl, q1, q2⟩ := q
        rw [if_neg (fun r => hd'.1 r.1), if_pos ⟨List.mem_cons_self .., q2⟩]
      · rw [if_neg q] at p
        have ph : (((upTo (lotCount kd)).foldl (fun c i => if c.holds sl kd i then c.passLot kd i else c) c).holds sl k i) =
            c.holds sl k i := by
          unfold Core.holds at *
          rw [p]
        rw [ih _ hd'.2 (fun j hj => h4 j (List.mem_cons_of_mem _ hj)) (by rw [p]; exact n), p, ph]
        have : (k ∈ kd :: ks ∧ c.holds sl k i = true) ↔ (k ∈ ks ∧ c.holds sl k i = true) := by
          rw [List.mem_cons]
          constructor
          · rintro ⟨a | a, b⟩
            · exact absurd ⟨a, mem_upTo.2 (a ▸ h.2), b⟩ q
            · exact ⟨a, b⟩
          · exact fun r => ⟨.inr r.1, r.2⟩
        simp only [this]
  have e := step (upTo 4) c (lots_nodup 4) (fun j hj => mem_upTo.1 hj) n
  unfold Core.releaseAll
  rw [e]
  have : (k ∈ upTo 4 ∧ c.holds sl k i = true) ↔ c.holds sl k i = true := ⟨fun r => r.2, fun r => ⟨mem_upTo.2 h.1, r⟩⟩
  simp only [this]

theorem State.undoClaims_arbitrates (s : State) (k o : Nat) (l : List Claim) :
    s.Arbitrates (l.foldl (fun s y => s.undoClaim k y.id o) s) k :=
  State.arbitrates_foldl (fun t y => t.undoClaim_arbitrates k y.id o) l s
/-- A hart that leaves its core (R30, R48): harts and the core alone change, no other hart but in its recalls, and a lot that no
claim has selected becomes free where the hart held it. -/
theorem State.leaveLots_spec (s : State) (h : Nat) :
    s.leaveLots h = { s with harts := (s.leaveLots h).harts, cores := (s.leaveLots h).cores } ∧
    (∀ g, (s.leaveLots h).hart g = { s.hart g with recalls := ((s.leaveLots h).hart g).recalls }) ∧
    (∀ j, j ≠ coreOf h → (s.leaveLots h).core j = s.core j) ∧
    (∀ kind i, isLot kind i → ((s.core (coreOf h)).lot kind i).claim = none →
      ((s.leaveLots h).core (coreOf h)).lot kind i =
        if (s.core (coreOf h)).holds (slotOf h) kind i = true then { Lot.free with lastUid := ((s.core (coreOf h)).lot kind i).lastUid }
        else (s.core (coreOf h)).lot kind i) := by
  unfold State.leaveLots
  dsimp only
  have a := s.undoClaims_arbitrates (coreOf h) 1
    ((s.core (coreOf h)).claims.filter (fun y => decide (y.slot = slotOf h) && decide (y.uid = (s.hart h).uid)))
  generalize ((s.core (coreOf h)).claims.filter (fun y => decide (y.slot = slotOf h) && decide (y.uid = (s.hart h).uid))).foldl
    (fun s y => s.undoClaim (coreOf h) y.id 1) s = s1 at a
  refine ⟨?_, fun g => ?_, fun j n => ?_, fun kind i l n => ?_⟩
  · have x := a.same
    unfold State.setHart State.setCore
    rw [x]
  · by_cases e : g = h
    · subst e
      rw [State.hart_setHart_self]
      have x := a.harts g
      show { s1.hart g with recalls := [] } = _
      rw [x]
    · rw [State.hart_setHart_ne _ _ e]
      exact a.harts g
  · show (s1.setCore _ _).core j = _
    rw [State.core_setCore_ne _ _ n]
    exact a.cores j n
  · show ((s1.setCore _ _).core (coreOf h)).lot kind i = _
    rw [State.core_setCore_self]
    have x := a.lots kind i n
    have y : ∀ c : Core, c.lot kind i = (s.core (coreOf h)).lot kind i → (c.releaseAll (slotOf h)).lot kind i =
        if (s.core (coreOf h)).holds (slotOf h) kind i = true then { Lot.free with lastUid := ((s.core (coreOf h)).lot kind i).lastUid }
        else (s.core (coreOf h)).lot kind i := by
      intro c e
      rw [Core.lot_releaseAll c _ l (by rw [e]; exact n)]
      unfold Core.holds
      rw [e]
    exact y _ x

end Sys2Proof.Machine
end

