-- ==== Sys2Proof/Laws/PerInstr.lean ====
section
/-!
SUPPORT. The round trip of encoding and decoding, one lemma per constructor.
-/
namespace Sys2Proof.Laws

set_option linter.unusedSimpArgs false
set_option Elab.async false

/-- The test of the bits `m` of a field, at any width. -/
def anyOf {n : Nat} (x : BitVec n) (m : Nat) : Bool := nz (x &&& BitVec.ofNat n m)

@[simp] theorem nz_zero (n : Nat) : nz (0#n) = false := by simp [nz]

theorem anyOf_iff {n : Nat} (x : BitVec n) (m : Nat) :
    anyOf x m = true ↔ ∃ i, x.getLsbD i = true ∧ m.testBit i = true := by
  unfold anyOf nz
  rw [bne_iff_ne]
  constructor
  · intro h
    apply Classical.byContradiction
    intro hn
    apply h
    apply BitVec.eq_of_getLsbD_eq
    intro i hi
    simp only [BitVec.getLsbD_and, BitVec.getLsbD_ofNat, hi, decide_true, Bool.true_and]
    rcases hx : x.getLsbD i
    · simp
    · rcases hm : m.testBit i
      · simp
      · exact absurd ⟨i, hx, hm⟩ hn
  · rintro ⟨i, h1, h2⟩ h
    have := congrArg (·.getLsbD i) h
    simp [BitVec.getLsbD_and, BitVec.getLsbD_ofNat, h1, h2] at this
    exact absurd (BitVec.lt_of_getLsbD h1) (by omega)

@[simp] theorem anyOf_append {v w : Nat} (x : BitVec v) (y : BitVec w) (m : Nat) :
    anyOf (x ++ y) m = (anyOf x (m >>> w) || anyOf y m) := by
  rw [Bool.eq_iff_iff, Bool.or_eq_true, anyOf_iff, anyOf_iff, anyOf_iff]
  constructor
  · rintro ⟨i, h1, h2⟩
    rw [BitVec.getLsbD_append] at h1
    split at h1
    · exact .inr ⟨i, h1, h2⟩
    · exact .inl ⟨i - w, h1, by rw [Nat.testBit_shiftRight]; rwa [Nat.add_sub_cancel' (by omega)]⟩
  · rintro (⟨i, h1, h2⟩ | ⟨i, h1, h2⟩)
    · exact ⟨w + i, by rw [BitVec.getLsbD_append, if_neg (by omega), Nat.add_sub_cancel_left]; exact h1,
        by rwa [Nat.testBit_shiftRight] at h2⟩
    · exact ⟨i, by rw [BitVec.getLsbD_append, if_pos (BitVec.lt_of_getLsbD h1)]; exact h1, h2⟩

@[simp] theorem anyOf_none {n : Nat} (x : BitVec n) (m : Nat) (h : m % 2 ^ n = 0) : anyOf x m = false := by
  have : BitVec.ofNat n m = 0#n := by
    apply BitVec.eq_of_toNat_eq; simpa using h
  unfold anyOf
  rw [this, BitVec.and_zero, nz_zero]

@[simp] theorem anyOf_literal (n a m : Nat) : anyOf (BitVec.ofNat n a) m = decide ((a &&& m) % 2 ^ n ≠ 0) := by
  unfold anyOf nz
  rw [Bool.eq_iff_iff, bne_iff_ne, decide_eq_true_iff]
  refine not_congr ⟨fun h => ?_, fun h => ?_⟩
  · have h := congrArg BitVec.toNat h
    rwa [BitVec.toNat_and, BitVec.toNat_ofNat, BitVec.toNat_ofNat, ← Nat.and_mod_two_pow] at h
  · apply BitVec.eq_of_toNat_eq
    rw [BitVec.toNat_and, BitVec.toNat_ofNat, BitVec.toNat_ofNat, ← Nat.and_mod_two_pow]
    exact h

@[simp] theorem StemFields_fnAt (f : StemFields) (m : BitVec 11) : f.fnAt m = anyOf f.fn m.toNat := by
  simp [StemFields.fnAt, anyOf]

@[simp] theorem BoltFields_fnAt (f : BoltFields) (m : BitVec 20) : f.fnAt m = anyOf f.fn m.toNat := by
  simp [BoltFields.fnAt, anyOf]

theorem StemFields_ofWord_word (f : StemFields) : StemFields.ofWord f.word = f := by
  cases f
  simp [StemFields.ofWord, StemFields.word, 
    BitVec.extractLsb'_append_eq_of_le, BitVec.extractLsb'_append_eq_of_add_le, -Nat.reduceAdd]

theorem BoltFields_ofWord_word (cb : Bool) (f : BoltFields) : BoltFields.ofWord (f.word cb) = f := by
  cases f
  simp [BoltFields.ofWord, BoltFields.word, 
    BitVec.extractLsb'_append_eq_of_le, BitVec.extractLsb'_append_eq_of_add_le, -Nat.reduceAdd]

theorem stem_ok {f : StemFields} {i : Instr} {c : Code} (h : decodeStemFields f = .ok i)
    (he : some (Code.stem f.word) = some c) : decode c = .ok i := by
  cases he; simpa [decode, decodeStem, StemFields_ofWord_word] using h

theorem bolt_ok {f : BoltFields} {i : Instr} {c : Code} (h : decodeBoltFields f = .ok i)
    (he : some (Code.bolt (f.word false)) = some c) : decode c = .ok i := by
  cases he; simpa [decode, decodeBolt, BoltFields_ofWord_word] using h

@[simp] theorem extract_high {v w n k : Nat} (x : BitVec v) (y : BitVec w) (h : w ≤ n) :
    (x ++ y).extractLsb' n k = x.extractLsb' (n - w) k := BitVec.extractLsb'_append_eq_of_le h
@[simp] theorem extract_low {v w n k : Nat} (x : BitVec v) (y : BitVec w) (h : n + k ≤ w) :
    (x ++ y).extractLsb' n k = y.extractLsb' n k := BitVec.extractLsb'_append_eq_of_add_le h

@[simp] theorem badMask_eq (f : BoltFields) : f.badMask = !f.mask.ok := rfl
@[simp] theorem anyMask_eq (f : BoltFields) : f.anyMask = (nz f.msk || nz f.sns) := rfl
@[simp] theorem mask_eq (f : BoltFields) : f.mask = ⟨f.msk, bitBool f.sns⟩ := rfl
@[simp] theorem index_eq (f : StemFields) : f.index =
    if bitBool (f.fn.extractLsb' 1 1) then .reg f.c
    else .disp (f.fn.extractLsb' 0 1 ++ f.c : BitVec (1 + 5)) := rfl
@[simp] theorem cField_disp (d : BitVec 6) : (Index.disp d).cField = d.extractLsb' 0 5 := rfl
@[simp] theorem cField_reg (c : Reg) : (Index.reg c).cField = c := rfl
@[simp] theorem low_disp (d : BitVec 6) : (Index.disp d).low = (0#1 ++ d.extractLsb' 5 1 : BitVec (1 + 1)) := rfl
@[simp] theorem low_reg (c : Reg) : (Index.reg c).low = 2 := rfl

@[simp] theorem Scope_ofBits_bits (s : Scope) : Scope.ofBits s.bits = s := by cases s <;> rfl
@[simp] theorem FenceKind_ofBits_bits (s : FenceKind) : FenceKind.ofBits s.bits = s := by cases s <;> rfl
@[simp] theorem Rnd_ofBits_bits (s : Rnd) : Rnd.ofBits s.bits = s := by cases s <;> rfl
@[simp] theorem Cond_ofBits_bits (s : Cond) : Cond.ofBits s.bits = s := by cases s <;> rfl
@[simp] theorem above_scope (s : Scope) : above s.bits 4 = false := by cases s <;> rfl
@[simp] theorem above_fenceKind (s : FenceKind) : above s.bits 4 = false := by cases s <;> rfl
@[simp] theorem above_rnd (s : Rnd) : above s.bits 4 = false := by cases s <;> rfl
@[simp] theorem above_cond (s : Cond) : above s.bits 5 = false := by cases s <;> rfl
@[simp] theorem bitBool_boolBit (b : Bool) : bitBool (boolBit b) = b := by cases b <;> rfl
@[simp] theorem bitBool_zero : bitBool 0#1 = false := rfl
@[simp] theorem bitBool_one : bitBool 1#1 = true := rfl

@[simp] theorem kindRange_mreg (x : BitVec 3) : kindRange (0#3 ++ x : BitVec (3 + 3)) 3 = false := by
  revert x; decide
@[simp] theorem kindRange_frame (x : BitVec 5) : kindRange (0#1 ++ x : BitVec (1 + 5)) 5 = false := by
  revert x; decide
@[simp] theorem kindRange_tile (x : BitVec 1) : kindRange (0#5 ++ x : BitVec (5 + 1)) 1 = false := by
  revert x; decide

theorem join {n : Nat} (j k : Nat) (x : BitVec n) (i : Nat) (h : i < j + k) :
    ((x.extractLsb' j k ++ x.extractLsb' 0 j).getLsbD i) = x.getLsbD i := by
  rw [BitVec.getLsbD_append]
  split
  · simp [*]
  · simp only [BitVec.getLsbD_extractLsb', Nat.add_sub_cancel' (Nat.le_of_not_lt ‹_›)]
    rw [decide_eq_true (by omega), Bool.true_and]

theorem join_16 (x : BitVec 16) : (x.extractLsb' 11 5 ++ x.extractLsb' 0 11 : BitVec (5 + 11)) = x :=
  BitVec.eq_of_getLsbD_eq fun i _ => join 11 5 x i (by omega)
theorem join_21 (x : BitVec 21) :
    (x.extractLsb' 16 5 ++ (x.extractLsb' 11 5 ++ x.extractLsb' 0 11) : BitVec (5 + (5 + 11))) = x := by
  have h : (x.extractLsb' 11 5 ++ x.extractLsb' 0 11 : BitVec (5 + 11)) = x.extractLsb' 0 16 :=
    BitVec.eq_of_getLsbD_eq fun i hi => (join 11 5 x i (by omega)).trans (by simp; omega)
  rw [h]
  exact BitVec.eq_of_getLsbD_eq fun i _ => join 16 5 x i (by omega)
theorem join_26 (x : BitVec 26) :
    (x.extractLsb' 21 5 ++ (x.extractLsb' 16 5 ++ (x.extractLsb' 11 5 ++ x.extractLsb' 0 11)) :
      BitVec (5 + (5 + (5 + 11)))) = x := by
  have h1 : (x.extractLsb' 11 5 ++ x.extractLsb' 0 11 : BitVec (5 + 11)) = x.extractLsb' 0 16 :=
    BitVec.eq_of_getLsbD_eq fun i hi => (join 11 5 x i (by omega)).trans (by simp; omega)
  have h2 : (x.extractLsb' 16 5 ++ x.extractLsb' 0 16 : BitVec (5 + 16)) = x.extractLsb' 0 21 :=
    BitVec.eq_of_getLsbD_eq fun i hi => (join 16 5 x i (by omega)).trans (by simp; omega)
  rw [h1, h2]
  exact BitVec.eq_of_getLsbD_eq fun i _ => join 21 5 x i (by omega)
@[simp] theorem join_9 (x : BitVec 9) : (x.extractLsb' 4 5 ++ x.extractLsb' 0 4 : BitVec (5 + 4)) = x :=
  BitVec.eq_of_getLsbD_eq fun i _ => join 4 5 x i (by omega)
@[simp] theorem join_6 (x : BitVec 6) : (x.extractLsb' 5 1 ++ x.extractLsb' 0 5 : BitVec (1 + 5)) = x :=
  BitVec.eq_of_getLsbD_eq fun i _ => join 5 1 x i (by omega)

@[simp] theorem imm16_of (j : BitVec 6) (a b : BitVec 5) (x : BitVec 16) :
    StemFields.imm16 ⟨j, a, b, x.extractLsb' 11 5, x.extractLsb' 0 11⟩ = x := join_16 x
@[simp] theorem imm21_of (j : BitVec 6) (a : BitVec 5) (x : BitVec 21) :
    StemFields.imm21 ⟨j, a, x.extractLsb' 16 5, x.extractLsb' 11 5, x.extractLsb' 0 11⟩ = x := join_21 x
@[simp] theorem off26_of (j : BitVec 6) (x : BitVec 26) :
    StemFields.off26 ⟨j, x.extractLsb' 21 5, x.extractLsb' 16 5, x.extractLsb' 11 5, x.extractLsb' 0 11⟩ = x :=
  join_26 x

theorem vatom_nz {vd : VReg} {sp nr : Bool} {tok : Tok} (h : vatomOk vd sp nr tok = true) :
    (nr && nz vd) = false ∧ (sp && nz tok) = false := by
  unfold vatomOk at h
  cases sp <;> cases nr <;> simp_all [nz]

theorem stem_01 (f : StemFields) (h : f.major = 1#6) : decodeStemFields f = decodeMajor01 f := by
  rw [decodeStemFields, h]; rfl
theorem stem_02 (f : StemFields) (h : f.major = 2#6) : decodeStemFields f = decodeMajor02 f := by
  rw [decodeStemFields, h]; rfl
theorem stem_03 (f : StemFields) (h : f.major = 3#6) : decodeStemFields f = decodeMajor03 f := by
  rw [decodeStemFields, h]; rfl
theorem stem_04 (f : StemFields) (h : f.major = 4#6) : decodeStemFields f = decodeMajor04 f := by
  rw [decodeStemFields, h]; rfl
theorem stem_05 (f : StemFields) (h : f.major = 5#6) : decodeStemFields f = decodeMajor05 f := by
  rw [decodeStemFields, h]; rfl
theorem stem_06 (f : StemFields) (h : f.major = 6#6) : decodeStemFields f = decodeMajor06 f := by
  rw [decodeStemFields, h]; rfl
theorem stem_07 (f : StemFields) (h : f.major = 7#6) : decodeStemFields f = decodeMajor07 f := by
  rw [decodeStemFields, h]; rfl
theorem stem_08 (f : StemFields) (h : f.major = 8#6) : decodeStemFields f = decodeMajor08 f := by
  rw [decodeStemFields, h]; rfl
theorem stem_09 (f : StemFields) (h : f.major = 9#6) : decodeStemFields f = decodeMajor09 f := by
  rw [decodeStemFields, h]; rfl
theorem stem_0A (f : StemFields) (h : f.major = 10#6) : decodeStemFields f = decodeMajor0A f := by
  rw [decodeStemFields, h]; rfl
theorem stem_0B (f : StemFields) (h : f.major = 11#6) : decodeStemFields f = decodeMajor0B f := by
  rw [decodeStemFields, h]; rfl
theorem stem_0C (f : StemFields) (h : f.major = 12#6) : decodeStemFields f = decodeMajor0C f := by
  rw [decodeStemFields, h]; rfl
theorem stem_0D (f : StemFields) (h : f.major = 13#6) : decodeStemFields f = decodeMajor0D f := by
  rw [decodeStemFields, h]; rfl
theorem stem_0E (f : StemFields) (h : f.major = 14#6) : decodeStemFields f = decodeMajor0E f := by
  rw [decodeStemFields, h]; rfl
theorem stem_0F (f : StemFields) (h : f.major = 15#6) : decodeStemFields f = decodeMajor0F f := by
  rw [decodeStemFields, h]; rfl
theorem stem_10 (f : StemFields) (h : f.major = 16#6) : decodeStemFields f = decodeMajor10 f := by
  rw [decodeStemFields, h]; rfl
theorem stem_11 (f : StemFields) (h : f.major = 17#6) : decodeStemFields f = decodeMajor11 f := by
  rw [decodeStemFields, h]; rfl
theorem stem_12 (f : StemFields) (h : f.major = 18#6) : decodeStemFields f = decodeMajor12 f := by
  rw [decodeStemFields, h]; rfl
theorem stem_13 (f : StemFields) (h : f.major = 19#6) : decodeStemFields f = decodeMajor13 f := by
  rw [decodeStemFields, h]; rfl
theorem stem_14 (f : StemFields) (h : f.major = 20#6) : decodeStemFields f = decodeMajor14 f := by
  rw [decodeStemFields, h]; rfl
theorem stem_15 (f : StemFields) (h : f.major = 21#6) : decodeStemFields f = decodeMajor15 f := by
  rw [decodeStemFields, h]; rfl
theorem stem_16 (f : StemFields) (h : f.major = 22#6) : decodeStemFields f = decodeMajor16 f := by
  rw [decodeStemFields, h]; rfl
theorem stem_17 (f : StemFields) (h : f.major = 23#6) : decodeStemFields f = decodeMajor17 f := by
  rw [decodeStemFields, h]; rfl
theorem stem_18 (f : StemFields) (h : f.major = 24#6) : decodeStemFields f = decodeMajor18 f := by
  rw [decodeStemFields, h]; rfl
theorem stem_19 (f : StemFields) (h : f.major = 25#6) : decodeStemFields f = decodeMajor19 f := by
  rw [decodeStemFields, h]; rfl
theorem stem_1A (f : StemFields) (h : f.major = 26#6) : decodeStemFields f = decodeMajor1A f := by
  rw [decodeStemFields, h]; rfl
theorem stem_1B (f : StemFields) (h : f.major = 27#6) : decodeStemFields f = decodeMajor1B f := by
  rw [decodeStemFields, h]; rfl
theorem stem_1C (f : StemFields) (h : f.major = 28#6) : decodeStemFields f = decodeMajor1C f := by
  rw [decodeStemFields, h]; rfl
theorem stem_1D (f : StemFields) (h : f.major = 29#6) : decodeStemFields f = decodeMajor1D f := by
  rw [decodeStemFields, h]; rfl
theorem stem_1E (f : StemFields) (h : f.major = 30#6) : decodeStemFields f = decodeMajor1E f := by
  rw [decodeStemFields, h]; rfl
theorem stem_1F (f : StemFields) (h : f.major = 31#6) : decodeStemFields f = decodeMajor1F f := by
  rw [decodeStemFields, h]; rfl
theorem stem_20 (f : StemFields) (h : f.major = 32#6) : decodeStemFields f = decodeMajor20 f := by
  rw [decodeStemFields, h]; rfl
theorem stem_21 (f : StemFields) (h : f.major = 33#6) : decodeStemFields f = decodeMajor21 f := by
  rw [decodeStemFields, h]; rfl
theorem stem_22 (f : StemFields) (h : f.major = 34#6) : decodeStemFields f = decodeMajor22 f := by
  rw [decodeStemFields, h]; rfl
theorem stem_23 (f : StemFields) (h : f.major = 35#6) : decodeStemFields f = decodeMajor23 f := by
  rw [decodeStemFields, h]; rfl
theorem stem_24 (f : StemFields) (h : f.major = 36#6) : decodeStemFields f = decodeMajor24 f := by
  rw [decodeStemFields, h]; rfl
theorem stem_25 (f : StemFields) (h : f.major = 37#6) : decodeStemFields f = decodeMajor25 f := by
  rw [decodeStemFields, h]; rfl
theorem stem_26 (f : StemFields) (h : f.major = 38#6) : decodeStemFields f = decodeMajor26 f := by
  rw [decodeStemFields, h]; rfl
theorem stem_27 (f : StemFields) (h : f.major = 39#6) : decodeStemFields f = decodeMajor27 f := by
  rw [decodeStemFields, h]; rfl
theorem stem_28 (f : StemFields) (h : f.major = 40#6) : decodeStemFields f = decodeMajor28 f := by
  rw [decodeStemFields, h]; rfl
theorem stem_29 (f : StemFields) (h : f.major = 41#6) : decodeStemFields f = decodeMajor29 f := by
  rw [decodeStemFields, h]; rfl
theorem stem_2A (f : StemFields) (h : f.major = 42#6) : decodeStemFields f = decodeMajor2A f := by
  rw [decodeStemFields, h]; rfl
theorem stem_2B (f : StemFields) (h : f.major = 43#6) : decodeStemFields f = decodeMajor2B f := by
  rw [decodeStemFields, h]; rfl
theorem stem_2C (f : StemFields) (h : f.major = 44#6) : decodeStemFields f = decodeMajor2C f := by
  rw [decodeStemFields, h]; rfl
theorem stem_2D (f : StemFields) (h : f.major = 45#6) : decodeStemFields f = decodeMajor2D f := by
  rw [decodeStemFields, h]; rfl
theorem bolt_00 (f : BoltFields) (h : f.op = 0#7) : decodeBoltFields f = decodeStop f := by
  rw [decodeBoltFields, h]; rfl
theorem bolt_01 (f : BoltFields) (h : f.op = 1#7) : decodeBoltFields f = decodeVbany f := by
  rw [decodeBoltFields, h]; rfl
theorem bolt_02 (f : BoltFields) (h : f.op = 2#7) : decodeBoltFields f = decodeVball f := by
  rw [decodeBoltFields, h]; rfl
theorem bolt_03 (f : BoltFields) (h : f.op = 3#7) : decodeBoltFields f = decodeVbnone f := by
  rw [decodeBoltFields, h]; rfl
theorem bolt_04 (f : BoltFields) (h : f.op = 4#7) : decodeBoltFields f = decodeVbdiv f := by
  rw [decodeBoltFields, h]; rfl
theorem bolt_05 (f : BoltFields) (h : f.op = 5#7) : decodeBoltFields f = decodeVjmp f := by
  rw [decodeBoltFields, h]; rfl
theorem bolt_06 (f : BoltFields) (h : f.op = 6#7) : decodeBoltFields f = decodeVfence f := by
  rw [decodeBoltFields, h]; rfl
theorem bolt_07 (f : BoltFields) (h : f.op = 7#7) : decodeBoltFields f = decodeVidx f := by
  rw [decodeBoltFields, h]; rfl
theorem bolt_08 (f : BoltFields) (h : f.op = 8#7) : decodeBoltFields f = decodeVmvs f := by
  rw [decodeBoltFields, h]; rfl
theorem bolt_09 (f : BoltFields) (h : f.op = 9#7) : decodeBoltFields f = decodeVext f := by
  rw [decodeBoltFields, h]; rfl
theorem bolt_0A (f : BoltFields) (h : f.op = 10#7) : decodeBoltFields f = decodeVtrap f := by
  rw [decodeBoltFields, h]; rfl
theorem bolt_0B (f : BoltFields) (h : f.op = 11#7) : decodeBoltFields f = decodeVrng f := by
  rw [decodeBoltFields, h]; rfl
theorem bolt_0C (f : BoltFields) (h : f.op = 12#7) : decodeBoltFields f = decodeVadd f := by
  rw [decodeBoltFields, h]; rfl
theorem bolt_0D (f : BoltFields) (h : f.op = 13#7) : decodeBoltFields f = decodeVsub f := by
  rw [decodeBoltFields, h]; rfl
theorem bolt_0E (f : BoltFields) (h : f.op = 14#7) : decodeBoltFields f = decodeVmul f := by
  rw [decodeBoltFields, h]; rfl
theorem bolt_0F (f : BoltFields) (h : f.op = 15#7) : decodeBoltFields f = decodeVmulh f := by
  rw [decodeBoltFields, h]; rfl
theorem bolt_10 (f : BoltFields) (h : f.op = 16#7) : decodeBoltFields f = decodeVmulw f := by
  rw [decodeBoltFields, h]; rfl
theorem bolt_11 (f : BoltFields) (h : f.op = 17#7) : decodeBoltFields f = decodeVmacc f := by
  rw [decodeBoltFields, h]; rfl
theorem bolt_12 (f : BoltFields) (h : f.op = 18#7) : decodeBoltFields f = decodeVdiv f := by
  rw [decodeBoltFields, h]; rfl
theorem bolt_13 (f : BoltFields) (h : f.op = 19#7) : decodeBoltFields f = decodeVrem f := by
  rw [decodeBoltFields, h]; rfl
theorem bolt_14 (f : BoltFields) (h : f.op = 20#7) : decodeBoltFields f = decodeVmin f := by
  rw [decodeBoltFields, h]; rfl
theorem bolt_15 (f : BoltFields) (h : f.op = 21#7) : decodeBoltFields f = decodeVmax f := by
  rw [decodeBoltFields, h]; rfl
theorem bolt_16 (f : BoltFields) (h : f.op = 22#7) : decodeBoltFields f = decodeVabs f := by
  rw [decodeBoltFields, h]; rfl
theorem bolt_17 (f : BoltFields) (h : f.op = 23#7) : decodeBoltFields f = decodeVneg f := by
  rw [decodeBoltFields, h]; rfl
theorem bolt_18 (f : BoltFields) (h : f.op = 24#7) : decodeBoltFields f = decodeVadds f := by
  rw [decodeBoltFields, h]; rfl
theorem bolt_19 (f : BoltFields) (h : f.op = 25#7) : decodeBoltFields f = decodeVsubs f := by
  rw [decodeBoltFields, h]; rfl
theorem bolt_1A (f : BoltFields) (h : f.op = 26#7) : decodeBoltFields f = decodeVavg f := by
  rw [decodeBoltFields, h]; rfl
theorem bolt_1B (f : BoltFields) (h : f.op = 27#7) : decodeBoltFields f = decodeVand f := by
  rw [decodeBoltFields, h]; rfl
theorem bolt_1C (f : BoltFields) (h : f.op = 28#7) : decodeBoltFields f = decodeVor f := by
  rw [decodeBoltFields, h]; rfl
theorem bolt_1D (f : BoltFields) (h : f.op = 29#7) : decodeBoltFields f = decodeVxor f := by
  rw [decodeBoltFields, h]; rfl
theorem bolt_1E (f : BoltFields) (h : f.op = 30#7) : decodeBoltFields f = decodeVshl f := by
  rw [decodeBoltFields, h]; rfl
theorem bolt_1F (f : BoltFields) (h : f.op = 31#7) : decodeBoltFields f = decodeVshr f := by
  rw [decodeBoltFields, h]; rfl
theorem bolt_20 (f : BoltFields) (h : f.op = 32#7) : decodeBoltFields f = decodeVsra f := by
  rw [decodeBoltFields, h]; rfl
theorem bolt_21 (f : BoltFields) (h : f.op = 33#7) : decodeBoltFields f = decodeVpopc f := by
  rw [decodeBoltFields, h]; rfl
theorem bolt_22 (f : BoltFields) (h : f.op = 34#7) : decodeBoltFields f = decodeVclz f := by
  rw [decodeBoltFields, h]; rfl
theorem bolt_23 (f : BoltFields) (h : f.op = 35#7) : decodeBoltFields f = decodeVbext f := by
  rw [decodeBoltFields, h]; rfl
theorem bolt_24 (f : BoltFields) (h : f.op = 36#7) : decodeBoltFields f = decodeVfma f := by
  rw [decodeBoltFields, h]; rfl
theorem bolt_25 (f : BoltFields) (h : f.op = 37#7) : decodeBoltFields f = decodeVfms f := by
  rw [decodeBoltFields, h]; rfl
theorem bolt_26 (f : BoltFields) (h : f.op = 38#7) : decodeBoltFields f = decodeVfnma f := by
  rw [decodeBoltFields, h]; rfl
theorem bolt_27 (f : BoltFields) (h : f.op = 39#7) : decodeBoltFields f = decodeVsqrt f := by
  rw [decodeBoltFields, h]; rfl
theorem bolt_28 (f : BoltFields) (h : f.op = 40#7) : decodeBoltFields f = decodeVrcp f := by
  rw [decodeBoltFields, h]; rfl
theorem bolt_29 (f : BoltFields) (h : f.op = 41#7) : decodeBoltFields f = decodeVrsq f := by
  rw [decodeBoltFields, h]; rfl
theorem bolt_2A (f : BoltFields) (h : f.op = 42#7) : decodeBoltFields f = decodeVexp f := by
  rw [decodeBoltFields, h]; rfl
theorem bolt_2B (f : BoltFields) (h : f.op = 43#7) : decodeBoltFields f = decodeVlog f := by
  rw [decodeBoltFields, h]; rfl
theorem bolt_2C (f : BoltFields) (h : f.op = 44#7) : decodeBoltFields f = decodeVsig f := by
  rw [decodeBoltFields, h]; rfl
theorem bolt_2D (f : BoltFields) (h : f.op = 45#7) : decodeBoltFields f = decodeVtanh f := by
  rw [decodeBoltFields, h]; rfl
theorem bolt_2E (f : BoltFields) (h : f.op = 46#7) : decodeBoltFields f = decodeVcvt f := by
  rw [decodeBoltFields, h]; rfl
theorem bolt_2F (f : BoltFields) (h : f.op = 47#7) : decodeBoltFields f = decodeVwiden f := by
  rw [decodeBoltFields, h]; rfl
theorem bolt_30 (f : BoltFields) (h : f.op = 48#7) : decodeBoltFields f = decodeVnarrow f := by
  rw [decodeBoltFields, h]; rfl
theorem bolt_31 (f : BoltFields) (h : f.op = 49#7) : decodeBoltFields f = decodeVqnt f := by
  rw [decodeBoltFields, h]; rfl
theorem bolt_32 (f : BoltFields) (h : f.op = 50#7) : decodeBoltFields f = decodeVdqnt f := by
  rw [decodeBoltFields, h]; rfl
theorem bolt_33 (f : BoltFields) (h : f.op = 51#7) : decodeBoltFields f = decodeVrnd f := by
  rw [decodeBoltFields, h]; rfl
theorem bolt_34 (f : BoltFields) (h : f.op = 52#7) : decodeBoltFields f = decodeVclass f := by
  rw [decodeBoltFields, h]; rfl
theorem bolt_35 (f : BoltFields) (h : f.op = 53#7) : decodeBoltFields f = decodeVscl f := by
  rw [decodeBoltFields, h]; rfl
theorem bolt_36 (f : BoltFields) (h : f.op = 54#7) : decodeBoltFields f = decodeVsat f := by
  rw [decodeBoltFields, h]; rfl
theorem bolt_37 (f : BoltFields) (h : f.op = 55#7) : decodeBoltFields f = decodeVcmp f := by
  rw [decodeBoltFields, h]; rfl
theorem bolt_38 (f : BoltFields) (h : f.op = 56#7) : decodeBoltFields f = decodeVcmpn f := by
  rw [decodeBoltFields, h]; rfl
theorem bolt_39 (f : BoltFields) (h : f.op = 57#7) : decodeBoltFields f = decodeMand f := by
  rw [decodeBoltFields, h]; rfl
theorem bolt_3A (f : BoltFields) (h : f.op = 58#7) : decodeBoltFields f = decodeMor f := by
  rw [decodeBoltFields, h]; rfl
theorem bolt_3B (f : BoltFields) (h : f.op = 59#7) : decodeBoltFields f = decodeMxor f := by
  rw [decodeBoltFields, h]; rfl
theorem bolt_3C (f : BoltFields) (h : f.op = 60#7) : decodeBoltFields f = decodeMnot f := by
  rw [decodeBoltFields, h]; rfl
theorem bolt_3D (f : BoltFields) (h : f.op = 61#7) : decodeBoltFields f = decodeMpop f := by
  rw [decodeBoltFields, h]; rfl
theorem bolt_3E (f : BoltFields) (h : f.op = 62#7) : decodeBoltFields f = decodeMfirst f := by
  rw [decodeBoltFields, h]; rfl
theorem bolt_3F (f : BoltFields) (h : f.op = 63#7) : decodeBoltFields f = decodeVsel f := by
  rw [decodeBoltFields, h]; rfl
theorem bolt_40 (f : BoltFields) (h : f.op = 64#7) : decodeBoltFields f = decodeMset f := by
  rw [decodeBoltFields, h]; rfl
theorem bolt_41 (f : BoltFields) (h : f.op = 65#7) : decodeBoltFields f = decodeVrsum f := by
  rw [decodeBoltFields, h]; rfl
theorem bolt_42 (f : BoltFields) (h : f.op = 66#7) : decodeBoltFields f = decodeVrmax f := by
  rw [decodeBoltFields, h]; rfl
theorem bolt_43 (f : BoltFields) (h : f.op = 67#7) : decodeBoltFields f = decodeVrmin f := by
  rw [decodeBoltFields, h]; rfl
theorem bolt_44 (f : BoltFields) (h : f.op = 68#7) : decodeBoltFields f = decodeVrand f := by
  rw [decodeBoltFields, h]; rfl
theorem bolt_45 (f : BoltFields) (h : f.op = 69#7) : decodeBoltFields f = decodeVror f := by
  rw [decodeBoltFields, h]; rfl
theorem bolt_46 (f : BoltFields) (h : f.op = 70#7) : decodeBoltFields f = decodeVscan f := by
  rw [decodeBoltFields, h]; rfl
theorem bolt_47 (f : BoltFields) (h : f.op = 71#7) : decodeBoltFields f = decodeVscanmx f := by
  rw [decodeBoltFields, h]; rfl
theorem bolt_48 (f : BoltFields) (h : f.op = 72#7) : decodeBoltFields f = decodeVrdot f := by
  rw [decodeBoltFields, h]; rfl
theorem bolt_49 (f : BoltFields) (h : f.op = 73#7) : decodeBoltFields f = decodeSlide .vslup f := by
  rw [decodeBoltFields, h]; rfl
theorem bolt_4A (f : BoltFields) (h : f.op = 74#7) : decodeBoltFields f = decodeSlide .vsldn f := by
  rw [decodeBoltFields, h]; rfl
theorem bolt_4B (f : BoltFields) (h : f.op = 75#7) : decodeBoltFields f = decodeVgthr f := by
  rw [decodeBoltFields, h]; rfl
theorem bolt_4C (f : BoltFields) (h : f.op = 76#7) : decodeBoltFields f = decodeVcomp f := by
  rw [decodeBoltFields, h]; rfl
theorem bolt_4D (f : BoltFields) (h : f.op = 77#7) : decodeBoltFields f = decodeVexpd f := by
  rw [decodeBoltFields, h]; rfl
theorem bolt_4E (f : BoltFields) (h : f.op = 78#7) : decodeBoltFields f = decodeVbcast f := by
  rw [decodeBoltFields, h]; rfl
theorem bolt_4F (f : BoltFields) (h : f.op = 79#7) : decodeBoltFields f = decodeVrev f := by
  rw [decodeBoltFields, h]; rfl
theorem bolt_50 (f : BoltFields) (h : f.op = 80#7) : decodeBoltFields f = decodeVzip f := by
  rw [decodeBoltFields, h]; rfl
theorem bolt_51 (f : BoltFields) (h : f.op = 81#7) : decodeBoltFields f = decodeVunzip f := by
  rw [decodeBoltFields, h]; rfl
theorem bolt_52 (f : BoltFields) (h : f.op = 82#7) : decodeBoltFields f = decodeVld f := by
  rw [decodeBoltFields, h]; rfl
theorem bolt_53 (f : BoltFields) (h : f.op = 83#7) : decodeBoltFields f = decodeVst f := by
  rw [decodeBoltFields, h]; rfl
theorem bolt_54 (f : BoltFields) (h : f.op = 84#7) : decodeBoltFields f = decodeVlds f := by
  rw [decodeBoltFields, h]; rfl
theorem bolt_55 (f : BoltFields) (h : f.op = 85#7) : decodeBoltFields f = decodeVsts f := by
  rw [decodeBoltFields, h]; rfl
theorem bolt_56 (f : BoltFields) (h : f.op = 86#7) : decodeBoltFields f = decodeVldx f := by
  rw [decodeBoltFields, h]; rfl
theorem bolt_57 (f : BoltFields) (h : f.op = 87#7) : decodeBoltFields f = decodeVstx f := by
  rw [decodeBoltFields, h]; rfl
theorem bolt_58 (f : BoltFields) (h : f.op = 88#7) : decodeBoltFields f = decodeVldxo f := by
  rw [decodeBoltFields, h]; rfl
theorem bolt_59 (f : BoltFields) (h : f.op = 89#7) : decodeBoltFields f = decodeVstxo f := by
  rw [decodeBoltFields, h]; rfl
theorem bolt_5A (f : BoltFields) (h : f.op = 90#7) : decodeBoltFields f = decodeVldseg f := by
  rw [decodeBoltFields, h]; rfl
theorem bolt_5B (f : BoltFields) (h : f.op = 91#7) : decodeBoltFields f = decodeVstseg f := by
  rw [decodeBoltFields, h]; rfl
theorem bolt_5C (f : BoltFields) (h : f.op = 92#7) : decodeBoltFields f = decodeVldm f := by
  rw [decodeBoltFields, h]; rfl
theorem bolt_5D (f : BoltFields) (h : f.op = 93#7) : decodeBoltFields f = decodeVstm f := by
  rw [decodeBoltFields, h]; rfl
theorem bolt_5E (f : BoltFields) (h : f.op = 94#7) : decodeBoltFields f = decodeVldsp f := by
  rw [decodeBoltFields, h]; rfl
theorem bolt_5F (f : BoltFields) (h : f.op = 95#7) : decodeBoltFields f = decodeVstsp f := by
  rw [decodeBoltFields, h]; rfl
theorem bolt_60 (f : BoltFields) (h : f.op = 96#7) : decodeBoltFields f = decodeVldspx f := by
  rw [decodeBoltFields, h]; rfl
theorem bolt_61 (f : BoltFields) (h : f.op = 97#7) : decodeBoltFields f = decodeVstspx f := by
  rw [decodeBoltFields, h]; rfl
theorem bolt_62 (f : BoltFields) (h : f.op = 98#7) : decodeBoltFields f = decodeVaadd f := by
  rw [decodeBoltFields, h]; rfl
theorem bolt_63 (f : BoltFields) (h : f.op = 99#7) : decodeBoltFields f = decodeVamin f := by
  rw [decodeBoltFields, h]; rfl
theorem bolt_64 (f : BoltFields) (h : f.op = 100#7) : decodeBoltFields f = decodeVamax f := by
  rw [decodeBoltFields, h]; rfl
theorem bolt_65 (f : BoltFields) (h : f.op = 101#7) : decodeBoltFields f = decodeVaand f := by
  rw [decodeBoltFields, h]; rfl
theorem bolt_66 (f : BoltFields) (h : f.op = 102#7) : decodeBoltFields f = decodeVaor f := by
  rw [decodeBoltFields, h]; rfl
theorem bolt_67 (f : BoltFields) (h : f.op = 103#7) : decodeBoltFields f = decodeVaxor f := by
  rw [decodeBoltFields, h]; rfl
theorem bolt_68 (f : BoltFields) (h : f.op = 104#7) : decodeBoltFields f = decodeVaswap f := by
  rw [decodeBoltFields, h]; rfl
theorem bolt_69 (f : BoltFields) (h : f.op = 105#7) : decodeBoltFields f = decodeVacas f := by
  rw [decodeBoltFields, h]; rfl
theorem bolt_6A (f : BoltFields) (h : f.op = 106#7) : decodeBoltFields f = decodeTld f := by
  rw [decodeBoltFields, h]; rfl
theorem bolt_6B (f : BoltFields) (h : f.op = 107#7) : decodeBoltFields f = decodeTldf f := by
  rw [decodeBoltFields, h]; rfl
theorem bolt_6C (f : BoltFields) (h : f.op = 108#7) : decodeBoltFields f = decodeTscl f := by
  rw [decodeBoltFields, h]; rfl
theorem bolt_6D (f : BoltFields) (h : f.op = 109#7) : decodeBoltFields f = decodeMrow f := by
  rw [decodeBoltFields, h]; rfl
theorem bolt_6E (f : BoltFields) (h : f.op = 110#7) : decodeBoltFields f = decodeMrowz f := by
  rw [decodeBoltFields, h]; rfl
theorem bolt_6F (f : BoltFields) (h : f.op = 111#7) : decodeBoltFields f = decodeMsweep f := by
  rw [decodeBoltFields, h]; rfl
theorem bolt_70 (f : BoltFields) (h : f.op = 112#7) : decodeBoltFields f = decodeMdrain f := by
  rw [decodeBoltFields, h]; rfl
theorem bolt_71 (f : BoltFields) (h : f.op = 113#7) : decodeBoltFields f = decodeMdrains f := by
  rw [decodeBoltFields, h]; rfl
theorem bolt_72 (f : BoltFields) (h : f.op = 114#7) : decodeBoltFields f = decodeMzero f := by
  rw [decodeBoltFields, h]; rfl
theorem bolt_73 (f : BoltFields) (h : f.op = 115#7) : decodeBoltFields f = decodeMldacc f := by
  rw [decodeBoltFields, h]; rfl
theorem bolt_74 (f : BoltFields) (h : f.op = 116#7) : decodeBoltFields f = decodeQcmp f := by
  rw [decodeBoltFields, h]; rfl
theorem bolt_75 (f : BoltFields) (h : f.op = 117#7) : decodeBoltFields f = decodeQand f := by
  rw [decodeBoltFields, h]; rfl
theorem bolt_76 (f : BoltFields) (h : f.op = 118#7) : decodeBoltFields f = decodeQor f := by
  rw [decodeBoltFields, h]; rfl
theorem bolt_77 (f : BoltFields) (h : f.op = 119#7) : decodeBoltFields f = decodeQnot f := by
  rw [decodeBoltFields, h]; rfl
theorem bolt_78 (f : BoltFields) (h : f.op = 120#7) : decodeBoltFields f = decodeQblend f := by
  rw [decodeBoltFields, h]; rfl
theorem bolt_79 (f : BoltFields) (h : f.op = 121#7) : decodeBoltFields f = decodeQcoll f := by
  rw [decodeBoltFields, h]; rfl
theorem bolt_7A (f : BoltFields) (h : f.op = 122#7) : decodeBoltFields f = decodeQgrad f := by
  rw [decodeBoltFields, h]; rfl
theorem bolt_7B (f : BoltFields) (h : f.op = 123#7) : decodeBoltFields f = decodeQmov f := by
  rw [decodeBoltFields, h]; rfl
theorem bolt_7C (f : BoltFields) (h : f.op = 124#7) : decodeBoltFields f = decodeQset f := by
  rw [decodeBoltFields, h]; rfl
theorem bolt_7D (f : BoltFields) (h : f.op = 125#7) : decodeBoltFields f = decodeQhard f := by
  rw [decodeBoltFields, h]; rfl
theorem bolt_7E (f : BoltFields) (h : f.op = 126#7) : decodeBoltFields f = decodeQseed f := by
  rw [decodeBoltFields, h]; rfl
theorem bolt_7F (f : BoltFields) (h : f.op = 127#7) : decodeBoltFields f = decodeQlin f := by
  rw [decodeBoltFields, h]; rfl

theorem sys_ok {a b : BitVec 5} {x : BitVec 16} {i : Instr} {c : Code}
    (h : ∀ f : StemFields, f.a = a → f.b = b → f.imm16 = x → decodeMajor2D f = .ok i)
    (he : some (Code.stem (StemFields.sys 0x2D a b x)) = some c) : decode c = .ok i :=
  stem_ok (f := ⟨0x2D, a, b, x.extractLsb' 11 5, x.extractLsb' 0 11⟩)
    (Eq.trans (stem_2D _ rfl) (h _ rfl rfl (join_16 x))) he


/-- An encoded well-formed instruction decodes to itself. -/
def RoundTrip.Statement (i : Instr) : Prop :=
  ∀ c : Code, i.wellFormed = true → encode i = some c → decode c = .ok i

open RoundTrip (Statement)


theorem RoundTrip.add (d : Reg) (a : Reg) (b : Reg) :
    Statement (.add d a b) := by
  intro c hw he
  refine stem_ok ?_ he
  rw [stem_01 _ rfl]
  simp [decodeMajor01, checked, firstCase, -Nat.reduceAdd]

theorem RoundTrip.sub (d : Reg) (a : Reg) (b : Reg) :
    Statement (.sub d a b) := by
  intro c hw he
  refine stem_ok ?_ he
  rw [stem_01 _ rfl]
  simp [decodeMajor01, checked, firstCase, -Nat.reduceAdd]

theorem RoundTrip.mul (d : Reg) (a : Reg) (b : Reg) :
    Statement (.mul d a b) := by
  intro c hw he
  refine stem_ok ?_ he
  rw [stem_01 _ rfl]
  simp [decodeMajor01, checked, firstCase, -Nat.reduceAdd]

theorem RoundTrip.mulh (d : Reg) (a : Reg) (b : Reg) :
    Statement (.mulh d a b) := by
  intro c hw he
  refine stem_ok ?_ he
  rw [stem_01 _ rfl]
  simp [decodeMajor01, checked, firstCase, -Nat.reduceAdd]

theorem RoundTrip.mulhn (d : Reg) (a : Reg) (b : Reg) :
    Statement (.mulhn d a b) := by
  intro c hw he
  refine stem_ok ?_ he
  rw [stem_01 _ rfl]
  simp [decodeMajor01, checked, firstCase, -Nat.reduceAdd]

theorem RoundTrip.div (d : Reg) (a : Reg) (b : Reg) :
    Statement (.div d a b) := by
  intro c hw he
  refine stem_ok ?_ he
  rw [stem_01 _ rfl]
  simp [decodeMajor01, checked, firstCase, -Nat.reduceAdd]

theorem RoundTrip.divn (d : Reg) (a : Reg) (b : Reg) :
    Statement (.divn d a b) := by
  intro c hw he
  refine stem_ok ?_ he
  rw [stem_01 _ rfl]
  simp [decodeMajor01, checked, firstCase, -Nat.reduceAdd]

theorem RoundTrip.rem (d : Reg) (a : Reg) (b : Reg) :
    Statement (.rem d a b) := by
  intro c hw he
  refine stem_ok ?_ he
  rw [stem_01 _ rfl]
  simp [decodeMajor01, checked, firstCase, -Nat.reduceAdd]

theorem RoundTrip.remn (d : Reg) (a : Reg) (b : Reg) :
    Statement (.remn d a b) := by
  intro c hw he
  refine stem_ok ?_ he
  rw [stem_01 _ rfl]
  simp [decodeMajor01, checked, firstCase, -Nat.reduceAdd]

theorem RoundTrip.and (d : Reg) (a : Reg) (b : Reg) :
    Statement (.and d a b) := by
  intro c hw he
  refine stem_ok ?_ he
  rw [stem_01 _ rfl]
  simp [decodeMajor01, checked, firstCase, -Nat.reduceAdd]

theorem RoundTrip.or (d : Reg) (a : Reg) (b : Reg) :
    Statement (.or d a b) := by
  intro c hw he
  refine stem_ok ?_ he
  rw [stem_01 _ rfl]
  simp [decodeMajor01, checked, firstCase, -Nat.reduceAdd]

theorem RoundTrip.xor (d : Reg) (a : Reg) (b : Reg) :
    Statement (.xor d a b) := by
  intro c hw he
  refine stem_ok ?_ he
  rw [stem_01 _ rfl]
  simp [decodeMajor01, checked, firstCase, -Nat.reduceAdd]

theorem RoundTrip.shl (d : Reg) (a : Reg) (b : Reg) :
    Statement (.shl d a b) := by
  intro c hw he
  refine stem_ok ?_ he
  rw [stem_01 _ rfl]
  simp [decodeMajor01, checked, firstCase, -Nat.reduceAdd]

theorem RoundTrip.shr (d : Reg) (a : Reg) (b : Reg) :
    Statement (.shr d a b) := by
  intro c hw he
  refine stem_ok ?_ he
  rw [stem_01 _ rfl]
  simp [decodeMajor01, checked, firstCase, -Nat.reduceAdd]

theorem RoundTrip.sra (d : Reg) (a : Reg) (b : Reg) :
    Statement (.sra d a b) := by
  intro c hw he
  refine stem_ok ?_ he
  rw [stem_01 _ rfl]
  simp [decodeMajor01, checked, firstCase, -Nat.reduceAdd]

theorem RoundTrip.slt (d : Reg) (a : Reg) (b : Reg) :
    Statement (.slt d a b) := by
  intro c hw he
  refine stem_ok ?_ he
  rw [stem_01 _ rfl]
  simp [decodeMajor01, checked, firstCase, -Nat.reduceAdd]

theorem RoundTrip.sltn (d : Reg) (a : Reg) (b : Reg) :
    Statement (.sltn d a b) := by
  intro c hw he
  refine stem_ok ?_ he
  rw [stem_01 _ rfl]
  simp [decodeMajor01, checked, firstCase, -Nat.reduceAdd]

theorem RoundTrip.min (d : Reg) (a : Reg) (b : Reg) :
    Statement (.min d a b) := by
  intro c hw he
  refine stem_ok ?_ he
  rw [stem_01 _ rfl]
  simp [decodeMajor01, checked, firstCase, -Nat.reduceAdd]

theorem RoundTrip.max (d : Reg) (a : Reg) (b : Reg) :
    Statement (.max d a b) := by
  intro c hw he
  refine stem_ok ?_ he
  rw [stem_01 _ rfl]
  simp [decodeMajor01, checked, firstCase, -Nat.reduceAdd]

theorem RoundTrip.minn (d : Reg) (a : Reg) (b : Reg) :
    Statement (.minn d a b) := by
  intro c hw he
  refine stem_ok ?_ he
  rw [stem_01 _ rfl]
  simp [decodeMajor01, checked, firstCase, -Nat.reduceAdd]

theorem RoundTrip.maxn (d : Reg) (a : Reg) (b : Reg) :
    Statement (.maxn d a b) := by
  intro c hw he
  refine stem_ok ?_ he
  rw [stem_01 _ rfl]
  simp [decodeMajor01, checked, firstCase, -Nat.reduceAdd]

theorem RoundTrip.clz (d : Reg) (a : Reg) :
    Statement (.clz d a) := by
  intro c hw he
  refine stem_ok ?_ he
  rw [stem_01 _ rfl]
  simp [decodeMajor01, checked, firstCase, -Nat.reduceAdd]

theorem RoundTrip.popc (d : Reg) (a : Reg) :
    Statement (.popc d a) := by
  intro c hw he
  refine stem_ok ?_ he
  rw [stem_01 _ rfl]
  simp [decodeMajor01, checked, firstCase, -Nat.reduceAdd]

theorem RoundTrip.bext (d : Reg) (a : Reg) (b : Reg) :
    Statement (.bext d a b) := by
  intro c hw he
  refine stem_ok ?_ he
  rw [stem_01 _ rfl]
  simp [decodeMajor01, checked, firstCase, -Nat.reduceAdd]

theorem RoundTrip.bins (d : Reg) (a : Reg) (b : Reg) :
    Statement (.bins d a b) := by
  intro c hw he
  refine stem_ok ?_ he
  rw [stem_01 _ rfl]
  simp [decodeMajor01, checked, firstCase, -Nat.reduceAdd]

theorem RoundTrip.bix (d : Reg) (a : Reg) (b : Reg) (w : BitVec 6) :
    Statement (.bix d a b w) := by
  intro c hw he
  refine stem_ok ?_ he
  rw [stem_02 _ rfl]
  simp [decodeMajor02, checked, firstCase, -Nat.reduceAdd]

theorem RoundTrip.addi (d : Reg) (a : Reg) (imm : BitVec 16) :
    Statement (.addi d a imm) := by
  intro c hw he
  refine stem_ok ?_ he
  rw [stem_03 _ rfl]
  simp [decodeMajor03, checked, firstCase, -Nat.reduceAdd]

theorem RoundTrip.andi (d : Reg) (a : Reg) (imm : BitVec 16) :
    Statement (.andi d a imm) := by
  intro c hw he
  refine stem_ok ?_ he
  rw [stem_04 _ rfl]
  simp [decodeMajor04, checked, firstCase, -Nat.reduceAdd]

theorem RoundTrip.ori (d : Reg) (a : Reg) (imm : BitVec 16) :
    Statement (.ori d a imm) := by
  intro c hw he
  refine stem_ok ?_ he
  rw [stem_05 _ rfl]
  simp [decodeMajor05, checked, firstCase, -Nat.reduceAdd]

theorem RoundTrip.xori (d : Reg) (a : Reg) (imm : BitVec 16) :
    Statement (.xori d a imm) := by
  intro c hw he
  refine stem_ok ?_ he
  rw [stem_06 _ rfl]
  simp [decodeMajor06, checked, firstCase, -Nat.reduceAdd]

theorem RoundTrip.shli (d : Reg) (a : Reg) (sh : BitVec 6) :
    Statement (.shli d a sh) := by
  intro c hw he
  refine stem_ok ?_ he
  rw [stem_07 _ rfl]
  simp [decodeMajor07, checked, firstCase, -Nat.reduceAdd]

theorem RoundTrip.shri (d : Reg) (a : Reg) (sh : BitVec 6) :
    Statement (.shri d a sh) := by
  intro c hw he
  refine stem_ok ?_ he
  rw [stem_08 _ rfl]
  simp [decodeMajor08, checked, firstCase, -Nat.reduceAdd]

theorem RoundTrip.srai (d : Reg) (a : Reg) (sh : BitVec 6) :
    Statement (.srai d a sh) := by
  intro c hw he
  refine stem_ok ?_ he
  rw [stem_09 _ rfl]
  simp [decodeMajor09, checked, firstCase, -Nat.reduceAdd]

theorem RoundTrip.li (d : Reg) (imm : BitVec 21) :
    Statement (.li d imm) := by
  intro c hw he
  refine stem_ok ?_ he
  rw [stem_0A _ rfl]
  simp [decodeMajor0A, checked, firstCase, -Nat.reduceAdd]

theorem RoundTrip.lih (d : Reg) (imm : BitVec 21) :
    Statement (.lih d imm) := by
  intro c hw he
  refine stem_ok ?_ he
  rw [stem_0B _ rfl]
  simp [decodeMajor0B, checked, firstCase, -Nat.reduceAdd]

theorem RoundTrip.beq (a : Reg) (b : Reg) (off : BitVec 16) :
    Statement (.beq a b off) := by
  intro c hw he
  refine stem_ok ?_ he
  rw [stem_0C _ rfl]
  simp [decodeMajor0C, checked, firstCase, -Nat.reduceAdd]

theorem RoundTrip.bne (a : Reg) (b : Reg) (off : BitVec 16) :
    Statement (.bne a b off) := by
  intro c hw he
  refine stem_ok ?_ he
  rw [stem_0D _ rfl]
  simp [decodeMajor0D, checked, firstCase, -Nat.reduceAdd]

theorem RoundTrip.blt (a : Reg) (b : Reg) (off : BitVec 16) :
    Statement (.blt a b off) := by
  intro c hw he
  refine stem_ok ?_ he
  rw [stem_0E _ rfl]
  simp [decodeMajor0E, checked, firstCase, -Nat.reduceAdd]

theorem RoundTrip.bge (a : Reg) (b : Reg) (off : BitVec 16) :
    Statement (.bge a b off) := by
  intro c hw he
  refine stem_ok ?_ he
  rw [stem_0F _ rfl]
  simp [decodeMajor0F, checked, firstCase, -Nat.reduceAdd]

theorem RoundTrip.bltn (a : Reg) (b : Reg) (off : BitVec 16) :
    Statement (.bltn a b off) := by
  intro c hw he
  refine stem_ok ?_ he
  rw [stem_10 _ rfl]
  simp [decodeMajor10, checked, firstCase, -Nat.reduceAdd]

theorem RoundTrip.bgen (a : Reg) (b : Reg) (off : BitVec 16) :
    Statement (.bgen a b off) := by
  intro c hw he
  refine stem_ok ?_ he
  rw [stem_11 _ rfl]
  simp [decodeMajor11, checked, firstCase, -Nat.reduceAdd]

theorem RoundTrip.jmp (off : BitVec 26) :
    Statement (.jmp off) := by
  intro c hw he
  refine stem_ok ?_ he
  rw [stem_12 _ rfl]
  simp [decodeMajor12, checked, firstCase, -Nat.reduceAdd]

theorem RoundTrip.jal (off : BitVec 26) :
    Statement (.jal off) := by
  intro c hw he
  refine stem_ok ?_ he
  rw [stem_13 _ rfl]
  simp [decodeMajor13, checked, firstCase, -Nat.reduceAdd]

theorem RoundTrip.jr (a : Reg) :
    Statement (.jr a) := by
  intro c hw he
  refine stem_ok ?_ he
  rw [stem_14 _ rfl]
  simp [decodeMajor14, checked, firstCase, -Nat.reduceAdd]

theorem RoundTrip.lds (d : Reg) (b : Reg) (ad : Index) (w : BitVec 6) (sc : Scope) :
    Statement (.lds d b ad w sc) := by
  intro c hw he
  cases ad
  all_goals
    refine stem_ok ?_ he
    rw [stem_15 _ rfl]
    simp [decodeMajor15, checked, firstCase, -Nat.reduceAdd]

theorem RoundTrip.ldz (d : Reg) (b : Reg) (ad : Index) (w : BitVec 6) (sc : Scope) :
    Statement (.ldz d b ad w sc) := by
  intro c hw he
  cases ad
  all_goals
    refine stem_ok ?_ he
    rw [stem_16 _ rfl]
    simp [decodeMajor16, checked, firstCase, -Nat.reduceAdd]

theorem RoundTrip.st (d : Reg) (b : Reg) (ad : Index) (w : BitVec 6) (sc : Scope) :
    Statement (.st d b ad w sc) := by
  intro c hw he
  cases ad
  all_goals
    refine stem_ok ?_ he
    rw [stem_17 _ rfl]
    simp [decodeMajor17, checked, firstCase, -Nat.reduceAdd]

theorem RoundTrip.lda (d : Reg) (b : Reg) (ad : Index) (w : BitVec 6) (sc : Scope) :
    Statement (.lda d b ad w sc) := by
  intro c hw he
  cases ad
  all_goals
    refine stem_ok ?_ he
    rw [stem_18 _ rfl]
    simp [decodeMajor18, checked, firstCase, -Nat.reduceAdd]

theorem RoundTrip.stl (d : Reg) (b : Reg) (ad : Index) (w : BitVec 6) (sc : Scope) :
    Statement (.stl d b ad w sc) := by
  intro c hw he
  cases ad
  all_goals
    refine stem_ok ?_ he
    rw [stem_19 _ rfl]
    simp [decodeMajor19, checked, firstCase, -Nat.reduceAdd]

theorem RoundTrip.aadd (d : Reg) (b : Reg) (c : Reg) (w : BitVec 6) (sc : Scope) :
    Statement (.aadd d b c w sc) := by
  intro c hw he
  refine stem_ok ?_ he
  rw [stem_1A _ rfl]
  simp [decodeMajor1A, checked, firstCase, -Nat.reduceAdd]

theorem RoundTrip.aand (d : Reg) (b : Reg) (c : Reg) (w : BitVec 6) (sc : Scope) :
    Statement (.aand d b c w sc) := by
  intro c hw he
  refine stem_ok ?_ he
  rw [stem_1B _ rfl]
  simp [decodeMajor1B, checked, firstCase, -Nat.reduceAdd]

theorem RoundTrip.aor (d : Reg) (b : Reg) (c : Reg) (w : BitVec 6) (sc : Scope) :
    Statement (.aor d b c w sc) := by
  intro c hw he
  refine stem_ok ?_ he
  rw [stem_1C _ rfl]
  simp [decodeMajor1C, checked, firstCase, -Nat.reduceAdd]

theorem RoundTrip.axor (d : Reg) (b : Reg) (c : Reg) (w : BitVec 6) (sc : Scope) :
    Statement (.axor d b c w sc) := by
  intro c hw he
  refine stem_ok ?_ he
  rw [stem_1D _ rfl]
  simp [decodeMajor1D, checked, firstCase, -Nat.reduceAdd]

theorem RoundTrip.amin (d : Reg) (b : Reg) (c : Reg) (w : BitVec 6) (sc : Scope) :
    Statement (.amin d b c w sc) := by
  intro c hw he
  refine stem_ok ?_ he
  rw [stem_1E _ rfl]
  simp [decodeMajor1E, checked, firstCase, -Nat.reduceAdd]

theorem RoundTrip.amax (d : Reg) (b : Reg) (c : Reg) (w : BitVec 6) (sc : Scope) :
    Statement (.amax d b c w sc) := by
  intro c hw he
  refine stem_ok ?_ he
  rw [stem_1F _ rfl]
  simp [decodeMajor1F, checked, firstCase, -Nat.reduceAdd]

theorem RoundTrip.aminn (d : Reg) (b : Reg) (c : Reg) (w : BitVec 6) (sc : Scope) :
    Statement (.aminn d b c w sc) := by
  intro c hw he
  refine stem_ok ?_ he
  rw [stem_20 _ rfl]
  simp [decodeMajor20, checked, firstCase, -Nat.reduceAdd]

theorem RoundTrip.amaxn (d : Reg) (b : Reg) (c : Reg) (w : BitVec 6) (sc : Scope) :
    Statement (.amaxn d b c w sc) := by
  intro c hw he
  refine stem_ok ?_ he
  rw [stem_21 _ rfl]
  simp [decodeMajor21, checked, firstCase, -Nat.reduceAdd]

theorem RoundTrip.aswap (d : Reg) (b : Reg) (c : Reg) (w : BitVec 6) (sc : Scope) :
    Statement (.aswap d b c w sc) := by
  intro c hw he
  refine stem_ok ?_ he
  rw [stem_22 _ rfl]
  simp [decodeMajor22, checked, firstCase, -Nat.reduceAdd]

theorem RoundTrip.cas (d : Reg) (b : Reg) (c : Reg) (w : BitVec 6) (sc : Scope) :
    Statement (.cas d b c w sc) := by
  intro c hw he
  refine stem_ok ?_ he
  rw [stem_23 _ rfl]
  simp [decodeMajor23, checked, firstCase, -Nat.reduceAdd]

theorem RoundTrip.casq (d : Reg) (b : Reg) (c : Reg) (sc : Scope) :
    Statement (.casq d b c sc) := by
  intro c hw he
  refine stem_ok ?_ he
  rw [stem_24 _ rfl]
  simp [decodeMajor24, checked, firstCase, -Nat.reduceAdd]

theorem RoundTrip.fence (k : FenceKind) (sc : Scope) :
    Statement (.fence k sc) := by
  intro c hw he
  refine stem_ok ?_ he
  rw [stem_25 _ rfl]
  simp [decodeMajor25, checked, firstCase, -Nat.reduceAdd]

theorem RoundTrip.waitm (d : Reg) (b : Reg) (c : Reg) (w : BitVec 6) (tmo : BitVec 5) :
    Statement (.waitm d b c w tmo) := by
  intro c hw he
  refine stem_ok ?_ he
  rw [stem_26 _ rfl]
  simp [decodeMajor26, checked, firstCase, -Nat.reduceAdd]

theorem RoundTrip.waitc (n : BitVec 5) (cn : BitVec 3) (tmo : BitVec 5) :
    Statement (.waitc n cn tmo) := by
  intro c hw he
  refine stem_ok ?_ he
  rw [stem_27 _ rfl]
  simp [decodeMajor27, checked, firstCase, -Nat.reduceAdd]

theorem RoundTrip.arrive (a : Reg) (b : Reg) (sc : Scope) :
    Statement (.arrive a b sc) := by
  intro c hw he
  refine stem_ok ?_ he
  rw [stem_27 _ rfl]
  simp [decodeMajor27, checked, firstCase, -Nat.reduceAdd]

theorem RoundTrip.waitb (d : Reg) (b : Reg) (a : Reg) (sc : Scope) (tmo : BitVec 5) :
    Statement (.waitb d b a sc tmo) := by
  intro c hw he
  refine stem_ok ?_ he
  rw [stem_27 _ rfl]
  simp [decodeMajor27, checked, firstCase, -Nat.reduceAdd]

theorem RoundTrip.lwait (d : Reg) (a : Reg) (tmo : BitVec 5) :
    Statement (.lwait d a tmo) := by
  intro c hw he
  refine stem_ok ?_ he
  rw [stem_27 _ rfl]
  simp [decodeMajor27, checked, firstCase, -Nat.reduceAdd]

theorem RoundTrip.pause :
    Statement (.pause) := by
  intro c hw he
  refine stem_ok ?_ he
  rw [stem_27 _ rfl]
  simp [decodeMajor27, checked, firstCase, -Nat.reduceAdd]

theorem RoundTrip.bolt (off : BitVec 26) :
    Statement (.bolt off) := by
  intro c hw he
  refine stem_ok ?_ he
  rw [stem_28 _ rfl]
  simp [decodeMajor28, checked, firstCase, -Nat.reduceAdd]

theorem RoundTrip.vcfg (d : Reg) (b : Reg) :
    Statement (.vcfg d b) := by
  intro c hw he
  refine stem_ok ?_ he
  rw [stem_29 _ rfl]
  simp [decodeMajor29, checked, firstCase, -Nat.reduceAdd]

theorem RoundTrip.setvl (d : Reg) (a : Reg) :
    Statement (.setvl d a) := by
  intro c hw he
  refine stem_ok ?_ he
  rw [stem_29 _ rfl]
  simp [decodeMajor29, checked, firstCase, -Nat.reduceAdd]

theorem RoundTrip.farm (a : Reg) (b : Reg) :
    Statement (.farm a b) := by
  intro c hw he
  refine stem_ok ?_ he
  rw [stem_29 _ rfl]
  simp [decodeMajor29, checked, firstCase, -Nat.reduceAdd]

theorem RoundTrip.strip (d : Reg) :
    Statement (.strip d) := by
  intro c hw he
  refine stem_ok ?_ he
  rw [stem_29 _ rfl]
  simp [decodeMajor29, checked, firstCase, -Nat.reduceAdd]

theorem RoundTrip.launch (b : Reg) :
    Statement (.launch b) := by
  intro c hw he
  refine stem_ok ?_ he
  rw [stem_29 _ rfl]
  simp [decodeMajor29, checked, firstCase, -Nat.reduceAdd]

theorem RoundTrip.hexit :
    Statement (.hexit) := by
  intro c hw he
  refine stem_ok ?_ he
  rw [stem_29 _ rfl]
  simp [decodeMajor29, checked, firstCase, -Nat.reduceAdd]

theorem RoundTrip.claim (d : Reg) (a : Reg) (k : BitVec 2) (n : BitVec 4) (status : Bool) :
    Statement (.claim d a k n status) := by
  intro c hw he
  replace hw : (claimCountOk k n) = true := hw
  refine stem_ok ?_ he
  rw [stem_2A _ rfl]
  simp [decodeMajor2A, checked, firstCase, -Nat.reduceAdd, hw]

theorem RoundTrip.release (a : Reg) (k : BitVec 2) :
    Statement (.release a k) := by
  intro c hw he
  refine stem_ok ?_ he
  rw [stem_2A _ rfl]
  simp [decodeMajor2A, checked, firstCase, -Nat.reduceAdd]

theorem RoundTrip.sdone :
    Statement (.sdone) := by
  intro c hw he
  refine stem_ok ?_ he
  rw [stem_2A _ rfl]
  simp [decodeMajor2A, checked, firstCase, -Nat.reduceAdd]

theorem RoundTrip.ssumm :
    Statement (.ssumm) := by
  intro c hw he
  refine stem_ok ?_ he
  rw [stem_2A _ rfl]
  simp [decodeMajor2A, checked, firstCase, -Nat.reduceAdd]

theorem RoundTrip.srefuse :
    Statement (.srefuse) := by
  intro c hw he
  refine stem_ok ?_ he
  rw [stem_2A _ rfl]
  simp [decodeMajor2A, checked, firstCase, -Nat.reduceAdd]

theorem RoundTrip.probe (k : Tok) (a : Reg) (b : Reg) (kd : BitVec 2) :
    Statement (.probe k a b kd) := by
  intro c hw he
  replace hw : (kd != 0) = true := hw
  have hw : ¬ kd = 0#2 := by simpa using hw
  refine stem_ok ?_ he
  rw [stem_2B _ rfl]
  simp [decodeMajor2B, checked, firstCase, -Nat.reduceAdd, hw]

theorem RoundTrip.unprobe (k : Tok) :
    Statement (.unprobe k) := by
  intro c hw he
  refine stem_ok ?_ he
  rw [stem_2B _ rfl]
  simp [decodeMajor2B, checked, firstCase, -Nat.reduceAdd]

theorem RoundTrip.bind (b : Reg) (v : VReg) :
    Statement (.bind b v) := by
  intro c hw he
  refine stem_ok ?_ he
  rw [stem_2B _ rfl]
  simp [decodeMajor2B, checked, firstCase, -Nat.reduceAdd]

theorem RoundTrip.unbind (v : VReg) :
    Statement (.unbind v) := by
  intro c hw he
  refine stem_ok ?_ he
  rw [stem_2B _ rfl]
  simp [decodeMajor2B, checked, firstCase, -Nat.reduceAdd]

theorem RoundTrip.copyRegLen (a : Reg) (b : Reg) (l : Reg) (cn : BitVec 3) :
    Statement (.copyRegLen a b l cn) := by
  intro c hw he
  refine stem_ok ?_ he
  rw [stem_2C _ rfl]
  simp [decodeMajor2C, checked, firstCase, -Nat.reduceAdd]

theorem RoundTrip.copyImmLen (a : Reg) (b : Reg) (len : BitVec 9) (cn : BitVec 3) :
    Statement (.copyImmLen a b len cn) := by
  intro c hw he
  refine stem_ok ?_ he
  rw [stem_2C _ rfl]
  simp [decodeMajor2C, checked, firstCase, -Nat.reduceAdd]

theorem RoundTrip.copymRegLen (a : Reg) (b : Reg) (l : Reg) (cn : BitVec 3) :
    Statement (.copymRegLen a b l cn) := by
  intro c hw he
  refine stem_ok ?_ he
  rw [stem_2C _ rfl]
  simp [decodeMajor2C, checked, firstCase, -Nat.reduceAdd]

theorem RoundTrip.copymImmLen (a : Reg) (b : Reg) (len : BitVec 9) (cn : BitVec 3) :
    Statement (.copymImmLen a b len cn) := by
  intro c hw he
  refine stem_ok ?_ he
  rw [stem_2C _ rfl]
  simp [decodeMajor2C, checked, firstCase, -Nat.reduceAdd]

theorem RoundTrip.mcastRegLen (a : Reg) (b : Reg) (l : Reg) (cn : BitVec 3) :
    Statement (.mcastRegLen a b l cn) := by
  intro c hw he
  refine stem_ok ?_ he
  rw [stem_2C _ rfl]
  simp [decodeMajor2C, checked, firstCase, -Nat.reduceAdd]

theorem RoundTrip.mcastImmLen (a : Reg) (b : Reg) (len : BitVec 9) (cn : BitVec 3) :
    Statement (.mcastImmLen a b len cn) := by
  intro c hw he
  refine stem_ok ?_ he
  rw [stem_2C _ rfl]
  simp [decodeMajor2C, checked, firstCase, -Nat.reduceAdd]

theorem RoundTrip.redstRegLen (a : Reg) (b : Reg) (l : Reg) (cn : BitVec 3) :
    Statement (.redstRegLen a b l cn) := by
  intro c hw he
  refine stem_ok ?_ he
  rw [stem_2C _ rfl]
  simp [decodeMajor2C, checked, firstCase, -Nat.reduceAdd]

theorem RoundTrip.redstImmLen (a : Reg) (b : Reg) (len : BitVec 9) (cn : BitVec 3) :
    Statement (.redstImmLen a b len cn) := by
  intro c hw he
  refine stem_ok ?_ he
  rw [stem_2C _ rfl]
  simp [decodeMajor2C, checked, firstCase, -Nat.reduceAdd]

theorem RoundTrip.sldRegLen (a : Reg) (b : Reg) (l : Reg) (cn : BitVec 3) :
    Statement (.sldRegLen a b l cn) := by
  intro c hw he
  refine stem_ok ?_ he
  rw [stem_2C _ rfl]
  simp [decodeMajor2C, checked, firstCase, -Nat.reduceAdd]

theorem RoundTrip.sldImmLen (a : Reg) (b : Reg) (len : BitVec 9) (cn : BitVec 3) :
    Statement (.sldImmLen a b len cn) := by
  intro c hw he
  refine stem_ok ?_ he
  rw [stem_2C _ rfl]
  simp [decodeMajor2C, checked, firstCase, -Nat.reduceAdd]

theorem RoundTrip.dims (a : Reg) (b : Reg) (n : BitVec 2) :
    Statement (.dims a b n) := by
  intro c hw he
  replace hw : (n != 3) = true := hw
  have hw : ¬ n = 3#2 := by simpa using hw
  refine stem_ok ?_ he
  rw [stem_2C _ rfl]
  simp [decodeMajor2C, checked, firstCase, -Nat.reduceAdd, hw]

theorem RoundTrip.csrr (d : Reg) (csr : BitVec 12) :
    Statement (.csrr d csr) := by
  intro c hw he
  refine sys_ok ?_ he
  intro f ha hb hx
  simp [decodeMajor2D, ha, hb, hx, checked, firstCase, -Nat.reduceAdd]

theorem RoundTrip.csrw (a : Reg) (csr : BitVec 12) :
    Statement (.csrw a csr) := by
  intro c hw he
  refine sys_ok ?_ he
  intro f ha hb hx
  simp [decodeMajor2D, ha, hb, hx, checked, firstCase, -Nat.reduceAdd]

theorem RoundTrip.csrx (d : Reg) (a : Reg) (csr : BitVec 12) :
    Statement (.csrx d a csr) := by
  intro c hw he
  refine sys_ok ?_ he
  intro f ha hb hx
  simp [decodeMajor2D, ha, hb, hx, checked, firstCase, -Nat.reduceAdd]

theorem RoundTrip.trap (n : BitVec 6) :
    Statement (.trap n) := by
  intro c hw he
  refine sys_ok ?_ he
  intro f ha hb hx
  simp [decodeMajor2D, ha, hb, hx, checked, firstCase, -Nat.reduceAdd]

theorem RoundTrip.rett :
    Statement (.rett) := by
  intro c hw he
  refine sys_ok ?_ he
  intro f ha hb hx
  simp [decodeMajor2D, ha, hb, hx, checked, firstCase, -Nat.reduceAdd]

theorem RoundTrip.fwcall (n : BitVec 12) :
    Statement (.fwcall n) := by
  intro c hw he
  refine sys_ok ?_ he
  intro f ha hb hx
  simp [decodeMajor2D, ha, hb, hx, checked, firstCase, -Nat.reduceAdd]

theorem RoundTrip.bkpt (n : BitVec 12) :
    Statement (.bkpt n) := by
  intro c hw he
  refine sys_ok ?_ he
  intro f ha hb hx
  simp [decodeMajor2D, ha, hb, hx, checked, firstCase, -Nat.reduceAdd]

theorem RoundTrip.stop :
    Statement (.stop) := by
  intro c hw he
  refine bolt_ok ?_ he
  rw [bolt_00 _ rfl]
  simp [decodeStop, checked, firstCase, -Nat.reduceAdd]

theorem RoundTrip.vbany (off : BitVec 20) (k : MaskOp) :
    Statement (.vbany off k) := by
  intro c hw he
  replace hw : (k.ok) = true := hw
  refine bolt_ok ?_ he
  rw [bolt_01 _ rfl]
  simp [decodeVbany, checked, firstCase, -Nat.reduceAdd, hw]

theorem RoundTrip.vball (off : BitVec 20) (k : MaskOp) :
    Statement (.vball off k) := by
  intro c hw he
  replace hw : (k.ok) = true := hw
  refine bolt_ok ?_ he
  rw [bolt_02 _ rfl]
  simp [decodeVball, checked, firstCase, -Nat.reduceAdd, hw]

theorem RoundTrip.vbnone (off : BitVec 20) (k : MaskOp) :
    Statement (.vbnone off k) := by
  intro c hw he
  replace hw : (k.ok) = true := hw
  refine bolt_ok ?_ he
  rw [bolt_03 _ rfl]
  simp [decodeVbnone, checked, firstCase, -Nat.reduceAdd, hw]

theorem RoundTrip.vbdiv (off : BitVec 20) (k : MaskOp) :
    Statement (.vbdiv off k) := by
  intro c hw he
  replace hw : (k.ok) = true := hw
  refine bolt_ok ?_ he
  rw [bolt_04 _ rfl]
  simp [decodeVbdiv, checked, firstCase, -Nat.reduceAdd, hw]

theorem RoundTrip.vjmp (off : BitVec 20) :
    Statement (.vjmp off) := by
  intro c hw he
  refine bolt_ok ?_ he
  rw [bolt_05 _ rfl]
  simp [decodeVjmp, checked, firstCase, -Nat.reduceAdd]

theorem RoundTrip.vfence (sc : Scope) :
    Statement (.vfence sc) := by
  intro c hw he
  refine bolt_ok ?_ he
  rw [bolt_06 _ rfl]
  simp [decodeVfence, checked, firstCase, -Nat.reduceAdd]

theorem RoundTrip.vidx (vd : VReg) (k : MaskOp) :
    Statement (.vidx vd k) := by
  intro c hw he
  replace hw : (k.ok) = true := hw
  refine bolt_ok ?_ he
  rw [bolt_07 _ rfl]
  simp [decodeVidx, checked, firstCase, -Nat.reduceAdd, hw]

theorem RoundTrip.vmvs (vd : VReg) (sa : Reg) (sb : Reg) (k : MaskOp) :
    Statement (.vmvs vd sa sb k) := by
  intro c hw he
  replace hw : (k.ok) = true := hw
  refine bolt_ok ?_ he
  rw [bolt_08 _ rfl]
  simp [decodeVmvs, checked, firstCase, -Nat.reduceAdd, hw]

theorem RoundTrip.vext (va : VReg) (sel : ExtSel) (k : MaskOp) :
    Statement (.vext va sel k) := by
  intro c hw he
  replace hw : (k.ok) = true := hw
  cases sel
  all_goals
    refine bolt_ok ?_ he
    rw [bolt_09 _ rfl]
    simp [decodeVext, checked, firstCase, -Nat.reduceAdd, hw]

theorem RoundTrip.vtrap (n : BitVec 6) (k : MaskOp) :
    Statement (.vtrap n k) := by
  intro c hw he
  replace hw : (k.ok) = true := hw
  refine bolt_ok ?_ he
  rw [bolt_0A _ rfl]
  simp [decodeVtrap, checked, firstCase, -Nat.reduceAdd, hw]

theorem RoundTrip.vrng (vd : VReg) (k : MaskOp) :
    Statement (.vrng vd k) := by
  intro c hw he
  replace hw : (k.ok) = true := hw
  refine bolt_ok ?_ he
  rw [bolt_0B _ rfl]
  simp [decodeVrng, checked, firstCase, -Nat.reduceAdd, hw]

theorem RoundTrip.vadd (vd : VReg) (va : VReg) (vb : VReg) (r : Rnd) (k : MaskOp) :
    Statement (.vadd vd va vb r k) := by
  intro c hw he
  replace hw : (k.ok) = true := hw
  refine bolt_ok ?_ he
  rw [bolt_0C _ rfl]
  simp [decodeVadd, checked, firstCase, -Nat.reduceAdd, hw]

theorem RoundTrip.vsub (vd : VReg) (va : VReg) (vb : VReg) (r : Rnd) (k : MaskOp) :
    Statement (.vsub vd va vb r k) := by
  intro c hw he
  replace hw : (k.ok) = true := hw
  refine bolt_ok ?_ he
  rw [bolt_0D _ rfl]
  simp [decodeVsub, checked, firstCase, -Nat.reduceAdd, hw]

theorem RoundTrip.vmul (vd : VReg) (va : VReg) (vb : VReg) (r : Rnd) (k : MaskOp) :
    Statement (.vmul vd va vb r k) := by
  intro c hw he
  replace hw : (k.ok) = true := hw
  refine bolt_ok ?_ he
  rw [bolt_0E _ rfl]
  simp [decodeVmul, checked, firstCase, -Nat.reduceAdd, hw]

theorem RoundTrip.vmulh (vd : VReg) (va : VReg) (vb : VReg) (r : Rnd) (k : MaskOp) :
    Statement (.vmulh vd va vb r k) := by
  intro c hw he
  replace hw : (k.ok) = true := hw
  refine bolt_ok ?_ he
  rw [bolt_0F _ rfl]
  simp [decodeVmulh, checked, firstCase, -Nat.reduceAdd, hw]

theorem RoundTrip.vmulw (vd : VReg) (va : VReg) (vb : VReg) (r : Rnd) (fx : BitVec 4) (k : MaskOp) :
    Statement (.vmulw vd va vb r fx k) := by
  intro c hw he
  replace hw : (k.ok) = true := hw
  refine bolt_ok ?_ he
  rw [bolt_10 _ rfl]
  simp [decodeVmulw, checked, firstCase, -Nat.reduceAdd, hw]

theorem RoundTrip.vmacc (vd : VReg) (va : VReg) (vb : VReg) (k : MaskOp) :
    Statement (.vmacc vd va vb k) := by
  intro c hw he
  replace hw : (k.ok) = true := hw
  refine bolt_ok ?_ he
  rw [bolt_11 _ rfl]
  simp [decodeVmacc, checked, firstCase, -Nat.reduceAdd, hw]

theorem RoundTrip.vdiv (vd : VReg) (va : VReg) (vb : VReg) (r : Rnd) (k : MaskOp) :
    Statement (.vdiv vd va vb r k) := by
  intro c hw he
  replace hw : (k.ok) = true := hw
  refine bolt_ok ?_ he
  rw [bolt_12 _ rfl]
  simp [decodeVdiv, checked, firstCase, -Nat.reduceAdd, hw]

theorem RoundTrip.vrem (vd : VReg) (va : VReg) (vb : VReg) (r : Rnd) (k : MaskOp) :
    Statement (.vrem vd va vb r k) := by
  intro c hw he
  replace hw : (k.ok) = true := hw
  refine bolt_ok ?_ he
  rw [bolt_13 _ rfl]
  simp [decodeVrem, checked, firstCase, -Nat.reduceAdd, hw]

theorem RoundTrip.vmin (vd : VReg) (va : VReg) (vb : VReg) (r : Rnd) (k : MaskOp) :
    Statement (.vmin vd va vb r k) := by
  intro c hw he
  replace hw : (k.ok) = true := hw
  refine bolt_ok ?_ he
  rw [bolt_14 _ rfl]
  simp [decodeVmin, checked, firstCase, -Nat.reduceAdd, hw]

theorem RoundTrip.vmax (vd : VReg) (va : VReg) (vb : VReg) (r : Rnd) (k : MaskOp) :
    Statement (.vmax vd va vb r k) := by
  intro c hw he
  replace hw : (k.ok) = true := hw
  refine bolt_ok ?_ he
  rw [bolt_15 _ rfl]
  simp [decodeVmax, checked, firstCase, -Nat.reduceAdd, hw]

theorem RoundTrip.vabs (vd : VReg) (va : VReg) (r : Rnd) (k : MaskOp) :
    Statement (.vabs vd va r k) := by
  intro c hw he
  replace hw : (k.ok) = true := hw
  refine bolt_ok ?_ he
  rw [bolt_16 _ rfl]
  simp [decodeVabs, checked, firstCase, -Nat.reduceAdd, hw]

theorem RoundTrip.vneg (vd : VReg) (va : VReg) (r : Rnd) (k : MaskOp) :
    Statement (.vneg vd va r k) := by
  intro c hw he
  replace hw : (k.ok) = true := hw
  refine bolt_ok ?_ he
  rw [bolt_17 _ rfl]
  simp [decodeVneg, checked, firstCase, -Nat.reduceAdd, hw]

theorem RoundTrip.vadds (vd : VReg) (va : VReg) (vb : VReg) (r : Rnd) (k : MaskOp) :
    Statement (.vadds vd va vb r k) := by
  intro c hw he
  replace hw : (k.ok) = true := hw
  refine bolt_ok ?_ he
  rw [bolt_18 _ rfl]
  simp [decodeVadds, checked, firstCase, -Nat.reduceAdd, hw]

theorem RoundTrip.vsubs (vd : VReg) (va : VReg) (vb : VReg) (r : Rnd) (k : MaskOp) :
    Statement (.vsubs vd va vb r k) := by
  intro c hw he
  replace hw : (k.ok) = true := hw
  refine bolt_ok ?_ he
  rw [bolt_19 _ rfl]
  simp [decodeVsubs, checked, firstCase, -Nat.reduceAdd, hw]

theorem RoundTrip.vavg (vd : VReg) (va : VReg) (vb : VReg) (r : Rnd) (k : MaskOp) :
    Statement (.vavg vd va vb r k) := by
  intro c hw he
  replace hw : (k.ok) = true := hw
  refine bolt_ok ?_ he
  rw [bolt_1A _ rfl]
  simp [decodeVavg, checked, firstCase, -Nat.reduceAdd, hw]

theorem RoundTrip.vand (vd : VReg) (va : VReg) (vb : VReg) (r : Rnd) (k : MaskOp) :
    Statement (.vand vd va vb r k) := by
  intro c hw he
  replace hw : (k.ok) = true := hw
  refine bolt_ok ?_ he
  rw [bolt_1B _ rfl]
  simp [decodeVand, checked, firstCase, -Nat.reduceAdd, hw]

theorem RoundTrip.vor (vd : VReg) (va : VReg) (vb : VReg) (r : Rnd) (k : MaskOp) :
    Statement (.vor vd va vb r k) := by
  intro c hw he
  replace hw : (k.ok) = true := hw
  refine bolt_ok ?_ he
  rw [bolt_1C _ rfl]
  simp [decodeVor, checked, firstCase, -Nat.reduceAdd, hw]

theorem RoundTrip.vxor (vd : VReg) (va : VReg) (vb : VReg) (r : Rnd) (k : MaskOp) :
    Statement (.vxor vd va vb r k) := by
  intro c hw he
  replace hw : (k.ok) = true := hw
  refine bolt_ok ?_ he
  rw [bolt_1D _ rfl]
  simp [decodeVxor, checked, firstCase, -Nat.reduceAdd, hw]

theorem RoundTrip.vshl (vd : VReg) (va : VReg) (vb : VReg) (r : Rnd) (k : MaskOp) :
    Statement (.vshl vd va vb r k) := by
  intro c hw he
  replace hw : (k.ok) = true := hw
  refine bolt_ok ?_ he
  rw [bolt_1E _ rfl]
  simp [decodeVshl, checked, firstCase, -Nat.reduceAdd, hw]

theorem RoundTrip.vshr (vd : VReg) (va : VReg) (vb : VReg) (r : Rnd) (k : MaskOp) :
    Statement (.vshr vd va vb r k) := by
  intro c hw he
  replace hw : (k.ok) = true := hw
  refine bolt_ok ?_ he
  rw [bolt_1F _ rfl]
  simp [decodeVshr, checked, firstCase, -Nat.reduceAdd, hw]

theorem RoundTrip.vsra (vd : VReg) (va : VReg) (vb : VReg) (r : Rnd) (k : MaskOp) :
    Statement (.vsra vd va vb r k) := by
  intro c hw he
  replace hw : (k.ok) = true := hw
  refine bolt_ok ?_ he
  rw [bolt_20 _ rfl]
  simp [decodeVsra, checked, firstCase, -Nat.reduceAdd, hw]

theorem RoundTrip.vpopc (vd : VReg) (va : VReg) (k : MaskOp) :
    Statement (.vpopc vd va k) := by
  intro c hw he
  replace hw : (k.ok) = true := hw
  refine bolt_ok ?_ he
  rw [bolt_21 _ rfl]
  simp [decodeVpopc, checked, firstCase, -Nat.reduceAdd, hw]

theorem RoundTrip.vclz (vd : VReg) (va : VReg) (k : MaskOp) :
    Statement (.vclz vd va k) := by
  intro c hw he
  replace hw : (k.ok) = true := hw
  refine bolt_ok ?_ he
  rw [bolt_22 _ rfl]
  simp [decodeVclz, checked, firstCase, -Nat.reduceAdd, hw]

theorem RoundTrip.vbext (vd : VReg) (va : VReg) (vb : VReg) (r : Rnd) (k : MaskOp) :
    Statement (.vbext vd va vb r k) := by
  intro c hw he
  replace hw : (k.ok) = true := hw
  refine bolt_ok ?_ he
  rw [bolt_23 _ rfl]
  simp [decodeVbext, checked, firstCase, -Nat.reduceAdd, hw]

theorem RoundTrip.vfma (vd : VReg) (va : VReg) (vb : VReg) (vc : VReg) (r : Rnd) (k : MaskOp) :
    Statement (.vfma vd va vb vc r k) := by
  intro c hw he
  replace hw : (k.ok) = true := hw
  refine bolt_ok ?_ he
  rw [bolt_24 _ rfl]
  simp [decodeVfma, checked, firstCase, -Nat.reduceAdd, hw]

theorem RoundTrip.vfms (vd : VReg) (va : VReg) (vb : VReg) (vc : VReg) (r : Rnd) (k : MaskOp) :
    Statement (.vfms vd va vb vc r k) := by
  intro c hw he
  replace hw : (k.ok) = true := hw
  refine bolt_ok ?_ he
  rw [bolt_25 _ rfl]
  simp [decodeVfms, checked, firstCase, -Nat.reduceAdd, hw]

theorem RoundTrip.vfnma (vd : VReg) (va : VReg) (vb : VReg) (vc : VReg) (r : Rnd) (k : MaskOp) :
    Statement (.vfnma vd va vb vc r k) := by
  intro c hw he
  replace hw : (k.ok) = true := hw
  refine bolt_ok ?_ he
  rw [bolt_26 _ rfl]
  simp [decodeVfnma, checked, firstCase, -Nat.reduceAdd, hw]

theorem RoundTrip.vsqrt (vd : VReg) (va : VReg) (r : Rnd) (k : MaskOp) :
    Statement (.vsqrt vd va r k) := by
  intro c hw he
  replace hw : (k.ok) = true := hw
  refine bolt_ok ?_ he
  rw [bolt_27 _ rfl]
  simp [decodeVsqrt, checked, firstCase, -Nat.reduceAdd, hw]

theorem RoundTrip.vrcp (vd : VReg) (va : VReg) (r : Rnd) (k : MaskOp) :
    Statement (.vrcp vd va r k) := by
  intro c hw he
  replace hw : (k.ok) = true := hw
  refine bolt_ok ?_ he
  rw [bolt_28 _ rfl]
  simp [decodeVrcp, checked, firstCase, -Nat.reduceAdd, hw]

theorem RoundTrip.vrsq (vd : VReg) (va : VReg) (r : Rnd) (k : MaskOp) :
    Statement (.vrsq vd va r k) := by
  intro c hw he
  replace hw : (k.ok) = true := hw
  refine bolt_ok ?_ he
  rw [bolt_29 _ rfl]
  simp [decodeVrsq, checked, firstCase, -Nat.reduceAdd, hw]

theorem RoundTrip.vexp (vd : VReg) (va : VReg) (r : Rnd) (k : MaskOp) :
    Statement (.vexp vd va r k) := by
  intro c hw he
  replace hw : (k.ok) = true := hw
  refine bolt_ok ?_ he
  rw [bolt_2A _ rfl]
  simp [decodeVexp, checked, firstCase, -Nat.reduceAdd, hw]

theorem RoundTrip.vlog (vd : VReg) (va : VReg) (r : Rnd) (k : MaskOp) :
    Statement (.vlog vd va r k) := by
  intro c hw he
  replace hw : (k.ok) = true := hw
  refine bolt_ok ?_ he
  rw [bolt_2B _ rfl]
  simp [decodeVlog, checked, firstCase, -Nat.reduceAdd, hw]

theorem RoundTrip.vsig (vd : VReg) (va : VReg) (r : Rnd) (k : MaskOp) :
    Statement (.vsig vd va r k) := by
  intro c hw he
  replace hw : (k.ok) = true := hw
  refine bolt_ok ?_ he
  rw [bolt_2C _ rfl]
  simp [decodeVsig, checked, firstCase, -Nat.reduceAdd, hw]

theorem RoundTrip.vtanh (vd : VReg) (va : VReg) (r : Rnd) (k : MaskOp) :
    Statement (.vtanh vd va r k) := by
  intro c hw he
  replace hw : (k.ok) = true := hw
  refine bolt_ok ?_ he
  rw [bolt_2D _ rfl]
  simp [decodeVtanh, checked, firstCase, -Nat.reduceAdd, hw]

theorem RoundTrip.vcvt (vd : VReg) (va : VReg) (r : Rnd) (fx : BitVec 4) (k : MaskOp) :
    Statement (.vcvt vd va r fx k) := by
  intro c hw he
  replace hw : (k.ok) = true := hw
  refine bolt_ok ?_ he
  rw [bolt_2E _ rfl]
  simp [decodeVcvt, checked, firstCase, -Nat.reduceAdd, hw]

theorem RoundTrip.vwiden (vd : VReg) (va : VReg) (k : MaskOp) :
    Statement (.vwiden vd va k) := by
  intro c hw he
  replace hw : (k.ok) = true := hw
  refine bolt_ok ?_ he
  rw [bolt_2F _ rfl]
  simp [decodeVwiden, checked, firstCase, -Nat.reduceAdd, hw]

theorem RoundTrip.vnarrow (vd : VReg) (va : VReg) (r : Rnd) (fx : BitVec 4) (k : MaskOp) :
    Statement (.vnarrow vd va r fx k) := by
  intro c hw he
  replace hw : (k.ok) = true := hw
  refine bolt_ok ?_ he
  rw [bolt_30 _ rfl]
  simp [decodeVnarrow, checked, firstCase, -Nat.reduceAdd, hw]

theorem RoundTrip.vqnt (vd : VReg) (va : VReg) (r : Rnd) (sc : Bool) (zp : Bool) (k : MaskOp) :
    Statement (.vqnt vd va r sc zp k) := by
  intro c hw he
  replace hw : (k.ok) = true := hw
  refine bolt_ok ?_ he
  rw [bolt_31 _ rfl]
  simp [decodeVqnt, checked, firstCase, -Nat.reduceAdd, hw]

theorem RoundTrip.vdqnt (vd : VReg) (va : VReg) (r : Rnd) (sc : Bool) (zp : Bool) (k : MaskOp) :
    Statement (.vdqnt vd va r sc zp k) := by
  intro c hw he
  replace hw : (k.ok) = true := hw
  refine bolt_ok ?_ he
  rw [bolt_32 _ rfl]
  simp [decodeVdqnt, checked, firstCase, -Nat.reduceAdd, hw]

theorem RoundTrip.vrnd (vd : VReg) (va : VReg) (r : Rnd) (k : MaskOp) :
    Statement (.vrnd vd va r k) := by
  intro c hw he
  replace hw : (k.ok) = true := hw
  refine bolt_ok ?_ he
  rw [bolt_33 _ rfl]
  simp [decodeVrnd, checked, firstCase, -Nat.reduceAdd, hw]

theorem RoundTrip.vclass (vd : VReg) (va : VReg) (k : MaskOp) :
    Statement (.vclass vd va k) := by
  intro c hw he
  replace hw : (k.ok) = true := hw
  refine bolt_ok ?_ he
  rw [bolt_34 _ rfl]
  simp [decodeVclass, checked, firstCase, -Nat.reduceAdd, hw]

theorem RoundTrip.vscl (vd : VReg) (va : VReg) (vb : VReg) (r : Rnd) (k : MaskOp) :
    Statement (.vscl vd va vb r k) := by
  intro c hw he
  replace hw : (k.ok) = true := hw
  refine bolt_ok ?_ he
  rw [bolt_35 _ rfl]
  simp [decodeVscl, checked, firstCase, -Nat.reduceAdd, hw]

theorem RoundTrip.vsat (vd : VReg) (va : VReg) (vb : VReg) (vc : VReg) (r : Rnd) (k : MaskOp) :
    Statement (.vsat vd va vb vc r k) := by
  intro c hw he
  replace hw : (k.ok) = true := hw
  refine bolt_ok ?_ he
  rw [bolt_36 _ rfl]
  simp [decodeVsat, checked, firstCase, -Nat.reduceAdd, hw]

theorem RoundTrip.vcmp (md : MReg) (va : VReg) (vb : VReg) (c : Cond) (k : MaskOp) :
    Statement (.vcmp md va vb c k) := by
  intro c hw he
  replace hw : (k.ok) = true := hw
  refine bolt_ok ?_ he
  rw [bolt_37 _ rfl]
  simp [decodeVcmp, checked, firstCase, -Nat.reduceAdd, hw]

theorem RoundTrip.vcmpn (md : MReg) (va : VReg) (vb : VReg) (c : Cond) (k : MaskOp) :
    Statement (.vcmpn md va vb c k) := by
  intro c hw he
  replace hw : (k.ok) = true := hw
  refine bolt_ok ?_ he
  rw [bolt_38 _ rfl]
  simp [decodeVcmpn, checked, firstCase, -Nat.reduceAdd, hw]

theorem RoundTrip.mand (md : MReg) (ma : MReg) (mb : MReg) (k : MaskOp) :
    Statement (.mand md ma mb k) := by
  intro c hw he
  replace hw : (k.ok) = true := hw
  refine bolt_ok ?_ he
  rw [bolt_39 _ rfl]
  simp [decodeMand, checked, firstCase, -Nat.reduceAdd, hw]

theorem RoundTrip.mor (md : MReg) (ma : MReg) (mb : MReg) (k : MaskOp) :
    Statement (.mor md ma mb k) := by
  intro c hw he
  replace hw : (k.ok) = true := hw
  refine bolt_ok ?_ he
  rw [bolt_3A _ rfl]
  simp [decodeMor, checked, firstCase, -Nat.reduceAdd, hw]

theorem RoundTrip.mxor (md : MReg) (ma : MReg) (mb : MReg) (k : MaskOp) :
    Statement (.mxor md ma mb k) := by
  intro c hw he
  replace hw : (k.ok) = true := hw
  refine bolt_ok ?_ he
  rw [bolt_3B _ rfl]
  simp [decodeMxor, checked, firstCase, -Nat.reduceAdd, hw]

theorem RoundTrip.mnot (md : MReg) (ma : MReg) (k : MaskOp) :
    Statement (.mnot md ma k) := by
  intro c hw he
  replace hw : (k.ok) = true := hw
  refine bolt_ok ?_ he
  rw [bolt_3C _ rfl]
  simp [decodeMnot, checked, firstCase, -Nat.reduceAdd, hw]

theorem RoundTrip.mpop (vd : VReg) (ma : MReg) (k : MaskOp) :
    Statement (.mpop vd ma k) := by
  intro c hw he
  replace hw : (k.ok) = true := hw
  refine bolt_ok ?_ he
  rw [bolt_3D _ rfl]
  simp [decodeMpop, checked, firstCase, -Nat.reduceAdd, hw]

theorem RoundTrip.mfirst (vd : VReg) (ma : MReg) (k : MaskOp) :
    Statement (.mfirst vd ma k) := by
  intro c hw he
  replace hw : (k.ok) = true := hw
  refine bolt_ok ?_ he
  rw [bolt_3E _ rfl]
  simp [decodeMfirst, checked, firstCase, -Nat.reduceAdd, hw]

theorem RoundTrip.vsel (vd : VReg) (va : VReg) (vb : VReg) (mc : MReg) (k : MaskOp) :
    Statement (.vsel vd va vb mc k) := by
  intro c hw he
  replace hw : (k.ok) = true := hw
  refine bolt_ok ?_ he
  rw [bolt_3F _ rfl]
  simp [decodeVsel, checked, firstCase, -Nat.reduceAdd, hw]

theorem RoundTrip.mset (md : MReg) (mode : MsetMode) (k : MaskOp) :
    Statement (.mset md mode k) := by
  intro c hw he
  replace hw : (k.ok) = true := hw
  cases mode
  all_goals
    refine bolt_ok ?_ he
    rw [bolt_40 _ rfl]
    simp [decodeMset, checked, firstCase, -Nat.reduceAdd, hw]

theorem RoundTrip.vrsum (vd : VReg) (va : VReg) (r : Rnd) (k : MaskOp) :
    Statement (.vrsum vd va r k) := by
  intro c hw he
  replace hw : (k.ok) = true := hw
  refine bolt_ok ?_ he
  rw [bolt_41 _ rfl]
  simp [decodeVrsum, checked, firstCase, -Nat.reduceAdd, hw]

theorem RoundTrip.vrmax (vd : VReg) (va : VReg) (r : Rnd) (k : MaskOp) :
    Statement (.vrmax vd va r k) := by
  intro c hw he
  replace hw : (k.ok) = true := hw
  refine bolt_ok ?_ he
  rw [bolt_42 _ rfl]
  simp [decodeVrmax, checked, firstCase, -Nat.reduceAdd, hw]

theorem RoundTrip.vrmin (vd : VReg) (va : VReg) (r : Rnd) (k : MaskOp) :
    Statement (.vrmin vd va r k) := by
  intro c hw he
  replace hw : (k.ok) = true := hw
  refine bolt_ok ?_ he
  rw [bolt_43 _ rfl]
  simp [decodeVrmin, checked, firstCase, -Nat.reduceAdd, hw]

theorem RoundTrip.vrand (vd : VReg) (va : VReg) (r : Rnd) (k : MaskOp) :
    Statement (.vrand vd va r k) := by
  intro c hw he
  replace hw : (k.ok) = true := hw
  refine bolt_ok ?_ he
  rw [bolt_44 _ rfl]
  simp [decodeVrand, checked, firstCase, -Nat.reduceAdd, hw]

theorem RoundTrip.vror (vd : VReg) (va : VReg) (r : Rnd) (k : MaskOp) :
    Statement (.vror vd va r k) := by
  intro c hw he
  replace hw : (k.ok) = true := hw
  refine bolt_ok ?_ he
  rw [bolt_45 _ rfl]
  simp [decodeVror, checked, firstCase, -Nat.reduceAdd, hw]

theorem RoundTrip.vscan (vd : VReg) (va : VReg) (r : Rnd) (k : MaskOp) :
    Statement (.vscan vd va r k) := by
  intro c hw he
  replace hw : (k.ok) = true := hw
  refine bolt_ok ?_ he
  rw [bolt_46 _ rfl]
  simp [decodeVscan, checked, firstCase, -Nat.reduceAdd, hw]

theorem RoundTrip.vscanmx (vd : VReg) (va : VReg) (r : Rnd) (k : MaskOp) :
    Statement (.vscanmx vd va r k) := by
  intro c hw he
  replace hw : (k.ok) = true := hw
  refine bolt_ok ?_ he
  rw [bolt_47 _ rfl]
  simp [decodeVscanmx, checked, firstCase, -Nat.reduceAdd, hw]

theorem RoundTrip.vrdot (vd : VReg) (va : VReg) (vb : VReg) (r : Rnd) (k : MaskOp) :
    Statement (.vrdot vd va vb r k) := by
  intro c hw he
  replace hw : (k.ok) = true := hw
  refine bolt_ok ?_ he
  rw [bolt_48 _ rfl]
  simp [decodeVrdot, checked, firstCase, -Nat.reduceAdd, hw]

theorem RoundTrip.vslup (vd : VReg) (va : VReg) (amt : SlideAmt) (k : MaskOp) :
    Statement (.vslup vd va amt k) := by
  intro c hw he
  replace hw : (k.ok) = true := hw
  cases amt
  all_goals
    refine bolt_ok ?_ he
    rw [bolt_49 _ rfl]
    simp [decodeSlide, checked, firstCase, -Nat.reduceAdd, hw]

theorem RoundTrip.vsldn (vd : VReg) (va : VReg) (amt : SlideAmt) (k : MaskOp) :
    Statement (.vsldn vd va amt k) := by
  intro c hw he
  replace hw : (k.ok) = true := hw
  cases amt
  all_goals
    refine bolt_ok ?_ he
    rw [bolt_4A _ rfl]
    simp [decodeSlide, checked, firstCase, -Nat.reduceAdd, hw]

theorem RoundTrip.vgthr (vd : VReg) (va : VReg) (vb : VReg) (k : MaskOp) :
    Statement (.vgthr vd va vb k) := by
  intro c hw he
  replace hw : (k.ok) = true := hw
  refine bolt_ok ?_ he
  rw [bolt_4B _ rfl]
  simp [decodeVgthr, checked, firstCase, -Nat.reduceAdd, hw]

theorem RoundTrip.vcomp (vd : VReg) (va : VReg) (k : MaskOp) :
    Statement (.vcomp vd va k) := by
  intro c hw he
  replace hw : (k.ok) = true := hw
  refine bolt_ok ?_ he
  rw [bolt_4C _ rfl]
  simp [decodeVcomp, checked, firstCase, -Nat.reduceAdd, hw]

theorem RoundTrip.vexpd (vd : VReg) (va : VReg) (k : MaskOp) :
    Statement (.vexpd vd va k) := by
  intro c hw he
  replace hw : (k.ok) = true := hw
  refine bolt_ok ?_ he
  rw [bolt_4D _ rfl]
  simp [decodeVexpd, checked, firstCase, -Nat.reduceAdd, hw]

theorem RoundTrip.vbcast (vd : VReg) (sa : Reg) (k : MaskOp) :
    Statement (.vbcast vd sa k) := by
  intro c hw he
  replace hw : (k.ok) = true := hw
  refine bolt_ok ?_ he
  rw [bolt_4E _ rfl]
  simp [decodeVbcast, checked, firstCase, -Nat.reduceAdd, hw]

theorem RoundTrip.vrev (vd : VReg) (va : VReg) (k : MaskOp) :
    Statement (.vrev vd va k) := by
  intro c hw he
  replace hw : (k.ok) = true := hw
  refine bolt_ok ?_ he
  rw [bolt_4F _ rfl]
  simp [decodeVrev, checked, firstCase, -Nat.reduceAdd, hw]

theorem RoundTrip.vzip (vd : VReg) (va : VReg) (vb : VReg) (n : Bool) (k : MaskOp) :
    Statement (.vzip vd va vb n k) := by
  intro c hw he
  replace hw : (k.ok) = true := hw
  refine bolt_ok ?_ he
  rw [bolt_50 _ rfl]
  simp [decodeVzip, checked, firstCase, -Nat.reduceAdd, hw]

theorem RoundTrip.vunzip (vd : VReg) (va : VReg) (vb : VReg) (n : Bool) (k : MaskOp) :
    Statement (.vunzip vd va vb n k) := by
  intro c hw he
  replace hw : (k.ok) = true := hw
  refine bolt_ok ?_ he
  rw [bolt_51 _ rfl]
  simp [decodeVunzip, checked, firstCase, -Nat.reduceAdd, hw]

theorem RoundTrip.vld (vd : VReg) (sa : Reg) (r : Rnd) (disp : BitVec 17) (fx : BitVec 4) (tok : Tok) (k : MaskOp) :
    Statement (.vld vd sa r disp fx tok k) := by
  intro c hw he
  replace hw : (k.ok) = true := hw
  refine bolt_ok ?_ he
  rw [bolt_52 _ rfl]
  simp [decodeVld, checked, firstCase, -Nat.reduceAdd, hw]

theorem RoundTrip.vst (vd : VReg) (sa : Reg) (r : Rnd) (disp : BitVec 17) (fx : BitVec 4) (tok : Tok) (k : MaskOp) :
    Statement (.vst vd sa r disp fx tok k) := by
  intro c hw he
  replace hw : (k.ok) = true := hw
  refine bolt_ok ?_ he
  rw [bolt_53 _ rfl]
  simp [decodeVst, checked, firstCase, -Nat.reduceAdd, hw]

theorem RoundTrip.vlds (vd : VReg) (sa : Reg) (sb : Reg) (r : Rnd) (disp : BitVec 17) (fx : BitVec 4) (tok : Tok) (k : MaskOp) :
    Statement (.vlds vd sa sb r disp fx tok k) := by
  intro c hw he
  replace hw : (k.ok) = true := hw
  refine bolt_ok ?_ he
  rw [bolt_54 _ rfl]
  simp [decodeVlds, checked, firstCase, -Nat.reduceAdd, hw]

theorem RoundTrip.vsts (vd : VReg) (sa : Reg) (sb : Reg) (r : Rnd) (disp : BitVec 17) (fx : BitVec 4) (tok : Tok) (k : MaskOp) :
    Statement (.vsts vd sa sb r disp fx tok k) := by
  intro c hw he
  replace hw : (k.ok) = true := hw
  refine bolt_ok ?_ he
  rw [bolt_55 _ rfl]
  simp [decodeVsts, checked, firstCase, -Nat.reduceAdd, hw]

theorem RoundTrip.vldx (vd : VReg) (sa : Reg) (vb : VReg) (r : Rnd) (disp : BitVec 17) (fx : BitVec 4) (tok : Tok) (k : MaskOp) :
    Statement (.vldx vd sa vb r disp fx tok k) := by
  intro c hw he
  replace hw : (k.ok) = true := hw
  refine bolt_ok ?_ he
  rw [bolt_56 _ rfl]
  simp [decodeVldx, checked, firstCase, -Nat.reduceAdd, hw]

theorem RoundTrip.vstx (vd : VReg) (sa : Reg) (vb : VReg) (r : Rnd) (disp : BitVec 17) (fx : BitVec 4) (tok : Tok) (k : MaskOp) :
    Statement (.vstx vd sa vb r disp fx tok k) := by
  intro c hw he
  replace hw : (k.ok) = true := hw
  refine bolt_ok ?_ he
  rw [bolt_57 _ rfl]
  simp [decodeVstx, checked, firstCase, -Nat.reduceAdd, hw]

theorem RoundTrip.vldxo (vd : VReg) (sa : Reg) (vb : VReg) (r : Rnd) (disp : BitVec 17) (fx : BitVec 4) (tok : Tok) (k : MaskOp) :
    Statement (.vldxo vd sa vb r disp fx tok k) := by
  intro c hw he
  replace hw : (k.ok) = true := hw
  refine bolt_ok ?_ he
  rw [bolt_58 _ rfl]
  simp [decodeVldxo, checked, firstCase, -Nat.reduceAdd, hw]

theorem RoundTrip.vstxo (vd : VReg) (sa : Reg) (vb : VReg) (r : Rnd) (disp : BitVec 17) (fx : BitVec 4) (tok : Tok) (k : MaskOp) :
    Statement (.vstxo vd sa vb r disp fx tok k) := by
  intro c hw he
  replace hw : (k.ok) = true := hw
  refine bolt_ok ?_ he
  rw [bolt_59 _ rfl]
  simp [decodeVstxo, checked, firstCase, -Nat.reduceAdd, hw]

theorem RoundTrip.vldseg (vd : VReg) (sa : Reg) (sb : Reg) (r : Rnd) (disp : BitVec 14) (nf : BitVec 3) (fx : BitVec 4) (tok : Tok) (k : MaskOp) :
    Statement (.vldseg vd sa sb r disp nf fx tok k) := by
  intro c hw he
  replace hw : (k.ok) = true := hw
  refine bolt_ok ?_ he
  rw [bolt_5A _ rfl]
  simp [decodeVldseg, checked, firstCase, -Nat.reduceAdd, hw]

theorem RoundTrip.vstseg (vd : VReg) (sa : Reg) (sb : Reg) (r : Rnd) (disp : BitVec 14) (nf : BitVec 3) (fx : BitVec 4) (tok : Tok) (k : MaskOp) :
    Statement (.vstseg vd sa sb r disp nf fx tok k) := by
  intro c hw he
  replace hw : (k.ok) = true := hw
  refine bolt_ok ?_ he
  rw [bolt_5B _ rfl]
  simp [decodeVstseg, checked, firstCase, -Nat.reduceAdd, hw]

theorem RoundTrip.vldm (vd : VReg) (sa : Reg) (r : Rnd) (disp : BitVec 17) (fx : BitVec 4) (tok : Tok) (k : MaskOp) :
    Statement (.vldm vd sa r disp fx tok k) := by
  intro c hw he
  replace hw : (k.ok) = true := hw
  refine bolt_ok ?_ he
  rw [bolt_5C _ rfl]
  simp [decodeVldm, checked, firstCase, -Nat.reduceAdd, hw]

theorem RoundTrip.vstm (vd : VReg) (sa : Reg) (r : Rnd) (disp : BitVec 17) (fx : BitVec 4) (tok : Tok) (k : MaskOp) :
    Statement (.vstm vd sa r disp fx tok k) := by
  intro c hw he
  replace hw : (k.ok) = true := hw
  refine bolt_ok ?_ he
  rw [bolt_5D _ rfl]
  simp [decodeVstm, checked, firstCase, -Nat.reduceAdd, hw]

theorem RoundTrip.vldsp (vd : VReg) (sa : Reg) (sb : Reg) (r : Rnd) (disp : BitVec 17) (fx : BitVec 4) (k : MaskOp) :
    Statement (.vldsp vd sa sb r disp fx k) := by
  intro c hw he
  replace hw : (k.ok) = true := hw
  refine bolt_ok ?_ he
  rw [bolt_5E _ rfl]
  simp [decodeVldsp, checked, firstCase, -Nat.reduceAdd, hw]

theorem RoundTrip.vstsp (vd : VReg) (sa : Reg) (sb : Reg) (r : Rnd) (disp : BitVec 17) (fx : BitVec 4) (k : MaskOp) :
    Statement (.vstsp vd sa sb r disp fx k) := by
  intro c hw he
  replace hw : (k.ok) = true := hw
  refine bolt_ok ?_ he
  rw [bolt_5F _ rfl]
  simp [decodeVstsp, checked, firstCase, -Nat.reduceAdd, hw]

theorem RoundTrip.vldspx (vd : VReg) (sa : Reg) (vb : VReg) (r : Rnd) (disp : BitVec 17) (fx : BitVec 4) (k : MaskOp) :
    Statement (.vldspx vd sa vb r disp fx k) := by
  intro c hw he
  replace hw : (k.ok) = true := hw
  refine bolt_ok ?_ he
  rw [bolt_60 _ rfl]
  simp [decodeVldspx, checked, firstCase, -Nat.reduceAdd, hw]

theorem RoundTrip.vstspx (vd : VReg) (sa : Reg) (vb : VReg) (r : Rnd) (disp : BitVec 17) (fx : BitVec 4) (k : MaskOp) :
    Statement (.vstspx vd sa vb r disp fx k) := by
  intro c hw he
  replace hw : (k.ok) = true := hw
  refine bolt_ok ?_ he
  rw [bolt_61 _ rfl]
  simp [decodeVstspx, checked, firstCase, -Nat.reduceAdd, hw]

theorem RoundTrip.vaadd (vd : VReg) (sa : Reg) (vb : VReg) (vc : VReg) (sc : Scope) (sp : Bool) (nr : Bool) (disp : BitVec 12) (fx : BitVec 4) (tok : Tok) (k : MaskOp) :
    Statement (.vaadd vd sa vb vc sc sp nr disp fx tok k) := by
  intro c hw he
  replace hw : (vatomOk vd sp nr tok && k.ok) = true := hw
  simp only [Bool.and_eq_true] at hw
  have h1 := vatom_nz hw.1
  refine bolt_ok ?_ he
  rw [bolt_62 _ rfl]
  simp [decodeVaadd, checked, firstCase, -Nat.reduceAdd, h1, hw]

theorem RoundTrip.vamin (vd : VReg) (sa : Reg) (vb : VReg) (vc : VReg) (sc : Scope) (sp : Bool) (nr : Bool) (disp : BitVec 12) (fx : BitVec 4) (tok : Tok) (k : MaskOp) :
    Statement (.vamin vd sa vb vc sc sp nr disp fx tok k) := by
  intro c hw he
  replace hw : (vatomOk vd sp nr tok && k.ok) = true := hw
  simp only [Bool.and_eq_true] at hw
  have h1 := vatom_nz hw.1
  refine bolt_ok ?_ he
  rw [bolt_63 _ rfl]
  simp [decodeVamin, checked, firstCase, -Nat.reduceAdd, h1, hw]

theorem RoundTrip.vamax (vd : VReg) (sa : Reg) (vb : VReg) (vc : VReg) (sc : Scope) (sp : Bool) (nr : Bool) (disp : BitVec 12) (fx : BitVec 4) (tok : Tok) (k : MaskOp) :
    Statement (.vamax vd sa vb vc sc sp nr disp fx tok k) := by
  intro c hw he
  replace hw : (vatomOk vd sp nr tok && k.ok) = true := hw
  simp only [Bool.and_eq_true] at hw
  have h1 := vatom_nz hw.1
  refine bolt_ok ?_ he
  rw [bolt_64 _ rfl]
  simp [decodeVamax, checked, firstCase, -Nat.reduceAdd, h1, hw]

theorem RoundTrip.vaand (vd : VReg) (sa : Reg) (vb : VReg) (vc : VReg) (sc : Scope) (sp : Bool) (nr : Bool) (disp : BitVec 12) (fx : BitVec 4) (tok : Tok) (k : MaskOp) :
    Statement (.vaand vd sa vb vc sc sp nr disp fx tok k) := by
  intro c hw he
  replace hw : (vatomOk vd sp nr tok && k.ok) = true := hw
  simp only [Bool.and_eq_true] at hw
  have h1 := vatom_nz hw.1
  refine bolt_ok ?_ he
  rw [bolt_65 _ rfl]
  simp [decodeVaand, checked, firstCase, -Nat.reduceAdd, h1, hw]

theorem RoundTrip.vaor (vd : VReg) (sa : Reg) (vb : VReg) (vc : VReg) (sc : Scope) (sp : Bool) (nr : Bool) (disp : BitVec 12) (fx : BitVec 4) (tok : Tok) (k : MaskOp) :
    Statement (.vaor vd sa vb vc sc sp nr disp fx tok k) := by
  intro c hw he
  replace hw : (vatomOk vd sp nr tok && k.ok) = true := hw
  simp only [Bool.and_eq_true] at hw
  have h1 := vatom_nz hw.1
  refine bolt_ok ?_ he
  rw [bolt_66 _ rfl]
  simp [decodeVaor, checked, firstCase, -Nat.reduceAdd, h1, hw]

theorem RoundTrip.vaxor (vd : VReg) (sa : Reg) (vb : VReg) (vc : VReg) (sc : Scope) (sp : Bool) (nr : Bool) (disp : BitVec 12) (fx : BitVec 4) (tok : Tok) (k : MaskOp) :
    Statement (.vaxor vd sa vb vc sc sp nr disp fx tok k) := by
  intro c hw he
  replace hw : (vatomOk vd sp nr tok && k.ok) = true := hw
  simp only [Bool.and_eq_true] at hw
  have h1 := vatom_nz hw.1
  refine bolt_ok ?_ he
  rw [bolt_67 _ rfl]
  simp [decodeVaxor, checked, firstCase, -Nat.reduceAdd, h1, hw]

theorem RoundTrip.vaswap (vd : VReg) (sa : Reg) (vb : VReg) (vc : VReg) (sc : Scope) (sp : Bool) (nr : Bool) (disp : BitVec 12) (fx : BitVec 4) (tok : Tok) (k : MaskOp) :
    Statement (.vaswap vd sa vb vc sc sp nr disp fx tok k) := by
  intro c hw he
  replace hw : (vatomOk vd sp nr tok && k.ok) = true := hw
  simp only [Bool.and_eq_true] at hw
  have h1 := vatom_nz hw.1
  refine bolt_ok ?_ he
  rw [bolt_68 _ rfl]
  simp [decodeVaswap, checked, firstCase, -Nat.reduceAdd, h1, hw]

theorem RoundTrip.vacas (vd : VReg) (sa : Reg) (vb : VReg) (vc : VReg) (sc : Scope) (sp : Bool) (nr : Bool) (disp : BitVec 12) (fx : BitVec 4) (tok : Tok) (k : MaskOp) :
    Statement (.vacas vd sa vb vc sc sp nr disp fx tok k) := by
  intro c hw he
  replace hw : (vatomOk vd sp nr tok && k.ok) = true := hw
  simp only [Bool.and_eq_true] at hw
  have h1 := vatom_nz hw.1
  refine bolt_ok ?_ he
  rw [bolt_69 _ rfl]
  simp [decodeVacas, checked, firstCase, -Nat.reduceAdd, h1, hw]

theorem RoundTrip.tld (td : TReg) (sa : Reg) (sb : Reg) (disp : BitVec 17) (fx : BitVec 4) (tok : Tok) :
    Statement (.tld td sa sb disp fx tok) := by
  intro c hw he
  refine bolt_ok ?_ he
  rw [bolt_6A _ rfl]
  simp [decodeTld, checked, firstCase, -Nat.reduceAdd]

theorem RoundTrip.tldf (td : TReg) (sa : Reg) (sb : Reg) (cc : CReg) (disp : BitVec 17) (fx : BitVec 4) :
    Statement (.tldf td sa sb cc disp fx) := by
  intro c hw he
  refine bolt_ok ?_ he
  rw [bolt_6B _ rfl]
  simp [decodeTldf, checked, firstCase, -Nat.reduceAdd]

theorem RoundTrip.tscl (td : TReg) (sa : Reg) (disp : BitVec 17) (tok : Tok) :
    Statement (.tscl td sa disp tok) := by
  intro c hw he
  refine bolt_ok ?_ he
  rw [bolt_6C _ rfl]
  simp [decodeTscl, checked, firstCase, -Nat.reduceAdd]

theorem RoundTrip.mrow (va : VReg) (tb : TReg) (sc : Reg) (useScale : Bool) (n : BitVec 10) (k : MaskOp) :
    Statement (.mrow va tb sc useScale n k) := by
  intro c hw he
  replace hw : (k.ok) = true := hw
  refine bolt_ok ?_ he
  rw [bolt_6D _ rfl]
  simp [decodeMrow, checked, firstCase, -Nat.reduceAdd, hw]

theorem RoundTrip.mrowz (va : VReg) (tb : TReg) (sc : Reg) (useScale : Bool) (n : BitVec 10) (k : MaskOp) :
    Statement (.mrowz va tb sc useScale n k) := by
  intro c hw he
  replace hw : (k.ok) = true := hw
  refine bolt_ok ?_ he
  rw [bolt_6E _ rfl]
  simp [decodeMrowz, checked, firstCase, -Nat.reduceAdd, hw]

theorem RoundTrip.msweep (sa : Reg) (tb : TReg) (sc : Reg) (useScale : Bool) (n : BitVec 10) (fx : BitVec 4) (tok : Tok) :
    Statement (.msweep sa tb sc useScale n fx tok) := by
  intro c hw he
  refine bolt_ok ?_ he
  rw [bolt_6F _ rfl]
  simp [decodeMsweep, checked, firstCase, -Nat.reduceAdd]

theorem RoundTrip.mdrain (vd : VReg) (r : Rnd) (n : BitVec 10) (k : MaskOp) :
    Statement (.mdrain vd r n k) := by
  intro c hw he
  replace hw : (k.ok) = true := hw
  refine bolt_ok ?_ he
  rw [bolt_70 _ rfl]
  simp [decodeMdrain, checked, firstCase, -Nat.reduceAdd, hw]

theorem RoundTrip.mdrains (sa : Reg) (sb : Reg) (r : Rnd) (rows : BitVec 7) (n : BitVec 10) (fx : BitVec 4) :
    Statement (.mdrains sa sb r rows n fx) := by
  intro c hw he
  refine bolt_ok ?_ he
  rw [bolt_71 _ rfl]
  simp [decodeMdrains, checked, firstCase, -Nat.reduceAdd]

theorem RoundTrip.mzero (rows : BitVec 7) (n : BitVec 10) :
    Statement (.mzero rows n) := by
  intro c hw he
  refine bolt_ok ?_ he
  rw [bolt_72 _ rfl]
  simp [decodeMzero, checked, firstCase, -Nat.reduceAdd]

theorem RoundTrip.mldacc (va : VReg) (n : BitVec 10) (k : MaskOp) :
    Statement (.mldacc va n k) := by
  intro c hw he
  replace hw : (k.ok) = true := hw
  refine bolt_ok ?_ he
  rw [bolt_73 _ rfl]
  simp [decodeMldacc, checked, firstCase, -Nat.reduceAdd, hw]

theorem RoundTrip.qcmp (qd : QReg) (va : VReg) (vb : VReg) (lin : BitVec 8) (c : Cond) (k : MaskOp) :
    Statement (.qcmp qd va vb lin c k) := by
  intro c hw he
  replace hw : (k.ok) = true := hw
  refine bolt_ok ?_ he
  rw [bolt_74 _ rfl]
  simp [decodeQcmp, checked, firstCase, -Nat.reduceAdd, hw]

theorem RoundTrip.qand (qd : QReg) (qa : QReg) (qb : QReg) (form : Bool) (k : MaskOp) :
    Statement (.qand qd qa qb form k) := by
  intro c hw he
  replace hw : (k.ok) = true := hw
  refine bolt_ok ?_ he
  rw [bolt_75 _ rfl]
  simp [decodeQand, checked, firstCase, -Nat.reduceAdd, hw]

theorem RoundTrip.qor (qd : QReg) (qa : QReg) (qb : QReg) (form : Bool) (k : MaskOp) :
    Statement (.qor qd qa qb form k) := by
  intro c hw he
  replace hw : (k.ok) = true := hw
  refine bolt_ok ?_ he
  rw [bolt_76 _ rfl]
  simp [decodeQor, checked, firstCase, -Nat.reduceAdd, hw]

theorem RoundTrip.qnot (qd : QReg) (qa : QReg) (k : MaskOp) :
    Statement (.qnot qd qa k) := by
  intro c hw he
  replace hw : (k.ok) = true := hw
  refine bolt_ok ?_ he
  rw [bolt_77 _ rfl]
  simp [decodeQnot, checked, firstCase, -Nat.reduceAdd, hw]

theorem RoundTrip.qblend (vd : VReg) (va : VReg) (vb : VReg) (qc : QReg) (r : Rnd) (k : MaskOp) :
    Statement (.qblend vd va vb qc r k) := by
  intro c hw he
  replace hw : (k.ok) = true := hw
  refine bolt_ok ?_ he
  rw [bolt_78 _ rfl]
  simp [decodeQblend, checked, firstCase, -Nat.reduceAdd, hw]

theorem RoundTrip.qcoll (md : MReg) (qa : QReg) (key : Option VReg) (k : MaskOp) :
    Statement (.qcoll md qa key k) := by
  intro c hw he
  replace hw : (k.ok) = true := hw
  cases key
  all_goals
    refine bolt_ok ?_ he
    rw [bolt_79 _ rfl]
    simp [decodeQcoll, checked, firstCase, -Nat.reduceAdd, hw]

theorem RoundTrip.qgrad (vd : VReg) (src : GradSrc) (r : Rnd) (k : MaskOp) :
    Statement (.qgrad vd src r k) := by
  intro c hw he
  replace hw : (k.ok) = true := hw
  cases src
  all_goals
    refine bolt_ok ?_ he
    rw [bolt_7A _ rfl]
    simp [decodeQgrad, checked, firstCase, -Nat.reduceAdd, hw]

theorem RoundTrip.qmov (mv : QMove) (r : Rnd) (k : MaskOp) :
    Statement (.qmov mv r k) := by
  intro c hw he
  replace hw : (k.ok) = true := hw
  cases mv
  all_goals
    refine bolt_ok ?_ he
    rw [bolt_7B _ rfl]
    simp [decodeQmov, checked, firstCase, -Nat.reduceAdd, hw]

theorem RoundTrip.qset (qd : QReg) (code : BitVec 16) (k : MaskOp) :
    Statement (.qset qd code k) := by
  intro c hw he
  replace hw : (decide (code.toNat ≤ 0x8000) && k.ok) = true := hw
  simp only [Bool.and_eq_true, decide_eq_true_eq] at hw
  refine bolt_ok ?_ he
  rw [bolt_7C _ rfl]
  simp [decodeQset, checked, firstCase, -Nat.reduceAdd, hw, Nat.not_lt.mpr hw.1]

theorem RoundTrip.qhard (md : MReg) (qa : QReg) (thr : BitVec 16) (k : MaskOp) :
    Statement (.qhard md qa thr k) := by
  intro c hw he
  replace hw : (k.ok) = true := hw
  refine bolt_ok ?_ he
  rw [bolt_7D _ rfl]
  simp [decodeQhard, checked, firstCase, -Nat.reduceAdd, hw]

theorem RoundTrip.qseed (src : SeedSrc) (k : MaskOp) :
    Statement (.qseed src k) := by
  intro c hw he
  replace hw : (k.ok) = true := hw
  cases src
  all_goals
    refine bolt_ok ?_ he
    rw [bolt_7E _ rfl]
    simp [decodeQseed, checked, firstCase, -Nat.reduceAdd, hw]

theorem RoundTrip.qlin (qd : QReg) (lin : BitVec 8) :
    Statement (.qlin qd lin) := by
  intro c hw he
  refine bolt_ok ?_ he
  rw [bolt_7F _ rfl]
  simp [decodeQlin, checked, firstCase, -Nat.reduceAdd]

theorem RoundTrip.hostBar0Write (port : Nat) (off : Nat) (size : Nat) (val : Nat) :
    Statement (.hostBar0Write port off size val) :=
  fun _ _ he => nomatch (he : (none : Option Code) = _)

theorem RoundTrip.hostBar2Read (byte : Nat) (size : Nat) :
    Statement (.hostBar2Read byte size) :=
  fun _ _ he => nomatch (he : (none : Option Code) = _)

theorem RoundTrip.hostBar2Write (byte : Nat) (size : Nat) (val : Nat) :
    Statement (.hostBar2Write byte size val) :=
  fun _ _ he => nomatch (he : (none : Option Code) = _)

theorem RoundTrip.hostAtomicop (kind : AtomKind) (byte : Nat) (size : Nat) (cmp : Nat) (val : Nat) :
    Statement (.hostAtomicop kind byte size cmp val) :=
  fun _ _ he => nomatch (he : (none : Option Code) = _)

theorem RoundTrip.hostManagedDeviceMemoryAccess (op : HdmOp) (byte : Nat) (size : Nat) (cmp : Nat) (val : Nat) :
    Statement (.hostManagedDeviceMemoryAccess op byte size cmp val) :=
  fun _ _ he => nomatch (he : (none : Option Code) = _)

theorem RoundTrip.configurationRequest (port : Nat) (enable : Option Bool) :
    Statement (.configurationRequest port enable) :=
  fun _ _ he => nomatch (he : (none : Option Code) = _)

theorem RoundTrip.peerWrite (link : Nat) (off : Nat) (size : Nat) (val : Nat) (red : Option (Nat × BitVec 8)) :
    Statement (.peerWrite link off size val red) :=
  fun _ _ he => nomatch (he : (none : Option Code) = _)

theorem RoundTrip.peerRead (link : Nat) (off : Nat) (size : Nat) :
    Statement (.peerRead link off size) :=
  fun _ _ he => nomatch (he : (none : Option Code) = _)

theorem RoundTrip.linkDown (kind : LinkKind) (link : Nat) :
    Statement (.linkDown kind link) :=
  fun _ _ he => nomatch (he : (none : Option Code) = _)

theorem RoundTrip.softError (st : Nat) (place : Nat) (word : Nat) (unc : Bool) :
    Statement (.softError st place word unc) :=
  fun _ _ he => nomatch (he : (none : Option Code) = _)

theorem RoundTrip.scanReadout (what : ScanSel) (key : Nat) :
    Statement (.scanReadout what key) :=
  fun _ _ he => nomatch (he : (none : Option Code) = _)

theorem RoundTrip.throttle (reason : Nat) :
    Statement (.throttle reason) :=
  fun _ _ he => nomatch (he : (none : Option Code) = _)

theorem RoundTrip.swapFailed (mctx : Nat) (layer : Nat) (reason : Nat) :
    Statement (.swapFailed mctx layer reason) :=
  fun _ _ he => nomatch (he : (none : Option Code) = _)

theorem RoundTrip.backinvTimeout (h : Nat) (va : Nat) :
    Statement (.backinvTimeout h va) :=
  fun _ _ he => nomatch (he : (none : Option Code) = _)

theorem RoundTrip.hbmRefresh (bank : Nat) :
    Statement (.hbmRefresh bank) :=
  fun _ _ he => nomatch (he : (none : Option Code) = _)

theorem RoundTrip.scrubWord (level : Nat) (place : Nat) (word : Nat) :
    Statement (.scrubWord level place word) :=
  fun _ _ he => nomatch (he : (none : Option Code) = _)

theorem RoundTrip.vretqRead (d : Reg) :
    Statement (.vretqRead d) :=
  fun _ _ he => nomatch (he : (none : Option Code) = _)

theorem RoundTrip.boltQueueRoom (h : Nat) :
    Statement (.boltQueueRoom h) :=
  fun _ _ he => nomatch (he : (none : Option Code) = _)

theorem RoundTrip.boltsCompletedWaitEnd (h : Nat) :
    Statement (.boltsCompletedWaitEnd h) :=
  fun _ _ he => nomatch (he : (none : Option Code) = _)

theorem RoundTrip.waitcWake (h : Nat) :
    Statement (.waitcWake h) :=
  fun _ _ he => nomatch (he : (none : Option Code) = _)

theorem RoundTrip.waitTimeout (h : Nat) :
    Statement (.waitTimeout h) :=
  fun _ _ he => nomatch (he : (none : Option Code) = _)

theorem RoundTrip.waitmWake (h : Nat) :
    Statement (.waitmWake h) :=
  fun _ _ he => nomatch (he : (none : Option Code) = _)

theorem RoundTrip.waitmTimeout (h : Nat) :
    Statement (.waitmTimeout h) :=
  fun _ _ he => nomatch (he : (none : Option Code) = _)

theorem RoundTrip.waitbWake (h : Nat) :
    Statement (.waitbWake h) :=
  fun _ _ he => nomatch (he : (none : Option Code) = _)

theorem RoundTrip.waitbTimeout (h : Nat) :
    Statement (.waitbTimeout h) :=
  fun _ _ he => nomatch (he : (none : Option Code) = _)

theorem RoundTrip.lwaitWake (h : Nat) :
    Statement (.lwaitWake h) :=
  fun _ _ he => nomatch (he : (none : Option Code) = _)

theorem RoundTrip.swapTimeout (h : Nat) :
    Statement (.swapTimeout h) :=
  fun _ _ he => nomatch (he : (none : Option Code) = _)

theorem RoundTrip.launchQueueRoom (h : Nat) :
    Statement (.launchQueueRoom h) :=
  fun _ _ he => nomatch (he : (none : Option Code) = _)

theorem RoundTrip.engineIssueRoom (h : Nat) :
    Statement (.engineIssueRoom h) :=
  fun _ _ he => nomatch (he : (none : Option Code) = _)

theorem RoundTrip.engineTransferComplete (x : Nat) (ext : Nat) :
    Statement (.engineTransferComplete x ext) :=
  fun _ _ he => nomatch (he : (none : Option Code) = _)

theorem RoundTrip.tldfFillComplete (x : Nat) (ext : Nat) :
    Statement (.tldfFillComplete x ext) :=
  fun _ _ he => nomatch (he : (none : Option Code) = _)

theorem RoundTrip.recallDelivery (h : Nat) :
    Statement (.recallDelivery h) :=
  fun _ _ he => nomatch (he : (none : Option Code) = _)

theorem RoundTrip.surrenderBudget (h : Nat) :
    Statement (.surrenderBudget h) :=
  fun _ _ he => nomatch (he : (none : Option Code) = _)

theorem RoundTrip.claimRetry (h : Nat) :
    Statement (.claimRetry h) :=
  fun _ _ he => nomatch (he : (none : Option Code) = _)

theorem RoundTrip.claimRecallRepost (h : Nat) :
    Statement (.claimRecallRepost h) :=
  fun _ _ he => nomatch (he : (none : Option Code) = _)

theorem RoundTrip.packetRelease (die : Nat) (q : Nat) :
    Statement (.packetRelease die q) :=
  fun _ _ he => nomatch (he : (none : Option Code) = _)

theorem RoundTrip.leadPlacement (f : Nat) :
    Statement (.leadPlacement f) :=
  fun _ _ he => nomatch (he : (none : Option Code) = _)

theorem RoundTrip.followerPlacement (f : Nat) :
    Statement (.followerPlacement f) :=
  fun _ _ he => nomatch (he : (none : Option Code) = _)

theorem RoundTrip.effectivePriorityAging (f : Nat) :
    Statement (.effectivePriorityAging f) :=
  fun _ _ he => nomatch (he : (none : Option Code) = _)

theorem RoundTrip.preemption (h : Nat) :
    Statement (.preemption h) :=
  fun _ _ he => nomatch (he : (none : Option Code) = _)

theorem RoundTrip.convoyCut (h : Nat) :
    Statement (.convoyCut h) :=
  fun _ _ he => nomatch (he : (none : Option Code) = _)

theorem RoundTrip.contextRestore (x : Nat) :
    Statement (.contextRestore x) :=
  fun _ _ he => nomatch (he : (none : Option Code) = _)

theorem RoundTrip.pendingEventTaken (h : Nat) :
    Statement (.pendingEventTaken h) :=
  fun _ _ he => nomatch (he : (none : Option Code) = _)

theorem RoundTrip.fwNotify (h : Nat) (n : Nat) :
    Statement (.fwNotify h n) :=
  fun _ _ he => nomatch (he : (none : Option Code) = _)

theorem RoundTrip.layerArrival (mctx : Nat) (layer : Nat) :
    Statement (.layerArrival mctx layer) :=
  fun _ _ he => nomatch (he : (none : Option Code) = _)

theorem RoundTrip.evictionComplete (mctx : Nat) (layer : Nat) :
    Statement (.evictionComplete mctx layer) :=
  fun _ _ he => nomatch (he : (none : Option Code) = _)

theorem RoundTrip.swapVictimTimeout (mctx : Nat) (layer : Nat) :
    Statement (.swapVictimTimeout mctx layer) :=
  fun _ _ he => nomatch (he : (none : Option Code) = _)

theorem RoundTrip.pageBlocked (h : Nat) :
    Statement (.pageBlocked h) :=
  fun _ _ he => nomatch (he : (none : Option Code) = _)

theorem RoundTrip.hostTimeout (h : Nat) (cls : Nat) (va : Nat) :
    Statement (.hostTimeout h cls va) :=
  fun _ _ he => nomatch (he : (none : Option Code) = _)

theorem RoundTrip.l2Eviction (g : Nat) (line : Nat) :
    Statement (.l2Eviction g line) :=
  fun _ _ he => nomatch (he : (none : Option Code) = _)

theorem RoundTrip.l2StaleSweep (g : Nat) :
    Statement (.l2StaleSweep g) :=
  fun _ _ he => nomatch (he : (none : Option Code) = _)

theorem RoundTrip.foremanQueueService (hq : Nat) :
    Statement (.foremanQueueService hq) :=
  fun _ _ he => nomatch (he : (none : Option Code) = _)

theorem RoundTrip.ident :
    Statement (.ident) :=
  fun _ _ he => nomatch (he : (none : Option Code) = _)

theorem RoundTrip.openq :
    Statement (.openq) :=
  fun _ _ he => nomatch (he : (none : Option Code) = _)

theorem RoundTrip.closeq :
    Statement (.closeq) :=
  fun _ _ he => nomatch (he : (none : Option Code) = _)

theorem RoundTrip.closeqComplete (hq : Nat) :
    Statement (.closeqComplete hq) :=
  fun _ _ he => nomatch (he : (none : Option Code) = _)

theorem RoundTrip.qresetDropHead :
    Statement (.qresetDropHead) :=
  fun _ _ he => nomatch (he : (none : Option Code) = _)

theorem RoundTrip.qresetDropAll :
    Statement (.qresetDropAll) :=
  fun _ _ he => nomatch (he : (none : Option Code) = _)

theorem RoundTrip.qresetRetryHead :
    Statement (.qresetRetryHead) :=
  fun _ _ he => nomatch (he : (none : Option Code) = _)

theorem RoundTrip.setevt :
    Statement (.setevt) :=
  fun _ _ he => nomatch (he : (none : Option Code) = _)

theorem RoundTrip.setvec :
    Statement (.setvec) :=
  fun _ _ he => nomatch (he : (none : Option Code) = _)

theorem RoundTrip.peerwin :
    Statement (.peerwin) :=
  fun _ _ he => nomatch (he : (none : Option Code) = _)

theorem RoundTrip.resync :
    Statement (.resync) :=
  fun _ _ he => nomatch (he : (none : Option Code) = _)

theorem RoundTrip.attest :
    Statement (.attest) :=
  fun _ _ he => nomatch (he : (none : Option Code) = _)

theorem RoundTrip.warm :
    Statement (.warm) :=
  fun _ _ he => nomatch (he : (none : Option Code) = _)

theorem RoundTrip.cold :
    Statement (.cold) :=
  fun _ _ he => nomatch (he : (none : Option Code) = _)

theorem RoundTrip.endhart :
    Statement (.endhart) :=
  fun _ _ he => nomatch (he : (none : Option Code) = _)

theorem RoundTrip.imgload :
    Statement (.imgload) :=
  fun _ _ he => nomatch (he : (none : Option Code) = _)

theorem RoundTrip.ctxload :
    Statement (.ctxload) :=
  fun _ _ he => nomatch (he : (none : Option Code) = _)

theorem RoundTrip.ctxunload :
    Statement (.ctxunload) :=
  fun _ _ he => nomatch (he : (none : Option Code) = _)

theorem RoundTrip.lreq :
    Statement (.lreq) :=
  fun _ _ he => nomatch (he : (none : Option Code) = _)

theorem RoundTrip.levict :
    Statement (.levict) :=
  fun _ _ he => nomatch (he : (none : Option Code) = _)

theorem RoundTrip.lpin :
    Statement (.lpin) :=
  fun _ _ he => nomatch (he : (none : Option Code) = _)

theorem RoundTrip.lunpin :
    Statement (.lunpin) :=
  fun _ _ he => nomatch (he : (none : Option Code) = _)

theorem RoundTrip.ctxset :
    Statement (.ctxset) :=
  fun _ _ he => nomatch (he : (none : Option Code) = _)

theorem RoundTrip.migrate :
    Statement (.migrate) :=
  fun _ _ he => nomatch (he : (none : Option Code) = _)

theorem RoundTrip.migrateComplete (pa : Nat) :
    Statement (.migrateComplete pa) :=
  fun _ _ he => nomatch (he : (none : Option Code) = _)

theorem RoundTrip.unmap :
    Statement (.unmap) :=
  fun _ _ he => nomatch (he : (none : Option Code) = _)

theorem RoundTrip.unmapComplete (x : Nat) :
    Statement (.unmapComplete x) :=
  fun _ _ he => nomatch (he : (none : Option Code) = _)

theorem RoundTrip.swapcancel :
    Statement (.swapcancel) :=
  fun _ _ he => nomatch (he : (none : Option Code) = _)

theorem RoundTrip.fwcallPartNumber :
    Statement (.fwcallPartNumber) :=
  fun _ _ he => nomatch (he : (none : Option Code) = _)

theorem RoundTrip.fwcallPostEvent :
    Statement (.fwcallPostEvent) :=
  fun _ _ he => nomatch (he : (none : Option Code) = _)

theorem RoundTrip.fwcallTime :
    Statement (.fwcallTime) :=
  fun _ _ he => nomatch (he : (none : Option Code) = _)

theorem RoundTrip.fwcallLayerRequest :
    Statement (.fwcallLayerRequest) :=
  fun _ _ he => nomatch (he : (none : Option Code) = _)

theorem RoundTrip.fwcallResidentPages :
    Statement (.fwcallResidentPages) :=
  fun _ _ he => nomatch (he : (none : Option Code) = _)

theorem RoundTrip.powerGood :
    Statement (.powerGood) :=
  fun _ _ he => nomatch (he : (none : Option Code) = _)

theorem RoundTrip.perstAssert :
    Statement (.perstAssert) :=
  fun _ _ he => nomatch (he : (none : Option Code) = _)

theorem RoundTrip.powerLoss :
    Statement (.powerLoss) :=
  fun _ _ he => nomatch (he : (none : Option Code) = _)

theorem RoundTrip.start (fail : Nat) :
    Statement (.start fail) :=
  fun _ _ he => nomatch (he : (none : Option Code) = _)

theorem RoundTrip.freeze :
    Statement (.freeze) :=
  fun _ _ he => nomatch (he : (none : Option Code) = _)

theorem RoundTrip.periodicReport :
    Statement (.periodicReport) :=
  fun _ _ he => nomatch (he : (none : Option Code) = _)

theorem RoundTrip.retentionEntry (g : Nat) :
    Statement (.retentionEntry g) :=
  fun _ _ he => nomatch (he : (none : Option Code) = _)

theorem RoundTrip.groveWake (g : Nat) :
    Statement (.groveWake g) :=
  fun _ _ he => nomatch (he : (none : Option Code) = _)

theorem RoundTrip.throttleRecover :
    Statement (.throttleRecover) :=
  fun _ _ he => nomatch (he : (none : Option Code) = _)

theorem RoundTrip.thermalTrip :
    Statement (.thermalTrip) :=
  fun _ _ he => nomatch (he : (none : Option Code) = _)

theorem RoundTrip.reservedOpcode (case : Nat) :
    Statement (.reservedOpcode case) :=
  fun _ _ he => nomatch (he : (none : Option Code) = _)

theorem RoundTrip.reservedField (case : Nat) :
    Statement (.reservedField case) :=
  fun _ _ he => nomatch (he : (none : Option Code) = _)

theorem RoundTrip.instructionFetchFault (cause : Nat) (va : Nat) :
    Statement (.instructionFetchFault cause va) :=
  fun _ _ he => nomatch (he : (none : Option Code) = _)

theorem RoundTrip.perstDeassert :
    Statement (.perstDeassert) :=
  fun _ _ he => nomatch (he : (none : Option Code) = _)

theorem RoundTrip.freezeDeassert :
    Statement (.freezeDeassert) :=
  fun _ _ he => nomatch (he : (none : Option Code) = _)

theorem RoundTrip.mailboxUnknownOpcode :
    Statement (.mailboxUnknownOpcode) :=
  fun _ _ he => nomatch (he : (none : Option Code) = _)

end Sys2Proof.Laws
end

