-- ==== Sys2Proof/Tests/Slice0.lean ====
section
/-!
SUPPORT. Tests of the model: words written out from the spec's encodings, ill-formed terms, one step of an instruction on a small
state, and, for each obligation with hypotheses, a state and operands that meet them.
-/
namespace Sys2Proof.Tests

open Sys2Proof Sys2Proof.Machine

set_option maxRecDepth 100000
set_option Elab.async false

/-! ### Words of the spec's encodings -/

/-- An SR word (R145): major, A, B, C, FN. -/
def sr (major : BitVec 6) (a b c : BitVec 5) (fn : BitVec 11) : BitVec 32 := major ++ (a ++ (b ++ (c ++ fn)))
/-- An SI, SB or SX word (R145): major, A, B and 16 bits. -/
def si (major : BitVec 6) (a b : BitVec 5) (imm : BitVec 16) : BitVec 32 := major ++ (a ++ (b ++ imm))
/-- A scalar memory word (R148): WM1, SCOPE, IX and D5 within FN. -/
def sm (major : BitVec 6) (a b c : BitVec 5) (wm1 : BitVec 6) (sc : BitVec 3) (ix d5 : BitVec 1) : BitVec 32 :=
  major ++ (a ++ (b ++ (c ++ (wm1 ++ (sc ++ (ix ++ d5))))))
/-- A bolt word with CB set (R157): OP, VD, VA, VB, VC, MSK, SNS, FX, TOK, FN. -/
def bw (op : BitVec 7) (vd va vb vc : BitVec 6) (msk : BitVec 3) (sns : BitVec 1) (fx tok : BitVec 4) (fn : BitVec 20) : BitVec 64 :=
  (1 : BitVec 1) ++ (op ++ (vd ++ (va ++ (vb ++ (vc ++ (msk ++ (sns ++ (fx ++ (tok ++ fn)))))))))
/-- What a stem word decodes to. -/
abbrev ds (w : BitVec 32) : Option Instr := (decodeStem w).toOption
/-- What a bolt word decodes to. -/
abbrev db (w : BitVec 64) : Option Instr := (decodeBolt w).toOption
/-- The execution mask m5 in the sense of clear bits. -/
abbrev km : MaskOp := ⟨5, true⟩
/-- Every element. -/
abbrev k0 : MaskOp := ⟨0, false⟩

/-- ADD s1, s2, s3 of R145 and R167. -/
theorem test_decode_add : ds 0x04221800 = some (.add 1 2 3) := by decide

/-- The worked encodings of 05 that are stem words. -/
theorem test_decode_worked_stem : ds 0x1CA90005 = some (.shli 5 9 5) ∧ ds 0xA4A60100 = some (.setvl 5 6) ∧
    ds 0x6819D170 = some (.aadd 0 25 26 11 .sys) ∧ ds 0xB2B4081F = some (.copyImmLen 21 20 31 0) := by decide

/-- The worked encodings of 05 that are bolt words. -/
theorem test_decode_worked_bolt : db 0xCE0D800000000000 = some (.vbcast 3 24 k0) ∧
    db 0x5205000000000000 = some (.vld 1 16 .fmode 0 0 0 k0) ∧
    db 0x5209100000100000 = some (.vld 2 17 .fmode 0 0 1 k0) ∧
    db 0xA408304200000000 = some (.vfma 2 3 1 2 .fmode k0) ∧ db 0x8000000000000000 = some .stop := by decide

/-- Major 0x01 (R152): the 25 operations by FN; CLZ and POPC name A and B only. -/
theorem test_decode_integer :
    ([0, 1, 2, 3, 4, 5, 6, 7, 8, 9, 10, 11, 12, 13, 14, 15, 16, 17, 18, 19, 20, 23, 24] : List (BitVec 11)).map
        (fun fn => ds (sr 1 7 19 30 fn)) =
      [Instr.add, .sub, .mul, .mulh, .mulhn, .div, .divn, .rem, .remn, .and, .or, .xor, .shl, .shr, .sra, .slt, .sltn, .min, .max,
        .minn, .maxn, .bext, .bins].map (fun i => some (i 7 19 30)) ∧
    ds (sr 1 7 19 0 21) = some (.clz 7 19) ∧ ds (sr 1 7 19 0 22) = some (.popc 7 19) := by decide

/-- Majors 0x02 to 0x0B (R145, R151). -/
theorem test_decode_immediates : ds (sr 2 7 19 30 41) = some (.bix 7 19 30 41) ∧
    ds (si 3 7 19 0x8001) = some (.addi 7 19 0x8001) ∧ ds (si 4 7 19 0x8001) = some (.andi 7 19 0x8001) ∧
    ds (si 5 7 19 0x8001) = some (.ori 7 19 0x8001) ∧ ds (si 6 7 19 0x8001) = some (.xori 7 19 0x8001) ∧
    ds (si 7 7 19 33) = some (.shli 7 19 33) ∧ ds (si 8 7 19 33) = some (.shri 7 19 33) ∧
    ds (si 9 7 19 33) = some (.srai 7 19 33) ∧
    ds ((0x0A : BitVec 6) ++ ((7 : BitVec 5) ++ (0x100001 : BitVec 21))) = some (.li 7 0x100001) ∧
    ds ((0x0B : BitVec 6) ++ ((7 : BitVec 5) ++ (0x100001 : BitVec 21))) = some (.lih 7 0x100001) := by decide

/-- Majors 0x0C to 0x14 and 0x28 (R145, R151). -/
theorem test_decode_branches :
    ([0x0C, 0x0D, 0x0E, 0x0F, 0x10, 0x11] : List (BitVec 6)).map (fun m => ds (si m 7 19 0xFFF0)) =
      [Instr.beq, .bne, .blt, .bge, .bltn, .bgen].map (fun i => some (i 7 19 0xFFF0)) ∧
    ds ((0x12 : BitVec 6) ++ (0x2000003 : BitVec 26)) = some (.jmp 0x2000003) ∧
    ds ((0x13 : BitVec 6) ++ (0x2000003 : BitVec 26)) = some (.jal 0x2000003) ∧
    ds ((0x28 : BitVec 6) ++ (0x2000003 : BitVec 26)) = some (.bolt 0x2000003) ∧
    ds (sr 0x14 7 0 0 0) = some (.jr 7) := by decide

/-- Majors 0x15 to 0x24 (R148): a displacement of -31 bits, an index register, and the atomics. -/
theorem test_decode_scalar_memory :
    ([0x15, 0x16, 0x17, 0x18, 0x19] : List (BitVec 6)).map (fun m => ds (sm m 7 19 1 62 3 0 1)) =
      [Instr.lds, .ldz, .st, .lda, .stl].map (fun i => some (i 7 19 (.disp 0x21) 62 .dev)) ∧
    ds (sm 0x15 7 19 30 62 1 1 0) = some (.lds 7 19 (.reg 30) 62 .core) ∧
    ([0x1A, 0x1B, 0x1C, 0x1D, 0x1E, 0x1F, 0x20, 0x21, 0x22, 0x23] : List (BitVec 6)).map
        (fun m => ds (sm m 7 19 30 62 4 0 0)) =
      [Instr.aadd, .aand, .aor, .axor, .amin, .amax, .aminn, .amaxn, .aswap, .cas].map (fun i => some (i 7 19 30 62 .sys)) ∧
    ds (sm 0x24 8 19 30 63 2 0 0) = some (.casq 8 19 30 .grove) := by decide

/-- Majors 0x25 to 0x27 (R151, R153). -/
theorem test_decode_waits : ds (sr 0x25 0 0 0 0b10001000000) = some (.fence .all .grove) ∧
    ds (sr 0x26 7 19 30 0b11111010101) = some (.waitm 7 19 30 62 21) ∧
    ds (sr 0x27 0 0 30 0b00010110101) = some (.waitc 30 5 21) ∧
    ds (sr 0x27 7 19 0 0b00101100000) = some (.arrive 7 19 .dev) ∧
    ds (sr 0x27 7 19 30 0b01010010101) = some (.waitb 7 19 30 .sys 21) ∧
    ds (sr 0x27 7 19 0 0b01100010101) = some (.lwait 7 19 21) ∧ ds (sr 0x27 0 0 0 0b10000000000) = some .pause := by
  decide

/-- Majors 0x29 and 0x2A (R153). -/
theorem test_decode_harts_and_lots : ds (sr 0x29 7 19 0 0b00000000000) = some (.vcfg 7 19) ∧
    ds (sr 0x29 7 19 0 0b00100000000) = some (.setvl 7 19) ∧ ds (sr 0x29 7 19 0 0b01000000000) = some (.farm 7 19) ∧
    ds (sr 0x29 7 0 0 0b01100000000) = some (.strip 7) ∧ ds (sr 0x29 0 19 0 0b10000000000) = some (.launch 19) ∧
    ds (sr 0x29 0 0 0 0b10100000000) = some .hexit ∧
    ds (sr 0x2A 7 19 0 0b00001011110) = some (.claim 7 19 1 7 true) ∧
    ds (sr 0x2A 7 0 0 0b00110000000) = some (.release 7 2) ∧ ds (sr 0x2A 0 0 0 0b01000000000) = some .sdone ∧
    ds (sr 0x2A 0 0 0 0b01100000000) = some .ssumm ∧ ds (sr 0x2A 0 0 0 0b10000000000) = some .srefuse := by decide

/-- Majors 0x2B and 0x2C (R153, R154). -/
theorem test_decode_tokens_and_engines : ds (sr 0x2B 13 19 30 0b00000000011) = some (.probe 13 19 30 3) ∧
    ds (sr 0x2B 13 0 0 0b00100000000) = some (.unprobe 13) ∧ ds (sr 0x2B 0 19 0 0b01000111101) = some (.bind 19 61) ∧
    ds (sr 0x2B 0 0 0 0b01100111101) = some (.unbind 61) ∧
    ([0b00010100000, 0b00110100000, 0b01010100000, 0b01110100000, 0b10010100000] : List (BitVec 11)).map
        (fun fn => ds (sr 0x2C 7 19 30 fn)) =
      [Instr.copyRegLen, .copymRegLen, .mcastRegLen, .redstRegLen, .sldRegLen].map (fun i => some (i 7 19 30 5)) ∧
    ([0b00010111110, 0b00110111110, 0b01010111110, 0b01110111110, 0b10010111110] : List (BitVec 11)).map
        (fun fn => ds (sr 0x2C 7 19 30 fn)) =
      [Instr.copyImmLen, .copymImmLen, .mcastImmLen, .redstImmLen, .sldImmLen].map (fun i => some (i 7 19 494 5)) ∧
    ds (sr 0x2C 7 19 0 0b10100000010) = some (.dims 7 19 2) := by decide

/-- Major 0x2D (R155). -/
theorem test_decode_system : ds (si 0x2D 7 0 0x0019) = some (.csrr 7 0x019) ∧ ds (si 0x2D 0 19 0x1004) = some (.csrw 19 0x004) ∧
    ds (si 0x2D 7 19 0x2013) = some (.csrx 7 19 0x013) ∧ ds (si 0x2D 0 0 0x303F) = some (.trap 63) ∧
    ds (si 0x2D 0 0 0x4000) = some .rett ∧ ds (si 0x2D 0 0 0x5101) = some (.fwcall 0x101) ∧
    ds (si 0x2D 0 0 0x6FFF) = some (.bkpt 0xFFF) := by decide

/-- OP 0x01 to 0x0B (R161, R216). -/
theorem test_decode_bolt_control :
    ([0x01, 0x02, 0x03, 0x04] : List (BitVec 7)).map (fun op => db (bw op 0 0 0 0 5 1 0 0 0xFFFFE)) =
      [Instr.vbany, .vball, .vbnone, .vbdiv].map (fun i => some (i 0xFFFFE km)) ∧
    db (bw 0x05 0 0 0 0 0 0 0 0 0xFFFFE) = some (.vjmp 0xFFFFE) ∧
    db (bw 0x06 0 0 0 0 0 0 0 0 0b00010000000000000000) = some (.vfence .sys) ∧
    db (bw 0x07 33 0 0 0 5 1 0 0 0) = some (.vidx 33 km) ∧ db (bw 0x08 33 21 30 0 5 1 0 0 0) = some (.vmvs 33 21 30 km) ∧
    db (bw 0x09 0 33 21 0 5 1 0 0 0) = some (.vext 33 (.elem 21) km) ∧
    db (bw 0x09 0 33 0 0 5 1 0 0 1) = some (.vext 33 .all km) ∧
    db (bw 0x0A 0 0 0 0 5 1 0 0 63) = some (.vtrap 63 km) ∧ db (bw 0x0B 33 0 0 0 5 1 0 0 0) = some (.vrng 33 km) := by
  decide

/-- OP 0x0C to 0x26 (R161, R216): RND 3, three registers where the row names three. -/
theorem test_decode_bolt_arithmetic :
    ([0x0C, 0x0D, 0x0E, 0x0F, 0x12, 0x13, 0x14, 0x15, 0x18, 0x19, 0x1A, 0x1B, 0x1C, 0x1D, 0x1E, 0x1F, 0x20, 0x23] :
        List (BitVec 7)).map (fun op => db (bw op 33 34 35 0 5 1 0 0 0x60000)) =
      [Instr.vadd, .vsub, .vmul, .vmulh, .vdiv, .vrem, .vmin, .vmax, .vadds, .vsubs, .vavg, .vand, .vor, .vxor, .vshl, .vshr, .vsra,
        .vbext].map (fun i => some (i 33 34 35 .rdn km)) ∧
    db (bw 0x10 33 34 35 0 5 1 6 0 0x60000) = some (.vmulw 33 34 35 .rdn 6 km) ∧
    db (bw 0x11 33 34 35 0 5 1 0 0 0) = some (.vmacc 33 34 35 km) ∧
    db (bw 0x16 33 34 0 0 5 1 0 0 0x60000) = some (.vabs 33 34 .rdn km) ∧
    db (bw 0x17 33 34 0 0 5 1 0 0 0x60000) = some (.vneg 33 34 .rdn km) ∧
    db (bw 0x21 33 34 0 0 5 1 0 0 0) = some (.vpopc 33 34 km) ∧ db (bw 0x22 33 34 0 0 5 1 0 0 0) = some (.vclz 33 34 km) ∧
    ([0x24, 0x25, 0x26] : List (BitVec 7)).map (fun op => db (bw op 33 34 35 36 5 1 0 0 0x60000)) =
      [Instr.vfma, .vfms, .vfnma].map (fun i => some (i 33 34 35 36 .rdn km)) := by decide

/-- OP 0x27 to 0x36 (R161, R216). -/
theorem test_decode_bolt_conversions :
    ([0x27, 0x28, 0x29, 0x2A, 0x2B, 0x2C, 0x2D, 0x33] : List (BitVec 7)).map
        (fun op => db (bw op 33 34 0 0 5 1 0 0 0x80000)) =
      [Instr.vsqrt, .vrcp, .vrsq, .vexp, .vlog, .vsig, .vtanh, .vrnd].map (fun i => some (i 33 34 .rup km)) ∧
    db (bw 0x2E 33 34 0 0 5 1 8 0 0x80000) = some (.vcvt 33 34 .rup 8 km) ∧
    db (bw 0x2F 33 34 0 0 5 1 0 0 0) = some (.vwiden 33 34 km) ∧
    db (bw 0x30 33 34 0 0 5 1 8 0 0x80000) = some (.vnarrow 33 34 .rup 8 km) ∧
    db (bw 0x31 33 34 0 0 5 1 0 0 0x80001) = some (.vqnt 33 34 .rup true false km) ∧
    db (bw 0x32 33 34 0 0 5 1 0 0 0x80002) = some (.vdqnt 33 34 .rup false true km) ∧
    db (bw 0x34 33 34 0 0 5 1 0 0 0) = some (.vclass 33 34 km) ∧
    db (bw 0x35 33 34 35 0 5 1 0 0 0x80000) = some (.vscl 33 34 35 .rup km) ∧
    db (bw 0x36 33 34 35 36 5 1 0 0 0x80000) = some (.vsat 33 34 35 36 .rup km) := by decide

/-- OP 0x37 to 0x40 (R161, R216). -/
theorem test_decode_bolt_masks : db (bw 0x37 3 34 35 0 5 1 0 0 5) = some (.vcmp 3 34 35 .ge km) ∧
    db (bw 0x38 3 34 35 0 5 1 0 0 2) = some (.vcmpn 3 34 35 .lt km) ∧ db (bw 0x39 3 4 6 0 5 1 0 0 0) = some (.mand 3 4 6 km) ∧
    db (bw 0x3A 3 4 6 0 5 1 0 0 0) = some (.mor 3 4 6 km) ∧ db (bw 0x3B 3 4 6 0 5 1 0 0 0) = some (.mxor 3 4 6 km) ∧
    db (bw 0x3C 3 4 0 0 5 1 0 0 0) = some (.mnot 3 4 km) ∧ db (bw 0x3D 33 4 0 0 5 1 0 0 0) = some (.mpop 33 4 km) ∧
    db (bw 0x3E 33 4 0 0 5 1 0 0 0) = some (.mfirst 33 4 km) ∧ db (bw 0x3F 33 34 35 6 5 1 0 0 0) = some (.vsel 33 34 35 6 km) ∧
    db (bw 0x40 3 0 0 0 5 1 0 0 0) = some (.mset 3 .zero km) ∧ db (bw 0x40 3 0 0 0 5 1 0 0 1) = some (.mset 3 .one km) ∧
    db (bw 0x40 3 30 0 0 5 1 0 0 2) = some (.mset 3 (.below 30) km) := by decide

/-- MSET with mode 3 and VA not zero: of R164's cases the lowest, a reserved field of `below` alone (R216). -/
theorem test_decode_mset_reserved :
    (match decodeBolt (bw 0x40 3 1 0 0 5 1 0 0 3), decodeBolt (bw 0x40 3 0 0 0 5 1 0 0 3) with
      | .error (.reservedField m), .error (.reservedField n) => decide (m = 1 ∧ n = 6)
      | _, _ => false) = true := by decide

/-- OP 0x41 to 0x51 (R161, R216). -/
theorem test_decode_bolt_permutations :
    ([0x41, 0x42, 0x43, 0x44, 0x45, 0x46, 0x47] : List (BitVec 7)).map
        (fun op => db (bw op 33 34 0 0 5 1 0 0 0x20000)) =
      [Instr.vrsum, .vrmax, .vrmin, .vrand, .vror, .vscan, .vscanmx].map (fun i => some (i 33 34 .rne km)) ∧
    db (bw 0x48 33 34 35 0 5 1 0 0 0x20000) = some (.vrdot 33 34 35 .rne km) ∧
    db (bw 0x49 33 34 30 0 5 1 0 0 0) = some (.vslup 33 34 (.frame 30) km) ∧
    db (bw 0x4A 33 34 0 0 5 1 0 0 0x8FFFF) = some (.vsldn 33 34 (.imm 0xFFFF) km) ∧
    db (bw 0x4B 33 34 35 0 5 1 0 0 0) = some (.vgthr 33 34 35 km) ∧ db (bw 0x4C 33 34 0 0 5 1 0 0 0) = some (.vcomp 33 34 km) ∧
    db (bw 0x4D 33 34 0 0 5 1 0 0 0) = some (.vexpd 33 34 km) ∧ db (bw 0x4E 33 30 0 0 5 1 0 0 0) = some (.vbcast 33 30 km) ∧
    db (bw 0x4F 33 34 0 0 5 1 0 0 0) = some (.vrev 33 34 km) ∧
    db (bw 0x50 33 34 35 0 5 1 0 0 1) = some (.vzip 33 34 35 true km) ∧
    db (bw 0x51 33 34 35 0 5 1 0 0 0) = some (.vunzip 33 34 35 false km) := by decide

/-- OP 0x52 to 0x61 (R161, R256): RND 2, a negative displacement, FX f32 and k11. -/
theorem test_decode_bolt_memory :
    ([0x52, 0x53, 0x5C, 0x5D] : List (BitVec 7)).map (fun op => db (bw op 33 30 0 0 5 1 7 11 0x5FFFF)) =
      [Instr.vld, .vst, .vldm, .vstm].map (fun i => some (i 33 30 .rtz 0x1FFFF 7 11 km)) ∧
    ([0x54, 0x55] : List (BitVec 7)).map (fun op => db (bw op 33 30 29 0 5 1 7 11 0x5FFFF)) =
      [Instr.vlds, .vsts].map (fun i => some (i 33 30 29 .rtz 0x1FFFF 7 11 km)) ∧
    ([0x56, 0x57, 0x58, 0x59] : List (BitVec 7)).map (fun op => db (bw op 33 30 34 0 5 1 7 11 0x5FFFF)) =
      [Instr.vldx, .vstx, .vldxo, .vstxo].map (fun i => some (i 33 30 34 .rtz 0x1FFFF 7 11 km)) ∧
    ([0x5A, 0x5B] : List (BitVec 7)).map (fun op => db (bw op 33 30 29 0 5 1 7 11 0x5FFFE)) =
      [Instr.vldseg, .vstseg].map (fun i => some (i 33 30 29 .rtz 0x3FFF 6 7 11 km)) ∧
    ([0x5E, 0x5F] : List (BitVec 7)).map (fun op => db (bw op 33 30 29 0 5 1 7 0 0x5FFFF)) =
      [Instr.vldsp, .vstsp].map (fun i => some (i 33 30 29 .rtz 0x1FFFF 7 km)) ∧
    ([0x60, 0x61] : List (BitVec 7)).map (fun op => db (bw op 33 30 34 0 5 1 7 0 0x5FFFF)) =
      [Instr.vldspx, .vstspx].map (fun i => some (i 33 30 34 .rtz 0x1FFFF 7 km)) := by decide

/-- OP 0x62 to 0x69 (R161, R256): SCOPE dev, NR, and then SP. -/
theorem test_decode_bolt_atomics :
    ([0x62, 0x63, 0x64, 0x65, 0x66, 0x67, 0x68, 0x69] : List (BitVec 7)).map
        (fun op => db (bw op 0 30 34 35 5 1 5 11 0b00001101100000000001)) =
      [Instr.vaadd, .vamin, .vamax, .vaand, .vaor, .vaxor, .vaswap, .vacas].map
        (fun i => some (i 0 30 34 35 .dev false true 0x801 5 11 km)) ∧
    db (bw 0x62 33 30 34 35 5 1 5 0 0b00001010100000000001) = some (.vaadd 33 30 34 35 .grove true false 0x801 5 0 km) := by
  decide

/-- OP 0x6A to 0x73 (R161, R256). -/
theorem test_decode_matrix : db (bw 0x6A 1 30 29 0 0 0 8 11 0x1FFFF) = some (.tld 1 30 29 0x1FFFF 8 11) ∧
    db (bw 0x6B 1 30 29 6 0 0 8 0 0x1FFFF) = some (.tldf 1 30 29 6 0x1FFFF 8) ∧
    db (bw 0x6C 1 30 0 0 0 0 0 11 0x1FFFF) = some (.tscl 1 30 0x1FFFF 11) ∧
    db (bw 0x6D 0 34 1 30 5 1 0 0 0x7FF) = some (.mrow 34 1 30 true 0x3FF km) ∧
    db (bw 0x6E 0 34 1 30 5 1 0 0 0x3FE) = some (.mrowz 34 1 30 false 0x3FE km) ∧
    db (bw 0x6F 0 30 1 29 0 0 1 11 0x401) = some (.msweep 30 1 29 true 1 1 11) ∧
    db (bw 0x70 33 0 0 0 5 1 0 0 0x803FF) = some (.mdrain 33 .rup 0x3FF km) ∧
    db (bw 0x71 0 30 29 0 0 0 3 0 0x9FC01) = some (.mdrains 30 29 .rup 127 1 3) ∧
    db (bw 0x72 0 0 0 0 0 0 0 0 0x1FC01) = some (.mzero 127 1) ∧
    db (bw 0x73 0 34 0 0 5 1 0 0 0x3FF) = some (.mldacc 34 0x3FF km) := by decide

/-- OP 0x74 to 0x7F (R161, R282). -/
theorem test_decode_soft : db (bw 0x74 3 34 35 0 5 1 0 0 0xA503) = some (.qcmp 3 34 35 0xA5 .le km) ∧
    db (bw 0x75 3 4 6 0 5 1 0 0 1) = some (.qand 3 4 6 true km) ∧ db (bw 0x76 3 4 6 0 5 1 0 0 0) = some (.qor 3 4 6 false km) ∧
    db (bw 0x77 3 4 0 0 5 1 0 0 0) = some (.qnot 3 4 km) ∧
    db (bw 0x78 33 34 35 6 5 1 0 0 0x20000) = some (.qblend 33 34 35 6 .rne km) ∧
    db (bw 0x79 3 4 0 0 5 1 0 0 0) = some (.qcoll 3 4 none km) ∧ db (bw 0x79 3 4 35 0 5 1 0 0 1) = some (.qcoll 3 4 (some 35) km) ∧
    db (bw 0x7A 33 4 0 0 5 1 0 0 0x20000) = some (.qgrad 33 (.soft 4) .rne km) ∧
    db (bw 0x7A 33 34 35 0 5 1 0 0 0x20001) = some (.qgrad 33 (.blend 34 35) .rne km) ∧
    db (bw 0x7B 3 4 0 0 5 1 0 0 0x20000) = some (.qmov (.qq 3 4) .rne km) ∧
    db (bw 0x7B 3 34 0 0 5 1 0 0 0x201A5) = some (.qmov (.toQ 3 34 0xA5) .rne km) ∧
    db (bw 0x7B 33 4 0 0 5 1 0 0 0x20200) = some (.qmov (.fromQ 33 4) .rne km) ∧
    db (bw 0x7C 3 0 0 0 5 1 0 0 0x8000) = some (.qset 3 0x8000 km) ∧
    db (bw 0x7D 3 4 0 0 5 1 0 0 0xFFFF) = some (.qhard 3 4 0xFFFF km) ∧
    db (bw 0x7E 0 34 0 0 5 1 0 0 0) = some (.qseed (.vec 34) km) ∧
    db (bw 0x7E 0 30 0 0 5 1 0 0 1) = some (.qseed (.frame 30) km) ∧
    db (bw 0x7F 3 0 0 0 0 0 0 0 0xA5) = some (.qlin 3 0xA5) := by decide

/-- Reserved words (R165, R306): an unassigned major, selector values, fields that must be zero, reserved codes, `~m0`, a mask kind
above its range, and token 16. -/
theorem test_decode_reserved : ([0x00000000, sr 0x2E 0 0 0 0, sr 1 7 19 30 25, sr 0x27 0 0 0 0x500, si 0x2D 0 0 0x7000, sr 0x2B 0 0 0 0x400,
      sr 0x29 0 0 0 0x600, sr 1 7 19 30 0x20, sr 1 7 19 1 21, sm 0x15 7 19 30 62 5 0 0, sm 0x15 7 19 30 62 2 1 1,
      sr 0x25 0 0 0 0x500, sr 0x2A 7 19 0 0x040, sr 0x2A 7 19 0 0x0E4, sr 0x2B 16 19 30 1, sr 0x2B 1 19 30 0, sr 0x2C 7 19 0 0x503] :
      List (BitVec 32)).map ds = List.replicate 17 none ∧
    ([bw 0x0C 33 34 35 0 0 1 0 0 0, bw 0x0C 33 34 35 0 5 1 0 0 0xA0000, bw 0x39 8 4 6 0 5 1 0 0 0, bw 0x08 33 32 30 0 5 1 0 0 0,
      bw 0x37 3 34 35 0 5 1 0 0 6, bw 0x40 3 0 0 0 5 1 0 0 3, bw 0x7C 3 0 0 0 5 1 0 0 0x8001, bw 0x7B 3 4 0 0 5 1 0 0 0x300,
      bw 0x62 33 30 34 35 5 1 5 1 0x2000, bw 0x62 33 30 34 35 5 1 5 1 0x1000, bw 0x06 0 0 0 0 5 0 0 0 0, bw 0x5E 33 30 29 0 5 1 7 1 0] :
      List (BitVec 64)).map db = List.replicate 12 none := by decide

/-! ### Well-formedness -/

/-- An ill-formed term for each check: `~m0`, CLAIM counts of 0 and above each kind's, a PROBE kind of 0, DIMS d3, a vector atomic with
SP and a token or with NR and a destination, a QSET code above 0x8000, and cases of reserved words that do not exist. -/
theorem test_ill_formed :
    (Instr.vadd 1 2 3 .fmode ⟨0, true⟩).wellFormed = false ∧ (Instr.mrow 1 0 0 false 0 ⟨0, true⟩).wellFormed = false ∧
    (Instr.claim 1 2 0 0 true).wellFormed = false ∧ (Instr.claim 1 2 0 9 true).wellFormed = false ∧
    (Instr.claim 1 2 1 9 true).wellFormed = false ∧ (Instr.claim 1 2 2 5 true).wellFormed = false ∧
    (Instr.claim 1 2 3 2 true).wellFormed = false ∧ (Instr.probe 1 2 3 0).wellFormed = false ∧ (Instr.dims 1 2 3).wellFormed = false ∧
    (Instr.vaadd 0 1 2 3 .grove true true 0 0 1 k0).wellFormed = false ∧
    (Instr.vacas 4 1 2 3 .grove false true 0 0 1 k0).wellFormed = false ∧ (Instr.qset 1 0x8001 k0).wellFormed = false ∧
    (Instr.reservedOpcode 8).wellFormed = false ∧ (Instr.reservedField 8).wellFormed = false := by decide

/-- The values beside them are well formed. -/
theorem test_well_formed :
    (Instr.claim 1 2 0 8 true).wellFormed = true ∧ (Instr.claim 1 2 1 8 true).wellFormed = true ∧
    (Instr.claim 1 2 2 4 true).wellFormed = true ∧ (Instr.claim 1 2 3 1 true).wellFormed = true ∧
    (Instr.vaadd 0 1 2 3 .grove true true 0 0 0 k0).wellFormed = true ∧ (Instr.qset 1 0x8000 km).wellFormed = true ∧
    (Instr.dims 1 2 2).wellFormed = true ∧ (Instr.probe 1 2 3 3).wellFormed = true ∧ (Instr.reservedOpcode 7).wellFormed = true := by decide

/-- Encoding is decoding turned round on a word of each region. -/
theorem test_encode : encode (.casq 8 19 30 .grove) = some (.stem (sm 0x24 8 19 30 63 2 0 0)) ∧
    encode (.vjmp 0xFFFFE) = some (.bolt ((bw 0x05 0 0 0 0 0 0 0 0 0xFFFFE) &&& 0x7FFFFFFFFFFFFFFF)) ∧ encode .powerGood = none := by decide

/-! ### Small states -/

/-- A device that has started. -/
def started : Boot := { Boot.initial with st := .ready, powerGood := true, perst := false }
/-- A placed hart with some registers. -/
def hartWith (regs : List (Nat × Word)) : Hart := { Hart.vacant with placed := true, uid := 1, pc := 0x1000, regs := regs }
/-- A page of 2^20 bits at virtual and physical address 0. -/
def page : Mapping := ⟨0, 0, 20, 0, true, true, true, false⟩
/-- A lot held by slot 0. -/
def held : Lot := ⟨1, 0, 0, none, 1⟩
/-- Core 0 with the first lot of each kind held by slot 0. -/
def oneEach : Core := { Core.vacant with lots := [(0, held), (8, held), (16, held), (20, held)] }
/-- A started device whose hart 0 is `x`, with that page and those lots. -/
def dev (x : Hart) : State := { State.reset with boot := started, maps := [page], harts := [(0, x)], cores := [(0, oneEach)] }
/-- Registers of a plain hart: s1 to s3. -/
def three (x y z : Word) : Hart := hartWith [(1, z), (2, x), (3, y)]
/-- What `f` says of the state after an outcome that is a next state. -/
def after {α : Type} (r : Host.Outcome State Fault Refusal) (f : State → α) : Option α :=
  match r with
  | .next t => some (f t)
  | _ => none
/-- s1 after an instruction at s2 = x, s3 = y, s1 = z. -/
def s1of (i : Instr) (x y z : Word) : Option Word := after (exec i (dev (three x y z))) (fun t => t.me.reg 1)
/-- Configuration: v0 to v2 are i32, v3 to v5 f32, v6 i8, v7 n16; slots of 32 bits, blocks of 32. -/
def cfg8 : VCfg := ⟨8, 32, 5, [0x1F, 0x1F, 0x1F, 0x80, 0x80, 0x80, 0x07, 0x4F]⟩
/-- A bolt of four elements. -/
def bolt4 : Bolt :=
  { seq := 1, entry := 0x1000, frame := [(1, 0x2000), (2, 1), (3, 16)], dims := [], vl := 4, mvl := 2048, lanes := 1, frags := [⟨0x1000, 15, none⟩],
    convoy := [], begun := true, words := 1, mpos := none, vstep := false, recheck := 0, ext := 0,
    ahead := [], cut := false, rowsTold := [], chain := [] }
/-- A token over the page. -/
def tok1 : Token := ⟨.live, 0, 2 ^ 20, true, true, 1, false⟩
/-- A hart with that configuration and bolt, token k1, and one lane cluster. -/
def vhart : Hart := { hartWith [] with cfg := cfg8, vtype := vtypeOf cfg8 1, mvl := 2048, vl := 4, bolts := [bolt4], toks := [(1, tok1)] }
/-- Elements of registers. -/
def withElems (x : Hart) (l : List (VReg × List Nat)) : Hart :=
  l.foldl (fun x p => x.putCodes p.1 ((List.range p.2.length).zip p.2)) x
/-- The four elements of a register after an instruction. -/
def elems (i : Instr) (l : List (VReg × List Nat)) (v : VReg) : Option (List Nat) :=
  after (exec i (dev (withElems vhart l))) (fun t => (List.range 4).map (t.me.code v))
/-- The flags after an instruction. -/
def flagsOf (i : Instr) (l : List (VReg × List Nat)) : Option Word := after (exec i (dev (withElems vhart l))) (fun t => t.me.fmode)
/-- A mask after an instruction. -/
def maskAfter (i : Instr) (l : List (VReg × List Nat)) (m : Nat) : Option Nat :=
  after (exec i (dev (withElems vhart l))) (fun t => Tab.get 0 t.me.masks m)

/-! ### The stem -/

/-- R167, by hand: modular sums and products. -/
theorem test_add_mul : s1of (.add 1 2 3) (BitVec.allOnes 64) 2 0 = some 1 ∧ s1of (.sub 1 2 3) 1 2 0 = some (BitVec.allOnes 64) ∧
    s1of (.mul 1 2 3) 0x8000000000000001 2 0 = some 2 ∧ s1of (.mulh 1 2 3) (BitVec.allOnes 64) 2 0 = some (BitVec.allOnes 64) ∧
    s1of (.mulhn 1 2 3) (BitVec.allOnes 64) 2 0 = some 1 ∧ s1of (.bix 1 2 3 2) 8 (BitVec.allOnes 64) 0 = some 5 := by decide
/-- R167: quotients toward zero, and the corners it names. -/
theorem test_div : s1of (.div 1 2 3) (-7) 2 0 = some (-3) ∧ s1of (.rem 1 2 3) (-7) 2 0 = some (-1) ∧
    s1of (.div 1 2 3) 5 0 0 = some (BitVec.allOnes 64) ∧ s1of (.rem 1 2 3) 5 0 0 = some 5 ∧
    s1of (.div 1 2 3) 0x8000000000000000 (-1) 0 = some 0x8000000000000000 ∧ s1of (.rem 1 2 3) 0x8000000000000000 (-1) 0 = some 0 ∧
    s1of (.divn 1 2 3) (-7) 2 0 = some 0x7FFFFFFFFFFFFFFC ∧ s1of (.divn 1 2 3) 5 0 0 = some (BitVec.allOnes 64) ∧
    s1of (.remn 1 2 3) (-7) 2 0 = some 1 := by decide
/-- R167: shifts by y[5:0]. -/
theorem test_shift : s1of (.shl 1 2 3) 1 65 0 = some 2 ∧ s1of (.shr 1 2 3) (-8) 1 0 = some 0x7FFFFFFFFFFFFFFC ∧
    s1of (.sra 1 2 3) (-8) 1 0 = some (-4) ∧ s1of (.shli 1 2 63) 3 0 0 = some 0x8000000000000000 ∧
    s1of (.srai 1 2 63) (-8) 0 0 = some (BitVec.allOnes 64) ∧ s1of (.shri 1 2 63) (-8) 0 0 = some 1 := by decide
/-- R167: comparisons, signed and unsigned. -/
theorem test_compare : s1of (.slt 1 2 3) (-1) 1 0 = some 1 ∧ s1of (.sltn 1 2 3) (-1) 1 0 = some 0 ∧ s1of (.min 1 2 3) (-1) 1 0 = some (-1) ∧
    s1of (.max 1 2 3) (-1) 1 0 = some 1 ∧ s1of (.minn 1 2 3) (-1) 1 0 = some 1 ∧ s1of (.maxn 1 2 3) (-1) 1 0 = some (-1) := by decide
/-- R167: counts and fields; position 4 and width 8, and a field clipped at bit 63. -/
theorem test_bits : s1of (.clz 1 2) 1 0 0 = some 63 ∧ s1of (.clz 1 2) 0 0 0 = some 64 ∧ s1of (.popc 1 2) 0xF0 0 0 = some 4 ∧
    s1of (.bext 1 2 3) 0xABCD 0x704 0 = some 0xBC ∧ s1of (.bext 1 2 3) 0xF000000000000000 0x73E 0 = some 3 ∧
    s1of (.bins 1 2 3) 0 0x73C (BitVec.allOnes 64) = some 0x0FFFFFFFFFFFFFFF ∧
    s1of (.bins 1 2 3) 0xAB 0x704 0 = some 0xAB0 := by decide
/-- R169, R170: the immediates' extensions. -/
theorem test_immediates : s1of (.addi 1 2 0x8000) 0 0 0 = some (-32768) ∧ s1of (.andi 1 2 0x8000) (BitVec.allOnes 64) 0 0 = some 0x8000 ∧
    s1of (.ori 1 2 0x8000) 1 0 0 = some 0x8001 ∧ s1of (.xori 1 2 0xFFFF) 1 0 0 = some 0xFFFE ∧ s1of (.li 1 0x100000) 0 0 0 = some (-0x100000) ∧
    s1of (.lih 1 5) 0 0 3 = some 0x600005 := by decide
/-- R167: the bitwise operations; a write of s0 is discarded (R10). -/
theorem test_bitwise : s1of (.and 1 2 3) 12 10 0 = some 8 ∧ s1of (.or 1 2 3) 12 10 0 = some 14 ∧ s1of (.xor 1 2 3) 12 10 0 = some 6 ∧
    after (exec (.add 0 2 3) (dev (three 1 2 3))) (fun t => (t.me.reg 0, t.me.regs, t.me.pc)) =
      some (0, [(1, 3), (2, 1), (3, 2)], 0x1020) := by decide

/-- The PC after an instruction at 0x1000 with s2 = x, s3 = y. -/
def pcOf (i : Instr) (x y : Word) : Option Word := after (exec i (dev (three x y 0))) (fun t => t.me.pc)
/-- R171: a taken branch goes back one slot, and another goes on. -/
theorem test_branch : pcOf (.beq 2 3 0xFFFF) 4 4 = some 0xFE0 ∧ pcOf (.bne 2 3 0xFFFF) 4 4 = some 0x1020 ∧
    pcOf (.blt 2 3 2) (-1) 1 = some 0x1040 ∧ pcOf (.bltn 2 3 2) (-1) 1 = some 0x1020 ∧ pcOf (.bge 2 3 2) 1 1 = some 0x1040 ∧
    pcOf (.bgen 2 3 2) 1 (-1) = some 0x1020 := by decide
/-- R172: jumps; JAL writes s31; JR to a misaligned address takes cause 41 with its target. -/
theorem test_jump : pcOf (.jmp 0x3FFFFFF) 0 0 = some 0xFE0 ∧ pcOf (.jr 2) 0x2020 0 = some 0x2020 ∧
    after (exec (.jal 3) (dev (three 0 0 0))) (fun t => (t.me.pc, t.me.reg 31)) = some (0x1060, 0x1020) ∧
    after (exec (.jr 2) (dev (three 0x2021 0 0))) (fun t => (t.me.tcause, t.me.tpc, t.me.taddr, t.me.depth)) =
      some (41, 0x1000, 0x2021, 1) := by decide

/-- R174: a store of 12 bits at bit 0x2005 and the loads of them, sign-extended and not. -/
theorem test_store_load :
    let t := after (exec (.st 1 2 (.disp 5) 11 .grove) (dev (three 0x2000 0 0xABC))) (fun t => t)
    (t.bind (fun t => after (exec (.lds 4 2 (.disp 5) 11 .grove) t) (fun u => u.me.reg 4))) = some 0xFFFFFFFFFFFFFABC ∧
    (t.bind (fun t => after (exec (.ldz 4 2 (.disp 5) 11 .sys) t) (fun u => u.me.reg 4))) = some 0xABC ∧
    (t.bind (fun t => after (exec (.ldz 4 2 (.disp 4) 12 .grove) t) (fun u => u.me.reg 4))) = some 0x1578 := by decide +kernel
/-- R174: a release store is seen at the home, and LDA acquires it. -/
theorem test_release : let t := after (exec (.stl 1 2 (.disp 0) 63 .sys) (dev (three 0x2000 0 0x123456789))) (fun t => t)
    t.map (fun t => t.homeRead 0x2000 64) = some 0x123456789 ∧
    (t.bind (fun t => after (exec (.lda 4 2 (.disp 0) 63 .sys) t) (fun u => u.me.reg 4))) = some 0x123456789 := by decide +kernel
/-- R173: a range outside the mapped page takes UNMAPPED, 64 + 8 x 2 + 2, with the first bit outside. -/
theorem test_unmapped : after (exec (.ldz 4 2 (.disp 0) 63 .grove) (dev (three 0xFFFE0 0 0))) (fun t => (t.me.tcause, t.me.taddr)) =
    some (82, 0x100000) := by decide
/-- s1 and the 64 bits at 0x2000 after an atomic with operand 5 on 3 (R175), and s1 = 3 as the comparand. -/
def atom (i : Instr) : Option (Word × Nat) :=
  let s := (dev (three 0x2000 5 3)).homeWrite 0x2000 64 3
  after (exec i s) (fun t => (t.me.reg 1, t.homeRead 0x2000 64))
/-- R175, R176: the old value returned, and the result stored. -/
theorem test_atomics : atom (.aadd 1 2 3 63 .sys) = some (3, 8) ∧ atom (.aand 1 2 3 63 .sys) = some (3, 1) ∧
    atom (.aor 1 2 3 63 .sys) = some (3, 7) ∧ atom (.axor 1 2 3 63 .sys) = some (3, 6) ∧ atom (.amin 1 2 3 63 .sys) = some (3, 3) ∧
    atom (.amax 1 2 3 63 .sys) = some (3, 5) ∧ atom (.aswap 1 2 3 63 .sys) = some (3, 5) ∧ atom (.cas 1 2 3 63 .sys) = some (3, 5) ∧
    atom (.aadd 1 2 3 1 .sys) = some (3, 0) ∧ atom (.amin 1 2 3 2 .sys) = some (3, 5) ∧ atom (.aminn 1 2 3 2 .sys) = some (3, 3) ∧
    atom (.amaxn 1 2 3 2 .sys) = some (3, 5) := by decide +kernel
/-- R176: CASQ on 128 bits, taken and not; an odd register takes 16. -/
theorem test_casq :
    let s := ((dev (hartWith [(2, 0x2000), (4, 7), (5, 9), (6, 1), (7, 2)])).homeWrite 0x2000 64 7).homeWrite 0x2040 64 9
    after (exec (.casq 4 2 6 .sys) s) (fun t => (t.me.reg 4, t.me.reg 5, t.homeRead 0x2000 64, t.homeRead 0x2040 64)) = some (7, 9, 1, 2) ∧
    after (exec (.casq 6 2 4 .sys) s) (fun t => (t.me.reg 6, t.me.reg 7, t.homeRead 0x2000 64, t.homeRead 0x2040 64)) = some (7, 9, 7, 9) ∧
    after (exec (.casq 5 2 6 .sys) s) (fun t => t.me.tcause) = some 16 := by decide +kernel

/-- R206, R302: TRAP 5 takes 453 with the next address, and RETT returns to it. -/
theorem test_trap_rett : let t := after (exec (.trap 5) (dev { three 0 0 0 with tvec := 0x4000 })) (fun t => t)
    t.map (fun t => (t.me.tcause, t.me.tpc, t.me.pc, t.me.depth)) = some (453, 0x1020, 0x4000, 1) ∧
    (t.bind (fun t => after (exec .rett t) (fun u => (u.me.pc, u.me.depth)))) = some (0x1020, 0) := by decide
/-- R204: CSRX swaps TEMP; TVEC keeps an aligned canonical address (R299); ILLEGAL_CSR, cases 44 and 46 of R306 as codes. -/
theorem test_csr : after (exec (.csrx 1 2 5) (dev { three 9 0 0 with temp := 7 })) (fun t => (t.me.reg 1, t.me.temp)) = some (7, 9) ∧
    after (exec (.csrw 2 0x13) (dev (three 0x103F 0 0))) (fun t => t.me.tvec) = some 0x1020 ∧
    after (exec (.csrr 1 0x001) (dev vhart)) (fun t => t.me.reg 1) = some (vtypeOf cfg8 1) ∧
    after (exec (.csrr 1 0x01A) (dev (three 0 0 0))) (fun t => t.me.tcause) = some 44 ∧
    after (exec (.csrr 1 0x800) (dev (three 0 0 0))) (fun t => t.me.tcause) = some 46 := by decide
/-- R24: SETVL takes the lesser of the request and MVL. -/
theorem test_setvl : after (exec (.setvl 1 2) (dev { vhart with regs := [(2, 5000)], bolts := [] })) (fun t => (t.me.vl, t.me.reg 1)) =
    some (2048, 2048) := by decide
/-- R193, R194: a token lives over its range, and UNPROBE frees it. -/
theorem test_probe : after (exec (.probe 3 2 3 1) (dev (three 0x100 64 0))) (fun t => (t.me.tok 3).st) = some .live ∧
    after (exec (.probe 3 2 3 2) (dev (three 0xFFFF0 64 0))) (fun t => (t.me.tcause, t.me.taddr)) = some (83, 0x100000) ∧
    after (exec (.unprobe 1) (dev { vhart with bolts := [] })) (fun t => (t.me.tok 1).st) = some .free := by decide
/-- R197, R199: COPY of 32 bits raises its counter; its completion moves them and lowers it (R135). -/
theorem test_copy : let s := (dev (three 0x3000 0x2000 0)).homeWrite 0x2000 32 0xDEADBEEF
    let t := after (exec (.copyImmLen 2 3 31 4) s) (fun t => t)
    t.map (fun t => (Tab.get 0 t.me.ctrs 4, t.xfers.length)) = some (1, 1) ∧
    (t.bind (fun t => after (exec (.engineTransferComplete 1 0) t) (fun u =>
      (Tab.get 0 u.me.ctrs 4, u.xfers.length, u.homeRead 0x3000 32)))) = some (0, 0, 0xDEADBEEF) := by decide +kernel
/-- R40, R191: a CLAIM of two slabs answers 0 and holds them; RELEASE frees the one of its mask. -/
theorem test_claim_release : let t := after (exec (.claim 1 2 1 2 true) (dev (three 0x4000 2 0))) (fun t => t)
    t.map (fun t => (t.me.reg 1, (t.myCore.lot 1 1).st, (t.myCore.lot 1 2).st, (t.myCore.lot 1 3).st)) = some (0, 2, 2, 0) ∧
    (t.bind (fun t => after (exec (.release 3 1) t) (fun u => ((u.myCore.lot 1 1).st, (u.myCore.lot 1 2).st)))) = some (0, 2) := by decide
/-- R180, R182: WAITC above its count waits; ARRIVE adds to COUNT alone. -/
theorem test_waits : after (exec (.waitc 1 3 0) (dev { three 0 0 0 with ctrs := [(3, 2)] })) (fun t => t.waitOf 0 |>.map (·.kind)) =
      some (some (.waitc 3 1)) ∧
    after (exec (.arrive 2 3 .dev) ((dev (three 2 0x2000 0)).homeWrite 0x2000 64 0x400FFFFFFFF)) (fun t => t.homeRead 0x2000 64) =
      some 0x40000000001 := by decide +kernel

/-! ### Bolts -/

/-- R225: i32 sums wrap; f32 sums and products by hand: 1.5 + 2 = 3.5, 1.5 x 2 = 3. -/
theorem test_vadd : elems (.vadd 2 0 1 .fmode k0) [(0, [0x7FFFFFFF, 5, 0, 1]), (1, [1, 0xFFFFFFFF, 0, 2])] 2 = some [0x80000000, 4, 0, 3] ∧
    elems (.vadd 5 3 4 .fmode k0) [(3, [0x3FC00000]), (4, [0x40000000])] 5 = some [0x40600000, 0, 0, 0] ∧
    elems (.vmul 5 3 4 .fmode k0) [(3, [0x3FC00000]), (4, [0x40000000])] 5 = some [0x40400000, 0, 0, 0] := by decide +kernel
/-- R231: saturating i32. -/
theorem test_vadds : elems (.vadds 2 0 1 .fmode k0) [(0, [0x7FFFFFFF, 0x80000000]), (1, [1, 0xFFFFFFFF])] 2 =
    some [0x7FFFFFFF, 0x80000000, 0, 0] := by decide +kernel
/-- R226: division toward zero and by zero; an infinity with OF. -/
theorem test_vdiv : elems (.vdiv 2 0 1 .fmode k0) [(0, [7, 0xFFFFFFF9, 5]), (1, [2, 2, 0, 1])] 2 = some [3, 0xFFFFFFFD, 0xFFFFFFFF, 0] ∧
    elems (.vrem 2 0 1 .fmode k0) [(0, [7, 0xFFFFFFF9, 5]), (1, [2, 2, 0, 1])] 2 = some [1, 0xFFFFFFFF, 5, 0] ∧
    elems (.vdiv 5 3 4 .fmode k0) [(3, [0x3F800000]), (4, [0x80000000, 0x3F800000, 0x3F800000, 0x3F800000])] 5 = some [0xFF800000, 0, 0, 0] := by
  decide +kernel
/-- R232: 1.5 x 2 + 0.25 = 3.25, rounded once. -/
theorem test_vfma : elems (.vfma 5 3 4 5 .fmode k0) [(3, [0x3FC00000]), (4, [0x40000000]), (5, [0x3E800000])] 5 =
    some [0x40500000, 0, 0, 0] := by decide +kernel
/-- R230: shifts within the width, a field, counts. -/
theorem test_vshift : elems (.vshl 2 0 1 .fmode k0) [(0, [1, 1, 1, 3]), (1, [4, 31, 32, 64])] 2 = some [16, 0x80000000, 0, 3] ∧
    elems (.vsra 2 0 1 .fmode k0) [(0, [0x80000000, 0x80000000]), (1, [4, 40])] 2 = some [0xF8000000, 0xFFFFFFFF, 0, 0] ∧
    elems (.vbext 2 0 1 .fmode k0) [(0, [0xABCD]), (1, [0x704])] 2 = some [0xBC, 0, 0, 0] ∧
    elems (.vclz 2 0 k0) [(0, [1, 0, 0x80000000, 2])] 2 = some [31, 32, 0, 30] := by decide +kernel
/-- R233: the square root of 4 is 2, exactly. -/
theorem test_vsqrt : elems (.vsqrt 5 3 .fmode k0) [(3, [0x40800000, 0x3F800000])] 5 = some [0x40000000, 0x3F800000, 0, 0] := by decide +kernel
/-- R234, R235: f32 to i32 at round to nearest even, and i8 to i32. -/
theorem test_vcvt : elems (.vcvt 2 3 .rne 0 k0) [(3, [0x40200000, 0x40600000, 0xC0200000])] 2 = some [2, 4, 0xFFFFFFFE, 0] ∧
    elems (.vwiden 2 6 k0) [(6, [0xFF, 0x7F])] 2 = some [0xFFFFFFFF, 0x7F, 0, 0] := by decide +kernel
/-- R242: -0 equals +0, and a NaN only differs; VCMPN compares codes. -/
theorem test_vcmp : maskAfter (.vcmp 1 3 4 .eq k0) [(3, [0x80000000, 0x7FC00000, 0x3F800000]), (4, [0, 0x7FC00000, 0x3F800000, 0x3F800000])] 1 =
      some 5 ∧
    maskAfter (.vcmp 1 3 4 .ne k0) [(3, [0x80000000, 0x7FC00000, 0x3F800000]), (4, [0, 0x7FC00000, 0x3F800000])] 1 = some 2 ∧
    maskAfter (.vcmpn 1 3 4 .gt k0) [(3, [0x80000000])] 1 = some 1 := by decide +kernel
/-- R246, R243: the pattern of `below`, and a mask's complement at the active elements. -/
theorem test_masks : maskAfter (.mset 2 (.below 2) k0) [] 2 = some 1 ∧ maskAfter (.mset 2 .one k0) [] 2 = some 15 ∧
    after (exec (.mnot 2 1 ⟨3, false⟩) (dev { vhart with masks := [(1, 0b0101), (2, 0b1111), (3, 0b0011)] })) (fun t => Tab.get 0 t.me.masks 2) =
      some 0b1110 := by decide +kernel
/-- R247-R249: a sum, an extreme, a dot product. -/
theorem test_reduce : elems (.vrsum 2 0 .fmode k0) [(0, [1, 2, 3, 0xFFFFFFFF])] 2 = some [5, 0, 0, 0] ∧
    elems (.vrmax 2 0 .fmode k0) [(0, [1, 2, 3, 0xFFFFFFFF])] 2 = some [3, 0, 0, 0] ∧
    elems (.vrdot 2 0 1 .fmode k0) [(0, [1, 2, 3, 4]), (1, [4, 3, 2, 1])] 2 = some [20, 0, 0, 0] ∧
    elems (.vscan 2 0 .fmode k0) [(0, [1, 2, 3, 4])] 2 = some [1, 3, 6, 10] := by decide +kernel
/-- R250-R254: slides, a gather, compression, reversal and interleaving, by hand. -/
theorem test_permute : elems (.vslup 2 0 (.imm 1) k0) [(0, [1, 2, 3, 4]), (2, [9, 9, 9, 9])] 2 = some [9, 1, 2, 3] ∧
    elems (.vsldn 2 0 (.imm 1) k0) [(0, [1, 2, 3, 4])] 2 = some [2, 3, 4, 0] ∧
    elems (.vgthr 2 0 1 k0) [(0, [1, 2, 3, 4]), (1, [3, 4, 0, 0xFFFFFFFF])] 2 = some [4, 0, 1, 0] ∧
    elems (.vrev 2 0 k0) [(0, [1, 2, 3, 4])] 2 = some [4, 3, 2, 1] ∧
    elems (.vzip 2 0 1 false k0) [(0, [1, 2, 3, 4]), (1, [5, 6, 7, 8])] 2 = some [1, 5, 2, 6] ∧
    elems (.vunzip 2 0 1 false k0) [(0, [1, 2, 3, 4]), (1, [5, 6, 7, 8])] 2 = some [1, 3, 5, 7] ∧
    after (exec (.vcomp 2 0 ⟨3, false⟩) (dev { withElems vhart [(0, [1, 2, 3, 4])] with masks := [(3, 0b1010)] }))
      (fun t => (List.range 4).map (t.me.code 2)) = some [2, 4, 0, 0] := by decide +kernel
/-- R237, R77: x - z with both zero is +0, and -0 toward negative infinity. -/
theorem test_vdqnt_zero : elems (.vdqnt 3 6 .rne false true k0) [(6, [0, 1])] 3 = some [0, 0x3F800000, 0, 0] ∧
    elems (.vdqnt 3 6 .rdn false true k0) [(6, [0, 1])] 3 = some [0x80000000, 0x3F800000, 0x80000000, 0x80000000] := by decide +kernel
/-- R222, R223: VEXT fills the return queue; VTRAP takes 448 + n with the lowest active element. -/
theorem test_vext_vtrap : after (exec (.vext 0 .all k0) (dev (withElems vhart [(0, [1, 2, 3, 4])]))) (fun t => t.me.vretq) = some [1, 2, 3, 4] ∧
    after (exec (.vtrap 7 ⟨3, false⟩) (dev { vhart with masks := [(3, 0b1100)] })) (fun t => (t.me.tcause, t.me.tidx)) = some (455, 2) := by
  decide +kernel
/-- R258: a store of four i32 through k1 at F[1] = 0x2000, and the load of them as n16 in memory. -/
theorem test_vst_vld : let t := after (exec (.vst 0 1 .fmode 0 0 1 k0) (dev (withElems vhart [(0, [1, 2, 0x10003, 0xFFFFFFFF])]))) (fun t => t)
    (t.bind (fun t => after (exec (.vld 2 1 .fmode 0 0 1 k0) t) (fun u => (List.range 4).map (u.me.code 2)))) = some [1, 2, 0x10003, 0xFFFFFFFF] ∧
    (t.bind (fun t => after (exec (.vld 2 1 .fmode 32 4 1 k0) t) (fun u => (List.range 4).map (u.me.code 2)))) = some [2, 0, 3, 1] := by
  decide +kernel
/-- R263: elements 32 bits apart, one of them over a 10; the old codes go to vd. -/
theorem test_vaadd : let t := after (exec (.vaadd 1 1 2 0 .sys false false 0 0 1 k0)
      ((dev (withElems vhart [(0, [1, 2, 3, 4]), (2, [0, 32, 64, 96])])).homeWrite 0x2020 32 10)) (fun t => t)
    t.map (fun t => (t.homeRead 0x2000 32, t.homeRead 0x2020 32, t.homeRead 0x2060 32)) = some (1, 12, 4) ∧
    t.map (fun t => (List.range 4).map (t.me.code 1)) = some [0, 10, 0, 0] := by decide +kernel
/-- R281-R288: a constant, its complement, and the independent conjunction of halves. -/
theorem test_soft : let t := after (exec (.qset 1 0x4000 k0) (dev vhart)) (fun t => t)
    (t.bind (fun t => after (exec (.qnot 2 1 k0) t) (fun u => u.me.qcode 2 3))) = some 0x4000 ∧
    (t.bind (fun t => after (exec (.qand 2 1 1 false k0) t) (fun u => u.me.qcode 2 0))) = some 0x2000 ∧
    (t.bind (fun t => after (exec (.qhard 2 1 0x4001 k0) t) (fun u => Tab.get 0 u.me.masks 2))) = some 0 := by decide +kernel
/-- R217-R219: with the mask {0, 1} the bolt is cut, and the fragment of the lower address runs. -/
theorem test_vbdiv : after (exec (.vbdiv 2 ⟨3, false⟩) ({ (dev { vhart with masks := [(3, 3)] }) with
      dev := Memory.write [] 0x1080 64 0x8000000000000000 })) (fun t => t.me.bolts.map (·.frags)) =
    some [[⟨0x1040, 12, none⟩, ⟨0x1080, 3, none⟩]] := by decide +kernel
/-- R279, R276: MZERO and MLDACC, and the row drained again. -/
theorem test_acc : let t := after (exec (.mldacc 0 5 k0) (dev (withElems vhart [(0, [1, 2, 3, 0xFFFFFFFF])]))) (fun t => t)
    t.map (fun t => (t.myCore.row 5).chk) = some 5 ∧
    (t.bind (fun t => after (exec (.mdrain 2 .fmode 5 k0) t) (fun u => (List.range 4).map (u.me.code 2)))) = some [1, 2, 3, 0xFFFFFFFF] ∧
    (t.bind (fun t => after (exec (.mzero 0 5) t) (fun u => ((u.myCore.row 5).chk, u.myCore.accAt 5 2)))) = some (0, 0) := by decide +kernel

/-! ### Words that run as the next instruction -/

/-- A stem word placed after reset is fetched, decoded and run: LI s5, 0x48D1 of 05. -/
theorem test_step_stem : after (step (State.reset.withFetchWord 32 0x28A048D1)) (fun t => t.me.reg 5) = some 0x48D1 := by decide +kernel
/-- So is a bolt word: VBCAST v3, s24 of 05, after which the bolt's fragment stands at the next word. -/
theorem test_step_bolt : after (step (State.reset.withFetchWord 64 0xCE0D800000000000)) (fun t => t.me.bolts.map (fun b => b.frags.map (·.pc))) =
    some [[probePc + 64]] := by decide +kernel

/-! ### States that meet the hypotheses of the obligations -/

/-- A plain hart at 0x1000: s2 = 0x2000, s3 = 5, s1 = 3. -/
abbrev plain : State := dev (three 0x2000 5 3)
/-- The same state with the hart changed. -/
def plainWith (f : Hart → Hart) : State := dev (f (three 0x2000 5 3))
/-- A state whose hart 0 waits, its timeout passed. -/
def waiting (k : WaitKind) : State := plainWith (fun x => { x with wait := some ⟨k, 0, some 0, 0⟩ })

/-- DecodeOfEncode. -/
theorem test_meets_decode_of_encode : (Instr.casq 8 19 30 .grove).wellFormed = true ∧ (Instr.qlin 7 0xFF).wellFormed = true ∧
    (encode (.casq 8 19 30 .grove)).isSome = true ∧
    (encode (.qlin 7 0xFF)).isSome = true := by decide +kernel
/-- StepRunsTheStemWord: LI s5, 0x48D1 placed after reset. -/
theorem test_meets_stem_step : let s := State.reset.withFetchWord 32 0x28A048D1
    let s0 : State := { s with agenda := [], cur := 0 }
    s.agenda = [.stem 0] ∧ s.boot.frozen = false ∧ s.boot.st = .ready ∧ (s.hart 0).placed = true ∧ (s.hart 0).halted = false ∧
      (s.hart 0).wait = none ∧ (dueEvent 0 s0).isNone = true ∧ (s.hart 0).pc ≠ s.handler ∧
      (match fetchStem s0 with
        | .ok (w, s1) => if s1.clean then (decodeStem w).toOption else none
        | .error _ => none) = some (.li 5 0x48D1) := by decide +kernel
/-- StepRunsTheBoltWord: VBCAST v3, s24 as the next word of a convoy. -/
theorem test_meets_bolt_step : let s : State := { dev { vhart with bolts := [{ bolt4 with convoy := [(0x1000, 0xCE0D800000000000)] }] } with
      agenda := [.vec 0] }
    s.boot.frozen = false ∧ s.boot.st = .ready ∧ (s.hart 0).placed = true ∧ (s.hart 0).halted = false ∧ (s.hart 0).vwait = none ∧
      (s.hart 0).preempt = none ∧ (s.hart 0).bolts = [{ bolt4 with convoy := [(0x1000, 0xCE0D800000000000)] }] ∧
      (s.hart 0).duePend.any (·.trap.vec) = false ∧ s.clean ∧ db 0xCE0D800000000000 = some (.vbcast 3 24 k0) := by decide +kernel
/-- StepKeepsTheInvariant: the step of a placed word. -/
theorem test_meets_step_invariant : (State.reset.withFetchWord 32 0x28A048D1).inv ∧
    (after (step (State.reset.withFetchWord 32 0x28A048D1)) (fun t => decide t.inv)) = some true := by decide +kernel
/-- RegisterArithmetic. -/
theorem test_meets_registers : (31 : Reg) ≠ 0 ∧ (30 : Reg) ≠ 31 := by decide

/-- ScalarLoadsAndStores: 64 bits at the start and at the end of the page, one bit, a step that leaves its store, and a store left. -/
theorem test_meets_loads_and_stores : plain.clean ∧ plain.settled ∧ plain.reaches 0 64 .rd ∧ plain.reaches (2 ^ 20 - 64) 64 .rd ∧
    plain.reaches (2 ^ 20 - 1) 1 .rd ∧ plain.reaches 0 64 .wr ∧ plain.reaches (2 ^ 20 - 64) 64 .wr ∧ plain.me.address 2 (.disp 0x3F) = 0x1FFF ∧
    plain.me.address 2 (.reg 3) = 0x2005 ∧ ({ plain with late := true } : State).reaches (2 ^ 20 - 1) 1 .wr ∧
    (let s := plainWith (fun x => { x with stores := [⟨[(0x2000, 64)], .store 9, .grove, false, []⟩] })
     s.clean ∧ s.reaches 0x2000 64 .rd ∧ s.phys s.me.asid 0x2000 64 = [(0x2000, 64)]) := by decide +kernel
/-- ScalarLoadsAndStores: accesses that the step leaves to be performed. -/
theorem test_meets_late_accesses : let s : State := { plain with late := true }
    s.clean ∧ s.late = true ∧ s.reaches 0x2000 64 .rd ∧ s.reaches 0x2000 64 .wr ∧ isDev 0x2000 = true := by decide +kernel
/-- WritesChangeOnlyTheirBits: the last bit of a line, a whole line, the last line of device memory, and host memory. -/
theorem test_meets_writes : plain.clean ∧ plain.inv ∧ (511 % 512 + 1 ≤ 512 ∧ isDev (511 + 1 - 1) = true) ∧
    ((3 * 2 ^ 41 - 512) % 512 + 512 ≤ 512 ∧ isDev (3 * 2 ^ 41 - 512 + 512 - 1) = true) ∧ isHost (2 ^ 50) = true ∧
    isHost (2 ^ 52 - 1) = true ∧ bitIn [(511, 1)] 510 = false ∧ bitIn [(511, 1)] 512 = false ∧ bitIn [(511, 1)] 511 = true := by
  decide +kernel
/-- ScalarAtomics: a word in one line, 128 bits, registers even and odd. -/
theorem test_meets_atomics : plain.atomicAt .fetchAdd 0x2000 64 ∧ plain.atomicAt .none 0x21FF 1 ∧ plain.atomicAt .cas 0x2000 128 ∧ plain.clean ∧
    plain.settled ∧ (4 : Reg).getLsbD 0 = false ∧ (30 : Reg).getLsbD 0 = false ∧ (31 : Reg).getLsbD 0 = true := by decide +kernel
/-- ScalarAccessCauses: outside the page, no permission, not canonical, past the top of the address space; across two lines; memory of
port 1; ports that are down. -/
theorem test_meets_access_causes : let s : State := { plain with maps := [{ page with w := false }] }
    let far (pa : Nat) (down : Nat) : State := { plain with maps := [{ page with pa := pa }], host := { plain.host with portDown := down } }
    s.checkAccess 0 (2 ^ 20 - 63) 64 .rd = some (2, 2 ^ 20) ∧ s.checkAccess 0 0x2000 64 .wr = some (3, 0x2000) ∧
    s.checkAccess 0 0x2000 64 .rmw = some (3, 0x2000) ∧ s.checkAccess 0 (2 ^ 56 - 1) 2 .rd = some (0, 2 ^ 56) ∧
    s.checkAccess 0 (2 ^ 64 - 1) 2 .wr = some (1, 2 ^ 64 - 1) ∧
    (plain.checkAccess 0 0x21FF 64 .rmw = none ∧ oneLine 0x21FF 64 = false ∧ oneLine 0x2180 128 = true) ∧
    ((far (2 ^ 51) 0).checkAccess 0 0x2000 64 .rmw = none ∧
      (far (2 ^ 51) 0).portCause .fetchAdd ((far (2 ^ 51) 0).physOf 0x2000) 64 = some 432) ∧
    (let d := far (2 ^ 50) 1
     d.checkAccess 0 0x2000 64 .rd = none ∧ d.blocked 0 0x2000 64 = none ∧ d.interlocked 0 0x2000 64 false = false ∧
     d.hostFail 0 0 0x2000 64 2 = some (106, 0x2000) ∧
     d.parts 0 0x2000 64 = [⟨0x2000, 64, some { page with pa := 2 ^ 50 }⟩] ∧ isHost (2 ^ 50 + 0x2000) = true ∧
     d.host.portDown.testBit (hostPort (2 ^ 50 + 0x2000)) = true) := by decide +kernel
/-- FencesPauseAndWaitEnds. -/
theorem test_meets_fences : plain.idle ∧
    ((waiting .bolts).waitsFor 0 .bolts ∧ ((waiting .bolts).hart 0).bolts = []) ∧
    ((waiting .transfers).waitsFor 0 .transfers ∧ (waiting .transfers).dueXfers 0 = []) ∧
    ((waiting .boltRoom).waitsFor 0 .boltRoom ∧ ((waiting .boltRoom).hart 0).bolts = []) ∧
    (let s : State := { dev { vhart with wait := some ⟨.boltRoom, 0, none, 0⟩ } with dev := Memory.write [] 0x1000 32 0xA0000002 }
     s.waitsFor 0 .boltRoom ∧ s.checkAccess (s.hart 0).asid (s.hart 0).pc.toNat 32 .rd true = none ∧ (s.hart 0).bolts ≠ [] ∧
     (decodeStem (BitVec.ofNat 32 (s.vread (s.hart 0).asid 0 .grove (s.hart 0).pc.toNat 32).1)).toOption = some (.bolt 2) ∧
     (s.hart 0).queued + s.countWords 0 ((s.hart 0).pc + (2 : BitVec 26).signExtend 64 * 32).toNat 32 ≤ 32) ∧
    ((waiting (.launchRoom 0 15)).waitsFor 0 (.launchRoom 0 15) ∧ ((waiting (.launchRoom 0 15)).yardQ 0 15).packets.length < 64) ∧
    ((waiting (.engineRoom 7)).waitsFor 0 (.engineRoom 7) ∧ (waiting (.engineRoom 7)).engRoom 0 7 = true) := by decide +kernel
/-- CounterAndMemoryWaits: WAITC at its count, above it, woken and timed out. -/
theorem test_meets_counter_waits : let s := plainWith (fun x => { x with ctrs := [(7, 31)] })
    let t := plainWith (fun x => { x with ctrs := [(7, 31)], wait := some ⟨.waitc 7 31, 0, some 0, 0⟩ })
    let u := plainWith (fun x => { x with ctrs := [(7, 31)], wait := some ⟨.waitc 7 30, 0, some 0, 0⟩ })
    (Tab.get 0 s.me.ctrs 7 ≤ (31 : BitVec 5).toNat ∧ s.me.engFails.all (fun f => decide (f.cn ≠ 7)) = true) ∧
    (30 : BitVec 5).toNat < Tab.get 0 s.me.ctrs 7 ∧
    (t.waitsFor 0 (.waitc 7 31) ∧ Tab.get 0 (t.hart 0).ctrs 7 ≤ 31 ∧ (t.hart 0).engFails.all (fun f => decide (f.cn ≠ 7)) = true) ∧
    (u.timedOut 0 (.waitc 7 30) ∧ 30 < Tab.get 0 (u.hart 0).ctrs 7) := by decide +kernel
/-- CounterAndMemoryWaits: WAITM on zeros with s3 = 5, its wake and its timeout. -/
theorem test_meets_memory_waits : plain.clean ∧ plain.settled ∧ plain.reaches 0x2000 64 .rd ∧ oneLine 0x2000 64 = true ∧
    (plain.vread 0 0 .sys 0x2000 64).1 ≠ (plain.me.reg 3).toNat % 2 ^ 64 ∧ (waiting (.waitm 4 0x2000 64 5)).waitsFor 0 (.waitm 4 0x2000 64 5) ∧
    ((waiting (.waitm 4 0x2000 64 5)).on 0).reaches 0x2000 64 .rd ∧ (waiting (.waitm 4 0x2000 64 5)).clean ∧
    ((waiting (.waitm 4 0x2000 64 5)).on 0).settled ∧
    (((waiting (.waitm 4 0x2000 64 5)).on 0).vread 0 0 .sys 0x2000 64).1 ≠ 5 ∧ (waiting (.waitm 4 0x2000 64 0)).timedOut 0 (.waitm 4 0x2000 64 0) := by
  decide +kernel
/-- Barriers: an arrival; a word at its target, one with ERR, and one of another phase; their wakes and the timeout. -/
theorem test_meets_barriers : let w (n : Nat) : State := plain.homeWrite 0x2000 64 n
    let k : WaitKind := .waitb 4 0x2000 5 0 .dev
    let s (n : Nat) : State := (waiting k).homeWrite 0x2000 64 n
    (0x2000 % 64 = 0 ∧ plain.clean ∧ plain.idle ∧ plain.reaches 0x2000 64 .rmw ∧
      (isHost (plain.physOf 0x2000) && hostPort (plain.physOf 0x2000) == 1) = false ∧
      (((plain.drain 0).release 0 .dev).vread 0 0 .dev 0x2000 64).1 < 2 ^ 50) ∧
    ((w 5).clean ∧ (w 5).settled ∧ (w 5).reaches 0x2000 64 .rd ∧ ((w 5).vread 0 0 .dev 0x2000 64).1 = 5 ∧
      5 ≤ ((w 5).vread 0 0 .dev 0x2000 64).1 % 2 ^ 32) ∧
    ((w (2 ^ 32)).vread 0 0 .dev 0x2000 64).1.testBit 32 = true ∧ ((w (2 ^ 32)).vread 0 0 .dev 0x2000 64).1 < 2 ^ 50 ∧
    ((w (2 ^ 42)).vread 0 0 .dev 0x2000 64).1 / 2 ^ 42 % 2 ^ 8 ≠ 5 / 2 ^ 32 % 2 ^ 8 ∧
    ((s 5).waitsFor 0 k ∧ (s 5).timedOut 0 k ∧ (s 5).clean ∧ ((s 5).on 0).settled ∧ ((s 5).on 0).reaches 0x2000 64 .rd ∧
      (((s 5).on 0).vread 0 0 .dev 0x2000 64).1 = 5) ∧
    (((s (2 ^ 32)).on 0).vread 0 0 .dev 0x2000 64).1.testBit 32 = true ∧
    (((s (2 ^ 42)).on 0).vread 0 0 .dev 0x2000 64).1 / 2 ^ 42 % 2 ^ 8 ≠ 0 := by decide +kernel
/-- StatusRegisters: a read and a write of registers that wait for bolts and of one that does not, VRETQ with and without an entry, and
numbers at the ends of what is not listed, read-only, and of management. -/
theorem test_meets_status : (plain.csrValue 0x019).isSome = true ∧ (plain.csrValue 0).isSome = true ∧ csrWaits 4 = true ∧ plain.me.bolts = [] ∧
    ((dev vhart).csrValue 0).isSome = true ∧ (plain.csrValue 4).isSome = true ∧ (plain.me.csrWrite 4 (plain.me.reg 3)).isSome = true ∧
    (plain.me.csrWrite 0x18 (plain.me.reg 3)).isSome = true ∧ (plainWith (fun x => { x with vretq := [7, 8] })).me.vretq = 7 :: [8] ∧
    plain.me.vretq = [] ∧ 0x800 ≤ (0x800 : BitVec 12).toNat ∧ 0x800 ≤ (0xFFF : BitVec 12).toNat ∧ plain.csrValue 0x7FF = none ∧
    plain.csrValue 0x1A = none ∧ (plain.csrValue 1).isSome = true ∧ plain.me.csrWrite 1 0 = none := by decide +kernel
/-- TakingATrap: depth 2 and depth 3, causes at the ends of the uncorrected codes. -/
theorem test_meets_trap : (plainWith (fun x => { x with pstat := 0x8000 })).me.depth < 3 ∧ (plainWith (fun x => { x with pstat := 0xC000 })).me.depth = 3 ∧
    ((plain.stemTrap 319 0).cause < 320 ∨ 416 ≤ (plain.stemTrap 319 0).cause) ∧ 416 ≤ (plain.stemTrap 416 0).cause ∧
    (plain.stemTrap 0 0).vec = false ∧ (plain.vecTrap 0 0).vec = true := by decide +kernel
/-- ExceptionsByInstruction: a hart that a debug session holds and one that none does, and a hart with a bolt. -/
theorem test_meets_exceptions : plain.rel.dbgHarts.contains plain.cur = false ∧
    ({ plain with rel := { plain.rel with dbgHarts := [0] } } : State).rel.dbgHarts.contains 0 = true ∧ (dev vhart).me.bolts ≠ [] := by decide +kernel
/-- ReturnFromTrap: outside a trap, without a frame, to a misaligned and an aligned address, and from a vector trap. -/
theorem test_meets_rett : plain.me.depth = 0 ∧ (let s := plainWith (fun x => { x with pstat := 0x6000 })
      s.me.depth ≠ 0 ∧ s.me.vt = true ∧ popTrapFrame s.me.frames = none) ∧
    (let s := plainWith (fun x => { x with pstat := 0x4000, tpc := 0x1001 })
     s.me.depth ≠ 0 ∧ s.me.vt = false ∧ s.me.tpc.toNat % 32 ≠ 0) ∧
    (let s := plainWith (fun x => { x with pstat := 0xC000, tpc := 0x1020 })
     s.me.depth ≠ 0 ∧ s.me.vt = false ∧ s.me.tpc.toNat % 32 = 0) ∧
    (let s := plainWith (fun x => { x with pstat := 0x6000, frames := [⟨true, 0, none, []⟩, ⟨false, 0x1000, none, [bolt4]⟩] })
     s.me.depth ≠ 0 ∧ s.me.vt = true ∧ popTrapFrame s.me.frames = some (⟨false, 0x1000, none, [bolt4]⟩, [⟨true, 0, none, []⟩])) ∧
    ((plainWith (fun x => { x with pstat := 0x8000 })).me.depth < 3 ∧ (plain.stemTrap 16 0).vec = false ∧ (plain.stemTrap 16 0).pc.toNat % 32 = 0) := by
  decide +kernel
/-- FirmwareCalls. -/
theorem test_meets_fwcall : plain.idle ∧ (3 ∉ [0, 1, 2, 0x100, 0x101]) ∧ (0xFFF ∉ [0, 1, 2, 0x100, 0x101]) := by decide +kernel

/-! ### Configuration, farms and lots -/

/-- A surrender routine over lane cluster 1. -/
def routine1 : Routine := ⟨some 100, 0, 2, 1⟩
/-- VectorConfigurationAndLength: a routine, a misaligned record, one that R22 refuses, and one it accepts. -/
theorem test_meets_vcfg : (plainWith (fun x => { x with routine := some routine1 })).me.inRoutine = true ∧ plain.me.inRoutine = false ∧ plain.me.bolts = [] ∧
    0x2001 % 64 ≠ 0 ∧ plain.clean ∧ plain.reaches 0x2000 576 .rd ∧ readConfig (plain.vread 0 0 .grove 0x2000 576).1 = none ∧
    (let s := plain.homeWrite 0x2000 576 (1 + 2 * 2 ^ 14 + 5 * 2 ^ 16 + 0x1F * 2 ^ 64)
     s.reaches 0x2000 576 .rd ∧ readConfig (s.vread 0 0 .grove 0x2000 576).1 = some ⟨1, 32, 5, [0x1F]⟩) ∧
    (readConfig (1 + 0x07 * 2 ^ 64)).isSome = true ∧ (readConfig (64 + 3 * 2 ^ 14)).isSome = true ∧ readConfig 65 = none ∧
    readConfig (1 + 0x08 * 2 ^ 64) = none := by decide +kernel
/-- VectorConfigurationAndLength: SETVL without and with a lane change. -/
theorem test_meets_setvl : (let s := dev { vhart with bolts := [] }
      s.me.inRoutine = false ∧ s.lanesPending = false) ∧
    (let s : State := { dev { vhart with bolts := [] } with cores := [(0, { oneEach with lots := [(0, held), (1, held)] })] }
     s.me.inRoutine = false ∧ s.lanesPending = true ∧ s.me.bolts = [] ∧ s.myCore.lanesOf (slotOf s.cur) ≠ s.me.lc) := by decide +kernel
/-- A farm of four positions, its lead hart 0. -/
def farm1 : Farm :=
  { id := 9, pkt := 0, asid := 0, die := 0, counter := 0, total := 4, leadPlaced := true, opened := false, wanted := 0, entry := 0x1000,
    leadRegs := [], leadToks := [], placed := 1, alive := 1, running := 1, since := 0, full := false,
    deficit := 65536, counted := 0 }
/-- A state with a farm whose lead is hart 0. -/
def farming (f : Farm) (g : Hart → Hart) : State := { plainWith (fun x => g { x with farm := 9 }) with farms := [f] }
/-- FarmsAndLaunches: FARM unopened and opened, aligned and not; STRIP outside a farm; routines. -/
theorem test_meets_farms : (farming farm1 (fun x => { x with routine := some routine1 })).me.inRoutine = true ∧
    (plain.farmOf plain.me.farm = none ∧ plain.me.inRoutine = false) ∧
    (let s := farming farm1 id
     s.farmOf s.me.farm = some farm1 ∧ s.me.inRoutine = false ∧ farm1.opened = false ∧ (s.me.reg 2).toNat % 32 = 0 ∧ (s.me.reg 3).toNat % 32 ≠ 0) ∧
    (let f := { farm1 with opened := true }
     (farming f id).farmOf (farming f id).me.farm = some f ∧ f.opened = true) := by decide +kernel
/-- FarmsAndLaunches: LAUNCH of a valid packet, of one whose entry is not aligned, and at a misaligned address. -/
theorem test_meets_launch : let s := plain.homeWrite 0x2000 1024 (0x1000 * 2 ^ 256)
    let m := (plain.vread 0 0 .grove 0x2000 1024).1
    0x2001 % 64 ≠ 0 ∧ plain.clean ∧ plain.reaches 0x2000 1024 .rd ∧ plain.packetCause m = none ∧ plain.idle ∧
    (plain.yardQ 0 (pktQueue m)).packets.length < 64 ∧ s.reaches 0x2000 1024 .rd ∧
    (plain.packetCause (BitVec.allOnes 1024).toNat).isSome = true := by decide +kernel
/-- A failure on counter 3. -/
def fail3 : EngFail := ⟨3, 90, 0x2000⟩
/-- EndOfAHart: a plain end, the last and not the last hart of its farm, a failure, a routine. -/
theorem test_meets_hexit : (plainWith (fun x => { x with routine := some routine1 })).me.inRoutine = true ∧
    (plain.me.inRoutine = false ∧ plain.idle ∧ plain.me.engFails = []) ∧
    ((farming farm1 id).farmOf 9 = some farm1 ∧ farm1.alive ≤ 1) ∧
    (let f := { farm1 with alive := 2 }
     (farming f id).farmOf (farming f id).me.farm = some f ∧ 1 < f.alive) ∧
    ((plain.myCore.lot 1 0).claim = none ∧ plain.holds 1 0 = true ∧ plain.holds 3 0 = true) ∧
    (let s := plainWith (fun x => { x with engFails := [⟨5, 1, 0⟩, fail3] })
     s.me.inRoutine = false ∧ s.idle ∧ lowestFailure s.me.engFails = some (fail3, [⟨5, 1, 0⟩])) := by decide +kernel
/-- EndOfAHart: no claim of the hart's own, with a lot that another hart's claim has selected, and every access performed. -/
theorem test_meets_hexit_claims : let c : Core := { oneEach with
      lots := [(0, held), (8, { held with claim := some 4 })]
      claims := [{ id := 4, slot := 1, uid := 2, pc := 0, kind := 1, n := 1, status := true, routine := 0, lots := 1, got := 0, outcome := none,
                   refused := [], seen := 0 }] }
    let s : State := { plain with cores := [(0, c)] }
    s.me.inRoutine = false ∧ s.idle ∧ s.me.engFails = [] ∧ s.me.stores = [] ∧
    s.myCore.claims.any (fun y => decide (y.slot = slotOf s.cur) && decide (y.uid = s.me.uid)) = false := by decide +kernel
/-- The claim that a CLAIM in status mode begins. -/
def newClaim (s : State) (k n : Nat) (rt : Word) (status : Bool) : Claim :=
  { id := (s.core 0).nextClaim, slot := 0, uid := s.me.uid, pc := s.me.pc, kind := k, n := n, status := status, routine := rt, lots := 0, got := 0,
    outcome := none, refused := [], seen := 0 }
/-- ClaimsAndReleases: routine addresses that are refused, a routine, seven free slabs, and too few quarters. -/
theorem test_meets_claim : canonical (2 ^ 57) = false ∧ canonical 0x2001 = true ∧ 0x2001 % 32 ≠ 0 ∧ canonical 0x2000 = true ∧ 0x2000 % 32 = 0 ∧
    (plainWith (fun x => { x with routine := some routine1 })).me.inRoutine = true ∧ plain.me.inRoutine = false ∧ (plain.core 0).claims = [] ∧
    7 ≤ ((List.range 8).filter (fun i => decide (((plain.core 0).lot 1 i).st = 0))).length ∧
    ((List.range 8).filter (fun i => decide (((plain.core 0).lot 1 i).st = 0))).all (fun i => decide (((plain.core 0).lot 1 i).claim = none)) = true ∧
    (plain.candidates 0 (newClaim plain 2 4 0x2000 true)).length < 4 ∧ (plain.candidates 0 (newClaim plain 3 1 0x2000 false)).length < 1 := by
  decide +kernel
/-- ClaimsAndReleases: a mask held, one that is not, an empty one; a lot that a claim has selected. -/
theorem test_meets_release : (plain.holds 1 0 = true ∧ (plain.myCore.lot 1 0).st ≠ 3) ∧ plain.holds 1 1 = false ∧ plain.me.bolts = [] ∧
    (let c : Core := { oneEach with lots := [(8, { held with st := 2, claim := some 4 })], claims := [{ newClaim plain 1 1 0 true with id := 4 }] }
     (c.lot 1 0).claim = some 4 ∧ (c.claimOf 4).isSome = true) := by decide +kernel
/-- RecallsAndVerdicts: a recall that is due, a budget that is spent, claims that wait, and one refused 4,096 cycles ago. -/
theorem test_meets_recalls : (let s := plainWith (fun x => { x with recalls := [⟨0, 2, 1, 4⟩, ⟨1, 1, 1, 5⟩] })
      (s.hart 0).recalls = ⟨0, 2, 1, 4⟩ :: [⟨1, 1, 1, 5⟩] ∧ (s.hart 0).recallDue = true) ∧
    ((plainWith (fun x => { x with routine := some ⟨some 0, 0, 2, 1⟩ })).hart 0).routine = some ⟨some 0, 0, 2, 1⟩ ∧
    (let c : Claim := { newClaim plain 0 1 0x2000 true with id := 4 }
     let at_ (c : Claim) : State := { waiting (.claim 4) with cores := [(0, { oneEach with claims := [c], version := 1 })], cycle := 5000 }
     ((at_ { c with outcome := some 3 }).waitsFor 0 (.claim 4) ∧ (((at_ { c with outcome := some 3 }).core 0).claimOf 4).isSome = true) ∧
     ((at_ c).core 0).claimOf 4 = some c ∧ c.outcome = none ∧ c.lots = 0 ∧ c.seen ≠ ((at_ c).core 0).version ∧
     (let r : Claim := { c with refused := [(4, 904)] }
      let s : State := { waiting (.claim 4) with cores := [(0, { oneEach with claims := [r], lots := [(2, { held with st := 2, claim := some 4 })] })], cycle := 5000 }
      s.waitsFor 0 (.claim 4) ∧ (s.core 0).claimOf 4 = some r ∧ r.refused = [(4, 904)] ∧ 904 + 4096 ≤ s.cycle ∧
        (Nat.testBit 4 2 && !(r.got.testBit 2) && decide (((s.core 0).lot 0 2).st = 2) && decide (((s.core 0).lot 0 2).claim = some 4)) = true ∧
        (s.hart 0).recallsFull = false)) := by decide +kernel
/-- RecallsAndVerdicts: a routine with its frame, refusals within the limit and beyond it, lots already stripped; and no routine. -/
theorem test_meets_verdicts : plain.me.routine = none ∧ (let fr : Frame := ⟨true, 0x1000, none, [bolt4]⟩
     let s := plainWith (fun x => { x with routine := some routine1, frames := [⟨false, 0, none, []⟩, fr], srlimit := 15, srefn := 14, recallW := 0x20001 })
     let t := plainWith (fun x => { x with routine := some routine1, frames := [fr], srlimit := 15, srefn := 16 })
     s.me.routine = some routine1 ∧ popRoutineFrame s.me.frames = some (fr, [⟨false, 0, none, []⟩]) ∧ s.idle ∧ routine1.budget ≠ none ∧
      (s.me.srefn + 1).toNat ≤ s.me.srlimit.toNat ∧ t.me.srlimit.toNat < 16 ∧ (⟨none, 0, 2, 1⟩ : Routine).budget = none) ∧
    (let c : Core := { oneEach with lots := [(1, { held with st := 2 }), (8, { held with st := 2 }), (16, held)] }
     let s : State := { plain with cores := [(0, c)] }
     ((2 : Nat).testBit 1 && s.holds 0 1 && decide ((s.myCore.lot 0 1).st = 2)) = true ∧
     ((1 : Nat).testBit 0 && s.holds 1 0 && decide ((s.myCore.lot 1 0).st = 2)) = true ∧
     ((1 : Nat).testBit 0 && s.holds 2 0 && decide ((s.myCore.lot 2 0).st = 2)) = false ∧ (s.myCore.lot 2 0).claim = none) := by decide +kernel

/-- RecallsAndVerdicts: a strip of a lane cluster in force, and a claim that is due behind another in the window. -/
theorem test_meets_strip_lanes : let s : State := { dev { vhart with vtype := vtypeOf cfg8 3 } with
      cores := [(0, { oneEach with lots := [(0, held), (1, { held with st := 2 })] })] }
    Bits.ofList (s.surrendering routine1) &&& s.me.lc ≠ 0 ∧ routine1.kind = 0 := by decide +kernel

/-! ### Tokens, bindings and engines -/

/-- ProbesBindingsAndDimensions: extents at and above 2^40, ranges without and with a cause, pins at and above 65,536. -/
theorem test_meets_probe : let pinned (n : Nat) : State := plainWith (fun x => { x with toks := [(2, { tok1 with pages := n })] })
    2 ^ 40 < 2 ^ 40 + 1 ∧ plain.checkAccess 0 (2 ^ 20 - 63) 64 (probeKind 3) = some (2, 2 ^ 20) ∧ plain.checkAccess 0 0 (2 ^ 20) (probeKind 1) = none ∧
    (plain.parts 0 0 (2 ^ 20)).length = 1 ∧ 65536 < 1 + (pinned 65536).me.pinnedBut 1 ∧ 1 + (pinned 65535).me.pinnedBut 1 ≤ 65536 ∧ plain.me.bolts = [] := by
  decide +kernel
/-- The record of a flume of two i8 elements at 0x3000, 8 bits apart, through k1. -/
def record1 : Nat := 0x3000 * 2 ^ 192 + 8 * 2 ^ 96 + 2 * 2 ^ 64 + 0x07 * 2 ^ 24 + 1 * 2 ^ 20
/-- A vector hart without a bolt, s2 = 0x2000. -/
def vplain : Hart := { vhart with bolts := [], regs := [(2, 0x2000), (3, 5)] }
/-- A binding of register `r` in slot `i`. -/
def binding (i r : Nat) : Binding := ⟨i, r, BitVec.ofNat 256 record1, 0, []⟩
/-- ProbesBindingsAndDimensions: registers at and below NREG, records misaligned, bad and good, eight bindings, lengths at 2^21. -/
theorem test_meets_bind : let s := dev vplain
    let good := s.homeWrite 0x2000 256 record1
    let eight := dev { vplain with binds := (List.range 8).map (fun i => binding i (i + 8)) }
    s.me.bolts = [] ∧ s.me.cfg.nreg ≤ (8 : VReg).toNat ∧ (7 : VReg).toNat < s.me.cfg.nreg ∧ 0x2001 % 64 ≠ 0 ∧ s.clean ∧ s.reaches 0x2000 256 .rd ∧
    (BitVec.ofNat 256 ((s.homeWrite 0x2000 256 1).vread 0 0 .grove 0x2000 256).1).getLsbD 0 = true ∧
    (let r := BitVec.ofNat 256 (good.vread 0 0 .grove 0x2000 256).1
     (r.getLsbD 0 || (Tag.ofCode (r.extractLsb' 24 8)).isNone || (r.getLsbD 3 && true)) = false) ∧ good.me.binds.length < 8 ∧
    (eight.me.binds.filter (fun b => !(decide (b.reg = 7))) = eight.me.binds ∧ 8 ≤ eight.me.binds.length) ∧
    (2 ^ 21 - 1 : Word).toNat < 2 ^ 21 ∧ 2 ^ 21 ≤ (2 ^ 21 : Word).toNat := by decide +kernel
/-- EngineIssues, COPY: a length above 2^40, ranges that meet, ranges that may issue, a full table, a length 0. -/
theorem test_meets_copy : 2 ^ 40 < 2 ^ 40 + 1 ∧ rangesMeet (0x2000, 32) (0x201F, 32) = true ∧ rangesMeet (0x2000, 32) (0x2020, 32) = false ∧
    plain.engRange 0x2000 32 ∧ plain.engRange (2 ^ 56 - 32) 32 ∧ plain.engRange aperture (2 ^ 22) ∧ plain.engRange 0x2000 0 ∧
    plain.engRoom 0 7 = true ∧ (plainWith (fun x => { x with ctrs := [(7, 65535)] })).engRoom 0 7 = false ∧
    (BitVec.ofNat 9 511).toNat + 1 = 512 := by decide +kernel
/-- EngineIssues, COPYM and SLD: a box of two rows, a strip of 16 scales at the end of the file, and one past it. -/
theorem test_meets_copym_sld : let s := plainWith (fun x => { x with dims := [(0, ⟨2, 64⟩)] })
    let box := boxRange 0x2000 32 [s.me.dim 0, s.me.dim 1, s.me.dim 2]
    let strip := boxRange 0x2000 8 [⟨16, BitVec.ofInt 64 8⟩]
    2 * 1 * 1 * 32 ≤ 2 ^ 40 ∧ rangesMeet box (0x4000, 64) = false ∧ s.engRange box.1 box.2 ∧ s.engRange 0x4000 64 ∧ s.engRoom 0 7 = true ∧
    (0x800000000 : Word).toNat % 2048 + 16 ≤ 2048 ∧ (0x8000007F0 : Word).extractLsb' 11 21 = 0 ∧ (0x8000007F0 : Word).toNat % 2048 + 16 ≤ 2048 ∧
    2048 < (0x8000007F1 : Word).toNat % 2048 + 16 ∧ plain.engRange strip.1 strip.2 ∧
    (let big := boxRange 0x2000 (2 ^ 40) [⟨2, 0⟩, s.me.dim 1, s.me.dim 2]
     rangesMeet big (2 ^ 50, 2 * 1 * 1 * 2 ^ 40) = false ∧ 2 ^ 40 < 2 * 1 * 1 * 2 ^ 40) := by decide +kernel
/-- EngineIssues: an SLD behind a bolt. -/
theorem test_meets_sld_waits : let strip := boxRange 0x2000 8 [⟨16, BitVec.ofInt 64 8⟩]
    (dev vhart).engRange strip.1 strip.2 ∧ (dev vhart).me.bolts ≠ [] := by decide +kernel
/-- A descriptor of one destination at 0x6000 in this device, f32 elements, an arrival at 0x7000. -/
def desc1 : Nat := 0x6000 * 2 ^ 256 + 0x7000 * 2 ^ 192 + 0x80 * 2 ^ 136 + 1 * 2 ^ 128 + 2 ^ 64
/-- EngineIssues, MCAST and REDST: that descriptor, 64 bits from 0x3000; one misaligned. -/
theorem test_meets_collective : let s := plain.homeWrite 0x2000 1024 desc1
    let d := BitVec.ofNat 1024 (s.vread 0 0 .grove 0x2000 1024).1
    let ds := destsOf d
    let own := ds.filter (fun p => decide (p.1 = 0))
    0x2001 % 64 ≠ 0 ∧ s.clean ∧ s.reaches 0x2000 1024 .rd ∧ own.all (fun p => !(rangesMeet (0x3000, 64) (p.2, 64))) = true ∧
    d.extractLsb' 0 64 = 0 ∧ d.extractLsb' 65 63 = 0 ∧ d.extractLsb' 132 2 = 0 ∧ d.extractLsb' 134 2 ≠ 3 ∧
    (List.range 12).all (fun j => decide ((d.extractLsb' (144 + 4 * j) 4).toNat ≤ 8)) = true ∧ 0 < ndestOf d ∧ ndestOf d ≤ 12 ∧
    own.all (fun p => decide (p.2 < aperture)) = true ∧ destsMeet 64 ds = false ∧
    (Tag.ofCode (d.extractLsb' 136 8)).any (fun t => t.isAtomic && decide (64 % t.width = 0) &&
      ds.all (fun p => (List.range (64 / t.width)).all (fun k => oneLine (p.2 + k * t.width) t.width))) = true ∧
    s.engRange 0x3000 64 ∧ own.all (fun p => decide (s.engRange p.2 64)) = true ∧ d.getLsbD 64 = true ∧
    (d.extractLsb' 192 64).toNat % 64 = 0 ∧ s.checkAccess 0 (d.extractLsb' 192 64).toNat 64 .rmw = none ∧
    (isHost (s.physOf 0x7000) && hostPort (s.physOf 0x7000) == 1) = false ∧ s.engRoom 0 7 = true := by decide +kernel
/-- A COPY in flight. -/
def copy1 : Xfer := { plain.newXfer .copy 7 0x3000 0x2000 32 with id := 1 }
/-- A state with a transfer in flight. -/
def flying (t : Xfer) (f : Hart → Hart) : State := { plainWith (fun x => f { x with ctrs := [(7, 1)] }) with xfers := [t], nextUid := 2 }
/-- EngineTransferEnds: a transfer with and without an arrival word, and the steps of a COPY. -/
theorem test_meets_transfer : (flying copy1 id).xfer 1 = some copy1 ∧ copy1.kind ≠ .tldf ∧ (flying copy1 id).xferReady copy1 = true ∧
    (let t := { copy1 with arr := some 0x7000 }
     (flying t id).xfer 1 = some t ∧ (flying t id).xferReady t = true) ∧
    (copy1.kind = .copy ∧ plain.clean ∧ copy1.done < copy1.len ∧ copy1.canAt plain 0x2000 32 .rd 5 ∧ copy1.canAt plain 0x3000 32 .wr 6 ∧
      copy1.canAt plain (aperture + 32) 32 .wr 6) ∧ ({ copy1 with done := 32 } : Xfer).done = copy1.len := by decide +kernel
/-- EngineTransferEnds, the data of MCAST, REDST and SLD: one destination of this device; a peer whose link is down and one that refuses. -/
theorem test_meets_moved_data : let m : Xfer := { plain.newXfer .mcast 7 0 0x3000 64 with id := 1, desc := BitVec.ofNat 1024 desc1 }
    let r : Xfer := { m with kind := .redst }
    let d : Xfer := { plain.newXfer .sld 7 0 0x3000 4 with id := 1, first := 2044, stride := -8 }
    let down : State := { plain with host := { plain.host with linkDown := 2 } }
    plain.clean ∧ plain.destError m 0 = none ∧ plain.destError r 0 = none ∧ m.dstRanges.map (·.1) = [0x6000] ∧
    (∀ p ∈ pieces (64 / pageBits * 2 + 3) 0 0x3000 64, m.canAt plain (0x3000 + p.1) p.2.2 .rd 5 ∧
      ∀ r ∈ m.dstRanges, r.1 + p.1 + p.2.2 ≤ aperture ∧ plain.engCheck 0 0 (r.1 + p.1) p.2.2 .wr 6 = none) ∧
    ((Tag.ofCode (r.desc.extractLsb' 136 8)).map (·.width) = some 32 ∧ (∀ k < 64 / 32, r.canAt plain (0x3000 + k * 32) 32 .rd 5 ∧
      ∀ q ∈ r.dstRanges, q.1 + k * 32 + 32 ≤ aperture ∧ plain.engCheck 0 0 (q.1 + k * 32) 32 .rd 7 = none ∧
        plain.engCheck 0 0 (q.1 + k * 32) 32 .wr 7 = none)) ∧
    (∀ i < d.len, d.canAt plain (addrPlus d.src (i * d.stride)) 8 .rd 5) ∧
    (destsOf (BitVec.ofNat 1024 (0x6000 * 2 ^ 256 + 2 * 2 ^ 144 + 1 * 2 ^ 128)) = (1 + 1, 0x6000) :: [] ∧ down.host.linkDown.testBit 1 = true ∧
      plain.host.linkDown.testBit 1 = false ∧ Nat.testBit 2 1 = true) ∧ (0 < 32 ∧ 2 ^ 31 < 2 ^ 32) := by decide +kernel

/-- EngineTransferEnds: a row of a COPY and of a COPYM that is moved before the end, and one moved already. -/
theorem test_meets_rows_moved : let t : Xfer := { copy1 with len := 1024, dstHi := copy1.dstLo + 1024 }
    let p : Nat × Nat × Nat := (0x3000, 0x2000, 1024)
    let r : Nat × Nat × Nat := (0x3000, 0x2000, 512)
    let m : Xfer := { plain.newXfer .copym 7 0x3000 0x2000 1024 with id := 1, dims := [(0, ⟨2, 2048⟩)] }
    let s := flying t id
    copy1.banks = [] ∧ s.xfer 1 = some t ∧ t.kind = .copy ∧ t.piece = some p ∧
    (t.rowsLeft p).find? (fun q => decide (bankOf q.1 = 24)) = some r ∧ s.xferReady t = true ∧ s.clean ∧ (s.hart 0).stores = [] ∧
    t.canAt s 0x2000 512 .rd 5 ∧ t.canAt s 0x3000 512 .wr 6 ∧ m.kind = .copym ∧ m.banks = [] ∧ m.piece = some p ∧
    (t.filled p r).banks ≠ [] ∧ (t.filled p r).kind = .copy ∧ (t.filled p r).piece = some p := by decide +kernel

/-! ### Bolts and layers -/

/-- BoltIssue: a misaligned target, VL 0, no bolt, room for 32 words, and one too many. -/
theorem test_meets_bolt_issue : let e (off : BitVec 26) : Word := 0x1000 + BitVec.ofInt 64 (off.toInt * 32)
    let full (n : Nat) : State := dev { vhart with bolts := [{ bolt4 with words := n }] }
    (e 1).toNat % 64 ≠ 0 ∧ (e 2).toNat % 64 = 0 ∧ (e 0x3FFFFFE).toNat = 0xFC0 ∧ plain.me.vl = 0 ∧ (dev vhart).me.vl ≠ 0 ∧ (dev { vhart with bolts := [] }).me.bolts = [] ∧
    (let n := (full 31).countWords 0 0x1040 32
     n = 1 ∧ (full 31).me.queued + n ≤ 32 ∧ (full 32).me.bolts ≠ [] ∧ 32 < (full 32).me.queued + n) := by decide +kernel
/-- A resident context of four layers, its LRT at 0x8000 and its sources at 0xA000. -/
def ctx5 : Ctx :=
  { mctx := 5, lrt := 0x8000, src := 0xA000, saveBase := 0x10000, saveLen := 0x80000, quota := 0, asid := 0, hq := 0, recheck := 1, eprio := 3,
    nlayer := 4, unchecked := 0, lastLwait := none, areas := [] }
/-- A state with that context, whose last layer's LRT entry is `e`, and whose hart 0 is of the context. -/
def inContext (e : Nat) (f : Hart → Hart) : State := { (plainWith (fun x => f { x with mctx := 5 })).homeWrite 0x80C0 64 e with ctxs := [ctx5] }
/-- LayerWaits: no context, an absent context, a layer past the last, a RESIDENT and an ABSENT one, a wake and a timeout. -/
theorem test_meets_layer_waits : let k : WaitKind := .lwait 4 3
    let w (x : Hart) : Hart := { x with wait := some ⟨k, 0, some 0, 0⟩ }
    plain.me.mctx = 0 ∧ ((plainWith (fun x => { x with mctx := 5 })).me.mctx ≠ 0 ∧ (plainWith (fun x => { x with mctx := 5 })).ctx 5 = none) ∧
    ((inContext 2 id).me.mctx ≠ 0 ∧ (inContext 2 id).ctx 5 = some ctx5 ∧ ctx5.nlayer ≤ 4 ∧ 3 < ctx5.nlayer) ∧
    (inContext 2 id).lrtEntry ctx5 3 % 4 = 2 ∧ (inContext 0x4000 id).lrtEntry ctx5 3 % 4 = 0 ∧
    ((inContext 2 w).waitsFor 0 k ∧ ((inContext 2 w).hart 0).mctx ≠ 0 ∧ (inContext 2 w).lrtEntry ctx5 3 % 4 = 2) ∧
    ((inContext 1 w).timedOut 0 k ∧ (inContext 1 w).lrtEntry ctx5 3 % 4 ≠ 2) := by decide +kernel
/-- A bolt of two fragments. -/
def twoFrags : Bolt := { bolt4 with frags := [⟨0x1000, 3, none⟩, ⟨0x1080, 12, none⟩] }
/-- A bolt with eight fragments parked in the buffer, and `sp` spilled. -/
def parkedBolt (sp : List Frag) : Bolt :=
  { bolt4 with frags := ⟨0x1000, 3, none⟩ :: (sp ++ List.replicate 8 ⟨0x1080, 4, none⟩) }
/-- BoltControl: the last and not the last fragment, targets with and without CB, one that cannot be fetched, one of a migrating page
and the same fetched ahead, masks of every outcome, a VFENCE with and without a transfer behind the bolt. -/
theorem test_meets_bolt_control : let s := dev { vhart with masks := [(3, 3), (4, 0), (5, 15)] }
    let cb := s.homeWrite 0x1080 64 0x8000000000000000
    let g : State := { s with migs := [⟨1, false, 0, 0, 2 ^ 19, 0, 2 ^ 20, 19, false, []⟩] }
    s.me.bolts = [bolt4] ∧ bolt4.frags.length ≤ 1 ∧ twoFrags.frags = ⟨0x1000, 3, none⟩ :: ⟨0x1080, 12, none⟩ :: [] ∧ s.clean ∧
    wrap ((0x1000 : Nat) + (2 : BitVec 20).toInt * 64) 64 = 0x1080 ∧
    (cb.boltWord 0 [] 0x1080).toOption = some 0x8000000000000000 ∧ hasCB 0x8000000000000000 = true ∧ (s.boltWord 0 [] 0x1080).toOption = some 0 ∧
    hasCB 0 = false ∧ (s.boltWord 0 [] (2 ^ 20)).toOption = none ∧ s.blocked 0 0x1080 64 = none ∧
    ((g.boltWord 0 [] 0x1080).toOption = some 0 ∧ (g.blocked 0 0x1080 64).isSome = true) ∧
    (g.boltWord 0 [(0x1080, 7)] 0x1080).toOption = some 7 ∧
    (List.range 4).filter (fun e => bolt4.active s.me ⟨3, false⟩ e) = [0, 1] ∧
    (List.range 4).filter (fun e => bolt4.active s.me ⟨4, false⟩ e) = [] ∧
    (List.range 4).filter (fun e => bolt4.active s.me ⟨5, false⟩ e) = [0, 1, 2, 3] ∧
    (s.xfersOf 0).all (fun t => t.behind.contains bolt4.seq) = true ∧
    ({ s with xfers := [{ copy1 with behind := [bolt4.seq] }] } : State).xfersOf 0 ≠ [] := by decide +kernel
/-- BoltControl: parking with seven in the buffer, with eight and no spill slot, and with the first or the second slot free; a slot beyond
the scratchpad, and one in a quarter the hart does not hold; a fragment moves past another and does not. -/
theorem test_meets_divergence : let spill (w : Word) (sp : List Frag) : State := dev { vhart with bolts := [parkedBolt sp], pfspill := w }
    let inBuffer (l : List Frag) : Nat := (l.filter (fun g => g.slot.isNone)).length
    let parked (sp : List Frag) : List Frag := (parkedBolt sp).frags.tail
    let s0 : Frag := ⟨0x1080, 8, some 0⟩
    let two : Word := 2 * 2 ^ 24
    let far : Word := 2 ^ 24 + 0xFFFE00
    let bare : State := { spill two [] with cores := [] }
    inBuffer twoFrags.frags.tail < 8 ∧ 8 ≤ inBuffer (parked []) ∧ (spill 0 []).parkedElsewhere = [] ∧ (spill 0 []).me.spillCap = 0 ∧
    ((spill (2 ^ 24) [s0]).me.spillCap = 1 ∧ ∃ g ∈ parked [s0], g.slot = some 0) ∧
    ((spill two []).me.lowestFree (parked []) 0 ∧ (spill two []).me.spillAt bolt4 0 = 0 ∧ spillSize bolt4.mvl ≤ 2 ^ 24 ∧
      (spill two []).holdsRange 0 (spillSize bolt4.mvl) = true) ∧
    ((spill two [s0]).me.lowestFree (parked [s0]) 1 ∧ (spill two [s0]).me.spillAt bolt4 1 = spillSize bolt4.mvl ∧
      (spill two [s0]).holdsRange (spillSize bolt4.mvl) (spillSize bolt4.mvl) = true) ∧
    ((spill far []).me.lowestFree (parked []) 0 ∧ 2 ^ 24 < (spill far []).me.spillAt bolt4 0 + spillSize bolt4.mvl) ∧
    (bare.me.lowestFree (parked []) 0 ∧ bare.holdsRange 0 (spillSize bolt4.mvl) = false) ∧
    ((∀ g ∈ twoFrags.frags.tail, 0x1040 ≤ g.pc) ∧ 0x1080 < 0x10C0 ∧ (∃ g ∈ twoFrags.frags.tail, g.pc = 0x1080) ∧
      ∀ g ∈ twoFrags.frags.tail, 0x1080 ≤ g.pc) := by decide +kernel

/-- A state whose vector hart has elements and no binding. -/
abbrev vec0 : State := dev vhart
/-- The sources of a state without bindings are its registers. -/
theorem test_meets_seen (k : MaskOp) (vs : List VReg) : vec0.seen bolt4 k vs vec0.me vec0 := sources_plain (by decide +kernel) rfl
/-- SourcesAndOperandFaults: a register outside the configuration, and a tag that an instruction does not take, of each table. -/
theorem test_meets_operand_faults : vec0.me.bolts.head? = some bolt4 ∧ operandCause (.vadd 8 0 1 .fmode k0) vec0.me = some 17 ∧
    (elementOf (.vadd 8 0 1 .fmode k0)).isSome = true ∧ (operandCause (.vsqrt 0 1 .fmode k0) vec0.me).isSome = true ∧
    (specialOf (.vsqrt 0 1 .fmode k0)).isSome = true ∧ (operandCause (.vcmp 1 63 0 .eq k0) vec0.me).isSome = true ∧
    (maskOf (.vcmp 1 63 0 .eq k0)).isSome = true ∧ (operandCause (.vrsum 63 0 .fmode k0) vec0.me).isSome = true ∧
    (reduceOf (.vrsum 63 0 .fmode k0)).isSome = true ∧ (operandCause (.vrev 63 0 k0) vec0.me).isSome = true ∧ (movesOf (.vrev 63 0 k0)).isSome = true ∧
    (operandCause (.vld 63 1 .fmode 0 0 1 k0) vec0.me).isSome = true ∧ (loadOf (.vld 63 1 .fmode 0 0 1 k0)).isSome = true ∧
    (operandCause (.vst 63 1 .fmode 0 0 1 k0) vec0.me).isSome = true ∧ (storeOf (.vst 63 1 .fmode 0 0 1 k0)).isSome = true ∧
    (operandCause (.vaadd 0 1 63 0 .sys false true 0 0 1 k0) vec0.me).isSome = true ∧
    (vatomOf vec0.me (.vaadd 0 1 63 0 .sys false true 0 0 1 k0)).isSome = true := by decide +kernel
/-- SourcesAndOperandFaults: register v6 bound to that flume, and its strip reached. -/
theorem test_meets_strip : let s := dev { vhart with binds := [binding 0 6] }
    let d := binding 0 6
    s.clean ∧ s.me.bindOf (6 : VReg).toNat = some d ∧ senOf d.record = false ∧ lenOf d.record = false ∧ d.elems bolt4.vl = [(0, 0), (1, 1)] ∧
    s.vecReaches bolt4 (recField d.record 23 20) .rd 5 3 ((d.elems bolt4.vl).map (fun p => Foot.mk p.1 (d.elemAt p.2) d.tag.width)) := by
  decide +kernel
/-- ElementWise: each instruction of `elementOf` and `specialOf` has operands that pass. -/
theorem test_meets_elementwise : ∀ i ∈ [Instr.vidx 2 km, .vadd 2 0 1 .fmode km, .vsub 5 3 4 .fmode km, .vmul 5 3 4 .fmode km, .vmulh 2 0 1 .fmode km,
      .vmulw 2 0 1 .fmode 5 km, .vmacc 2 0 1 km, .vdiv 5 3 4 .fmode km, .vrem 2 0 1 .fmode km, .vmin 5 3 4 .fmode km, .vmax 5 3 4 .fmode km,
      .vabs 5 3 .fmode km, .vneg 5 3 .fmode km, .vadds 2 0 1 .fmode km, .vsubs 2 0 1 .fmode km, .vavg 2 0 1 .fmode km, .vand 2 0 1 .fmode km,
      .vor 2 0 1 .fmode km, .vxor 2 0 1 .fmode km, .vshl 2 0 1 .fmode km, .vshr 2 0 1 .fmode km, .vsra 2 0 1 .fmode km, .vpopc 2 3 km,
      .vclz 2 3 km, .vbext 2 0 1 .fmode km, .vfma 5 3 4 5 .fmode km, .vfms 5 3 4 5 .fmode km, .vfnma 5 3 4 5 .fmode km, .vcvt 2 3 .fmode 0 km,
      .vwiden 2 6 km, .vnarrow 6 0 .fmode 0 km, .vrnd 5 3 .fmode km, .vclass 2 3 km, .vscl 5 3 0 .fmode km, .vsat 5 3 4 3 .fmode km, .mpop 2 3 km,
      .mfirst 2 3 km, .vsel 2 0 1 3 km, .vbcast 2 1 km],
    (elementOf i).isSome = true ∧ vec0.boltAt i bolt4 := by decide +kernel
/-- A hart whose first registers have other tags: i8, e4m3, e8m0, p16. -/
def tagged (l : List (BitVec 8)) : Hart := { vhart with cfg := { cfg8 with tags := l } }
/-- ElementWise: floating sources and destinations, alike and not, integers, e8m0; values with and without NaN; elements written. -/
theorem test_meets_values : (vhart.tag 3 = .flt .f32 ∧ vhart.tag 4 = .flt .f32 ∧ (vhart.tag 0).isInt = true) ∧
    (vhart.tag 3 = .flt .f32 ∧ (tagged [0x84]).tag 0 ≠ .flt .f32) ∧ ((tagged [0xC1, 0xC1]).tag 0 = .e8m0 ∧ (tagged [0xC1, 0xC1]).tag 1 = .e8m0) ∧
    Val.ofInt 0 ≠ .nan ∧ (-1 : Int) < 0 ∧ (-1 : Int) ≠ 0 ∧
    (let rs : List (Nat × Nat × Fl) := [(0, 2 ^ 33, 1), (2 ^ 20 - 1, 3, 2)]
     (∀ r ∈ rs, r.1 < 2 ^ 20) ∧ (rs.map (·.1)).Nodup ∧ 1 ∉ rs.map (·.1)) := by decide +kernel
/-- ReductionsAndPermutations: heights, integer tags, active elements and none, and the example of R93. -/
theorem test_meets_trees : treeHeight 0 0 ∧ treeHeight 1 0 ∧ treeHeight 4 2 ∧ treeHeight 5 3 ∧ bolt4.vl = 4 ∧ bolt4.vl ≤ 2 ^ 20 ∧
    vhart.tag 0 = .int 32 ∧ (tagged [0x3F + 16]).tag 0 = .nat 16 ∧ vhart.tag 1 = vhart.tag 0 ∧ bolt4.actives vhart k0 = 0 :: [1, 2, 3] ∧
    bolt4.actives { vhart with masks := [(4, 0)] } ⟨4, false⟩ = [] ∧ Tag.isInt (.flt .f32) = false ∧
    (let y := withElems vhart [(3, [0x4B800000, 0x3F800000, 0x3F800000])]
     let b : Bolt := { bolt4 with vl := 3, frags := [⟨0x1000, 7, none⟩] }
     b.vl = 3 ∧ y.tag 4 = .flt .f32 ∧ y.tag 3 = .flt .f32 ∧ (∀ e < 3, b.active y k0 e = true) ∧ y.code 3 0 = 0x4B800000 ∧ y.code 3 1 = 0x3F800000 ∧
       y.code 3 2 = 0x3F800000) := by decide +kernel
/-- Quantisation: what is quantised is a NaN or not; int and nat tags; sums within and beyond them. -/
theorem test_meets_quantise : let y := withElems vhart [(3, [0x7FC00000, 0x42C80000])]
    let n (e : Nat) : Nat × Fl := (Tag.int 8).narrow (y.mode .rne) true y.satfin true (y.val 3 e).res
    y.val 3 0 = .nan ∧ y.val 3 1 ≠ .nan ∧ y.tag 6 = .int 8 ∧ (y.tag 6).isInt = true ∧ (tagged [0x47]).tag 0 = .nat 8 ∧
    ((Tag.int 8).value (n 1).1).toInt = 100 ∧ zeroPoint 0x1B (.int 8) = 27 ∧ zeroPoint 0x1C (.int 8) = 28 ∧ (100 + 27 ≤ (2 ^ 7 - 1 : Int)) ∧
    ¬(100 + 28 ≤ (2 ^ 7 - 1 : Int)) := by decide +kernel
/-- ElementWise: the special functions. -/
theorem test_meets_special : ∀ i ∈ [Instr.vsqrt 5 3 .fmode km, .vrcp 5 3 .fmode km, .vrsq 5 3 .fmode km, .vexp 5 3 .fmode km, .vlog 5 3 .fmode km,
      .vsig 5 3 .fmode km, .vtanh 5 3 .fmode km], (specialOf i).isSome = true ∧ vec0.boltAt i bolt4 := by decide +kernel
/-- ReductionsAndPermutations. -/
theorem test_meets_reductions : (∀ i ∈ [Instr.vrsum 2 0 .fmode km, .vrmax 2 0 .fmode km, .vrmin 5 3 .fmode km, .vrand 2 0 .fmode km, .vror 2 0 .fmode km,
      .vrdot 2 0 1 .fmode km], (reduceOf i).isSome = true ∧ vec0.boltAt i bolt4) ∧ vec0.boltAt (.vscan 2 0 .fmode km) bolt4 ∧
    vec0.boltAt (.vscanmx 5 3 .fmode km) bolt4 ∧ (∀ i ∈ [Instr.vslup 2 0 (.imm 1) km, .vsldn 2 0 (.frame 2) km, .vgthr 2 0 1 km, .vcomp 2 0 km,
      .vexpd 2 0 km, .vrev 2 0 km, .vzip 2 0 1 true km, .vunzip 2 0 1 false km], (movesOf i).isSome = true ∧ vec0.boltAt i bolt4) := by decide +kernel
/-- Quantisation: without scales, with scales at the end of the file, and with an index past it. -/
theorem test_meets_quantisation : let s (base : Word) : State := dev { vhart with sfbase := base, cfg := { cfg8 with blk := 0 } }
    vec0.boltAt (.vqnt 6 3 .fmode false true km) bolt4 ∧ vec0.boltAt (.vdqnt 3 6 .fmode false true km) bolt4 ∧
    ((s 2044).boltAt (.vqnt 6 3 .fmode true false k0) bolt4 ∧ ∀ e ∈ bolt4.actives (s 2044).me k0, (s 2044).me.scaleIndex e ≤ 2047 ∧
      (s 2044).scaleFilling bolt4.seq ((s 2044).me.scaleIndex e) = false) ∧
    (3 ∈ bolt4.actives (s 2045).me k0 ∧ 2047 < (s 2045).me.scaleIndex 3 ∧ (∀ e' ∈ bolt4.actives (s 2045).me k0, e' < 3 → (s 2045).me.scaleIndex e' ≤ 2047) ∧
      (s 2045).boltAt (.vqnt 6 3 .fmode true false k0) bolt4 ∧ (s 2045).boltAt (.vdqnt 3 6 .fmode true false k0) bolt4) := by decide +kernel
/-- ElementsScalarsAndMasks: VMVS, VEXT with and without room, VTRAP with and without an active element, VRNG, and the masks. -/
theorem test_meets_elements : let s := dev { vhart with masks := [(4, 0)], vretq := List.replicate 61 0 }
    vec0.boltAt (.vmvs 2 1 3 km) bolt4 ∧ vec0.boltAt (.vext 0 .all k0) bolt4 ∧ vec0.boltAt (.vext 0 (.elem 2) k0) bolt4 ∧
    4 - bolt4.ext ≤ 64 - vec0.me.vretq.length ∧ s.boltAt (.vext 0 .all k0) bolt4 ∧ 64 - s.me.vretq.length < 4 - bolt4.ext ∧
    bolt4.actives s.me ⟨4, false⟩ = [] ∧ bolt4.actives s.me k0 = 0 :: [1, 2, 3] ∧ vec0.boltAt (.vrng 2 km) bolt4 ∧
    (∀ i ∈ [Instr.vcmp 1 3 4 .eq km, .vcmpn 1 0 3 .ge km, .mand 1 2 3 km, .mor 1 2 3 km, .mxor 1 2 3 km, .mnot 1 2 km, .mset 1 .zero km, .mset 1 .one km,
      .mset 0 (.below 2) km], (maskOf i).isSome = true ∧ vec0.boltAt i bolt4) := by decide +kernel

/-! ### Vector memory, the matrix engine and soft predicates -/

/-- Whether a footprint is reached at once, as a Boolean. -/
def footBool (s : State) (b : Bolt) (w : Where) (kind : AccKind) (consumer : Nat) (fp : List Foot) : Bool :=
  match w with
  | .mem k => decide (s.vecReaches b k.toNat kind (match kind with
      | .rd => 5
      | .wr => 6
      | .rmw => 7) consumer fp)
  | .scratch chain => decide (s.scratchReaches b chain kind.writes fp)
/-- It is State.footReaches. -/
theorem test_footBool (s : State) (b : Bolt) (w : Where) (kind : AccKind) (c : Nat) (fp : List Foot) :
    footBool s b w kind c fp = true ↔ s.footReaches b w kind c fp := by
  cases w <;> cases kind <;> simp only [footBool, State.footReaches, decide_eq_true_eq]
/-- Elements whose indices stand 32 bits apart. -/
def spread : State := dev (withElems vhart [(2, [0, 32, 64, 96])])
/-- VectorLoadsAndStores: every load, in memory and in the scratchpad. -/
theorem test_meets_loads : (∀ i ∈ [Instr.vld 0 1 .fmode 0 0 1 k0, .vlds 0 1 2 .fmode 0 0 1 k0, .vldx 0 1 2 .fmode 0x1FFFF 4 1 k0, .vldxo 0 1 2 .fmode 0 0 1 k0,
      .vldm 0 1 .fmode 0 0 1 k0, .vldsp 0 1 0 .fmode 0 0 k0, .vldspx 0 1 2 .fmode 0 0 k0],
    spread.boltAt i bolt4 ∧ (loadOf i).any (fun v => footBool spread bolt4 v.w .rd 0 (v.feet spread.me bolt4)) = true) ∧
    (let s := dev { vhart with bolts := [{ bolt4 with frame := [(1, 0xFFF80)] }] }
     s.boltAt (.vld 0 1 .fmode 0 0 1 k0) { bolt4 with frame := [(1, 0xFFF80)] } ∧
     (loadOf (.vld 0 1 .fmode 0 0 1 k0)).any (fun v => footBool s { bolt4 with frame := [(1, 0xFFF80)] } v.w .rd 0
       (v.feet s.me { bolt4 with frame := [(1, 0xFFF80)] })) = true) := by decide +kernel
/-- VectorLoadsAndStores: a store that the step leaves to be performed, in order and in none. -/
theorem test_meets_late_stores : let s : State := { spread with late := true }
    s.late = true ∧ (∀ i ∈ [Instr.vst 0 1 .fmode 0 0 1 k0, .vstx 0 1 2 .fmode 0 4 1 k0, .vstxo 0 1 1 .fmode 0 0 1 k0],
      s.boltAt i bolt4 ∧ (storeOf i).any (fun v => (match v.1.w with
        | .mem k => decide (k = 1)
        | .scratch _ => false) && decide (s.vecFree bolt4 1 .wr 6 1 (v.1.feet s.me bolt4))) = true) := by decide +kernel
/-- The places that a store of these states writes. -/
def putsOf (s : State) (i : Instr) : List Put :=
  match storeOf i with
  | some (v, _) => (v.feet s.me bolt4).map (fun p => ⟨p, 0⟩)
  | none => []
/-- VectorLoadsAndStores: every store; elements apart, and elements at one address in order and in none. -/
theorem test_meets_stores : (∀ i ∈ [Instr.vst 0 1 .fmode 0 0 1 k0, .vsts 0 1 2 .fmode 0 0 1 k0, .vstx 0 1 2 .fmode 0 4 1 k0, .vstxo 0 1 2 .fmode 0 0 1 k0,
      .vstm 0 1 .fmode 0 0 1 k0, .vstsp 0 1 0 .fmode 0 0 k0, .vstspx 0 1 2 .fmode 0 0 k0, .vstx 0 1 1 .fmode 0 0 1 k0, .vstxo 0 1 1 .fmode 0 0 1 k0],
    spread.boltAt i bolt4 ∧ (storeOf i).any (fun v => footBool spread bolt4 v.1.w .wr 1 (v.1.feet spread.me bolt4)) = true) ∧
    anyMeet (putsOf spread (.vstx 0 1 2 .fmode 0 4 1 k0)) = false ∧ anyMeet (putsOf spread (.vstx 0 1 1 .fmode 0 0 1 k0)) = true ∧
    (storeOf (.vstx 0 1 1 .fmode 0 0 1 k0)).map (·.2) = some false ∧ (storeOf (.vstxo 0 1 1 .fmode 0 0 1 k0)).map (·.2) = some true := by decide +kernel
/-- VectorLoadsAndStores: records of two fields of 32 bits, 64 bits apart, and all at one place. -/
theorem test_meets_segments : let fs (rs : Int) : List Foot := (List.range 4).flatMap (fun e => (List.range 2).map (fun j =>
      Foot.mk e (addrPlus (bolt4.base 1 (0 : BitVec 14)) (e * rs + (j * 32 : Nat))) 32))
    vec0.boltAt (.vldseg 0 1 0 .fmode 0 1 0 1 k0) bolt4 ∧ footBool vec0 bolt4 (.mem 1) .rd 0 (fs 64) = true ∧
    vec0.boltAt (.vstseg 0 1 0 .fmode 0 1 0 1 k0) bolt4 ∧ footBool vec0 bolt4 (.mem 1) .wr 1 (fs 64) = true ∧
    anyMeet ((fs 64).map (fun p => ⟨p, 0⟩)) = false ∧ vec0.boltAt (.vstseg 0 1 2 .fmode 0 1 0 1 k0) bolt4 ∧
    footBool vec0 bolt4 (.mem 1) .wr 1 (fs 1) = true ∧ anyMeet ((fs 1).map (fun p => ⟨p, 0⟩)) = true := by decide +kernel
/-- VectorAtomics: each of them, apart in memory, in the scratchpad without a result, and at one place. -/
theorem test_meets_vector_atomics : (∀ i ∈ [Instr.vaadd 0 1 2 1 .dev false false 0 0 1 k0, .vamin 0 1 2 1 .dev false false 0 0 1 k0,
      .vamax 0 1 2 1 .dev false false 0 0 1 k0, .vaand 0 1 2 1 .dev false false 0 0 1 k0, .vaor 0 1 2 1 .dev false false 0 0 1 k0,
      .vaxor 0 1 2 1 .dev false false 0 0 1 k0, .vaswap 0 1 2 1 .dev false false 0 0 1 k0, .vacas 0 1 2 1 .dev false false 0 0 1 k0,
      .vaadd 0 1 2 1 .grove true true 0 0 0 k0, .vaadd 0 1 1 2 .dev false true 0 0 1 k0],
    spread.boltAt i bolt4 ∧ (vatomOf spread.me i).any (fun v => footBool spread bolt4 v.w .rmw 2 ((v.parts spread.me bolt4).map (·.1)) &&
      (v.parts spread.me bolt4).all (fun p => oneLine p.1.a p.1.w && decide (spread.portCause v.form (spread.physIn 0 p.1.a) p.1.w = none))) = true) ∧
    (vatomOf spread.me (.vaadd 0 1 2 1 .dev false false 0 0 1 k0)).map (fun v => anyMeet ((v.parts spread.me bolt4).map (fun p => ⟨p.1, 0⟩))) = some false ∧
    (vatomOf spread.me (.vaadd 0 1 1 2 .dev false true 0 0 1 k0)).map (fun v => anyMeet ((v.parts spread.me bolt4).map (fun p => ⟨p.1, 0⟩))) = some true := by
  decide +kernel

/-- Tile 0 of i8 weights, VALID, attached to k1 and to nothing. -/
def tile8 (k : Option Nat) : Tile := ⟨.valid, 1, [(0, 3)], [], k, 0, 0, none⟩
/-- A vector state whose core holds a tile. -/
def mat (x : Tile) (f : Bolt → Bolt) : State :=
  { dev { vhart with bolts := [f bolt4] } with cores := [(0, { oneEach with tiles := [(0, x)] })] }
/-- TileLoads: TLD, TSCL and TLDF of bf16 into tile 1, their ranges reached; the scales of a VALID tile. -/
theorem test_meets_tile_loads : let s0 := mat (tile8 none) id
    let s := s0.mx
    let b := bolt4.mx
    let k := tileK 8
    let box := boxRange 0 (256 * 16) [⟨k, BitVec.ofInt 64 4096⟩]
    s0.me.bolts.head? = some bolt4 ∧ s.mxAt (.tld 1 0 0 0 8 1) b 0 0 ∧ (s.myCore.tile 1).st ≠ .filling ∧
    s.vecReaches b 1 .rd 5 4 ((List.range k).map (fun (k : Nat) => Foot.mk 0 (addrPlus (b.base 0 (0 : BitVec 17)) (k * (4096 : Int))) 4096)) ∧
    s.mxAt (.tscl 0 1 0 1) b 0 0 ∧ (s.myCore.tile 0).st = .valid ∧
    s.vecReaches b 1 .rd 5 5 [Foot.mk 0 (b.base 1 (0 : BitVec 17)) (2048 * (tileK 1 / 32))] ∧ s.mxAt (.tldf 1 0 0 7 0 8) b 0 0 ∧
    s.engRange box.1 box.2 ∧ s.engRoom 0 7 = true := by decide +kernel
/-- TileLoads: FX of no weight tag, and a tile that TSCL finds INVALID or being filled. -/
theorem test_meets_tile_causes : let s := mat { Tile.cleared with st := .filling } id
    s.me.bolts.head? = some bolt4 ∧ ((3 : BitVec 4) ≠ 1 ∧ (3 : BitVec 4) ≠ 2 ∧ (3 : BitVec 4).toNat < 8) ∧ s.mx.mxAt (.tscl 0 1 0 1) bolt4.mx 0 0 ∧
    (s.myCore.tile 0).st = .filling ∧ s.mx.mxAt (.tscl 1 1 0 1) bolt4.mx 0 0 ∧ (s.myCore.tile 1).st = .invalid := by decide +kernel
/-- TileLoads: TSCL through a token that is free, and one through a live token, of a tile that is INVALID or being filled. -/
theorem test_meets_scale_causes : let s := mat { Tile.cleared with st := .filling, fx := 1 } id
    let u : State := s.modMe (fun x => { x with toks := [] })
    let fp (x : Tile) : List Foot := [Foot.mk 0 (bolt4.base 1 (0 : BitVec 17)) (2048 * (tileK x.fx / 32))]
    (u.mx.probeCause 1 .rd 5 5 (fp (u.myCore.tile 0))).isSome = true ∧ u.mx.mxAt (.tscl 0 1 0 1) bolt4.mx 0 0 ∧
    s.mx.probeCause 1 .rd 5 5 (fp (s.myCore.tile 0)) = none ∧ s.mx.probeCause 1 .rd 5 5 (fp (s.myCore.tile 1)) = none := by decide +kernel
/-- A TLDF in flight into tile 0, every row at `src`. -/
def fill (src : Nat) : Xfer :=
  { plain.newXfer .tldf 7 0 src 4096 with id := 1, stride := 0, fx := 8, srcLo := src, srcHi := src + 4096, dstHi := 0 }
/-- A state with that transfer in flight, its page in host memory. -/
def filling (t : Xfer) : State := { flying t id with maps := [{ page with pa := 2 ^ 50 }], cores := [(0, { oneEach with tiles := [(0, { Tile.cleared with st := .filling, fx := 8, fill := some 1 })] })] }
/-- TileLoads: the end of a fill, its rows read or not. -/
theorem test_meets_fill : (filling (fill 0)).xfer 1 = some (fill 0) ∧ (fill 0).kind = .tldf ∧ (fill 0).arr = none ∧
    (filling (fill 0)).xferReady (fill 0) = true ∧ (((filling (fill 0)).core 0).tile 0).st = .filling ∧
    (((filling (fill 0)).core 0).tile 0).fill = some (fill 0).id ∧ (((flying (fill 0) id).core 0).tile 0).fill ≠ some (fill 0).id ∧
    (flying (fill 0) id).xfer 1 = some (fill 0) ∧ (flying (fill 0) id).xferReady (fill 0) = true ∧
    ((fill 0).fillRows (filling (fill 0)) (tileRows 0 0 8)).isOk = true ∧
    ((fill 0x100000).fillRows (filling (fill 0x100000)) (tileRows 0x100000 0 8)).isOk = false ∧
    (filling (fill 0x100000)).xferReady (fill 0x100000) = true := by decide +kernel
/-- A bolt at group `g`. -/
def atGroup (g : Nat) (b : Bolt) : Bolt := { b with mpos := some ⟨0, 0, 0, g⟩ }
/-- RowProducts: the first and the last group, a tile attached to a token, scales in force, with and without an arrival word. -/
theorem test_meets_rows : let s := mat (tile8 (some 1)) id
    let t := mat (tile8 none) (atGroup (tileK 1 / 32 - 1))
    let i := Instr.mrow 6 0 1 false 127 k0
    s.me.bolts.head? = some bolt4 ∧ s.mx.mxAt i bolt4.mx 127 1 ∧ s.mx.arrivalStands bolt4 1 ∧ s.mx.arrivalStands bolt4 0 ∧ s.tileStands 0 (tile8 (some 1)) ∧
    32 * (bolt4.mpos.getD .start).g < tileK 1 ∧ t.mx.mxAt (.mrowz 3 0 0 true 0 k0) (atGroup (tileK 1 / 32 - 1) bolt4).mx 0 1 ∧ t.tileStands 0 (tile8 none) ∧
    tileK 1 ≤ 32 * (tileK 1 / 32 - 1 + 1) ∧ 32 * (tileK 1 / 32 - 1) < tileK 1 ∧
    (List.range (tileK 1)).all (fun k => decide (t.me.scaleIndex k ≤ 2047) && !(t.scaleFilling 1 (t.me.scaleIndex k))) = true ∧
    (s.mx.blocked 0 0x2000 64 = none ∧ s.mx.vecInterlocked 1 0x2000 64 true = false ∧ (s.mx.arriveOn 0 0 0x2000 1 none).isOk = true) := by decide +kernel
/-- The sources of those states, which have no binding. -/
theorem test_meets_rows_seen (x : Tile) (f : Bolt → Bolt) (b : Bolt) (k : MaskOp) (vs : List VReg) :
    (mat x f).mx.seen b k vs (mat x f).mx.me (mat x f).mx ∧ (mat x f).mx.mxSeen b k vs (mat x f).mx.me (mat x f).mx :=
  ⟨sources_plain rfl rfl, mxSources_plain rfl rfl⟩
/-- Sweeps: an empty box, and a box of two rows at its first and its last position. -/
theorem test_meets_sweeps : let d (n : Nat) (b : Bolt) : Bolt := { b with dims := [(0, ⟨n, 256⟩)] }
    let e := mat (tile8 none) (d 0)
    let s := mat (tile8 none) (d 2)
    let b := (d 2 bolt4).mx
    let i := Instr.msweep 1 0 1 false 0 1 1
    (e.mx.mxAt i (d 0 bolt4).mx 0 0 ∧ sweepPos 0 1 1 (tileK 1 / 32) .start = none) ∧
    (s.me.bolts.head? = some (d 2 bolt4) ∧ s.mx.mxAt i b 0 2 ∧ s.mx.arrivalStands b 1 ∧ s.mx.tileStands 0 (tile8 none) ∧ 0 < tileK 1 ∧
      sweepPos 2 1 1 (tileK 1 / 32) .start = some .start ∧
      s.mx.vecReaches b 1 .rd 5 7 [Foot.mk 0 (addrPlus 0x2000 (0 : Int)) (32 * 8)]) ∧
    (sweepPos 2 1 1 (tileK 1 / 32) ⟨0, 0, 1, tileK 1 / 32 - 1⟩ = some ⟨0, 0, 1, tileK 1 / 32 - 1⟩ ∧
      sweepPos 2 1 1 (tileK 1 / 32) ⟨0, 0, 1, tileK 1 / 32⟩ = none) := by decide +kernel
/-- Drains: a row that matches, one that does not, rows into the scratchpad, the slab's last row, and lots that are not held. -/
theorem test_meets_drains : let s := vec0.mx
    let b := bolt4.mx
    let bad : State := { vec0 with cores := [(0, { oneEach with rows := [(5, ⟨1, none⟩)] })] }
    let bare (l : Tab Lot) : State := { vec0 with cores := [(0, { oneEach with lots := l })] }
    vec0.me.bolts.head? = some bolt4 ∧ s.mxAt (.mdrain 2 .fmode 127 k0) b 127 1 ∧ s.myCore.mismatch false 127 = false ∧
    (bad.mx.mxAt (.mdrain 2 .fmode 5 k0) b 5 1 ∧ bad.mx.myCore.mismatch false 5 = true ∧ (bad.mx.myCore.row 5).arr = none ∧ bolt4.mpos = none ∧
      bad.mx.me.depth < 3) ∧
    (s.mxAt (.mdrains 1 0 .fmode 0 127 5) b 127 1 ∧ footBool s b (.scratch false) .wr 0 ((List.range 256).map (fun (j : Nat) =>
      Foot.mk 0 (addrPlus 0x2000 ((j * 32 : Nat) : Int)) 32)) = true ∧ s.myCore.mismatch false 127 = false) ∧
    s.mxAt (.mzero 127 0) b 0 128 ∧ s.mxAt (.mldacc 0 127 k0) b 127 1 ∧ bolt4.frags.length ≤ 1 ∧ vec0.clean ∧
    ((bare []).holds 1 (127 / 128) = false ∧ (bare [(8, held)]).holds 1 (127 / 128) = true ∧ (bare [(8, held)]).holds 3 0 = false) := by decide +kernel
/-- Drains: a row that does not match and records an arrival word. -/
theorem test_meets_drain_arrival : let m : State := { vec0 with cores := [(0, { oneEach with rows := [(5, ⟨1, some 0x7000⟩)] })] }
    m.mx.mxAt (.mdrain 2 .fmode 5 k0) bolt4.mx 5 1 ∧ m.mx.myCore.mismatch false 5 = true ∧ (m.mx.myCore.row 5).arr = some 0x7000 ∧
    (m.mx.arriveOn 0 0 0x7000 0 (some 152)).isOk = true := by decide +kernel
/-- Drains: the operands pass; rows within one slab, and over two slabs of which one is not held. -/
theorem test_meets_lot_causes : vec0.me.bolts.head? = some bolt4 ∧ vec0.clean ∧ bolt4.frags.length ≤ 1 ∧
    (∀ i ∈ [Instr.mzero 0 127, .mdrain 2 .fmode 127 k0, .mdrains 1 0 .fmode 0 127 5, .mldacc 0 127 k0, .mrow 6 0 1 false 127 k0, .mrowz 6 0 1 false 127 k0,
      .msweep 1 0 1 false 127 1 1, .tld 1 0 0 0 8 1, .tldf 1 0 0 7 0 8, .tscl 0 1 0 1], operandCause i vec0.me = none) ∧
    (let two : State := { vec0 with cores := [(0, { oneEach with lots := [(8, held), (10, held)] })] }
     two.holds 1 (128 / 128) = false ∧ two.holds 1 (127 / 128) = true ∧ two.holds 1 (256 / 128) = true) := by decide +kernel

/-- SoftPredicates: every instruction has operands that pass; temperatures that are positive, -0, negative and NaN. -/
theorem test_meets_soft : let temp (n : Word) : State := dev { vhart with temp := n }
    vec0.me.bolts.head? = some bolt4 ∧ (∀ i ∈ [Instr.qcmp 1 3 4 0xA5 .lt km, .qset 1 0x8000 km, .qlin 1 0xFF, .qmov (.qq 1 2) .fmode km,
      .qmov (.toQ 1 3 0xA5) .fmode km, .qmov (.fromQ 3 1) .fmode km, .qand 1 2 3 true km, .qor 1 2 3 false km, .qnot 1 2 km, .qblend 5 3 4 1 .fmode km,
      .qhard 1 2 0xFFFF km, .qcoll 1 2 none km, .qcoll 1 2 (some 0) km, .qseed (.vec 0) km, .qseed (.frame 1) km, .qgrad 3 (.soft 1) .fmode km,
      .qgrad 5 (.blend 3 4) .fmode km], vec0.boltAt i bolt4) ∧
    ((temp 0x3F800000).me.temperature.isNan = false ∧ (temp 0x3F800000).me.temperature.isNeg = false) ∧
    ((temp 0x80000000).me.temperature.isNan = false ∧ (temp 0x80000000).me.temperature.isZero = true) ∧
    ((temp 0xBF800000).me.temperature.isNan = false ∧ (temp 0xBF800000).me.temperature.isNeg = true ∧ (temp 0xBF800000).me.temperature.isZero = false) ∧
    (temp 0x7FC00000).me.temperature.isNan = true := by decide +kernel
/-- ZeroTemperature: both zeros, thresholds at their ends, codes 0 and 0x8000. -/
theorem test_meets_zero_temperature : (Flt.f32.value 0).isZero = true ∧ (Flt.f32.value 0x80000000).isZero = true ∧ 1 ≤ 0x8000 ∧ vec0.me.qheld 1 0 = 0 ∧
    (dev { vhart with qcodes := [(elKey 1 0, 0x8000)] }).me.qheld 1 0 = 0x8000 := by decide +kernel

/-! ### Yards, pre-emption, layers -/

/-- A packet that waits for word 0x7000 to reach 5. -/
def waitPkt : Nat := 0x7000 * 2 ^ 192 + 5 * 2 ^ 160 + 2 ^ 143 + 0x1000
/-- A state whose first launch queue holds a packet, with `n` in the word at 0x7000. -/
def launched (p n : Nat) : State :=
  { plain.homeWrite 0x7000 64 n with yardQs := [(0, ⟨[⟨BitVec.ofNat 1024 p, 0x2000, 0⟩], false⟩)] }
/-- A farm whose lead is to be placed, and one that opens two followers. -/
def farm2 : Farm := { farm1 with leadPlaced := false, placed := 0, alive := 0 }
/-- Yards: a packet that does not wait, and one whose word has reached its target, holds ERR, and has not reached it. -/
theorem test_meets_packets : let y := (launched waitPkt 5).yardQ 0 0
    y.packets = [⟨BitVec.ofNat 1024 waitPkt, 0x2000, 0⟩] ∧ y.halted = false ∧ pktWaits 0x1000 = false ∧ pktWaits waitPkt = true ∧
    (launched waitPkt 5).checkAccess 0 (pktArr waitPkt) 64 .rd = none ∧
    (let w := (launched waitPkt 5).vreadHome 0 (pktArr waitPkt) 64
     w.testBit 32 = false ∧ pktTarget waitPkt ≤ w % 2 ^ 32) ∧
    ((launched waitPkt (2 ^ 32)).vreadHome 0 (pktArr waitPkt) 64).testBit 32 = true ∧
    (let w := (launched waitPkt 4).vreadHome 0 (pktArr waitPkt) 64
     w.testBit 32 = false ∧ w % 2 ^ 32 < pktTarget waitPkt) := by decide +kernel
/-- Yards: a core for the lead and one for a follower, in a grove that is awake; no core for a packet of nine clusters' worth. -/
theorem test_meets_placements : let s : State := { plain with farms := [farm2] }
    let f := { farm1 with opened := true, wanted := 2 ^ 64 }
    let t : State := { plain with farms := [f] }
    s.farmOf 9 = some farm2 ∧ farm2.leadPlaced = false ∧
    ((s.bestCore 0 (Tab.get 0 s.yardRot 0) (dieCores 0)).any (fun k => !((s.grove (k / 8)).asleep))) = true ∧
    t.farmOf 9 = some f ∧ f.opened = true ∧ f.wanted ≠ 0 ∧ ((t.followerCore f).any (fun k => !((t.grove (k / 8)).asleep))) = true ∧
    s.suits 0 (8 * 2 ^ 132) = false ∧ s.suits 1 (8 * 2 ^ 132) = true := by decide +kernel
/-- Yards: a FARM with 0 that finds no core, every core holding slabs of the others' harts. -/
theorem test_meets_full_farm : let f := { farm1 with opened := true, wanted := 2 ^ 64, pkt := BitVec.ofNat 1024 (8 * 2 ^ 132) }
    let all : Core := { oneEach with lots := (List.range 8).map (fun i => (8 + i, held)) }
    let t : State := { plain with farms := [f], cores := (List.range 192).map (fun k => (k, all)) }
    t.farmOf 9 = some f ∧ f.opened = true ∧ f.wanted = 2 ^ 64 ∧ t.followerCore f = none := by decide +kernel
/-- PreemptionAndRestore: a request before and at 4,096 cycles; a hart stopped, in no context, in one with room and in one without. -/
theorem test_meets_preemption : let s (n : Nat) : State := { plainWith (fun x => { x with preempt := some 904 }) with cycle := n }
    let c (k : Ctx) : State := { s 5000 with harts := [(0, { three 0 0 0 with preempt := some 904, mctx := 5 })], ctxs := [k] }
    let len (t : State) : Nat := areaLen (t.hart 0) ((t.core 0).heldLots 0 2).length ((t.core 0).heldLots 0 1).length ((t.core 0).heldLots 0 3).length
    904 + 4096 ≤ (s 5000).cycle ∧ (s 4999).cycle < 904 + 4096 ∧ ((s 0).hart 0).preempt = some 904 ∧ ((s 0).hart 0).placed = true ∧
    ((s 0).hart 0).vectorStopped = true ∧ ((s 0).hart 0).duePend = none ∧ (s 0).xfersOf 0 = [] ∧ (s 0).ctx ((s 0).hart 0).mctx.toNat = none ∧
    (firstFit ctx5.saveBase ctx5.saveLen (len (c ctx5)) ctx5.areas = none ∧ (c ctx5).ctx 5 = some ctx5) ∧
    (firstFit 0x10000 (len (c ctx5)) (len (c ctx5)) [] = some 0x10000 ∧ 0x10000 % 8 = 0 ∧ 0x10000 + 512 ≤ 3 * 2 ^ 41 ∧
      (c { ctx5 with saveLen := len (c ctx5) }).ctx 5 = some { ctx5 with saveLen := len (c ctx5) }) := by decide +kernel
/-- PreemptionAndRestore: no claim of the hart's own. -/
theorem test_meets_no_claims : (plain.core 0).claims.any (fun y => decide (y.slot = 0) && decide (y.uid = plain.me.uid)) = false := by decide +kernel
/-- A hart saved without negotiated lots. -/
def saved7 : Saved :=
  { hart := { three 1 2 3 with uid := 7, frames := [⟨false, 0x1000, none, [bolt4]⟩], sf := (List.range 2048).map (fun n => (n, 0)) },
    number := 0, farm := 9, g := 8, lots := [(0, held)], acc := [], rows := [],
    tiles := [], scratch := [], gens := [], errors := [], tlb := [], area := 0x10000, len := 512, dest := none, claims := [] }
/-- PreemptionAndRestore: a saved hart that a core suits, and one that asks for nine slabs. -/
theorem test_meets_restore : let s : State := { plain with saved := [saved7] }
    let v : Saved := { saved7 with lots := List.replicate 9 (1, held), hart := { saved7.hart with sf := [] } }
    s.saved.find? (fun v => decide (v.hart.uid = 7)) = some saved7 ∧ saved7.dest = none ∧
    (s.restoreCore saved7).any (fun k => !((s.grove (k / 8)).asleep)) = true ∧
    saved7.negotiated = [] ∧ saved7.claims = [] ∧ (let t : State := { plain with saved := [v] }
      t.restoreCore (t.fromArea v) = none) := by decide +kernel
/-- Zeros written over zeros are not listed. -/
theorem test_zero_writes (fs : List (Nat × Nat × Nat)) (h : ∀ f ∈ fs, f.2.2 = 0) (a : Nat) :
    fs.foldl (fun m f => Memory.write m (a + f.1) f.2.1 f.2.2) [] = [] := by
  have cells (n k mask : Nat) : Memory.cells [] k mask 0 n = [] := by
    induction n generalizing k mask with
    | zero => rfl
    | succ n ih => simp [Memory.cells, Memory.merged, Memory.byte, Tab.get, ih]
  induction fs with
  | nil => rfl
  | cons f fs ih =>
    rw [List.foldl_cons, h f (by simp)]
    simpa [Memory.write, cells] using ih (fun g hg => h g (by simp [hg]))
/-- A table of zeros gives zero at each of its numbers. -/
theorem test_zero_table (n : Nat) (l : List Nat) (h : n ∈ l) : Tab.get (0x7F : BitVec 8) (l.map (fun n => (n, 0))) n = 0 := by
  induction l with
  | nil => cases h
  | cons a l ih =>
    rw [List.map_cons, Tab.get]
    split
    · rfl
    · exact ih ((List.mem_cons.mp h).resolve_left (fun e => absurd e.symm ‹_›))
/-- Device memory that holds the items of that hart. -/
def area7 : Memory :=
  ((upTo 20).filter (fun i => decide (i ≠ 7))).foldl (fun m i => (saved7.fields i).foldl (fun m f =>
    Memory.write m (saved7.area + saved7.offset i + f.1) f.2.1 f.2.2) m) []
/-- A saved hart with a token and a quarter. -/
def saved8 : Saved := { saved7 with hart := { saved7.hart with toks := [(1, tok1)] }, lots := [(2, held)], scratch := [(0, 5)] }
/-- PreemptionAndRestore: an area that stands, and ones whose first item, tokens and scratchpad have been written since. -/
theorem test_meets_area : ({ plain with dev := area7 } : State).areaStands saved7 ∧
    saved7.image 0 (saved7.fields 0) ≠ Memory.window ({ plain with dev := [] } : State).dev ((saved7.area + 512) / 8) 256 ∧
    0 < saved8.held 2 * 2 ^ 19 ∧ (∀ i ∈ [8, 16], saved8.image i (saved8.fields i) ≠
      Memory.window ({ plain with dev := [] } : State).dev ((saved8.area + saved8.offset i) / 8) (up512 (saved8.items.getD i 0) / 8)) := by
  refine ⟨fun i hi => ?_, by decide +kernel⟩
  by_cases q : i = 7
  · subst q
    have z := test_zero_writes (rowOf 8 ((upTo 2048).map (fun n => (Tab.get 0x7F saved7.hart.sf n).toNat))) (by
      intro f hf
      obtain ⟨q, hq, rfl⟩ := List.mem_map.mp hf
      obtain ⟨n, hn, e⟩ := List.mem_map.mp (List.of_mem_zip hq).2
      rw [upTo_eq] at hn
      have z : Tab.get 0x7F saved7.hart.sf n = 0 := test_zero_table n _ hn
      rw [z] at e
      exact e.symm) (saved7.area + saved7.offset 7)
    refine z.trans ?_
    decide +kernel
  · have h : ∀ i < 20, i ≠ 7 → saved7.image i (saved7.fields i) =
        Memory.window area7 ((saved7.area + saved7.offset i) / 8) (up512 (saved7.items.getD i 0) / 8) := by decide +kernel
    exact h i (Nat.lt_of_lt_of_le hi (by decide +kernel)) q
/-- An event kept for depth 0. -/
def pend1 : Pend := ⟨2, ⟨321, 0, 0x1000, 0, 0, 0, false⟩, 0⟩
/-- KeptEventsAndLateFailures: a kept event that is due, a notification, one that may not be taken, and a vacant slot. -/
theorem test_meets_kept : let s := plainWith (fun x => { x with pend := [pend1] })
    let n := plainWith (fun x => { x with notes := [12], pstat := 0x200 })
    let t := plainWith (fun x => { x with pstat := 0x200 })
    ((s.hart 0).duePend = some pend1 ∧ (s.hart 0).placed = true ∧ (s.hart 0).halted = false) ∧
    ((n.hart 0).duePend = none ∧ (n.hart 0).notes = 12 :: [] ∧ (n.hart 0).mayNotify = true) ∧
    ((t.hart 0).placed = true ∧ (t.hart 0).mayNotify = true ∧ (t.hart 0).notes = []) ∧ (plain.hart 0).mayNotify = false ∧ (plain.hart 1).placed = false ∧ 12 < 13 := by
  decide +kernel
/-- KeptEventsAndLateFailures: a page held past its limit, classes of the stem and of a bolt. -/
theorem test_meets_late : (waiting (.page 0x2000 4)).timedOut 0 (.page 0x2000 4) ∧ (plain.hart 0).bolts = [] ∧ (4 < 5 ∧ 4 ≠ 1) ∧
    (vec0.hart 0).bolts = [bolt4] ∧ bolt4.frags = [⟨0x1000, 15, none⟩] ∧ (5 ≤ 7 ∧ 7 < 8) ∧
    (let s : State := { plain with maps := [{ page with pa := 2 ^ 50 }] }
     isHost ((s.on 0).physOf 0x2000) = true ∧ s.host.portDown.testBit (hostPort ((s.on 0).physOf 0x2000)) = false) := by decide +kernel
/-- A layer's swap in a phase. -/
def swap3 (p : SwapPhase) : Swap := ⟨5, 3, p, [], 0, false, 5, false⟩
/-- A state whose context has a swap of its layer 3, an LRT entry of no page, and a source entry. -/
def swapping (p : SwapPhase) (src : Nat) : State := { (inContext 0x40000001 id).homeWrite (0xA000 + 128 * 3) 128 src with swaps := [swap3 p] }
/-- Layers: a request with its pages, a source that is read, one that is not mapped, ones that are down; evictions and timeouts. -/
theorem test_meets_layers : let s := swapping .needPages 0
    let f := swapping .filling 0
    let e := swapping .evicting 0
    let late : State := { s with cycle := 2 ^ 30 }
    s.ctx 5 = some ctx5 ∧ s.swapOf 5 3 = some (swap3 .needPages) ∧ s.lrtEntry ctx5 3 / 2 ^ 14 % 2 ^ 12 = 0 ∧ ctx5.quota = 0 ∧ (swap3 .needPages).layer = 3 ∧
    f.swapOf 5 3 = some (swap3 .filling) ∧ f.sourceEntry { ctx5 with src := 3 * 2 ^ 41 } 3 = none ∧ f.sourceEntry ctx5 3 = some 0 ∧
    f.sourceDown 0 = false ∧ (swap3 .filling).evict = false ∧
    ({ f with host := { f.host with portDown := 1 } } : State).sourceDown 0 = true ∧ e.swapOf 5 3 = some (swap3 .evicting) ∧
    (e.migrating 0 (entRegion (e.lrtEntry ctx5 3)) (entPages (e.lrtEntry ctx5 3) * 2 ^ 19) = false) ∧
    (swap3 .needPages).since + 2 ^ 30 ≤ late.cycle ∧ s.cycle < (swap3 .needPages).since + 2 ^ 30 ∧
    [0, 2 ^ 19, 3 * 2 ^ 41 - 2 ^ 19].Pairwise (fun p q => p + 2 ^ 19 ≤ q ∨ q + 2 ^ 19 ≤ p) ∧
    (∀ p ∈ [0, 2 ^ 19, 3 * 2 ^ 41 - 2 ^ 19], p + 2 ^ 19 ≤ 3 * 2 ^ 41) := by decide +kernel
/-- A request of layer 3, of two pages, in a context with a quota of one; layer 0 is in a state. -/
def seeking (e0 : Nat) : State :=
  { ((plainWith (fun x => { x with mctx := 5 })).homeWrite 0x80C0 64 (1 + 2 * 2 ^ 14)).homeWrite 0x8000 64 (e0 + 2 ^ 14) with
    ctxs := [{ ctx5 with quota := 1 }], swaps := [swap3 .needPages] }
/-- Layers: a request that finds its quota exceeded, with a victim and with none. -/
theorem test_meets_victims : let c : Ctx := { ctx5 with quota := 1 }
    let s := seeking 2
    s.ctx 5 = some c ∧ s.swapOf 5 3 = some (swap3 .needPages) ∧ s.ctxs.map (fun d : Ctx => d.mctx) = [5] ∧
    s.swaps.any (fun v => decide (v.phase = .evicting) && decide (v.req = c.mctx)) = false ∧
    (c.quota ≠ 0 ∧ c.quota < s.heldPages c + s.lrtEntry c 3 / 2 ^ 14 % 2 ^ 12) ∧
    (s.lrtEntry c 0 % 4 = 2 ∧ s.lrtEntry c 0 / 4 % 16 = 0 ∧ 0 < c.nlayer) ∧
    (∀ d ∈ s.ctxs, ∀ j < d.nlayer, j ≠ 0 → s.lrtEntry d j % 4 ≠ 2) ∧
    s.migrating c.asid (entRegion (s.lrtEntry c 0)) (entPages (s.lrtEntry c 0) * 2 ^ 19) = false ∧
    (c.quota < (seeking 0).heldPages c + (seeking 0).lrtEntry c 3 / 2 ^ 14 % 2 ^ 12) ∧
    ∀ d ∈ (seeking 0).ctxs, ∀ j < d.nlayer, (seeking 0).lrtEntry d j % 4 ≠ 2 := by decide +kernel
/-- Layers: a flume of a bolt that waits for the layer that fails. -/
theorem test_meets_failed_flume : let s : State := { swapping .filling 0 with
      harts := [(0, { vhart with mctx := 5, vwait := some ⟨.lwait 0 3, 0, none, 0⟩ })] }
    (s.hart 0).placed = true ∧ (s.hart 0).mctx.toNat = 5 ∧ (s.hart 0).depth < 3 ∧ Hart.waitsLayer (s.hart 0).vwait 3 = true ∧
    (s.hart 0).bolts = bolt4 :: [] ∧ bolt4.frags = ⟨0x1000, 15, none⟩ :: [] := by decide +kernel
/-- Layers: an eviction whose page a migration moves. -/
theorem test_meets_busy_layer : let e := 0x40000001 + 2 ^ 14
    let s : State := { inContext e id with swaps := [swap3 .evicting], maps := [page, ⟨0, entRegion e, 19, 2 ^ 20, true, false, false, false⟩],
                                           migs := [⟨1, false, 0, entRegion e, 2 ^ 19, 2 ^ 20, 2 ^ 21, 19, false, []⟩] }
    s.ctx 5 = some ctx5 ∧ s.swapOf 5 3 = some (swap3 .evicting) ∧ s.lrtEntry ctx5 3 = e ∧
    s.migrating 0 (entRegion (s.lrtEntry ctx5 3)) (entPages (s.lrtEntry ctx5 3) * 2 ^ 19) = true := by decide +kernel
/-- Layers: a hart that waits for the layer that fails, and one that does not. -/
theorem test_meets_failed_layer : let s : State := { swapping .filling 0 with
      harts := [(0, { three 0 0 0 with mctx := 5, wait := some ⟨.lwait 4 3, 0, none, 0⟩ }), (1535, { three 0 0 0 with mctx := 5 })] }
    (s.hart 0).placed = true ∧ (s.hart 0).mctx.toNat = 5 ∧ (s.hart 0).depth < 3 ∧ Hart.waitsLayer (s.hart 0).vwait 3 = false ∧
    (s.hart 0).wait.map (fun r => r.kind) = some (.lwait 4 3) ∧ Hart.waitsLayer (s.hart 1535).wait 3 = false ∧ Hart.waitsLayer (s.hart 1535).vwait 3 = false := by
  decide +kernel

/-! ### The host -/

/-- A started device with a command submitted. -/
def submit (op : Nat) (params : Tab Word) : State :=
  { plain with host := { plain.host with mbHdr := 0x8000000000000000 + BitVec.ofNat 64 op, mbWords := params } }
/-- Mailbox: a response of 511 words, a reserved bit, another start state, an opcode that is not assigned. -/
theorem test_meets_mailbox : 255 < 256 ∧ (List.replicate 511 (0 : Word)).length ≤ 511 ∧
    (∀ op ∈ [0x01, 0x02, 0x03, 0x04, 0x05, 0x06, 0x07, 0x08, 0x09, 0x0A, 0x0B, 0x0C, 0x0D, 0x20, 0x21, 0x22, 0x23, 0x24, 0x25, 0x26, 0x27, 0x28, 0x29],
      (submit op []).submitted op) ∧
    (submit 0x4002 []).host.badHeader = true ∧ ({ submit 2 [] with boot := Boot.initial } : State).boot.st ≠ .ready ∧
    (submit 0x1F []).host.op = 0x1F ∧ ¬((1 ≤ 0x1F ∧ 0x1F ≤ 0x0D) ∨ (0x20 ≤ 0x1F ∧ 0x1F ≤ 0x29)) := by decide +kernel
/-- Mailbox: parameters at the ends of their ranges. -/
theorem test_meets_mailbox_ranges : let p (op : Nat) (l : Tab Word) (i : Nat) : Nat := (submit op l).host.param i
    (p 4 [(0, 3), (1, 15), (2, 2)] 0 ≤ 3 ∧ p 4 [(0, 3), (1, 15), (2, 2)] 1 ≤ 15 ∧ p 4 [(0, 3), (1, 15), (2, 2)] 2 = 2) ∧ 3 < p 4 [(0, 4), (2, 2)] 0 ∧
    15 < p 4 [(1, 16), (2, 2)] 1 ∧ 2 < p 4 [(2, 3)] 2 ∧ (4 ≤ p 5 [(1, 12)] 1 ∧ p 5 [(1, 12)] 1 ≤ 12) ∧ p 5 [(1, 3)] 1 < 4 ∧ 12 < p 5 [(1, 13)] 1 ∧
    (1 ≤ p 6 [(0, 10), (1, 1), (2, 63)] 0 ∧ p 6 [(0, 10), (1, 1), (2, 63)] 0 ≤ 10 ∧ p 6 [(0, 10), (1, 1), (2, 63)] 1 ≤ 1 ∧
      p 6 [(0, 10), (1, 1), (2, 63)] 2 ≤ 63) ∧ 1 < p 6 [(1, 2)] 1 ∧ 63 < p 6 [(2, 64)] 2 ∧
    (p 7 [(0, 7), (1, 3 * 2 ^ 41 - 64), (2, 64), (3, 3)] 0 ≤ 7 ∧ p 7 [(0, 7), (3, 3)] 3 ≤ 3 ∧
      p 7 [(0, 7), (1, 3 * 2 ^ 41 - 64), (2, 64), (3, 3)] 1 + p 7 [(0, 7), (1, 3 * 2 ^ 41 - 64), (2, 64), (3, 3)] 2 ≤ 3 * 2 ^ 41) ∧ 7 < p 7 [(0, 8)] 0 := by
  decide +kernel
/-- MailboxServices: IDENT and ATTEST, IMGLOAD into the other slot and into the one in use, ENDHART, RESYNC. -/
theorem test_meets_services : let x : Hart := { three 0 0 0 with halted := true, pstat := 0xC000 }
    let s : State := { submit 0x0C [(0, 1535)] with harts := [(1535, x)] }
    (submit 1 []).called 1 ∧ ((submit 9 []).called 9 ∧ (submit 9 []).boot.st ≠ .off) ∧ ((submit 0x0A []).called 0x0A ∧ (submit 0x0A []).boot.st = .ready) ∧
    ((submit 0x0D [(0, 1)]).host.param 0 ≤ 1 ∧ (submit 0x0D [(0, 1)]).host.param 0 ≠ (submit 0x0D [(0, 1)]).boot.img) ∧
    (submit 0x0D []).host.param 0 = (submit 0x0D []).boot.img ∧ 1 < (submit 0x0D [(0, 2)]).host.param 0 ∧
    (s.submitted 0x0C ∧ s.host.param 0 < 1536 ∧ (s.hart 1535).placed = true ∧ (s.hart 1535).halted = true ∧ (s.hart 1535).depth = 3 ∧ s.xfersOf 1535 = []) ∧
    1536 ≤ (submit 0x0C [(0, 1536)]).host.param 0 ∧ ((submit 0x0C []).hart 0).halted = false ∧ (submit 8 [(1, 2 ^ 30)]).submitted 8 := by decide +kernel
/-- MailboxServices: a failed device and one after three warm failures; sources in device memory, in host memory and in neither; a halted
hart with a transfer in flight. -/
theorem test_meets_services_too : let x : Hart := { three 0 0 0 with halted := true, pstat := 0xC000 }
    let s : State := { submit 0x0C [(0, 0)] with harts := [(0, x)], xfers := [copy1] }
    let f (op n : Nat) : State := { submit op [] with boot := { started with st := .failed, wfail := n } }
    ((f 0x0A 3).called 0x0A ∧ (f 0x0A 3).boot.st = .failed ∧ 3 ≤ (f 0x0A 3).boot.wfail) ∧ ((f 0x0B 0).called 0x0B ∧ (f 0x0B 0).boot.st ≠ .off) ∧
    ((submit 0x0D [(0, 1), (1, 3 * 2 ^ 41 - 64), (2, 64)]).called 0x0D ∧ (3 * 2 ^ 41 - 64) + 64 ≤ 3 * 2 ^ 41) ∧
    (2 ^ 50 ≤ 2 ^ 51 - 64 ∧ 2 ^ 51 - 64 + 64 ≤ 2 ^ 51) ∧ ¬(2 ^ 51 + 64 ≤ 3 * 2 ^ 41 ∨ (2 ^ 50 ≤ 2 ^ 51 ∧ 2 ^ 51 + 64 ≤ 2 ^ 51)) ∧
    (s.submitted 0x0C ∧ s.host.param 0 < 1536 ∧ (s.hart 0).placed = true ∧ (s.hart 0).halted = true ∧ (s.hart 0).depth = 3 ∧ s.xfersOf 0 ≠ []) := by
  decide +kernel
/-- A host queue of 16 packets, its control words at 0x4000 and its ring at 0x8000. -/
def queue1 : HostQ :=
  { hqid := 1, die := 0, yq := 2, base := 0x8000, ctrl := 0x4000, ctx := [5, 0, 0, 0], maxPrio := 3, log2n := 4, head := 0, tail := 0,
    copy := none, closing := none }
/-- A state with that queue open, TAIL, and a packet at its head. -/
def queued (tail pkt : Nat) : State :=
  { (plain.homeWrite 0x4000 64 tail).homeWrite 0x8000 1024 pkt with host := { (submit 3 [(0, 1)]).host with queues := [queue1] } }
/-- HostQueues: a descriptor that opens one and one with a broken alignment; CLOSEQ of an open queue and of none. -/
theorem test_meets_openq : let d (w : Word) : Tab Word := [(0, 0x08008000), (6, 0x4000), (7, w)]
    let v (w : Word) : Nat := (List.range 8).foldl (fun n i => n + (submit 2 (d w)).host.param i * 2 ^ (64 * i)) 0
    (submit 2 (d 0x8000)).submitted 2 ∧
    (v 0x8000 / 2 ^ 32 % 2 ^ 304 = 0 ∧ v 0x8000 % 2 ^ 13 = 0 ∧ v 0x8000 / 2 ^ 448 % 2 ^ 64 % 1024 = 0 ∧ v 0x8000 / 2 ^ 384 % 2 ^ 64 % 128 = 0 ∧
      4 ≤ v 0x8000 / 2 ^ 13 % 16 ∧ v 0x8000 / 2 ^ 13 % 16 ≤ 12 ∧ 0x8000 + 1024 * 2 ^ 4 ≤ 3 * 2 ^ 41) ∧ v 0x8001 / 2 ^ 448 % 2 ^ 64 % 1024 ≠ 0 ∧
    (queued 1 0x1000).submitted 3 ∧ (queued 1 0x1000).hostQ ((queued 1 0x1000).host.param 0) = some queue1 ∧ queue1.closing = none ∧
    (submit 3 [(0, 2)]).hostQ ((submit 3 [(0, 2)]).host.param 0) = none := by decide +kernel
/-- HostQueues: an empty queue, a packet that is served, ones that are refused by context, priority, index and contents, and a full queue. -/
theorem test_meets_foreman : let e (tail p : Nat) : Nat := (queued tail p).homeRead 0x8000 1024
    (queued 0 0).homeRead 0x4000 64 = queue1.head ∧ (queued 1 0x1000).homeRead 0x4000 64 ≠ queue1.head ∧ pktMctx (e 1 0x1000) = 0 ∧
    ¬(pktMctx (e 1 (7 * 2 ^ 148)) = 0 ∨ pktMctx (e 1 (7 * 2 ^ 148)) ∈ queue1.ctx) ∧ pktMctx (e 1 (5 * 2 ^ 148)) ∈ queue1.ctx ∧
    queue1.maxPrio < pktPrio (e 1 (4 * 2 ^ 140)) ∧ pktPrio (e 1 0x1000) ≤ queue1.maxPrio ∧ 2 ^ queue1.log2n < ((17 : Int) - queue1.head) % 2 ^ 64 ∧
    ((16 : Int) - queue1.head) % 2 ^ 64 ≤ 2 ^ queue1.log2n ∧ ((queued 1 1).packetCause (e 1 1)).isSome = true ∧ (queued 1 0x1000).packetCause (e 1 0x1000) = none ∧
    ((queued 1 0x1000).yardQ 0 2).packets.length < 64 ∧ 64 ≤ (⟨List.replicate 64 ⟨0, 0, 0⟩, false⟩ : YardQ).packets.length ∧
    ({ queue1 with closing := some 0 } : HostQ).closing = some queue1.head ∧
    (let q := { queue1 with tail := 17 }
     let s : State := { queued 1 0x1000 with host := { (queued 1 0x1000).host with queues := [q] } }
     s.hostQ 1 = some q ∧ q.tail ≠ q.head ∧ s.host.own = true ∧ s.host.op = 0x03) := by decide +kernel
/-- HostQueues: a queue with the turn and one without it; a copy that waits. -/
theorem test_meets_turns : let s := queued 1 0x1000
    let q2 : HostQ := { queue1 with hqid := 2 }
    let two : State := { s with host := { s.host with queues := [queue1, q2] } }
    let c : HostQ := { queue1 with copy := some 0x1000 }
    let w : State := { s with host := { s.host with queues := [c] } }
    s.hasTurn queue1 = true ∧ queue1.copy = none ∧ two.hasTurn queue1 = true ∧ two.hasTurn q2 = false ∧ two.hostQ 2 = some q2 ∧
    queue1.hqid < 64 ∧ Tab.get 0 s.host.turn 0 < 64 ∧ w.hostQ 1 = some c ∧ w.hasTurn c = true ∧ c.copy = some 0x1000 ∧
    w.packetCause 0x1000 = none ∧ (w.packetCause 1).isSome = true := by decide +kernel
/-- The descriptor of a context 6 of four layers. -/
def ctxDesc : Nat := 0x8000 * 2 ^ 448 + 0xA000 * 2 ^ 384 + 0x10000 * 2 ^ 320 + 0x10000 * 2 ^ 280 + 4 * 2 ^ 16 + 6
/-- ContextAndLayerCommands: descriptors that load and do not; contexts unloaded and in use; CTXSET at its bounds. -/
theorem test_meets_contexts : let s (n : Nat) : State := { (submit 0x20 [(0, 0x4000)]).homeWrite 0x4000 512 n with ctxs := [ctx5] }
    let d := (s ctxDesc).homeRead 0x4000 512
    let f (lo w : Nat) : Nat := d / 2 ^ lo % 2 ^ w
    let u (op : Nat) (l : Tab Word) : State := { submit op l with ctxs := [ctx5] }
    (0x4000 % 64 = 0 ∧ 0x4000 + 512 ≤ 3 * 2 ^ 41) ∧
    (f 64 188 = 0 ∧ f 36 4 = 0 ∧ f 29 3 = 0 ∧ f 12 4 = 0 ∧ f 448 64 % 64 = 0 ∧ f 384 64 % 128 = 0 ∧ f 320 64 % 512 = 0 ∧ f 320 64 + f 280 40 ≤ 3 * 2 ^ 41 ∧
      f 40 2 ≠ 3 ∧ 1 ≤ f 16 13 ∧ f 16 13 ≤ 4096 ∧ f 0 12 ≠ 0 ∧ (s ctxDesc).ctx (f 0 12) = none) ∧ (s 0).homeRead 0x4000 512 / 2 ^ 0 % 2 ^ 12 = 0 ∧
    64 ≤ ({ s ctxDesc with ctxs := List.replicate 64 ctx5 } : State).ctxs.length ∧ (u 0x21 [(0, 5)]).ctx 5 = some ctx5 ∧ (u 0x21 [(0, 5)]).ctxInUse 5 = false ∧
    (inContext 0 id).ctxInUse 5 = true ∧ (List.range 4).all (fun l => decide ((u 0x21 [(0, 5)]).lrtEntry ctx5 l % 4 = 0)) = true ∧
    ((u 0x26 [(0, 5), (1, 15), (2, 2), (3, 0xFFFFFFF)]).host.param 1 ≤ 15 ∧ (u 0x26 [(0, 5), (3, 0xFFFFFFF)]).host.param 3 < 2 ^ 28) ∧
    15 < (u 0x26 [(0, 5), (1, 16)]).host.param 1 ∧ (u 0x26 [(0, 7)]).ctx 7 = none := by decide +kernel
/-- A context command on layer 3, whose entry is `e`. -/
def layerCmd (op e : Nat) (l : Word) : State := { inContext e id with host := (submit op [(0, 5), (1, l), (2, 1)]).host }
/-- ContextAndLayerCommands: LREQ at and past the last layer, LEVICT in each state, pins at 0, 14 and 15. -/
theorem test_meets_layer_commands : (layerCmd 0x22 0 3).ctx 5 = some ctx5 ∧ (layerCmd 0x22 0 3).submitted 0x22 ∧
    (layerCmd 0x22 0 3).host.param 1 + (layerCmd 0x22 0 3).host.param 2 ≤ ctx5.nlayer ∧ ctx5.nlayer < (layerCmd 0x22 0 4).host.param 1 + 1 ∧
    ctx5.nlayer ≤ (layerCmd 0x23 0 4).host.param 1 ∧ (layerCmd 0x23 0x3E 3).lrtEntry ctx5 3 / 4 % 16 = 15 ∧ (layerCmd 0x24 0x3A 3).lrtEntry ctx5 3 / 4 % 16 = 14 ∧
    (layerCmd 0x23 2 3).lrtEntry ctx5 3 / 4 % 16 = 0 ∧ (layerCmd 0x23 2 3).lrtEntry ctx5 3 % 4 = 2 ∧ (layerCmd 0x23 1 3).lrtEntry ctx5 3 % 4 = 1 ∧
    (layerCmd 0x23 3 3).lrtEntry ctx5 3 % 4 = 3 ∧ (swapping .filling 0).swapOf 5 3 = some (swap3 .filling) := by decide +kernel
/-- PageMoves: MIGRATE to a free page and to a misaligned place, and its end; UNMAP of a page, of part of one and of a layer's, and its end. -/
theorem test_meets_page_moves : let s := submit 0x27 [(0, 0), (1, 2 ^ 21)]
    let m (l : Tab Word) : State := submit 0x28 l
    let g (moved : Bool) (q : List Sel) : Mig := ⟨3, false, 0, 0, 0, 0, 2 ^ 21, 20, moved, q⟩
    let u : Mig := ⟨3, true, 0, 0, 2 ^ 20, 0, 0, 0, false, []⟩
    let done (moved : Bool) (q : List Sel) : State := { submit 0x27 [] with migs := [g moved q] }
    let un : State := { m [] with migs := [u] }
    (s.submitted 0x27 ∧ s.migs = [] ∧ s.mapsOf 0 = page :: [] ∧ s.mapsOf 1 = []) ∧
    (2 ^ 21 % 2 ^ 20 = 0 ∧ s.physInUse (2 ^ 21) (2 ^ 20) = false ∧ 2 ^ 21 + 2 ^ 20 ≤ 3 * 2 ^ 41) ∧ s.physInUse (2 ^ 19) (2 ^ 20) = true ∧
    ((done false []).migs.find? (fun m => !m.unmap && decide (m.pa = 0)) = some (g false []) ∧ 2 ^ 21 % 2 ^ 20 = 0 ∧ (2 ^ 21 ≠ 0) ∧
      (done false []).host.own = true ∧ (done false []).host.op = 0x27 ∧ (done false []).migs ≠ []) ∧
    ((done true [.stem 3]).migs.find? (fun m => !m.unmap && decide (m.pa = 0)) = some (g true [.stem 3]) ∧
      (done true []).migs.find? (fun m => !m.unmap && decide (m.pa = 0)) = some (g true [])) ∧
    (let l := (swapping .filling 0).homeWrite 0x80C0 64 0x4000
     l.mapsOf 0 = page :: [] ∧ l.layerAt 0 0 = some (ctx5, 3) ∧ (done false []).layerAt 0 0 = none) ∧
    ((m [(2, 2 ^ 20)]).submitted 0x28 ∧ (m [(2, 2 ^ 20)]).partlyCovered 0 0 (2 ^ 20) = false ∧ (m [(2, 2 ^ 20)]).meetsLayer 0 0 (2 ^ 20) = false) ∧
    (m [(2, 2 ^ 19)]).partlyCovered 0 0 (2 ^ 19) = true ∧
    ((swapping .filling 0).homeWrite 0x80C0 64 0x4000).meetsLayer 0 0 (2 ^ 20) = true ∧
    (un.migs.find? (fun m => m.unmap && decide (m.id = 3)) = some u ∧ un.host.own = true ∧ un.host.op = 0x28) := by decide +kernel

/-! ### Power, accesses and reliability -/

/-- A boot state with some fields. -/
def booting (st : StartState) (kind : Nat) (done : Bool) : State := { plain with boot := { started with st := st, kind := kind, initDone := done } }
/-- PowerAndScan: off with and without power and PERST#, running, starting, frozen. -/
theorem test_meets_power : State.reset.boot.st = .off ∧ State.reset.boot.perst = true ∧ State.reset.boot.powerGood = false ∧ plain.boot.st = .ready ∧
    plain.boot.frozen = false ∧ ({ plain with boot := { started with frozen := true } } : State).boot.frozen = true ∧
    (booting .init 1 false).boot.st.starting = true ∧ (booting .failed 1 false).boot.st = .failed ∧
    (let s : State := { plain with boot := { started with frozen := true } }
     s.boot.frozen = true ∧ s.boot.st ≠ .off) ∧ ({ started with wfail := 3 } : Boot).wfail = 3 := by decide +kernel
/-- StartUp: each state of a start, warm and cold, with images that verify and that do not. -/
theorem test_meets_start : let bad : Image := { Image.initial with ok := false }
    ({ plain with boot := { started with perst := true } } : State).boot.perst = true ∧
    ((booting .verify 1 false).boot.perst = false ∧ (booting .verify 1 false).boot.hunikHalted = false ∧ (booting .verify 1 false).boot.slotA.ok = true) ∧
    ({ started with st := .verify, slotA := bad, slotB := bad } : Boot).slotA.ok = false ∧ (booting .train 1 false).boot.st = .train ∧
    (booting .restore 2 false).boot.st = .restore ∧ (0x10 ≤ 0x1B ∧ 0x1B ≤ 0x1B) ∧ (booting .init 2 false).boot.initDone = false ∧
    (booting .init 1 true).boot.initDone = true ∧ (booting .init 1 true).host.ring = none ∧
    ({ started with st := .verify, kind := 2, hunikHalted := true } : Boot).hunikHalted = true ∧
    (let b : Boot := { started with st := .verify, slotA := bad }
     b.slotA.ok = false ∧ b.slotB.ok = true ∧ 1 = (if b.slotA.ok then 0 else 1 - 0)) := by decide +kernel
/-- StartUp: code that verifies and that does not. -/
theorem test_meets_code : let b := (booting .init 1 true).boot
    let c : Boot := { b with foreman := { b.foreman with ok := false } }
    (b.firmware.ok && b.foreman.ok && b.handler.ok) = true ∧ (c.firmware.ok && c.foreman.ok && c.handler.ok) = false ∧ c.st = .init ∧
    c.initDone = true := by decide +kernel
/-- HostAndPeerAccesses: an access at a page that migrates, and once it has moved. -/
theorem test_meets_held_page : let i : Instr := .hostManagedDeviceMemoryAccess .read 0x400 8 0 0
    let g (moved : Bool) (q : List Sel) : Mig := ⟨3, false, 0, 0, 0, 0, 2 ^ 21, 20, moved, q⟩
    let s (m : Mig) : State := { plain with migs := [m] }
    plain.clean ∧ plain.boot.st = .ready ∧ 0x400 + 8 ≤ 3 * 2 ^ 38 ∧ plain.host.portDown.testBit 0 = false ∧
    (s (g false [])).heldPage 0x2000 64 = some (g false []) ∧ (s (g true [.event i])).heldPage 0x2000 64 = some (g true [.event i]) ∧
    (g true [.event i]).queue.contains (.event i) = true ∧ 0x2000 + 64 ≤ 0 + 2 ^ 20 ∧ 2 ^ 21 + 2 ^ 20 ≤ 3 * 2 ^ 41 ∧
    (∀ y ∈ (s (g false [])).migs, y.id = 3 → y = g false []) := by decide +kernel
/-- HostAndPeerAccesses: links up and down, the slot free and owned, windows that allow and none, bytes at the ends. -/
theorem test_meets_host : let w : Window := ⟨7, 0x2000, 64, true, true⟩
    let s : State := { plain with host := { plain.host with windows := [w] } }
    plain.linkUp 0 = true ∧ plain.linkUp 1 = false ∧ plain.host.own = false ∧ (submit 1 []).host.own = true ∧ (Tab.get 0 plain.host.pba 0).getLsbD 63 = false ∧
    0 + 16 ≤ 3 * 2 ^ 38 ∧ ((16 = 4 ∨ 16 = 8 ∨ (16 = 16 ∧ AtomKind.cas = .cas)) ∧ 16 % 16 = 0) ∧
    plain.host.portDown.testBit 0 = false ∧ (3 * 2 ^ 38 < 3 * 2 ^ 38 - 1 + 2) ∧ plain.boot.st = .ready ∧ plain.clean ∧
    s.host.windows.find? (fun w => decide (w.link = 7) && w.write && decide (32 + 32 ≤ w.ext)) = some w ∧
    s.host.windows.find? (fun w => decide (w.link = 7) && w.reduce && decide (32 + 32 ≤ w.ext)) = some w ∧
    s.host.windows.find? (fun w => decide (w.link = 7) && decide (33 + 32 ≤ w.ext)) = none ∧ s.host.linkDown.testBit 7 = false ∧
    ({ s.host with linkDown := 128 } : HostSide).linkDown.testBit 7 = true ∧ (Tag.ofCode 0x1F).any (fun t => t.isAtomic && decide (t.width = 32)) = true ∧
    State.reset.boot.st ≠ .ready := by decide +kernel
/-- A BAR 2 window at the last byte of device memory: W2BASE at 2^30 x 767. -/
theorem test_meets_bar2 : let s : State := { plain with host := { plain.host with w2base := 767 * 2 ^ 30, barLog := 0 } }
    let k (byte : Nat) : Nat := s.host.w2base.toNat / 2 ^ 30 % 2 ^ 10 / 2 ^ s.host.barLog * 2 ^ s.host.barLog * 2 ^ 30 + byte
    k (2 ^ 30 - 8) + 8 ≤ 3 * 2 ^ 38 ∧ 3 * 2 ^ 38 ≤ k (2 ^ 30) := by decide +kernel
/-- ErrorsAndThrottling: a placed hart with CEN, counts that wrap, clocks at their ends, a report that is due, a scrubber that is on. -/
theorem test_meets_reliability : let r (mhz duty : Nat) : Reliab := { Reliab.initial with
      mhz := mhz
      duty := duty
      scrub := [(0, 0xA003), (1, 1)]
      upsets := [⟨5, 0, 7, false, false⟩, ⟨1, 0, 7, false, false⟩] }
    let s : State := { plain with time := 60 * (1000 * ticksPerMilli), rel := r 1050 0 }
    ((plainWith (fun x => { x with pstat := 0x1000 })).hart 0).cen = true ∧ (r 1050 0).duty = 0 ∧ ((r 650 1).duty ≠ 0 ∧ 600 < (r 650 1).mhz) ∧
    ((r 1000 1).mhz < 1050) ∧ 1050 ≤ (r 1050 1).mhz ∧ s.rel.reportAt + s.boot.slotA.reportS * (1000 * ticksPerMilli) ≤ s.time ∧ s.boot.st = .ready ∧
    plain.time < plain.rel.reportAt + plain.boot.slotA.reportS * (1000 * ticksPerMilli) ∧ s.rel.upsets.all (fun u => !(decide (u.s = 46) && decide (u.place = 0))) = true ∧ (Tab.get 0 s.rel.scrub 0).getLsbD 0 = true ∧
    (Tab.get 0 s.rel.scrub 0).getLsbD 1 = true ∧ (Tab.get 0 s.rel.scrub 1).getLsbD 1 = false ∧
    s.rel.upsets.find? (fun u => decide (u.s = 5) && decide (u.place = 0) && decide (u.word = 7)) = some ⟨5, 0, 7, false, false⟩ ∧
    plain.rel.upsets.find? (fun u => decide (u.s = 5) && decide (u.place = 0) && decide (u.word = 7)) = none := by decide +kernel
/-- ErrorsAndThrottling: structures and logs at their ends, upsets that are correctable and not, of a pipe and of the mirror issue. -/
theorem test_meets_upsets : (1 ≤ 24 ∧ 24 ≤ 24) ∧ 25 ∈ [25, 26, 27, 29, 30, 32] ∧ levelOf 5 = some 0 ∧ levelOf 32 = some 4 ∧ 32 < 48 ∧
    (Tab.get [] plain.rel.elogs 0).length < 64 ∧ (Tab.get 0 plain.rel.elogc 0).toNat / 2 ^ 24 % 2 ^ 8 = 0 ∧
    (⟨24, 0, 7, false, false⟩ : Upset).unc = false ∧ (⟨24, 0, 7, true, true⟩ : Upset).unc = true ∧ (⟨21, 0, 7, false, false⟩ : Upset).s ≠ 22 := by
  decide +kernel
/-- ErrorsAndThrottling: no hart has an access left to perform. -/
theorem test_meets_no_stores (h : Nat) : (State.reset.hart h).stores = [] := rfl
/-- CacheUpkeep: a grove that sleeps with lines of every age, and one that does not sleep. -/
theorem test_meets_wakes : let x (n : BitVec 8) : Line := ⟨1, BitVec.allOnes 512, 1, n⟩
    let g : Grove := { Grove.vacant with asleep := true, d := 3, gen := 64, lines := [(0, x 0), (1, x 3), (2, x 4)] }
    let s : State := { plain with groves := [(1, g)] }
    (s.grove 1).asleep = true ∧ s.clean ∧ ((s.grove 1).lines.map (fun p => p.1)).Nodup ∧ 64 ≤ (g.gen - 3).toNat + g.d ∧
    ¬(64 ≤ (g.gen - 4).toNat + g.d) ∧ (plain.grove 1).asleep = false := by decide +kernel
/-- CacheUpkeep: a grove without harts at its idle time, one asleep below and at 128 acquires, a line at the end of device memory, ages 63 and 64. -/
theorem test_meets_cache : let s : State := { plain with time := 100 * ticksPerMilli }
    let z (d : Nat) : State := { plain with groves := [(1, { Grove.vacant with asleep := true, d := d })] }
    let x (n : BitVec 8) : Line := ⟨1, BitVec.allOnes 512, 1, n⟩
    let g : Grove := { Grove.vacant with gen := 64, lines := [(0, x 0), (1, x 1)] }
    ((s.grove 1).asleep = false ∧ s.vacantGrove 1 = true ∧ s.boot.st = .ready ∧
      max (s.grove 1).idleAt s.boot.readyAt + s.boot.slotA.retIdleMs * ticksPerMilli ≤ s.time) ∧
    ((z 127).grove 1).d < 128 ∧ 128 ≤ ((z 128).grove 1).d ∧ ((z 128).grove 1).asleep = true ∧ (z 128).clean ∧
    512 * (3 * 2 ^ 32 - 1) + 512 ≤ 3 * 2 ^ 41 ∧ (g.lines.map (fun p => p.1)).Nodup ∧ 64 ≤ (g.gen - (x 0).stamp).toNat ∧ (g.gen - (x 1).stamp).toNat < 64 := by
  decide +kernel

end Sys2Proof.Tests
end

section
/-!
PROOFS. Register and immediate arithmetic, branches and jumps of the stem (R166-R172): what the model's arithmetic helpers
compute, and the statements about majors 0x01, 0x02 and the SI, LI, SB and SJ forms.
-/
namespace Sys2Proof.Machine

open Sys2Proof

/-! ### What the arithmetic helpers compute -/

theorem divSigned_eq (x y : Word) :
    divSigned x y = if y = 0 then BitVec.allOnes 64 else BitVec.ofInt 64 (x.toInt.tdiv y.toInt) := by
  have quotient : x.sdiv y = BitVec.ofInt 64 (x.toInt.tdiv y.toInt) :=
    BitVec.eq_of_toInt_eq (by rw [BitVec.toInt_sdiv, BitVec.toInt_ofInt])
  rw [divSigned, quotient]

theorem divUnsigned_eq (x y : Word) :
    divUnsigned x y = if y = 0 then BitVec.allOnes 64 else BitVec.ofNat 64 (x.toNat / y.toNat) := by
  have quotient : x / y = BitVec.ofNat 64 (x.toNat / y.toNat) := by
    rw [← BitVec.toNat_udiv, BitVec.ofNat_toNat, BitVec.setWidth_eq]
  rw [divUnsigned, quotient]

/-- The remainder by zero needs no case of its own: `tmod` by zero is the dividend (R167). -/
theorem remSigned_eq (x y : Word) : remSigned x y = BitVec.ofInt 64 (x.toInt.tmod y.toInt) := by
  rw [← BitVec.toInt_srem, BitVec.ofInt_toInt, remSigned]
  split
  · next hy => rw [hy]; exact BitVec.srem_zero.symm
  · rfl

theorem remUnsigned_eq (x y : Word) : remUnsigned x y = BitVec.ofNat 64 (x.toNat % y.toNat) := by
  rw [← BitVec.toNat_umod, BitVec.ofNat_toNat, BitVec.setWidth_eq, remUnsigned]
  split
  · next hy => rw [hy]; exact BitVec.umod_zero.symm
  · rfl

theorem flag_slt (x y : Word) : flag (x.slt y) = if x.toInt < y.toInt then 1 else 0 := by
  simp only [flag, BitVec.slt_eq_decide, decide_eq_true_eq]

theorem flag_ult (x y : Word) : flag (x.ult y) = if x.toNat < y.toNat then 1 else 0 := by
  simp only [flag, BitVec.ult_eq_decide, decide_eq_true_eq]

theorem ite_sle (x y u v : Word) : (if x.sle y then u else v) = if x.toInt ≤ y.toInt then u else v := by
  simp only [BitVec.sle_eq_decide, decide_eq_true_eq]

theorem ite_ule (x y u v : Word) : (if x.ule y then u else v) = if x.toNat ≤ y.toNat then u else v := by
  simp only [BitVec.ule_eq_decide, decide_eq_true_eq]

theorem leadingZeros_succ_of_lt {x w : Nat} (below : x < 2 ^ w) : leadingZeros x (w + 1) = leadingZeros x w + 1 := by
  unfold leadingZeros
  split
  · rfl
  · next nonzero =>
    have := (Nat.log2_lt nonzero).2 below
    omega

theorem leadingZeros_succ_of_ge {x w : Nat} (above : 2 ^ w ≤ x) (h : x < 2 ^ (w + 1)) : leadingZeros x (w + 1) = 0 := by
  have nonzero : x ≠ 0 := Nat.ne_of_gt (Nat.lt_of_lt_of_le (Nat.two_pow_pos w) above)
  rw [leadingZeros, if_neg nonzero, (Nat.log2_eq_iff nonzero).2 ⟨above, h⟩, Nat.add_sub_cancel, Nat.sub_self]

/-- Leading zeros counted from the top bit down. -/
theorem leadingZeros_eq_takeWhile {x w : Nat} (h : x < 2 ^ w) :
    leadingZeros x w = ((List.range w).reverse.takeWhile (fun i => !x.testBit i)).length := by
  induction w with
  | zero => rw [Nat.lt_one_iff.1 h]; rfl
  | succ w ih =>
    rw [List.range_succ, List.reverse_append, List.reverse_singleton, List.singleton_append, List.takeWhile_cons]
    rcases Nat.lt_or_ge x (2 ^ w) with below | above
    · rw [leadingZeros_succ_of_lt below, ih below, Nat.testBit_lt_two_pow below]; rfl
    · rw [leadingZeros_succ_of_ge above h, Nat.testBit_of_two_pow_le_and_two_pow_add_one_gt above h]; rfl

theorem leadingZeros_word (x : Word) :
    leadingZeros x.toNat 64 = ((List.range 64).reverse.takeWhile (fun i => !x.getLsbD i)).length := by
  simp only [leadingZeros_eq_takeWhile x.isLt, BitVec.testBit_toNat]

theorem Bits.count_word (x : Word) : Bits.count x.toNat 64 = ((List.range 64).filter (fun i => x.getLsbD i)).length := by
  simp only [Bits.count, Bits.members_eq, BitVec.testBit_toNat]

/-- Bit `i` of a field of `n` bits at `p`, clipped at bit 63. -/
theorem getLsbD_bitExtract (x y : Word) {i : Nat} (hi : i < 64) :
    (bitExtract x y).getLsbD i = (decide (i < y.toNat / 256 % 64 + 1) && decide (y.toNat % 64 + i < 64) &&
      x.getLsbD (y.toNat % 64 + i)) := by
  have clipped : (i < min (y.toNat / 256 % 64 + 1) (64 - y.toNat % 64)) ↔
      i < y.toNat / 256 % 64 + 1 ∧ y.toNat % 64 + i < 64 := by omega
  simp only [bitExtract, BitVec.getLsbD_ofNat, hi, decide_true, Bool.true_and, Nat.testBit_mod_two_pow, Nat.testBit_shiftRight,
    BitVec.testBit_toNat, clipped, Bool.decide_and]

/-- Bit `i` after an insertion: inside the field a bit of the source, outside it the old bit. -/
theorem getLsbD_bitInsert (old x y : Word) {i : Nat} (hi : i < 64) :
    (bitInsert old x y).getLsbD i =
      if y.toNat % 64 ≤ i ∧ i < y.toNat % 64 + (y.toNat / 256 % 64 + 1) then x.getLsbD (i - y.toNat % 64)
      else old.getLsbD i := by
  have masked : (y.toNat % 64 ≤ i ∧ i - y.toNat % 64 < min (y.toNat / 256 % 64 + 1) (64 - y.toNat % 64)) ↔
      y.toNat % 64 ≤ i ∧ i < y.toNat % 64 + (y.toNat / 256 % 64 + 1) := by omega
  simp only [bitInsert, BitVec.getLsbD_or, BitVec.getLsbD_and, BitVec.getLsbD_not, BitVec.getLsbD_ofNat, hi,
    Nat.testBit_shiftLeft, Nat.testBit_two_pow_sub_one, BitVec.getLsbD_shiftLeft, decide_true, Bool.true_and,
    ge_iff_le, ← Bool.decide_and, masked]
  split
  · next inside => simp only [decide_eq_true inside, decide_eq_false (Nat.not_lt.2 inside.1), Bool.not_true, Bool.not_false,
      Bool.and_false, Bool.false_or, Bool.true_and, Bool.and_true]
  · next outside => simp only [decide_eq_false outside, Bool.not_false, Bool.and_true, Bool.and_false, Bool.or_false]

/-! ### Results as integers -/

theorem add_mul_nword (x y : Word) (n : Nat) : x + y * nword n = BitVec.ofInt 64 (x.toInt + y.toInt * n) := by
  rw [BitVec.ofInt_add, BitVec.ofInt_mul, BitVec.ofInt_toInt, BitVec.ofInt_toInt, BitVec.ofInt_natCast, nword]

theorem add_signExtend (x : Word) {n : Nat} (i : BitVec n) : x + i.signExtend 64 = BitVec.ofInt 64 (x.toInt + i.toInt) := by
  rw [BitVec.ofInt_add, BitVec.ofInt_toInt, BitVec.signExtend]

theorem shiftLeft_add_setWidth (x : Word) {n : Nat} (i : BitVec n) (k : Nat) :
    (x <<< k) + i.setWidth 64 = BitVec.ofNat 64 (x.toNat * 2 ^ k + i.toNat) := by
  apply BitVec.eq_of_toNat_eq
  simp only [BitVec.toNat_add, BitVec.toNat_shiftLeft, BitVec.toNat_setWidth, BitVec.toNat_ofNat, Nat.shiftLeft_eq,
    ← Nat.add_mod]

/-- An offset counted in words of 32 bits (R147). -/
theorem signExtend_mul_32 {n : Nat} (off : BitVec n) : off.signExtend 64 * 32 = BitVec.ofInt 64 (off.toInt * 32) := by
  rw [BitVec.ofInt_mul, BitVec.signExtend]; rfl

/-! ### The register file -/

theorem Hart.reg_setReg_self (x : Hart) {r : Reg} (v : Word) (h : r ≠ 0) : (x.setReg r v).reg r = v := by
  rw [Hart.reg_setReg, if_neg h, if_pos rfl]

theorem Hart.reg_setReg_ne (x : Hart) {r q : Reg} (v : Word) (h : q ≠ r) : (x.setReg r v).reg q = x.reg q := by
  rw [Hart.reg_setReg, if_neg h]
  split
  · next zero => rw [zero, Hart.reg_zero]
  · rfl

/-! ### How the shared operations end -/

theorem setNext_congr {f g : Hart → Word} (d : Reg) (s : State) (h : ∀ x, f x = g x) :
    setNext d f s = .next (s.modMe (fun x => (x.setReg d (g x)).advance)) := by
  rw [funext h, setNext]

/-- The instruction `p.1 d a b` writes `p.2` of its two sources to its destination and goes on; nothing else changes. -/
def WritesBinary (p : (Reg → Reg → Reg → Instr) × (Word → Word → Word)) : Prop :=
  ∀ (d a b : Reg) (s : State), exec (p.1 d a b) s = .next (s.modMe (fun x => (x.setReg d (p.2 (x.reg a) (x.reg b))).advance))

theorem writesBinary_of_exec {i : Reg → Reg → Reg → Instr} (f : Word → Word → Word) {g : Word → Word → Word}
    (arm : ∀ d a b s, exec (i d a b) s = binary f d a b s) (value : ∀ x y, f x y = g x y) : WritesBinary (i, g) :=
  fun d a b s => (arm d a b s).trans (setNext_congr d s (fun x => value (x.reg a) (x.reg b)))

/-- The branch `p.1 a b off` jumps by `off` words where `p.2` of its two sources holds, and goes on where it does not. -/
def BranchesOn (p : (Reg → Reg → BitVec 16 → Instr) × (Word → Word → Bool)) : Prop :=
  ∀ (a b : Reg) (off : BitVec 16) (s : State), exec (p.1 a b off) s = .next (s.modMe (fun x =>
    if p.2 (x.reg a) (x.reg b) then x.jump (x.pc + BitVec.ofInt 64 (off.toInt * 32)) else x.advance))

theorem branchesOn_of_exec {i : Reg → Reg → BitVec 16 → Instr} (f : Word → Word → Bool) {g : Word → Word → Bool}
    (arm : ∀ a b off s, exec (i a b off) s = branch f a b off s) (cond : ∀ x y, f x y = g x y) : BranchesOn (i, g) := by
  intro a b off s
  simp only [arm, branch, branchTarget, cond, signExtend_mul_32]

/-! ### Major 0x01 -/

theorem exec_clz (d a : Reg) (s : State) : exec (.clz d a) s = .next (s.modMe (fun x => (x.setReg d
    (BitVec.ofNat 64 ((List.range 64).reverse.takeWhile (fun i => !(x.reg a).getLsbD i)).length)).advance)) :=
  setNext_congr d s (fun x => congrArg nword (leadingZeros_word (x.reg a)))

theorem exec_popc (d a : Reg) (s : State) : exec (.popc d a) s = .next (s.modMe (fun x => (x.setReg d
    (BitVec.ofNat 64 ((List.range 64).filter (fun i => (x.reg a).getLsbD i)).length)).advance)) :=
  setNext_congr d s (fun x => congrArg nword (Bits.count_word (x.reg a)))

theorem exec_bext (d a b : Reg) (s : State) :
    exec (.bext d a b) s = .next (s.modMe (fun z => (z.setReg d (bitExtract (s.me.reg a) (s.me.reg b))).advance)) := rfl

theorem exec_bins (d a b : Reg) (s : State) : exec (.bins d a b) s =
    .next (s.modMe (fun z => (z.setReg d (bitInsert (s.me.reg d) (s.me.reg a) (s.me.reg b))).advance)) := rfl

/-- Settles O8: each operation by its arm of `exec` and the value of its helper, the register file by its laws. -/
theorem registerArithmetic : Obligations.RegisterArithmetic := by
  refine ⟨⟨?_, fun d a s => ⟨exec_clz d a s, exec_popc d a s⟩, ?_⟩, ?_⟩
  · show ∀ p ∈ _, WritesBinary p
    simp only [List.forall_mem_cons]
    exact ⟨writesBinary_of_exec (· + ·) (fun _ _ _ _ => rfl) (fun _ _ => rfl),
      writesBinary_of_exec (· - ·) (fun _ _ _ _ => rfl) (fun _ _ => rfl),
      writesBinary_of_exec (· * ·) (fun _ _ _ _ => rfl) (fun _ _ => rfl),
      writesBinary_of_exec mulHigh (fun _ _ _ _ => rfl) (fun _ _ => rfl),
      writesBinary_of_exec mulHighN (fun _ _ _ _ => rfl) (fun _ _ => rfl),
      writesBinary_of_exec divSigned (fun _ _ _ _ => rfl) divSigned_eq,
      writesBinary_of_exec divUnsigned (fun _ _ _ _ => rfl) divUnsigned_eq,
      writesBinary_of_exec remSigned (fun _ _ _ _ => rfl) remSigned_eq,
      writesBinary_of_exec remUnsigned (fun _ _ _ _ => rfl) remUnsigned_eq,
      writesBinary_of_exec (· &&& ·) (fun _ _ _ _ => rfl) (fun _ _ => rfl),
      writesBinary_of_exec (· ||| ·) (fun _ _ _ _ => rfl) (fun _ _ => rfl),
      writesBinary_of_exec (· ^^^ ·) (fun _ _ _ _ => rfl) (fun _ _ => rfl),
      writesBinary_of_exec (fun x y => x <<< shamt y) (fun _ _ _ _ => rfl) (fun _ _ => rfl),
      writesBinary_of_exec (fun x y => x >>> shamt y) (fun _ _ _ _ => rfl) (fun _ _ => rfl),
      writesBinary_of_exec (fun x y => x.sshiftRight (shamt y)) (fun _ _ _ _ => rfl) (fun _ _ => rfl),
      writesBinary_of_exec (fun x y => flag (x.slt y)) (fun _ _ _ _ => rfl) flag_slt,
      writesBinary_of_exec (fun x y => flag (x.ult y)) (fun _ _ _ _ => rfl) flag_ult,
      writesBinary_of_exec (fun x y => if x.sle y then x else y) (fun _ _ _ _ => rfl) (fun x y => ite_sle x y x y),
      writesBinary_of_exec (fun x y => if x.sle y then y else x) (fun _ _ _ _ => rfl) (fun x y => ite_sle x y y x),
      writesBinary_of_exec (fun x y => if x.ule y then x else y) (fun _ _ _ _ => rfl) (fun x y => ite_ule x y x y),
      writesBinary_of_exec (fun x y => if x.ule y then y else x) (fun _ _ _ _ => rfl) (fun x y => ite_ule x y y x),
      List.forall_mem_nil _⟩
  · exact fun d a b s => ⟨_, _, exec_bext d a b s, exec_bins d a b s, fun i hi =>
      ⟨getLsbD_bitExtract _ _ hi, getLsbD_bitInsert _ _ _ hi⟩⟩
  · exact fun x r q v => ⟨x.reg_zero, x.setReg_zero v, x.reg_setReg_self v, x.reg_setReg_ne v⟩

/-! ### BIX, the SI instructions, LI and LIH -/

theorem exec_bix (d a b : Reg) (w : BitVec 6) (s : State) : exec (.bix d a b w) s = .next (s.modMe (fun x =>
    (x.setReg d (BitVec.ofInt 64 ((x.reg a).toInt + (x.reg b).toInt * (w.toNat + 1)))).advance)) :=
  setNext_congr d s (fun x => add_mul_nword (x.reg a) (x.reg b) (w.toNat + 1))

theorem exec_addi (d a : Reg) (i : BitVec 16) (s : State) : exec (.addi d a i) s = .next (s.modMe (fun x =>
    (x.setReg d (BitVec.ofInt 64 ((x.reg a).toInt + i.toInt))).advance)) :=
  setNext_congr d s (fun x => add_signExtend (x.reg a) i)

theorem exec_andi (d a : Reg) (i : BitVec 16) (s : State) : exec (.andi d a i) s = .next (s.modMe (fun x =>
    (x.setReg d (x.reg a &&& BitVec.ofNat 64 i.toNat)).advance)) :=
  setNext_congr d s (fun x => congrArg (x.reg a &&& ·) (BitVec.ofNat_toNat 64 i).symm)

theorem exec_ori (d a : Reg) (i : BitVec 16) (s : State) : exec (.ori d a i) s = .next (s.modMe (fun x =>
    (x.setReg d (x.reg a ||| BitVec.ofNat 64 i.toNat)).advance)) :=
  setNext_congr d s (fun x => congrArg (x.reg a ||| ·) (BitVec.ofNat_toNat 64 i).symm)

theorem exec_xori (d a : Reg) (i : BitVec 16) (s : State) : exec (.xori d a i) s = .next (s.modMe (fun x =>
    (x.setReg d (x.reg a ^^^ BitVec.ofNat 64 i.toNat)).advance)) :=
  setNext_congr d s (fun x => congrArg (x.reg a ^^^ ·) (BitVec.ofNat_toNat 64 i).symm)

theorem exec_lih (d : Reg) (i : BitVec 21) (s : State) : exec (.lih d i) s = .next (s.modMe (fun x =>
    (x.setReg d (BitVec.ofNat 64 ((x.reg d).toNat * 2 ^ 21 + i.toNat))).advance)) :=
  setNext_congr d s (fun x => shiftLeft_add_setWidth (x.reg d) i 21)

/-- Settles O9: the immediates read as integers; the shifts and LI are what the model's arms write. -/
theorem immediateArithmetic : Obligations.ImmediateArithmetic := by
  refine ⟨exec_bix, ?_, ?_, fun d i s => ⟨rfl, exec_lih d i s⟩⟩
  · simp only [List.forall_mem_cons]
    exact ⟨exec_addi, exec_andi, exec_ori, exec_xori, List.forall_mem_nil _⟩
  · simp only [List.forall_mem_cons]
    exact ⟨fun _ _ _ _ => rfl, fun _ _ _ _ => rfl, fun _ _ _ _ => rfl, List.forall_mem_nil _⟩

/-! ### Branches and jumps -/

theorem exec_jmp (off : BitVec 26) (s : State) : exec (.jmp off) s =
    .next (s.modMe (fun x => x.jump (x.pc + BitVec.ofInt 64 (off.toInt * 32)))) := by
  simp only [← signExtend_mul_32]; rfl

theorem exec_jal (off : BitVec 26) (s : State) : exec (.jal off) s =
    .next (s.modMe (fun x => (x.setReg 31 (x.pc + 32)).jump (x.pc + BitVec.ofInt 64 (off.toInt * 32)))) := by
  simp only [← signExtend_mul_32]; rfl

/-- The low five bits of an address say whether it is 32-bit aligned. -/
theorem extractLsb'_low5_eq_zero_iff (t : Word) : t.extractLsb' 0 5 = 0 ↔ t.toNat % 32 = 0 := by
  rw [BitVec.toNat_eq, BitVec.extractLsb'_toNat, Nat.shiftRight_zero]; rfl

theorem exec_jr_aligned {a : Reg} {s : State} (h : (s.me.reg a).toNat % 32 = 0) :
    exec (.jr a) s = .next (s.modMe (fun x => x.jump (x.reg a))) :=
  if_neg (fun low => low ((extractLsb'_low5_eq_zero_iff _).2 h))

theorem exec_jr_misaligned {a : Reg} {s : State} (h : (s.me.reg a).toNat % 32 ≠ 0) :
    exec (.jr a) s = .next (s.takeTrap (s.stemTrap 41 (s.me.reg a).toNat)) :=
  if_pos (mt (extractLsb'_low5_eq_zero_iff _).1 h)

/-- Settles O10: each branch by its arm and its condition, JR by the alignment of its target. -/
theorem branchesAndJumps : Obligations.BranchesAndJumps := by
  refine ⟨?_, fun off s => ⟨exec_jmp off s, exec_jal off s⟩, fun a s => ?_⟩
  · show ∀ p ∈ _, BranchesOn p
    simp only [List.forall_mem_cons]
    exact ⟨branchesOn_of_exec (fun x y => decide (x = y)) (fun _ _ _ _ => rfl) (fun _ _ => rfl),
      branchesOn_of_exec (fun x y => decide (x ≠ y)) (fun _ _ _ _ => rfl) (fun _ _ => decide_not),
      branchesOn_of_exec (fun x y => x.slt y) (fun _ _ _ _ => rfl) (fun _ _ => BitVec.slt_eq_decide),
      branchesOn_of_exec (fun x y => y.sle x) (fun _ _ _ _ => rfl) (fun _ _ => BitVec.sle_eq_decide),
      branchesOn_of_exec (fun x y => x.ult y) (fun _ _ _ _ => rfl) (fun _ _ => BitVec.ult_eq_decide),
      branchesOn_of_exec (fun x y => y.ule x) (fun _ _ _ _ => rfl) (fun _ _ => BitVec.ule_eq_decide),
      List.forall_mem_nil _⟩
  · split
    · next aligned => exact exec_jr_aligned aligned
    · next misaligned =>
      rw [exec_jr_misaligned misaligned, State.stemTrap, nword, BitVec.ofNat_toNat, BitVec.setWidth_eq]

end Sys2Proof.Machine
end
